-- ==== Sys2Proof/Word.lean ====
section
/-! DEFINITION. The word types of the TQ86: bytes, 32-bit counts, the 30 condition flags, and the numbered places
(slots, entries, pages, panels, positions, rails, lines, drops, terminals) as finite index types (R1, R58, R65, R74,
R88, R138, R175). -/

namespace Sys2Proof

/-- One character of a serial line, one byte of the panel bus, one glyph code (R175, R181). -/
abbrev Byte := BitVec 8

/-- A string of glyph codes, or a run of frame bytes. -/
abbrev Text := List Byte

/-- A 32-bit count that wraps (R109, R113). -/
abbrev Word32 := BitVec 32

/-- A time base count: 10 ms intervals, 32 bits, wrapping (chapter 0, "Time"). -/
abbrev Time := BitVec 32

/-- One flag for each of the 30 conditions of R169. -/
abbrev Flags30 := BitVec 30

/-- A symbol: its 1 to 4 capital letters, without the trailing blanks of its four places (R7). -/
abbrev Symbol := List Byte

/-- A slot of the record table, 0 to 2,047 (R1). -/
abbrev SlotIx := Fin 2048
/-- An index of the layout store, 0 to 2,047 (R58). -/
abbrev EntryIx := Fin 2048
/-- A page descriptor, 0 to 31 (R65). -/
abbrev PageIx := Fin 32
/-- A panel, 0 to 15 (R65, R74). -/
abbrev PanelIx := Fin 16
/-- One of the 1,024 positions, numbered 64 × panel + position, so that the order of the numbers is the order
"panel by panel, and by position within a panel" of R74. -/
abbrev PosIx := Fin 1024
/-- A lamp supply rail, 0 to 3 (R88). -/
abbrev RailIx := Fin 4
/-- A terminal line, 0 to 3 (R138). -/
abbrev LineIx := Fin 4
/-- A drop of a line, 0 to 7 (R138). -/
abbrev DropIx := Fin 8
/-- A terminal, numbered 8 × line + drop (R138). -/
abbrev TermIx := Fin 32

/-- `now` minus `since` as the time base counts it, modulo 2^32 (chapter 0, "Time"). -/
def elapsed (now since : Time) : Nat := (now - since).toNat

end Sys2Proof
end

