-- ==== Sys2Proof/Config.lean ====
section
/-! DEFINITION. What the TQ86 fixes: capacities, saturation limits, code limits and fixed times of the manual. The
manual leaves no value open that a run can reach, so there is no free value here (INVENTORY.md, "What the manual
leaves open"). -/

namespace Sys2Proof.Config

/-- R23: the largest price, in thirty-seconds. -/
def maxPrice : Nat := 319999
/-- R28: the volume saturates here. -/
def maxVolume : Nat := 999999999
/-- R6, R43: the most shares of one trade. -/
def maxShares : Nat := 999999
/-- R2, R48: the largest quote size in lots. -/
def maxLots : Nat := 9999
/-- The 16-bit saturating counts of R28, R97, R109, R139 and R161 stop here. -/
def maxCount16 : Nat := 65535
/-- R97, R138: mismatch runs, match runs and miss runs stop at 8. -/
def maxRun : Nat := 8
/-- R88: a rail's run of equal readings stops at 50. -/
def maxRailRun : Nat := 50
/-- R131: the consecutive count stops at 255. -/
def maxModeCount : Nat := 255
/-- R162: places of the inbound queue. -/
def inboundPlaces : Nat := 8
/-- R165: places of the reply queue. -/
def replyPlaces : Nat := 8
/-- R138: entries of a watch list. -/
def watchPlaces : Nat := 12
/-- R161: the largest length character of a feed frame. -/
def maxFeedLength : Nat := 240
/-- R137: the largest length character of a terminal frame. -/
def maxTermLength : Nat := 60
/-- R161, R141: a gap inside a frame of more than this many intervals ends it. -/
def gapLimit : Nat := 2
/-- R141, R148: a line has died away after this many quiet intervals. -/
def quietIntervals : Nat := 2
/-- R171: intervals in a second. -/
def intervalsPerSecond : Nat := 100
/-- R129: intervals in a minute. -/
def intervalsPerMinute : Nat := 6000
/-- R129: the largest announced lateness, in minutes. -/
def maxLateness : Nat := 99
/-- Chapter 0, "Ports and rates": the time base interval in milliseconds. -/
def msPerInterval : Nat := 10
/-- R90: the twelfths of a multiplex frame. -/
def fullDuty : Nat := 12

end Sys2Proof.Config
end

