-- ==== Sys2Proof/Syntax.lean ====
section
/-! DEFINITION. The commands of the TQ86: one constructor for each row of spec/opcode_table.json. A row that takes a
message from the feed link has no operand of its own: the message's fields are read from the frame at the head of the
inbound queue (R164, R177). The rows that are events at a port carry what the port delivers: a character, a sensed
reading, an echo, and the number of the line, rail, ribbon or timer concerned. -/

namespace Sys2Proof

/-- The two tapes, ribbons and blink timers are named A and B (chapter 0, "Numbers"). -/
inductive AB where
  | a
  | b
  deriving DecidableEq, Repr

/-- How a frame on the feed link fails inside (R161), the gap apart. -/
inductive FeedFailure where
  /-- A character whose stop bit is not found. -/
  | badStop
  /-- The length character, with a value above 240. -/
  | badLength (length : Byte)
  deriving DecidableEq, Repr

/-- What a line controller takes as a framing error (R136, R137). -/
inductive LineFailure where
  /-- A character whose stop bit is not found. -/
  | badStop
  /-- A character with mark 1. -/
  | markOne
  /-- The length character, with a value above 60. -/
  | badLength (length : Byte)
  deriving DecidableEq, Repr

/-- The commands, in the table's order. -/
inductive Instr where
  -- messages taken from the head of the inbound queue
  | list
  | delist
  | queryRecord
  | sessionOpen
  | sessionClose
  | dayRoll
  | tableClear
  | trade
  | quote
  | halt
  | resume
  | loadEntry
  | unloadEntry
  | definePage
  | undefinePage
  | showPage
  | restorePanel
  | clearFaults
  | tapeStart
  | tapeStop
  | tapeClear
  | notice
  | terminalEnable
  | setParameter
  | readParameter
  | readStatus
  | clearConditions
  | restart
  | unknownKindTaken
  -- the reset inputs
  | restartInput
  | porAssert
  | porRelease
  -- the feed link
  /-- The check character of the frame being collected arrives. -/
  | frameComplete (check : Byte)
  | framingFailure (cause : FeedFailure)
  | frameGapExpiry
  | replySent
  | quietLimitExpiry
  -- the panel bus, the blink timers and the rails
  | positionWriteStart
  | positionWriteComplete
  | periodStart (timer : AB)
  /-- One sample of a rail's sense pair: is the working input asserted, is the fail input asserted. -/
  | railSample (rail : RailIx) (working fail : Bool)
  | railStateChange (rail : RailIx)
  -- the position verifier
  | verifyGapExpiry
  | readStart
  /-- The bytes of the echo, position byte first (R180). -/
  | echoArrival (echo : List Byte)
  | echoLimitExpiry
  -- the ribbons
  | stepEvent (ribbon : AB)
  -- the terminal lines
  | visit (line : LineIx)
  | emptyRoundExpiry (line : LineIx)
  | replyWindowExpiry (line : LineIx)
  /-- The check character of the reply being received arrives. -/
  | replyComplete (line : LineIx) (check : Byte)
  | terminalFramingError (line : LineIx) (cause : LineFailure)
  | replyGapExpiry (line : LineIx)
  | settlingExpiry (line : LineIx)
  /-- Any other character of the feed link, received with its stop bit. -/
  | feedCharacterArrival (char : Byte)
  /-- Any other character of a terminal line, received with its stop bit and mark 0. -/
  | replyCharacterArrival (line : LineIx) (char : Byte)
  | replyWindowOpen (line : LineIx)
  deriving DecidableEq, Repr

end Sys2Proof
end

