-- ==== Sys2Proof/WellFormed.lean ====
section
/-! DEFINITION. The well-formed commands. The operand types already bound every number of a line, rail, ribbon and
timer; what is left to check is that a length failure carries a length that fails (R161, R137) and that an echo has
the twelve bytes that make it complete (R180). -/

namespace Sys2Proof

/-- R161: the length character of a feed frame fails above 240. -/
def FeedFailure.wf : FeedFailure → Bool
  | .badStop => true
  | .badLength n => decide (Config.maxFeedLength < n.toNat)

/-- R137: the length character of a terminal frame fails above 60. -/
def LineFailure.wf : LineFailure → Bool
  | .badStop => true
  | .markOne => true
  | .badLength n => decide (Config.maxTermLength < n.toNat)

/-- R180: an echo is complete when its twelfth byte arrives. -/
def echoComplete (echo : List Byte) : Bool := echo.length == 12

/-- A command that the ports can deliver. -/
def Instr.wf : Instr → Bool
  | .list => true
  | .delist => true
  | .queryRecord => true
  | .sessionOpen => true
  | .sessionClose => true
  | .dayRoll => true
  | .tableClear => true
  | .trade => true
  | .quote => true
  | .halt => true
  | .resume => true
  | .loadEntry => true
  | .unloadEntry => true
  | .definePage => true
  | .undefinePage => true
  | .showPage => true
  | .restorePanel => true
  | .clearFaults => true
  | .tapeStart => true
  | .tapeStop => true
  | .tapeClear => true
  | .notice => true
  | .terminalEnable => true
  | .setParameter => true
  | .readParameter => true
  | .readStatus => true
  | .clearConditions => true
  | .restart => true
  | .unknownKindTaken => true
  | .restartInput => true
  | .porAssert => true
  | .porRelease => true
  | .frameComplete _ => true
  | .framingFailure cause => cause.wf
  | .frameGapExpiry => true
  | .replySent => true
  | .quietLimitExpiry => true
  | .positionWriteStart => true
  | .positionWriteComplete => true
  | .periodStart _ => true
  | .railSample _ _ _ => true
  | .railStateChange _ => true
  | .verifyGapExpiry => true
  | .readStart => true
  | .echoArrival echo => echoComplete echo
  | .echoLimitExpiry => true
  | .stepEvent _ => true
  | .visit _ => true
  | .emptyRoundExpiry _ => true
  | .replyWindowExpiry _ => true
  | .replyComplete _ _ => true
  | .terminalFramingError _ cause => cause.wf
  | .replyGapExpiry _ => true
  | .settlingExpiry _ => true
  | .feedCharacterArrival _ => true
  | .replyCharacterArrival _ _ => true
  | .replyWindowOpen _ => true

end Sys2Proof
end

