-- ==== Sys2Proof/Decode.lean ====
section
/-! DEFINITION. Reading a command from the table's bits. spec/opcode_table.json gives no row any bits ("fields": [], no
match and no mask on all 57 rows), so no word spells a command. The bytes of the feed frames, which do spell messages,
are read by Machine/Operands.lean. -/

namespace Sys2Proof

/-- The command that a word of the table's bits spells: none, since the table gives no row any bits. -/
def decodeTableWord (_nbits _w : Nat) : Option Instr := none

end Sys2Proof
end

