-- ==== Sys2Proof/Machine/State.lean ====
section
/-! DEFINITION. The state of the TQ86: every store, register, queue, counter and flag of its ten blocks, as plain data,
with the queue of waiting commands; the reasons a step can stop; and the state after a power-on reset. INVENTORY.md,
"State", lists each piece with its rule and its reset value. -/

namespace Sys2Proof.Machine

/-- One for A and one for B: tapes, ribbons, blink timers. -/
structure Pair (α : Type) where
  a : α
  b : α
  deriving DecidableEq, Repr

/-! ### Records (chapter 1) -/

/-- R17. -/
inductive SessionPhase where
  | pre
  | opened
  | post
  deriving DecidableEq, Repr

/-- R24: the quoting denominator, 8, 16 or 32. -/
inductive Denominator where
  | eighths
  | sixteenths
  | thirtySeconds
  deriving DecidableEq, Repr

/-- R27. -/
inductive Direction where
  | none
  | up
  | zeroUp
  | down
  | zeroDown
  deriving DecidableEq, Repr

/-- R2, R51. -/
inductive HaltReason where
  | news
  | imbalance
  | other
  deriving DecidableEq, Repr

/-- R1, R2: the state of a non-FREE record. The halt reason is "present exactly when the state is HALTED". -/
inductive RecState where
  | listed
  | trading
  | halted (reason : HaltReason)
  | closed
  | retiring
  deriving DecidableEq, Repr

/-- R2: last, open, high and low, "all four present together, or all four absent". -/
structure DayPrices where
  last : Nat
  opened : Nat
  high : Nat
  low : Nat
  deriving DecidableEq, Repr

/-- R2, R47: a side of the quote. The size is "present exactly when the matching price is present". -/
structure Side where
  price : Nat
  size : Nat
  deriving DecidableEq, Repr

/-- R3, R109: the pending print part of a record. -/
structure PendingPrint where
  joined : Time
  folded : Nat
  shares : Word32
  deriving DecidableEq, Repr

/-- R2: an instrument record. -/
structure Record where
  symbol : Symbol
  state : RecState
  tape : AB
  denominator : Denominator
  close : Option Nat
  day : Option DayPrices
  bid : Option Side
  ask : Option Side
  volume : Nat
  trades : Nat
  direction : Direction
  pending : Option PendingPrint
  deriving DecidableEq, Repr

/-- R5: the field groups of a change notice. -/
inductive Group where
  | price
  | quote
  | state
  | day
  deriving DecidableEq, Repr

/-! ### Layout and boards (chapters 4 to 6) -/

/-- R34, R58: the eleven field kinds. -/
inductive FieldKind where
  | symbol
  | last
  | change
  | bid
  | ask
  | high
  | low
  | opened
  | close
  | volume
  | state
  deriving DecidableEq, Repr

/-- R58: a LOADED layout entry. The entry is UNBOUND when its binding is absent. -/
structure Entry where
  panel : PanelIx
  position : Fin 64
  kind : FieldKind
  width : Nat
  flash : Bool
  tick : Bool
  symbol : Symbol
  binding : Option SlotIx
  deriving DecidableEq, Repr

/-- R65: a defined page descriptor. -/
structure Page where
  panel : PanelIx
  first : Nat
  count : Nat
  deriving DecidableEq, Repr

/-- R92. -/
inductive PanelState where
  | live
  | shed
  | heldDark
  deriving DecidableEq, Repr

/-- What is held for a panel: its state (R92), its current page and its last page shown (R65). -/
structure Panel where
  state : PanelState
  current : Option PageIx
  lastShown : Option PageIx
  deriving DecidableEq, Repr

/-- R81. -/
inductive DriveMode where
  | dark
  | steady
  | flashA
  | blinkB
  deriving DecidableEq, Repr

/-- R82. -/
inductive TickLamp where
  | dark
  | up
  | upB
  | down
  | downB
  deriving DecidableEq, Repr

/-- R74, R78: what one position write carries. -/
structure Content where
  mode : DriveMode
  lamp : TickLamp
  cells : Text
  deriving DecidableEq, Repr

/-- R97. -/
inductive VerifyState where
  | good
  | suspect
  | failed
  deriving DecidableEq, Repr

/-- R74: a position record. The written image is UNKNOWN when absent. -/
structure Position where
  shown : Option EntryIx
  image : Option Content
  switchPending : Bool
  flash : Nat
  verify : VerifyState
  mismatchRun : Nat
  matchRun : Nat
  deriving DecidableEq, Repr

/-- R77, R78: a position write on the panel bus. -/
structure PositionWrite where
  position : PosIx
  content : Content
  deriving DecidableEq, Repr

/-- The board refresh unit: position records (R74), repaint queue (R75), the write in progress (R77), and the time
at which each blink timer's present period began (R85). -/
structure Boards where
  positions : Vector Position 1024
  repaint : List PosIx
  write : Option PositionWrite
  timerStart : Pair Time
  deriving DecidableEq, Repr

/-- R88. -/
inductive RailState where
  | ok
  | low
  | fail
  deriving DecidableEq, Repr

/-- R88, R167: a recovery policy. -/
inductive Policy where
  | restore
  | hold
  deriving DecidableEq, Repr

/-- R88: a rail record; its brightness level and recovery policy stand in the parameter set (R167).
`duty` is the duty in force in the present multiplex frame (R90, log 9). `sampled` and `changeDue` are the model's own:
a sample of the present interval has been taken (log 4); the last sample met the condition of R89 (log 8). -/
structure Rail where
  state : RailState
  candidate : RailState
  run : Nat
  duty : Nat
  sampled : Bool
  changeDue : Bool
  deriving DecidableEq, Repr

/-- R97, R99: the verifier's phase; WAITING holds the gap that runs. -/
inductive VerifierPhase where
  | idle
  | waiting (start : Time) (length : Nat)
  | ready
  | reading
  deriving DecidableEq, Repr

/-- R97: the verifier's own state. -/
structure Verifier where
  phase : VerifierPhase
  cursor : PosIx
  target : Option PosIx
  overtaken : Bool
  mismatchTotal : Nat
  lastFailed : Option PosIx
  deriving DecidableEq, Repr

/-! ### Tapes and ribbons (chapters 7 and 8) -/

/-- R130. -/
inductive PrintMode where
  | full
  | cut
  | bare
  deriving DecidableEq, Repr

/-- R107, R128, R129, R130: what the tape unit holds for a tape. The backlog is the length of the list. -/
structure TapeUnit where
  prints : List SlotIx
  backlogMax : Nat
  accepted : Word32
  printed : Word32
  withdrawn : Word32
  mode : PrintMode
  modeCount : Nat
  staged : Option Text
  feedSlot : Option Text
  modeSlot : Option Text
  lateSlot : Option Text
  lateness : Nat
  deriving DecidableEq, Repr

/-- R122: the ribbon state; the next step time is "present in RUNNING and STOPPING". -/
inductive RibbonState where
  | stopped
  | running (next : Time)
  | stopping (next : Time)
  deriving DecidableEq, Repr

/-- R122: the kind of the feeder's item. -/
inductive ItemKind where
  | stagedNotice
  | feedNotice
  | modeNotice
  | latenessNotice
  | print
  | blank
  deriving DecidableEq, Repr

/-- R122: a ribbon driver. `charOut` is the character on the ribbon's character output, the one last presented;
`strobes` counts the strobes of the step output, one for each character presented (the count is the model's, log 27). -/
structure Ribbon where
  state : RibbonState
  kind : ItemKind
  feeder : Text
  charOut : Byte
  strobes : Nat
  deriving DecidableEq, Repr

/-! ### Terminal lines (chapters 9 and 10) -/

/-- R137: a terminal frame; its length is that of the body, its check follows from the rest. -/
structure TermFrame where
  kind : Byte
  tag : Byte
  body : List Byte
  deriving DecidableEq, Repr

/-- R149: ACTIVE with its slot, or DROPPED. "The binding is present exactly when the entry is ACTIVE". -/
inductive WatchState where
  | active (slot : SlotIx)
  | dropped
  deriving DecidableEq, Repr

/-- R149: a watch entry. -/
structure WatchEntry where
  symbol : Symbol
  state : WatchState
  deriving DecidableEq, Repr

/-- R138, R144. -/
inductive Presence where
  | unknown
  | present
  | absent
  deriving DecidableEq, Repr

/-- R138: a terminal record. The dirty queue names its entries by their symbols, which are distinct. -/
structure Terminal where
  enabled : Bool
  presence : Presence
  missRun : Nat
  answer : Option TermFrame
  watch : List WatchEntry
  dirty : List Symbol
  deriving DecidableEq, Repr

/-- R140: the outstanding item of a visit. A DROPPED entry is held with its former place. -/
inductive Outstanding where
  | nothing
  | answer (frame : TermFrame)
  | active (symbol : Symbol)
  | dropped (symbol : Symbol) (place : Nat)
  deriving DecidableEq, Repr

/-- R141: the phases of a visit; SENDING is the time before the reply window opens. -/
inductive VisitPhase where
  | sending
  | window (opened : Time) (length : Nat)
  | receiving (chars : List Byte) (last : Time)
  | settling (quietSince : Time)
  deriving DecidableEq, Repr

/-- R139 to R141: a visit in progress. `detached` says that its terminal was disabled meanwhile (R146). -/
structure Visit where
  drop : DropIx
  frame : TermFrame
  outstanding : Outstanding
  phase : VisitPhase
  detached : Bool
  deriving DecidableEq, Repr

/-- R139, R148: IDLE, or the stage of an IN ROUND line: waiting for quiet after a restart, a round whose next drop to
consider is given, or a round in which no drop is due. -/
inductive Round where
  | idle
  | quiet (since : Time)
  | atDrop (next : Nat)
  | empty (began : Time)
  deriving DecidableEq, Repr

/-- R139: a line controller. `spacing` is the model's own: the probe spacing of the round in progress. -/
structure Line where
  counter : BitVec 16
  round : Round
  spacing : Nat
  visit : Option Visit
  silentCount : Nat
  checkCount : Nat
  framingCount : Nat
  deriving DecidableEq, Repr

/-! ### The feed link (chapter 11) -/

/-- R166: the fourteen statuses of a reply. -/
inductive Status where
  | ok
  | rounded
  | unknown
  | existing
  | busy
  | full
  | range
  | state
  | session
  | crossed
  | conflict
  | badPage
  | shown
  | malformed
  deriving DecidableEq, Repr

/-- R160, R164: an intact frame; its length is that of the body. -/
structure Frame where
  kind : Byte
  tag : Byte
  body : List Byte
  deriving DecidableEq, Repr

/-- R164, R165: a reply; `body` is what follows the status. -/
structure Reply where
  kind : Byte
  tag : Byte
  status : Status
  body : List Byte
  deriving DecidableEq, Repr

/-- R160: the receiver; IN FRAME holds the characters collected after the lead byte and the last one's time. -/
inductive Receiver where
  | hunting
  | inFrame (chars : List Byte) (last : Time)
  deriving DecidableEq, Repr

/-- The feed link interface, the parameter set apart. -/
structure Feed where
  receiver : Receiver
  inbound : List Frame
  replies : List Reply
  checkCount : Nat
  framingCount : Nat
  overrunCount : Nat
  lastIntact : Time
  stale : Bool
  latched : Flags30
  deriving DecidableEq, Repr

/-- R130: the five mode thresholds of a tape. -/
structure Thresholds where
  ec : Nat
  eb : Nat
  lc : Nat
  lb : Nat
  k : Nat
  deriving DecidableEq, Repr

/-- R167: the parameter set. -/
structure Params where
  quietLimit : Nat
  flashCount : Nat
  blinkPeriod : Pair Nat
  litPart : Pair Nat
  settleTime : Nat
  sagCeiling : Nat
  brightness : Vector Nat 4
  policy : Vector Policy 4
  panelRail : Vector RailIx 16
  verifyEnable : Bool
  verifyGap : Nat
  failThreshold : Nat
  clearThreshold : Nat
  stepPeriod : Pair Nat
  thresholds : Pair Thresholds
  replyWindow : Nat
  absentThreshold : Nat
  probeSpacing : Nat
  mask : Flags30
  deriving DecidableEq, Repr

/-! ### The machine -/

/-- The TQ86. -/
structure State where
  time : Time
  por : Bool
  phase : SessionPhase
  records : Vector (Option Record) 2048
  directory : List (Symbol × SlotIx)
  feed : Feed
  params : Params
  entries : Vector (Option Entry) 2048
  pages : Vector (Option Page) 32
  panels : Vector Panel 16
  boards : Boards
  rails : Vector Rail 4
  verifier : Verifier
  tapes : Pair TapeUnit
  ribbons : Pair Ribbon
  lines : Vector Line 4
  terminals : Vector Terminal 32
  pending : List Instr
  deriving DecidableEq, Repr

/-- Why the machine could stop: the spec names no stop of the part, so there is no fault and nothing raises one.
Having none is safe only because no rule of the spec asks for one (INVENTORY.md, "Faults"). -/
inductive Fault where
  deriving DecidableEq, Repr

/-- Why a command could have no meaning. -/
inductive Refusal where
  /-- Raised by an arm of `exec` for a command of the table that the model has not reached; no arm raises it now. Safe:
  the model stops where the part goes on. -/
  | notModelled (mnemonic : String)
  deriving DecidableEq, Repr

/-! ### The power-on reset (R174) -/

/-- R167: the defaults. -/
def Params.default : Params where
  quietLimit := 10
  flashCount := 6
  blinkPeriod := ⟨500, 1000⟩
  litPart := ⟨4, 6⟩
  settleTime := 4
  sagCeiling := 6
  brightness := #v[12, 12, 12, 12]
  policy := #v[.restore, .restore, .restore, .restore]
  panelRail := #v[0, 0, 0, 0, 1, 1, 1, 1, 2, 2, 2, 2, 3, 3, 3, 3]
  verifyEnable := true
  verifyGap := 10
  failThreshold := 3
  clearThreshold := 4
  stepPeriod := ⟨8, 8⟩
  thresholds := ⟨⟨40, 120, 20, 80, 8⟩, ⟨40, 120, 20, 80, 8⟩⟩
  replyWindow := 4
  absentThreshold := 3
  probeSpacing := 16
  mask := BitVec.allOnes 30

/-- R74, R106. -/
def Position.reset : Position := ⟨none, none, false, 0, .good, 0, 0⟩

/-- R88; log 9 and log 13 for the last three. -/
def Rail.reset : Rail := ⟨.fail, .fail, 1, 0, false, false⟩

/-- R65, R92. -/
def Panel.reset : Panel := ⟨.shed, none, none⟩

/-- R106: WAITING "with a gap beginning"; the gap is the default of R97. -/
def Verifier.reset : Verifier := ⟨.waiting 0 10, 0, none, false, 0, none⟩

/-- R120, R128, R129, R130. -/
def TapeUnit.reset : TapeUnit := ⟨[], 0, 0, 0, 0, .full, 0, none, none, none, none, 0⟩

/-- R122; log 13 for the kind of an empty feeder and the character output, log 27 for the strobes. -/
def Ribbon.reset : Ribbon := ⟨.stopped, .blank, [], 0, 0⟩

/-- R148; log 13 for the spacing. -/
def Line.reset : Line := ⟨0, .idle, 16, none, 0, 0, 0⟩

/-- R138. -/
def Terminal.reset : Terminal := ⟨false, .unknown, 0, none, [], []⟩

/-- R160 to R162, R165, R169, R171, R174. -/
def Feed.reset : Feed := ⟨.hunting, [], [], 0, 0, 0, 0, false, 0⟩

/-- R174: the machine when POR has been released, before any command. -/
def State.reset : State where
  time := 0
  por := false
  phase := .pre
  records := Vector.replicate 2048 none
  directory := []
  feed := Feed.reset
  params := Params.default
  entries := Vector.replicate 2048 none
  pages := Vector.replicate 32 none
  panels := Vector.replicate 16 Panel.reset
  boards := ⟨Vector.replicate 1024 Position.reset, [], none, ⟨0, 0⟩⟩
  rails := Vector.replicate 4 Rail.reset
  verifier := Verifier.reset
  tapes := ⟨TapeUnit.reset, TapeUnit.reset⟩
  ribbons := ⟨Ribbon.reset, Ribbon.reset⟩
  lines := Vector.replicate 4 Line.reset
  terminals := Vector.replicate 32 Terminal.reset
  pending := []

end Sys2Proof.Machine
end

