-- ==== Sys2Proof/Machine/Store.lean ====
section
/-! DEFINITION. How the numbered stores are read and written: pairs for A and B, vectors for the numbered places, the
numbering of positions (R74) and of terminals (R138). -/

namespace Sys2Proof.Machine

/-- The one named. -/
def Pair.get {α : Type} (p : Pair α) : AB → α
  | .a => p.a
  | .b => p.b

/-- The pair with the one named replaced. -/
def Pair.put {α : Type} (p : Pair α) (i : AB) (v : α) : Pair α :=
  match i with
  | .a => { p with a := v }
  | .b => { p with b := v }

/-- Both changed alike. -/
def Pair.map {α β : Type} (f : α → β) (p : Pair α) : Pair β := ⟨f p.a, f p.b⟩

/-- The vector with the place `i` changed by `f`. -/
def Vec.update {α : Type} {n : Nat} (v : Vector α n) (i : Fin n) (f : α → α) : Vector α n :=
  v.set i (f v[i])

/-- Every place changed by `f`, which is told the place. -/
@[irreducible] def Vec.mapIx {α β : Type} {n : Nat} (f : Fin n → α → β) (v : Vector α n) : Vector β n :=
  ⟨(List.zipWith f (List.finRange n) v.toList).toArray, by simp⟩

/-- The places whose contents satisfy `f`, in ascending order. -/
@[irreducible] def Vec.select {α : Type} {n : Nat} (f : Fin n → α → Bool) (v : Vector α n) : List (Fin n) :=
  ((List.finRange n).zip v.toList).filterMap (fun x => if f x.1 x.2 then some x.1 else none)

/-- R74: the panel of a position. -/
def panelOf (p : PosIx) : PanelIx := ⟨p.val / 64, by omega⟩

/-- R74: the number of a position within its panel. -/
def positionIn (p : PosIx) : Fin 64 := ⟨p.val % 64, by omega⟩

/-- R74: the position of a panel that has the number given. -/
def positionAt (panel : PanelIx) (n : Fin 64) : PosIx := ⟨64 * panel.val + n.val, by omega⟩

/-- The panel's 64 positions, "in position order 0 to 63". -/
def panelPositions (panel : PanelIx) : List PosIx := (List.finRange 64).map (positionAt panel)

/-- R138: the terminal on a drop of a line. -/
def terminalAt (line : LineIx) (drop : DropIx) : TermIx := ⟨8 * line.val + drop.val, by omega⟩

/-- R138: the line of a terminal. -/
def lineOf (t : TermIx) : LineIx := ⟨t.val / 8, by omega⟩

/-- R138: the drop of a terminal. -/
def dropOf (t : TermIx) : DropIx := ⟨t.val % 8, by omega⟩

/-- A place of a store from a number that a message carries, when the store has it. -/
def placeOf (n size : Nat) : Option (Fin size) :=
  if h : n < size then some ⟨n, h⟩ else none

end Sys2Proof.Machine
end

