-- ==== Sys2Proof/Machine/Flags.lean ====
section
/-! DEFINITION. The conditions and the outputs built on them: latching, clearing, the mask, ATTENTION (R169, R170), and
READY (R163). -/

namespace Sys2Proof.Machine

/-- R169: the conditions. -/
inductive Condition where
  | pageDone (panel : PanelIx)
  | noticeDone (tape : AB)
  | tapeModeChange (tape : AB)
  | railChange (rail : RailIx)
  | terminalChange (line : LineIx)
  | positionFailed
  | staleChange
  deriving DecidableEq, Repr

/-- Tape A before tape B. -/
def abNumber : AB → Nat
  | .a => 0
  | .b => 1

/-- R169: the number of a condition. -/
def Condition.number : Condition → Nat
  | .pageDone panel => panel.val
  | .noticeDone tape => 16 + abNumber tape
  | .tapeModeChange tape => 18 + abNumber tape
  | .railChange rail => 20 + rail.val
  | .terminalChange line => 24 + line.val
  | .positionFailed => 28
  | .staleChange => 29

/-- R169: the flag of a condition, bit n of the 30. -/
def Condition.flag (c : Condition) : Flags30 := BitVec.twoPow 30 c.number

/-- R169: the condition latches; "a condition already latched stays latched". -/
def latch (c : Condition) (s : State) : State :=
  { s with feed := { s.feed with latched := s.feed.latched ||| c.flag } }

/-- Is the condition latched? -/
def isLatched (c : Condition) (s : State) : Bool := s.feed.latched.getLsbD c.number

/-- R170: every condition whose flag is set becomes clear. -/
def clearConditions (flags : Flags30) (s : State) : State :=
  { s with feed := { s.feed with latched := s.feed.latched &&& ~~~flags } }

/-- R169, R174: ATTENTION "is asserted while at least one condition is both latched and enabled in the mask"; while POR
is asserted it is deasserted. -/
def State.attention (s : State) : Bool := !s.por && s.feed.latched &&& s.params.mask != 0

/-- R163, R174: READY "is asserted while at least 2 of the inbound queue's 8 places are free"; while POR is asserted it
is deasserted. -/
def State.ready (s : State) : Bool := !s.por && decide (s.feed.inbound.length + 2 ≤ Config.inboundPlaces)

/-- R175: 30 flags in four bytes, most significant first; the bits that carry no flag are 0. -/
def flagsBytes (flags : Flags30) : List Byte :=
  [(flags.setWidth 32).extractLsb' 24 8, (flags.setWidth 32).extractLsb' 16 8, (flags.setWidth 32).extractLsb' 8 8,
    (flags.setWidth 32).extractLsb' 0 8]

/-- R175: 30 flags from a number; "it ignores the bits that carry no flag". -/
def flagsOf (n : Nat) : Flags30 := BitVec.ofNat 30 n

/-- A 16-bit count raised by one, saturating at 65,535. -/
def raise16 (n : Nat) : Nat := min (n + 1) Config.maxCount16

/-- A run of the verifier or of a terminal's misses raised by one, stopping at 8 (R97, R138). -/
def raiseRun (n : Nat) : Nat := min (n + 1) Config.maxRun

end Sys2Proof.Machine
end

