-- ==== Sys2Proof/Machine/Bytes.lean ====
section
/-! DEFINITION. Appendix A: the encoding of numbers, flags, optional items and codes in bytes (R175, R181). -/

namespace Sys2Proof.Machine

/-- R175: the number `n` in `w` bytes, unsigned binary, "most significant byte first". -/
def beBytes : Nat → Nat → List Byte
  | 0, _ => []
  | w + 1, n => BitVec.ofNat 8 (n / 256 ^ w) :: beBytes w n

/-- R175: the number that the bytes hold, most significant first. -/
def ofBeBytes (bs : List Byte) : Nat := bs.foldl (fun acc b => acc * 256 + b.toNat) 0

/-- One byte. -/
def byte (n : Nat) : Byte := BitVec.ofNat 8 n

/-- R175: a yes/no item, and an item that is empty or full. -/
def yesNo (b : Bool) : List Byte := [if b then 1 else 0]

/-- R175: a number of `w` bytes that may be none: none "holds every bit set in its width". -/
def orNone (w : Nat) : Option Nat → List Byte
  | none => List.replicate w 0xFF
  | some n => beBytes w n

/-- R175: an optional item of `w` bytes "preceded by a presence byte of its own"; an absent one holds 0. -/
def withPresence (w : Nat) : Option Nat → List Byte
  | none => 0 :: beBytes w 0
  | some n => 1 :: beBytes w n

/-- R175: the places of an absent field hold 0. -/
def orZero (w : Nat) (n : Option Nat) : List Byte := beBytes w (n.getD 0)

/-- R175: a position takes two bytes, its panel and then its position number; none is 0xFF 0xFF. -/
def positionBytes : Option PosIx → List Byte
  | none => [0xFF, 0xFF]
  | some p => [byte (panelOf p).val, byte (positionIn p).val]

/-- R7, R175: a symbol in four places, with the blank in each unused one. -/
def symbolBytes (sym : Symbol) : List Byte := (sym ++ List.replicate 4 0x20).take 4

/-- The characters sum to 0 modulo 256 (R137, R160). -/
def sumsToZero (bs : List Byte) : Bool := bs.foldl (· + ·) 0 == 0

/-- The check character that makes the characters before it and itself sum to 0 modulo 256 (R137, R160). -/
def checkFor (bs : List Byte) : Byte := 0 - bs.foldl (· + ·) 0

/-! ### Codes (R181) -/

/-- R181: the displayable glyph codes. -/
def displayable (g : Byte) : Bool :=
  g == 0x20 || g == 0x2B || g == 0x2D || g == 0x2E || g == 0x2F || (0x30 ≤ g && g ≤ 0x39) || (0x41 ≤ g && g ≤ 0x5A)
    || g == 0x78 || g == 0x7F || (0x81 ≤ g && g ≤ 0x87)

/-- R7: a capital letter. -/
def isLetter (g : Byte) : Bool := 0x41 ≤ g && g ≤ 0x5A

/-- R181, reply status. -/
def Status.code : Status → Byte
  | .ok => 0
  | .rounded => 1
  | .unknown => 2
  | .existing => 3
  | .busy => 4
  | .full => 5
  | .range => 6
  | .state => 7
  | .session => 8
  | .crossed => 9
  | .conflict => 10
  | .badPage => 11
  | .shown => 12
  | .malformed => 13

/-- R181, tape. -/
def tapeCode : AB → Byte
  | .a => 0
  | .b => 1

/-- R181, tape. -/
def tapeOfCode (b : Byte) : Option AB := if b == 0 then some .a else if b == 1 then some .b else none

/-- R181, record state. -/
def RecState.code : RecState → Byte
  | .listed => 1
  | .trading => 2
  | .halted _ => 3
  | .closed => 4
  | .retiring => 5

/-- R181, direction. -/
def Direction.code : Direction → Byte
  | .none => 0
  | .up => 1
  | .zeroUp => 2
  | .down => 3
  | .zeroDown => 4

/-- R181, halt reason. -/
def HaltReason.code : HaltReason → Byte
  | .news => 0
  | .imbalance => 1
  | .other => 2

/-- R181, halt reason. -/
def haltReasonOfCode (b : Byte) : Option HaltReason :=
  if b == 0 then some .news else if b == 1 then some .imbalance else if b == 2 then some .other else none

/-- R181, field kind. -/
def fieldKindOfCode (b : Byte) : Option FieldKind :=
  [FieldKind.symbol, .last, .change, .bid, .ask, .high, .low, .opened, .close, .volume, .state][b.toNat]?

/-- R24, R178: the denominator is carried as 8, 16 or 32. -/
def Denominator.value : Denominator → Nat
  | .eighths => 8
  | .sixteenths => 16
  | .thirtySeconds => 32

/-- R10, R178. -/
def denominatorOfCode (b : Byte) : Option Denominator :=
  if b == 8 then some .eighths else if b == 16 then some .sixteenths else if b == 32 then some .thirtySeconds else none

/-- R181, session phase. -/
def SessionPhase.code : SessionPhase → Byte
  | .pre => 0
  | .opened => 1
  | .post => 2

/-- R181, ribbon state. -/
def RibbonState.code : RibbonState → Byte
  | .stopped => 0
  | .running _ => 1
  | .stopping _ => 2

/-- R181, print mode. -/
def PrintMode.code : PrintMode → Byte
  | .full => 0
  | .cut => 1
  | .bare => 2

/-- R181, panel state. -/
def PanelState.code : PanelState → Byte
  | .live => 0
  | .shed => 1
  | .heldDark => 2

/-- R181, rail state. -/
def RailState.code : RailState → Byte
  | .ok => 0
  | .low => 1
  | .fail => 2

/-- R181, terminal presence. -/
def Presence.code : Presence → Byte
  | .unknown => 0
  | .present => 1
  | .absent => 2

/-- R181, line state: IDLE, or IN ROUND. -/
def Round.code : Round → Byte
  | .idle => 0
  | .quiet _ => 1
  | .atDrop _ => 1
  | .empty _ => 1

/-- R180: the drive mode in bits 0 and 1 of the drive byte. -/
def DriveMode.code : DriveMode → Nat
  | .dark => 0
  | .steady => 1
  | .flashA => 2
  | .blinkB => 3

/-- R180: the tick lamp in bits 4 to 6 of the drive byte. -/
def TickLamp.code : TickLamp → Nat
  | .dark => 0
  | .up => 1
  | .upB => 2
  | .down => 3
  | .downB => 4

/-- R180: the drive byte; "the TQ86 sends bits 2, 3 and 7 as 0". -/
def driveByte (c : Content) : Byte := byte (c.lamp.code * 16 + c.mode.code)

/-- R180: the echo that equals a written image of the position, byte for byte. -/
def imageBytes (p : PosIx) (c : Content) : List Byte := byte (positionIn p).val :: driveByte c :: c.cells

end Sys2Proof.Machine
end

