-- ==== Sys2Proof/Machine/Operands.lean ====
section
/-! DEFINITION. The operand fields of the messages: the body layouts of R177 and R179 and the symbol check of R7. -/

namespace Sys2Proof.Machine

/-- R175: the number in the `w` bytes of a body that begin at `offset`. -/
def field (body : List Byte) (offset w : Nat) : Nat := ofBeBytes ((body.drop offset).take w)

/-- The byte of a body at `offset`. -/
def byteAt (body : List Byte) (offset : Nat) : Byte := body.getD offset 0

/-- R175: bit `n` of a flag byte. -/
def flagAt (body : List Byte) (offset n : Nat) : Bool := (byteAt body offset).getLsbD n

/-- The letters of a symbol field, and what stands after them. -/
def splitLetters : List Byte → Symbol × List Byte
  | [] => ([], [])
  | g :: rest =>
    if isLetter g then
      let (letters, after) := splitLetters rest
      (g :: letters, after)
    else ([], g :: rest)

/-- R7: the symbol in four glyph places; none when there is no letter, a blank is followed by a letter, or a place holds
any other code. -/
def symbolOf (places : List Byte) : Option Symbol :=
  let (letters, after) := splitLetters places
  if letters ≠ [] ∧ after.all (· == 0x20) then some letters else none

/-- The symbol that begins a body at `offset` (R177, R179). -/
def symbolAt (body : List Byte) (offset : Nat) : Option Symbol := symbolOf ((body.drop offset).take 4)

/-- R177: the message kinds. -/
inductive Kind where
  | list
  | delist
  | trade
  | quote
  | halt
  | resume
  | sessionOpen
  | sessionClose
  | dayRoll
  | tableClear
  | queryRecord
  | loadEntry
  | unloadEntry
  | definePage
  | undefinePage
  | showPage
  | restorePanel
  | clearFaults
  | tapeStart
  | tapeStop
  | tapeClear
  | notice
  | terminalEnable
  | setParameter
  | readParameter
  | readStatus
  | clearConditions
  | restart
  deriving DecidableEq, Repr

/-- R177: the code of a kind. -/
def Kind.code : Kind → Byte
  | .list => 0x01
  | .delist => 0x02
  | .trade => 0x03
  | .quote => 0x04
  | .halt => 0x05
  | .resume => 0x06
  | .sessionOpen => 0x07
  | .sessionClose => 0x08
  | .dayRoll => 0x09
  | .tableClear => 0x0A
  | .queryRecord => 0x0B
  | .loadEntry => 0x10
  | .unloadEntry => 0x11
  | .definePage => 0x12
  | .undefinePage => 0x13
  | .showPage => 0x14
  | .restorePanel => 0x15
  | .clearFaults => 0x16
  | .tapeStart => 0x20
  | .tapeStop => 0x21
  | .tapeClear => 0x22
  | .notice => 0x23
  | .terminalEnable => 0x30
  | .setParameter => 0x40
  | .readParameter => 0x41
  | .readStatus => 0x42
  | .clearConditions => 0x43
  | .restart => 0x44

/-- R177: the kinds, as the table lists them. -/
def allKinds : List Kind :=
  [.list, .delist, .trade, .quote, .halt, .resume, .sessionOpen, .sessionClose, .dayRoll, .tableClear, .queryRecord,
    .loadEntry, .unloadEntry, .definePage, .undefinePage, .showPage, .restorePanel, .clearFaults, .tapeStart, .tapeStop,
    .tapeClear, .notice, .terminalEnable, .setParameter, .readParameter, .readStatus, .clearConditions, .restart]

/-- R164, step 1: is the kind one of the messages? -/
def knownKind (code : Byte) : Bool := allKinds.any (fun k => k.code == code)

/-- R164, step 2, and R177: does the length suit the kind? NOTICE alone varies, from 2 to 33. -/
def Kind.lengthFits : Kind → Nat → Bool
  | .list, n => n == 10
  | .delist, n => n == 4
  | .trade, n => n == 10
  | .quote, n => n == 15
  | .halt, n => n == 5
  | .resume, n => n == 4
  | .sessionOpen, n => n == 0
  | .sessionClose, n => n == 0
  | .dayRoll, n => n == 0
  | .tableClear, n => n == 0
  | .queryRecord, n => n == 4
  | .loadEntry, n => n == 11
  | .unloadEntry, n => n == 2
  | .definePage, n => n == 5
  | .undefinePage, n => n == 1
  | .showPage, n => n == 2
  | .restorePanel, n => n == 1
  | .clearFaults, n => n == 0
  | .tapeStart, n => n == 1
  | .tapeStop, n => n == 1
  | .tapeClear, n => n == 1
  | .notice, n => decide (2 ≤ n) && decide (n ≤ 33)
  | .terminalEnable, n => n == 2
  | .setParameter, n => n == 5
  | .readParameter, n => n == 1
  | .readStatus, n => n == 2
  | .clearConditions, n => n == 4
  | .restart, n => n == 0

/-- R179: the kinds of a terminal frame that the TQ86 sends. -/
def pollKind : Byte := 0x01
/-- R179. -/
def updateKind : Byte := 0x02
/-- R179. -/
def answerKind : Byte := 0x03

/-- R151, R179: the requests of a terminal. -/
inductive Request where
  /-- A LOOKUP with its four symbol places. -/
  | lookup (places : List Byte)
  | watch (places : List Byte)
  | unwatch (places : List Byte)
  | refresh
  deriving DecidableEq, Repr

/-- R142, step 3, and R179: the request of an intact reply; none for NOTHING, an unknown kind, or a request kind with a
wrong length. -/
def requestOf (kind : Byte) (body : List Byte) : Option Request :=
  if kind == 0x11 && body.length == 4 then some (.lookup body)
  else if kind == 0x12 && body.length == 4 then some (.watch body)
  else if kind == 0x13 && body.length == 4 then some (.unwatch body)
  else if kind == 0x14 && body.length == 0 then some .refresh
  else none

/-- R181: the answer codes. -/
inductive AnswerCode where
  | record
  | unknown
  | watched
  | already
  | full
  | removed
  | notWatched
  | done
  deriving DecidableEq, Repr

/-- R181, answer code. -/
def AnswerCode.code : AnswerCode → Byte
  | .record => 0
  | .unknown => 1
  | .watched => 2
  | .already => 3
  | .full => 4
  | .removed => 5
  | .notWatched => 6
  | .done => 7

end Sys2Proof.Machine
end

