-- ==== Sys2Proof/Machine/Price.lean ====
section
/-! DEFINITION. Chapter 2: grid rounding, direction, day statistics, the text forms of field values, their placement in
a window and the composition of ribbon prints. -/

namespace Sys2Proof.Machine

/-! ### Prices and grids -/

/-- R24: the grid step g of the denominator, 32/D. -/
def Denominator.step : Denominator → Nat
  | .eighths => 4
  | .sixteenths => 2
  | .thirtySeconds => 1

/-- R23: within 1 to 319,999. -/
def validPrice (p : Nat) : Bool := decide (1 ≤ p) && decide (p ≤ Config.maxPrice)

/-- R25: grid rounding of `p` at grid step `g`; none is the refusal of step 1. -/
def roundToGrid (g p : Nat) : Option Nat :=
  if validPrice p then
    let r := p % g
    if r = 0 then some p
    else
      let candidate := if g ≤ 2 * r then p - r + g else p - r
      if Config.maxPrice < candidate then some (p - r)
      else if candidate = 0 then some g
      else some candidate
  else none

/-- R27: the direction after a trade at `p`, from the reference and the direction before. -/
def directionAfter (reference : Option Nat) (p : Nat) (before : Direction) : Direction :=
  match reference with
  | none => .none
  | some q =>
    if q < p then .up
    else if p < q then .down
    else match before with
      | .up => .zeroUp
      | .zeroUp => .zeroUp
      | .down => .zeroDown
      | .zeroDown => .zeroDown
      | .none => .none

/-- R27: the reference is last, or close where last is absent. -/
def Record.reference (r : Record) : Option Nat :=
  match r.day with
  | some d => some d.last
  | none => r.close

/-- R28: last, open, high and low after a trade at `p`. -/
def dayAfter (day : Option DayPrices) (p : Nat) : DayPrices :=
  match day with
  | none => ⟨p, p, p, p⟩
  | some d => ⟨p, d.opened, max d.high p, min d.low p⟩

/-- R28: the volume saturates at 999,999,999. -/
def volumeAfter (volume shares : Nat) : Nat := min (volume + shares) Config.maxVolume

/-- R28: the trade count saturates at 65,535. -/
def tradesAfter (trades : Nat) : Nat := min (trades + 1) Config.maxCount16

/-- R2: the change, last minus close, present when both are. -/
def Record.change (r : Record) : Option Int :=
  match r.day, r.close with
  | some d, some c => some ((d.last : Int) - (c : Int))
  | _, _ => none

/-! ### Text forms -/

/-- The decimal digits of `n` put before `acc`; `fuel` bounds their number. -/
def digitsFrom : Nat → Nat → Text → Text
  | 0, _, acc => acc
  | fuel + 1, n, acc =>
    let acc' := byte (0x30 + n % 10) :: acc
    if n / 10 = 0 then acc' else digitsFrom fuel (n / 10) acc'

/-- The decimal digits of `n` without leading zeros; "0" for 0. -/
def digits (n : Nat) : Text := digitsFrom (n + 1) n []

/-- R29: numerator and denominator, in lowest terms, of f/32 for f from 1 to 31. -/
def reduceFraction (f : Nat) : Nat × Nat :=
  if f % 16 = 0 then (f / 16, 2)
  else if f % 8 = 0 then (f / 8, 4)
  else if f % 4 = 0 then (f / 4, 8)
  else if f % 2 = 0 then (f / 2, 16)
  else (f, 32)

/-- R30, steps 2 and 3: the fraction, after a digit or not. -/
def fractionForm (afterDigit : Bool) (f : Nat) : Text :=
  if f = 0 then []
  else
    let (n, d) := reduceFraction f
    if d ≤ 8 then [byte (0x80 + n * 8 / d)]
    else (if afterDigit then [0x20] else []) ++ digits n ++ [0x2F] ++ digits d

/-- R30: the FULL price form. -/
def fullForm (v : Nat) : Text :=
  let w := v / 32
  let f := v % 32
  if w = 0 ∧ f = 0 then digits 0
  else (if w = 0 then [] else digits w) ++ fractionForm (decide (0 < w)) f

/-- R39: the CUT price form. -/
def cutForm (v : Nat) : Text :=
  if 10 ≤ v / 32 then digits (v / 32 % 10) ++ fractionForm true (v % 32) else fullForm v

/-- R31: the change form. -/
def changeForm (c : Int) : Text :=
  if c = 0 then digits 0
  else if 0 < c then 0x2B :: fullForm c.natAbs
  else 0x2D :: fullForm c.natAbs

/-- R32: the volume form in a window of width `w`; none when none of the three candidates fits. -/
def volumeForm (volume w : Nat) : Option Text :=
  let n := volume / 100
  let plain := digits n
  let thousands := digits (n / 1000) ++ [0x4B]
  let millions := digits (n / 1000000) ++ [0x4D]
  if plain.length ≤ w then some plain
  else if thousands.length ≤ w then some thousands
  else if millions.length ≤ w then some millions
  else none

/-- R33: the state form. A RETIRING record has none, and no position reads one. -/
def stateForm : RecState → Text
  | .listed => [0x50, 0x52, 0x45]
  | .trading => []
  | .halted _ => [0x48, 0x41, 0x4C, 0x54]
  | .closed => [0x43, 0x4C, 0x53, 0x44]
  | .retiring => []

/-- What R34 to R36 can find for the field of a bound entry. -/
inductive FieldForm where
  /-- R34: the field is absent. -/
  | absent
  /-- R30 to R33: the form. -/
  | text (form : Text)
  /-- R32: a volume with no form that fits. -/
  | noFit
  deriving DecidableEq, Repr

/-- An optional value in its form. -/
def FieldForm.ofOption (form : Option Text) : FieldForm :=
  match form with
  | none => .absent
  | some t => .text t

/-- R34: the field that the kind names, read from the bound record, in its form for a window of width `w`. -/
def fieldForm (kind : FieldKind) (w : Nat) (r : Record) : FieldForm :=
  match kind with
  | .symbol => .text r.symbol
  | .last => .ofOption (r.day.map (fun d => fullForm d.last))
  | .change => .ofOption (r.change.map changeForm)
  | .bid => .ofOption (r.bid.map (fun s => fullForm s.price))
  | .ask => .ofOption (r.ask.map (fun s => fullForm s.price))
  | .high => .ofOption (r.day.map (fun d => fullForm d.high))
  | .low => .ofOption (r.day.map (fun d => fullForm d.low))
  | .opened => .ofOption (r.day.map (fun d => fullForm d.opened))
  | .close => .ofOption (r.close.map fullForm)
  | .volume =>
    match volumeForm r.volume w with
    | none => .noFit
    | some t => .text t
  | .state => .text (stateForm r.state)

/-- `n` blank cells. -/
def blanks (n : Nat) : Text := List.replicate n 0x20

/-- R36: a window filled with the overflow glyph. -/
def overflow (w : Nat) : Text := List.replicate w 0x7F

/-- R35, R36: the `w` cells of the window of an entry of the kind, bound to the record. -/
def window (kind : FieldKind) (w : Nat) (r : Record) : Text :=
  match fieldForm kind w r with
  | .absent => blanks w
  | .noFit => overflow w
  | .text form =>
    if w < form.length then overflow w
    else if kind = .symbol then form ++ blanks (w - form.length)
    else blanks (w - form.length) ++ form

/-! ### Ribbon prints -/

/-- R37: the size part of a print of summed shares `s`. -/
def sizePart (s : Word32) : Text :=
  let n := min s.toNat Config.maxVolume / 100
  if n ≤ 1 then []
  else if n ≤ 9999 then digits n ++ [0x78]
  else digits (n / 1000) ++ [0x4B, 0x78]

/-- R38 to R40: the print of a symbol, a last price and summed shares in a print mode. -/
def printText (mode : PrintMode) (sym : Symbol) (last : Nat) (shares : Word32) : Text :=
  match mode with
  | .full => sym ++ blanks 1 ++ sizePart shares ++ fullForm last ++ blanks 2
  | .cut => sym ++ blanks 1 ++ sizePart shares ++ cutForm last ++ blanks 2
  | .bare => sym ++ blanks 1 ++ cutForm last ++ blanks 2

end Sys2Proof.Machine
end

