-- ==== Sys2Proof/Machine/Ops.lean ====
section
/-! DEFINITION. The operations that several commands share: lookups and freeing in the record table, notices, marks of
positions and of watch entries, shedding and recovery of panels, pending prints, answers to messages, the STALE
transitions and the passing of an interval. -/

namespace Sys2Proof.Machine

/-! ### The record table (chapter 1) -/

/-- The states that are not RETIRING; section 1.2: such a record is called live. -/
def RecState.isLive : RecState → Bool
  | .listed => true
  | .trading => true
  | .halted _ => true
  | .closed => true
  | .retiring => false

/-- R9: the full lookup. -/
def fullLookup (sym : Symbol) (s : State) : Option (SlotIx × Record) :=
  match s.directory.find? (fun e => e.1 == sym) with
  | none => none
  | some e => s.records[e.2].map (fun r => (e.2, r))

/-- R9: the live lookup. -/
def liveLookup (sym : Symbol) (s : State) : Option (SlotIx × Record) :=
  match fullLookup sym s with
  | none => none
  | some (i, r) => if r.state.isLive then some (i, r) else none

/-- The record of a slot replaced. -/
def setRecord (i : SlotIx) (r : Record) (s : State) : State := { s with records := s.records.set i (some r) }

/-- R8: a directory entry added, the directory kept in slot order. -/
def addDirectory (sym : Symbol) (i : SlotIx) : List (Symbol × SlotIx) → List (Symbol × SlotIx)
  | [] => [(sym, i)]
  | e :: rest => if e.2 < i then e :: addDirectory sym i rest else (sym, i) :: e :: rest

/-- R4: freeing a slot removes its directory entry and makes it FREE. -/
def freeSlot (i : SlotIx) (s : State) : State :=
  { s with
    directory := s.directory.filter (fun e => e.2 != i)
    records := s.records.set i none }

/-- R11, step 1: the lowest-numbered FREE slot. -/
def lowestFree (s : State) : Option SlotIx := (Vec.select (fun _ r => r.isNone) s.records).head?

/-- The non-FREE slots, in ascending order. -/
def occupiedSlots (s : State) : List SlotIx := Vec.select (fun _ r => r.isSome) s.records

/-- R178: bit values of the presence byte. -/
def presenceByte (r : Record) : Nat :=
  (if r.close.isSome then 1 else 0) + (if r.day.isSome then 2 else 0) + (if r.bid.isSome then 4 else 0)
    + (if r.ask.isSome then 8 else 0) + (match r.state with | .halted _ => 16 | _ => 0)
    + (if r.pending.isSome then 32 else 0)

/-- R16, R178: the record image, 53 bytes. -/
def recordImage (i : SlotIx) (r : Record) : List Byte :=
  beBytes 2 i.val ++ symbolBytes r.symbol ++ [r.state.code, tapeCode r.tape, byte r.denominator.value,
      byte (presenceByte r)]
    ++ orZero 3 r.close ++ orZero 3 (r.day.map (·.last)) ++ orZero 3 (r.day.map (·.opened))
    ++ orZero 3 (r.day.map (·.high)) ++ orZero 3 (r.day.map (·.low))
    ++ orZero 3 (r.bid.map (·.price)) ++ orZero 2 (r.bid.map (·.size))
    ++ orZero 3 (r.ask.map (·.price)) ++ orZero 2 (r.ask.map (·.size))
    ++ beBytes 4 r.volume ++ beBytes 2 r.trades ++ [r.direction.code]
    ++ [match r.state with | .halted reason => reason.code | _ => 0]
    ++ orZero 4 (r.pending.map (·.joined.toNat)) ++ orZero 2 (r.pending.map (·.folded))
    ++ orZero 4 (r.pending.map (·.shares.toNat))

/-! ### Marks of positions (R75) -/

/-- R92: is the panel LIVE? -/
def panelLive (s : State) (panel : PanelIx) : Bool := s.panels[panel].state == .live

/-- R75: the queue after marks made in the order given; a mark on a panel that is not LIVE is ignored, and a position
already queued keeps its place. -/
def appendMarks (live : PosIx → Bool) : List PosIx → List PosIx → List PosIx
  | queue, [] => queue
  | queue, p :: rest => appendMarks live (if live p && !queue.contains p then queue ++ [p] else queue) rest

/-- R101: do the marks overtake the read in progress, by appending its target? -/
def marksOvertake (s : State) (ps : List PosIx) : Bool :=
  match s.verifier.target with
  | none => false
  | some t => ps.contains t && panelLive s (panelOf t) && !s.boards.repaint.contains t

/-- R75, R101: the positions are marked in the order given. -/
def mark (ps : List PosIx) (s : State) : State :=
  { s with
    boards := { s.boards with repaint := appendMarks (fun p => panelLive s (panelOf p)) s.boards.repaint ps }
    verifier := { s.verifier with overtaken := s.verifier.overtaken || marksOvertake s ps } }

/-- The layout entry that a position shows, if its shown entry is LOADED. -/
def shownEntry (s : State) (p : Position) : Option Entry := p.shown.bind (fun e => s.entries[e])

/-- The slot that a position's shown entry is bound to. -/
def shownSlot (s : State) (p : Position) : Option SlotIx := (shownEntry s p).bind (·.binding)

/-- R81: the price kinds. -/
def FieldKind.isPrice : FieldKind → Bool
  | .last => true
  | .change => true
  | .bid => true
  | .ask => true
  | .high => true
  | .low => true
  | .opened => true
  | .close => false
  | .symbol => false
  | .volume => false
  | .state => false

/-- R76: does a notice of the group affect entries of the kind? -/
def Group.affects : Group → FieldKind → Bool
  | .price, k => k == .last || k == .change || k == .high || k == .low || k == .opened || k == .volume
  | .quote, k => k == .bid || k == .ask
  | .state, k => k == .state
  | .day, _ => true

/-- R76: does a notice with these groups mark a position that shows the entry? -/
def entryAffected (groups : List Group) (e : Entry) : Bool :=
  groups.any (fun g => g.affects e.kind) || (e.tick && (groups.contains .price || groups.contains .state))

/-- R83: does a moved mark flash a position that shows the entry? -/
def Entry.flashes (e : Entry) : Bool := e.flash && (e.kind == .last || e.kind == .change)

/-- The position records all changed by `f`, which is told the position. -/
def onPositions (f : PosIx → Position → Position) (s : State) : State :=
  { s with boards := { s.boards with positions := Vec.mapIx f s.boards.positions } }

/-- A position record changed. -/
def setPosition (p : PosIx) (f : Position → Position) (s : State) : State :=
  { s with boards := { s.boards with positions := Vec.update s.boards.positions p f } }

/-- R83: the flash start of a notice for the slot with the moved mark yes. -/
def startFlash (slot : SlotIx) (s : State) : State :=
  onPositions (fun p pos =>
    match shownEntry s pos with
    | none => pos
    | some e =>
      if panelLive s (panelOf p) && e.binding == some slot && e.flashes then { pos with flash := s.params.flashCount }
      else pos) s

/-- R76: the positions that a notice for the slot with these groups marks, in position order. -/
def noticePositions (slot : SlotIx) (groups : List Group) (s : State) : List PosIx :=
  Vec.select (fun _ pos =>
    match shownEntry s pos with
    | none => false
    | some e => e.binding == some slot && entryAffected groups e) s.boards.positions

/-- R76, R83: a change notice at the board refresh unit. -/
def boardNotice (slot : SlotIx) (groups : List Group) (moved : Bool) (s : State) : State :=
  let s1 := if moved then startFlash slot s else s
  mark (noticePositions slot groups s1) s1

/-! ### Marks of watch entries (R150) -/

/-- R150: a mark takes effect on an enabled terminal whose presence is UNKNOWN or PRESENT. -/
def Terminal.takesMarks (t : Terminal) : Bool := t.enabled && t.presence != .absent

/-- R150: the entry of the symbol is marked. -/
def Terminal.mark (t : Terminal) (sym : Symbol) : Terminal :=
  if t.takesMarks && !t.dirty.contains sym then { t with dirty := t.dirty ++ [sym] } else t

/-- R150: the entries of the symbols are marked, in the order given. -/
def Terminal.markAll (t : Terminal) (syms : List Symbol) : Terminal := syms.foldl Terminal.mark t

/-- The symbols of the watch list, in list order. -/
def Terminal.watched (t : Terminal) : List Symbol := t.watch.map (·.symbol)

/-- R149: is the entry ACTIVE and bound to the slot? -/
def WatchEntry.boundTo (slot : SlotIx) (w : WatchEntry) : Bool := w.state == .active slot

/-- R156: a change notice at a terminal marks its ACTIVE entry bound to the slot. -/
def Terminal.notice (slot : SlotIx) (t : Terminal) : Terminal :=
  t.markAll ((t.watch.filter (WatchEntry.boundTo slot)).map (·.symbol))

/-- R157: every ACTIVE entry whose slot is hit becomes DROPPED and is marked, or is removed at once where the terminal
is ABSENT or disabled. A TABLE CLEAR can turn several entries of one terminal, and the manual gives no order for their
marks: they are marked in list order, the model's choice (log 26). -/
def Terminal.dropEntries (hit : SlotIx → Bool) (t : Terminal) : Terminal :=
  let isHit (w : WatchEntry) : Bool := match w.state with | .active slot => hit slot | .dropped => false
  let turned := (t.watch.filter isHit).map (·.symbol)
  if t.takesMarks then
    { t with watch := t.watch.map (fun w => if isHit w then { w with state := .dropped } else w) }.markAll turned
  else { t with watch := t.watch.filter (fun w => !isHit w) }

/-- The terminals all changed by `f`. -/
def onTerminals (f : Terminal → Terminal) (s : State) : State :=
  { s with terminals := Vec.mapIx (fun _ t => f t) s.terminals }

/-! ### Notices (R5, R6) -/

/-- R5: a change notice, handed to the board refresh unit and to the terminal line controllers. -/
def changeNotice (slot : SlotIx) (groups : List Group) (moved : Bool) (s : State) : State :=
  onTerminals (Terminal.notice slot) (boardNotice slot groups moved s)

/-- R5: one change notice for each of the slots, in the order given, with moved mark no. -/
def changeNotices (slots : List SlotIx) (groups : List Group) (s : State) : State :=
  slots.foldl (fun s i => changeNotice i groups false s) s

/-! ### Pending prints and share accounts (chapter 7) -/

/-- The tape unit of a tape replaced. -/
def setTape (t : AB) (u : TapeUnit) (s : State) : State := { s with tapes := s.tapes.put t u }

/-- The pending print part of a slot's record replaced; a FREE slot stays FREE. -/
def setPendingPrint (i : SlotIx) (p : Option PendingPrint) (s : State) : State :=
  { s with records := Vec.update s.records i (fun r => r.map (fun r => { r with pending := p })) }

/-- The shares summed in a slot's pending print, 0 where it has none. -/
def pendingShares (s : State) (i : SlotIx) : Word32 :=
  match s.records[i] with
  | none => 0
  | some r =>
    match r.pending with
    | none => 0
    | some p => p.shares

/-- R15: the report that a record's pending print is gone, composed or withdrawn: a RETIRING record is freed. -/
def reportGone (i : SlotIx) (s : State) : State :=
  match s.records[i] with
  | none => s
  | some r => if r.state = .retiring then freeSlot i s else s

/-- R110: the trade notice of a slot with `shares` shares, applied to the tape of its record `r`. -/
def tradeNotice (i : SlotIx) (r : Record) (shares : Nat) (s : State) : State :=
  let u := s.tapes.get r.tape
  let add := BitVec.ofNat 32 shares
  match r.pending with
  | none =>
    let prints := u.prints ++ [i]
    setPendingPrint i (some ⟨s.time, 1, add⟩)
      (setTape r.tape { u with
        accepted := u.accepted + add
        prints := prints
        backlogMax := max u.backlogMax prints.length } s)
  | some p =>
    setPendingPrint i (some ⟨p.joined, raise16 p.folded, p.shares + add⟩)
      (setTape r.tape { u with accepted := u.accepted + add } s)

/-- R115: the withdrawal of one pending print from a tape. -/
def withdraw (t : AB) (i : SlotIx) (s : State) : State :=
  let u := s.tapes.get t
  reportGone i (setPendingPrint i none
    (setTape t { u with prints := u.prints.erase i, withdrawn := u.withdrawn + pendingShares s i } s))

/-- R116, R117, R121: every entry of a tape's list withdrawn, oldest joined first. -/
def withdrawAll (t : AB) (s : State) : State :=
  (s.tapes.get t).prints.foldl (fun s i => withdraw t i s) s

/-- The sum of the summed shares of a tape's entries, modulo 2^32 (R113, R119). -/
def tapePendingShares (t : AB) (s : State) : Word32 :=
  ((s.tapes.get t).prints.map (pendingShares s)).foldl (· + ·) 0

/-! ### Bindings of layout entries (R62) -/

/-- R62: at LIST every LOADED entry that names the symbol and is UNBOUND is bound to the new slot. -/
def bindEntries (sym : Symbol) (slot : SlotIx) (s : State) : State :=
  { s with entries := Vec.mapIx (fun _ e => e.map (fun e =>
      if e.symbol == sym && e.binding.isNone then { e with binding := some slot } else e)) s.entries }

/-- R63, R64: the entries bound to a slot that is hit become UNBOUND, and the positions that show them are marked in
ascending order of panel and then of position. -/
def unbindEntries (hit : SlotIx → Bool) (s : State) : State :=
  let isHit (b : Option SlotIx) : Bool := match b with | none => false | some i => hit i
  let unbind (e : Entry) : Entry := if isHit e.binding then { e with binding := none } else e
  mark (Vec.select (fun _ pos => isHit (shownSlot s pos)) s.boards.positions)
    { s with entries := Vec.mapIx (fun _ e => e.map unbind) s.entries }

/-! ### Panels (chapters 4 and 5) -/

/-- A panel replaced. -/
def setPanel (panel : PanelIx) (f : Panel → Panel) (s : State) : State :=
  { s with panels := Vec.update s.panels panel f }

/-- R68: the entry in the range of a page that names the position. -/
def entryShownBy (s : State) (page : Page) (position : Fin 64) : Option EntryIx :=
  (List.range page.count).findSome? (fun k =>
    match placeOf (page.first + k) 2048 with
    | none => none
    | some i =>
      match s.entries[i] with
      | none => none
      | some e => if e.position = position then some i else none)

/-- R68: the shown entry of a position, from the current page of its panel. -/
def shownBy (s : State) (p : PosIx) : Option EntryIx :=
  match s.panels[panelOf p].current with
  | none => none
  | some n =>
    match s.pages[n] with
    | none => none
    | some page => entryShownBy s page (positionIn p)

/-- R68, R70, R74: the positions of the panels chosen get switch pending yes, their shown entry from the current page,
and a flash countdown of 0. -/
def reshow (chosen : PanelIx → Bool) (s : State) : State :=
  onPositions (fun p pos =>
    if chosen (panelOf p) then { pos with shown := shownBy s p, switchPending := true, flash := 0 } else pos) s

/-- R69: the steps of an accepted SHOW PAGE, after the panel's current page has been set. -/
def beginSwitch (panel : PanelIx) (s : State) : State :=
  let s1 := reshow (· == panel) s
  match s.panels[panel].state with
  | .live => mark (panelPositions panel) s1
  | .heldDark => mark (panelPositions panel) (setPanel panel (fun p => { p with state := .live }) s1)
  | .shed => s1

/-- R93, R101: shedding a panel. -/
def shed (panel : PanelIx) (s : State) : State :=
  let s1 := onPositions (fun p pos =>
    if panelOf p = panel then { pos with image := none, flash := 0, mismatchRun := 0, matchRun := 0 } else pos)
    (setPanel panel (fun p => { p with state := .shed }) s)
  { s1 with
    boards := { s1.boards with repaint := s1.boards.repaint.filter (fun p => panelOf p != panel) }
    verifier := { s1.verifier with overtaken := s1.verifier.overtaken ||
      (match s1.verifier.target with | none => false | some t => panelOf t == panel) } }

/-- R94: recovery of a panel under a policy. -/
def recover (policy : Policy) (panel : PanelIx) (s : State) : State :=
  match policy with
  | .restore => mark (panelPositions panel) (setPanel panel (fun p => { p with state := .live }) s)
  | .hold =>
    onPositions (fun p pos => if panelOf p = panel then { pos with flash := 0 } else pos)
      (setPanel panel (fun p => { p with state := .heldDark }) s)

/-- R95: the panels assigned to a rail, in panel order. -/
def railPanels (s : State) (rail : RailIx) : List PanelIx := Vec.select (fun _ r => r == rail) s.params.panelRail

/-- R77: the panel bus is free when no write and no read is in progress. -/
def busFree (s : State) : Bool := s.boards.write.isNone && s.verifier.target.isNone

/-- R90: the effective duty of a rail state under a brightness level and the sag ceiling, in twelfths. -/
def effectiveDuty (state : RailState) (level sag : Nat) : Nat :=
  match state with
  | .ok => min level Config.fullDuty
  | .low => min (min level Config.fullDuty) sag
  | .fail => 0

/-- R90: the effective duty of a rail. -/
def railDuty (s : State) (rail : RailIx) : Nat :=
  effectiveDuty s.rails[rail].state s.params.brightness[rail] s.params.sagCeiling

/-- R84: what a period start of blink timer A does to the flash countdowns, and the marks of those that reach 0. -/
def lowerFlashes (s : State) : State :=
  mark (Vec.select (fun _ pos => pos.flash == 1) s.boards.positions)
    (onPositions (fun _ pos => { pos with flash := pos.flash - 1 }) s)

/-- R84, R85: the effect of a period start of a blink timer on the flash countdowns. -/
def periodStarted (timer : AB) (s : State) : State :=
  match timer with
  | .a => lowerFlashes s
  | .b => s

/-- A blink timer's present period begins at `t`. -/
def setTimerStart (timer : AB) (t : Time) (s : State) : State :=
  { s with boards := { s.boards with timerStart := s.boards.timerStart.put timer t } }

/-! ### The verifier (chapter 6) -/

/-- R99: a gap begins; "a gap of 0 ends at once". -/
def beginGap (s : State) : State :=
  { s with verifier := { s.verifier with
      phase := if s.params.verifyGap = 0 then .ready else .waiting s.time s.params.verifyGap } }

/-! ### The feed link (chapter 11) -/

/-- What the owner of a message gives back: the status and what follows it in the reply's body. -/
structure Answer where
  status : Status
  body : List Byte
  deriving DecidableEq, Repr

/-- R41, R55: "it replies with its status alone", and nothing changes. -/
def refuse (status : Status) (s : State) : State × Answer := (s, ⟨status, []⟩)

/-- R164, R165: the reply placed at the tail of the reply queue. -/
def placeReply (kind tag : Byte) (a : Answer) (s : State) : State :=
  { s with feed := { s.feed with replies := s.feed.replies ++ [⟨kind, tag, a.status, a.body⟩] } }

/-- R164: "the head of the inbound queue is taken when the queue is non-empty and the reply queue has a free place". -/
def canTake (s : State) : Bool := decide (s.feed.replies.length < Config.replyPlaces)

/-- R164: the frame at the head is removed from the inbound queue. -/
def removeHead (s : State) : State := { s with feed := { s.feed with inbound := s.feed.inbound.tail } }

/-- R164, steps 2 to 4: the frame `f`, of a known kind, has been removed from the queue; its length is checked, its
owner's rules are applied, and its reply is placed. -/
def answerFrame (k : Kind) (apply : List Byte → State → State × Answer) (f : Frame) (s : State) : State :=
  if k.lengthFits f.body.length then
    placeReply f.kind f.tag (apply f.body s).2 (apply f.body s).1
  else placeReply f.kind f.tag ⟨.malformed, []⟩ s

/-- R164: the taking of a message of the kind `k`: nothing happens where the head is no such message or the reply queue
is full (log 1). -/
def takeMessage (k : Kind) (apply : List Byte → State → State × Answer) (s : State) : State :=
  match s.feed.inbound with
  | [] => s
  | f :: _ => if f.kind = k.code ∧ canTake s then answerFrame k apply f (removeHead s) else s

/-- R174: while POR is asserted the part does nothing. -/
def powered (f : State → State) (s : State) : Host.Outcome State Fault Refusal := .next (if s.por then s else f s)

/-! ### STALE (R87, R134, R171, R172) -/

/-- R87: the positions whose shown entry has a price kind, "whether the entry is bound or unbound". -/
def pricePositions (s : State) : List PosIx :=
  Vec.select (fun _ pos =>
    match shownEntry s pos with
    | none => false
    | some e => e.kind.isPrice) s.boards.positions

/-- R134: "QUOTES DELAYED". -/
def quotesDelayed : Text :=
  [0x51, 0x55, 0x4F, 0x54, 0x45, 0x53, 0x20, 0x44, 0x45, 0x4C, 0x41, 0x59, 0x45, 0x44]

/-- R134: "QUOTES RESUMED". -/
def quotesResumed : Text :=
  [0x51, 0x55, 0x4F, 0x54, 0x45, 0x53, 0x20, 0x52, 0x45, 0x53, 0x55, 0x4D, 0x45, 0x44]

/-- R87, R134, R171, R172: STALE becomes set or clear, with the effects of the transition. -/
def setStale (stale : Bool) (s : State) : State :=
  let text := if stale then quotesDelayed else quotesResumed
  let s1 : State := { s with
    feed := { s.feed with stale := stale }
    tapes := s.tapes.map (fun u => { u with feedSlot := some text }) }
  mark (pricePositions s1) (latch .staleChange s1)

/-! ### The time base -/

/-- One interval of 10 ms passes: the time base counts it (chapter 0, "Time"), each rail's next multiplex frame takes
the effective duty that stands (R90), and the rails may be sampled again (R88). While POR is asserted "the time base
does not count" (R174). -/
def nextInterval (s : State) : State :=
  if s.por then s
  else { s with
    time := s.time + 1
    rails := Vec.mapIx (fun i r => { r with duty := railDuty s i, sampled := false }) s.rails }

end Sys2Proof.Machine
end

