-- ==== Sys2Proof/Machine/Boards.lean ====
section
/-! DEFINITION. Chapter 5: the writing of positions, the blink timers, the rails and the panel states. -/

namespace Sys2Proof.Machine

/-! ### Position content (R80 to R82) -/

/-- R82: the tick lamp of a direction. -/
def Direction.lamp : Direction → TickLamp
  | .none => .dark
  | .up => .up
  | .zeroUp => .upB
  | .down => .down
  | .zeroDown => .downB

/-- R82: is the record HALTED? Its tick lamps are dark. -/
def Record.isHalted (r : Record) : Bool :=
  match r.state with
  | .halted _ => true
  | .listed => false
  | .trading => false
  | .closed => false
  | .retiring => false

/-- R81: the drive mode of a bound shown entry, by the first condition that applies. -/
def driveModeOf (stale : Bool) (flash : Nat) (e : Entry) : DriveMode :=
  if stale && e.kind.isPrice then .blinkB
  else if decide (0 < flash) && e.flashes then .flashA
  else .steady

/-- R82: the tick lamp of a bound shown entry. -/
def tickLampOf (e : Entry) (r : Record) : TickLamp := if e.tick && !r.isHalted then r.direction.lamp else .dark

/-- R80 to R82: the content for an entry bound to a record. -/
def boundContent (stale : Bool) (flash : Nat) (e : Entry) (r : Record) : Content :=
  ⟨driveModeOf stale flash e, tickLampOf e r, blanks (10 - e.width) ++ window e.kind e.width r⟩

/-- R80 to R82: the content for no shown entry, or an unbound one. -/
def blankContent : Content := ⟨.dark, .dark, blanks 10⟩

/-- R78: the content of a write of a position, all read at one moment. -/
def contentOf (s : State) (p : PosIx) : Content :=
  let pos := s.boards.positions[p]
  match shownEntry s pos with
  | none => blankContent
  | some e =>
    match e.binding with
    | none => blankContent
    | some i =>
      match s.records[i] with
      | none => blankContent
      | some r => boundContent s.feed.stale pos.flash e r

/-! ### Position writes -/

/-- R77, R78: the head of the repaint queue leaves it and its write starts, once the bus is free. -/
def startWrite (s : State) : State :=
  match s.boards.repaint with
  | [] => s
  | p :: rest =>
    if busFree s then
      { s with boards := { s.boards with repaint := rest, write := some ⟨p, contentOf s p⟩ } }
    else s

/-- POSITION WRITE START. -/
def execPositionWriteStart (s : State) : Host.Outcome State Fault Refusal := powered startWrite s

/-- The number of the panel's positions with a switch pending (R65). -/
def switchesPending (s : State) (panel : PanelIx) : Nat :=
  (Vec.select (fun p pos => panelOf p == panel && pos.switchPending) s.boards.positions).length

/-- R71: the switch of the panel has completed. -/
def completeSwitch (panel : PanelIx) (s : State) : State :=
  latch (.pageDone panel) (setPanel panel (fun p => { p with lastShown := p.current }) s)

/-- R70, R71: the switch pending flag is cleared where the position is not queued, and the last clearing of a panel
completes its switch. -/
def clearSwitch (p : PosIx) (s : State) : State :=
  if s.boards.positions[p].switchPending && !s.boards.repaint.contains p then
    let s1 := setPosition p (fun pos => { pos with switchPending := false }) s
    if switchesPending s1 (panelOf p) = 0 then completeSwitch (panelOf p) s1 else s1
  else s

/-- R79: what the completion of a write records. -/
def recordWrite (w : PositionWrite) (s : State) : State :=
  if panelLive s (panelOf w.position) then
    clearSwitch w.position (setPosition w.position (fun pos => { pos with image := some w.content }) s)
  else s

/-- R77, R79: the write in progress completes and the bus becomes free. -/
def completeWrite (s : State) : State :=
  match s.boards.write with
  | none => s
  | some w => recordWrite w { s with boards := { s.boards with write := none } }

/-- POSITION WRITE COMPLETE. -/
def execPositionWriteComplete (s : State) : Host.Outcome State Fault Refusal := powered completeWrite s

/-! ### Blink timers -/

/-- R85: the period of a blink timer in intervals. -/
def periodIntervals (s : State) (timer : AB) : Nat := s.params.blinkPeriod.get timer / Config.msPerInterval

/-- R85: a period start is due at the end of the period. -/
def periodDue (s : State) (timer : AB) : Bool :=
  decide (periodIntervals s timer ≤ elapsed s.time (s.boards.timerStart.get timer))

/-- R84, R85: the next period begins where the last one ended. -/
def startPeriod (timer : AB) (s : State) : State :=
  if periodDue s timer then
    periodStarted timer
      (setTimerStart timer (s.boards.timerStart.get timer + BitVec.ofNat 32 (periodIntervals s timer)) s)
  else s

/-- PERIOD START. -/
def execPeriodStart (timer : AB) (s : State) : Host.Outcome State Fault Refusal := powered (startPeriod timer) s

/-! ### Rails -/

/-- R88: the reading of a sample. -/
def readingOf (working fail : Bool) : RailState := if fail then (if working then .ok else .low) else .fail

/-- R89: candidate and run after a sample, and whether the sample makes a state change due (log 8). -/
def sampledRail (settle : Nat) (reading : RailState) (r : Rail) : Rail :=
  let run := if reading = r.candidate then min (r.run + 1) Config.maxRailRun else 1
  { r with
    candidate := reading
    run := run
    sampled := true
    changeDue := decide (settle ≤ run) && reading != r.state }

/-- A rail record changed. -/
def setRail (rail : RailIx) (f : Rail → Rail) (s : State) : State :=
  { s with rails := Vec.update s.rails rail f }

/-- R88, R89: a sample of a rail. Every pair is sampled "once in each time base interval", so a second sample of a rail
belongs to the next interval, which begins with it (log 4). -/
def sampleRail (rail : RailIx) (working fail : Bool) (s : State) : State :=
  let s1 := if s.rails[rail].sampled then nextInterval s else s
  setRail rail (sampledRail s1.params.settleTime (readingOf working fail)) s1

/-- RAIL SAMPLE. -/
def execRailSample (rail : RailIx) (working fail : Bool) (s : State) : Host.Outcome State Fault Refusal :=
  powered (sampleRail rail working fail) s

/-- R91: the effect of a rail's change of state on one of its panels. -/
def railChanged (before after : RailState) (policy : Policy) (panel : PanelIx) (s : State) : State :=
  if before ≠ .fail ∧ after = .fail then shed panel s
  else if before = .fail ∧ after ≠ .fail then recover policy panel s
  else s

/-- R89, R91: the rail's state becomes the candidate, RAIL CHANGE latches, and the rail's panels follow in panel
order. -/
def changeRail (rail : RailIx) (s : State) : State :=
  let r := s.rails[rail]
  if r.changeDue then
    (railPanels s rail).foldl (fun z panel => railChanged r.state r.candidate s.params.policy[rail] panel z)
      (latch (.railChange rail) (setRail rail (fun r => { r with state := r.candidate, changeDue := false }) s))
  else s

/-- RAIL STATE CHANGE. -/
def execRailStateChange (rail : RailIx) (s : State) : Host.Outcome State Fault Refusal := powered (changeRail rail) s

end Sys2Proof.Machine
end

