-- ==== Sys2Proof/Machine/FeedLink.lean ====
section
/-! DEFINITION. Chapter 11: the characters and frames of the feed link, the reply queue, unknown kinds and quiet
supervision. -/

namespace Sys2Proof.Machine

/-- The receiver changed. -/
def setReceiver (r : Receiver) (s : State) : State := { s with feed := { s.feed with receiver := r } }

/-- R160: the lead byte. -/
def leadByte : Byte := 0xC3

/-- R160: how many characters come before the check character, once the length character is in. -/
def frameEnd (chars : List Byte) : Option Nat := if chars.length < 3 then none else some (3 + (byteAt chars 2).toNat)

/-- R160: would the next character be the check character? -/
def feedCheckNext (chars : List Byte) : Bool := frameEnd chars == some chars.length

/-- R161: would the character be a length character above 240? -/
def badFeedLength (chars : List Byte) (char : Byte) : Bool :=
  decide (chars.length = 2) && decide (Config.maxFeedLength < char.toNat)

/-- R160: a character that is neither a check character nor a failure. -/
def takeFeedChar (char : Byte) (s : State) : State :=
  match s.feed.receiver with
  | .hunting => if char = leadByte then setReceiver (.inFrame [] s.time) s else s
  | .inFrame chars _ =>
    if feedCheckNext chars || badFeedLength chars char then s
    else setReceiver (.inFrame (chars ++ [char]) s.time) s

/-- FEED CHARACTER ARRIVAL. -/
def execFeedCharacterArrival (char : Byte) (s : State) : Host.Outcome State Fault Refusal :=
  powered (takeFeedChar char) s

/-- R161: a framing failure is counted and the receiver returns to HUNTING. -/
def countFraming (s : State) : State :=
  { s with feed := { s.feed with receiver := .hunting, framingCount := raise16 s.feed.framingCount } }

/-- R161: is the failure one that a frame with these characters can meet? -/
def feedFailureFits (chars : List Byte) : FeedFailure → Bool
  | .badStop => true
  | .badLength n => badFeedLength chars n

/-- R161: a bad stop bit or a length above 240 inside a frame; in HUNTING the character "is discarded like any other and
counted nowhere". -/
def takeFeedFailure (cause : FeedFailure) (s : State) : State :=
  match s.feed.receiver with
  | .hunting => s
  | .inFrame chars _ => if feedFailureFits chars cause then countFraming s else s

/-- FRAMING FAILURE. -/
def execFramingFailure (cause : FeedFailure) (s : State) : Host.Outcome State Fault Refusal :=
  powered (takeFeedFailure cause) s

/-- R161: "more than 2 time base intervals pass after the last character received, before the frame is complete". -/
def expireFrameGap (s : State) : State :=
  match s.feed.receiver with
  | .hunting => s
  | .inFrame _ last => if Config.gapLimit < elapsed s.time last then countFraming s else s

/-- FRAME GAP EXPIRY. -/
def execFrameGapExpiry (s : State) : Host.Outcome State Fault Refusal := powered expireFrameGap s

/-- R162, step 1: the frame counts as intact, and STALE is cleared by R172. -/
def noteIntact (s : State) : State :=
  let s1 : State := { s with feed := { s.feed with lastIntact := s.time } }
  if s1.feed.stale then setStale false s1 else s1

/-- R162, steps 2 and 3: the frame is appended, or lost to overrun. -/
def queueFrame (f : Frame) (s : State) : State :=
  if s.feed.inbound.length < Config.inboundPlaces then { s with feed := { s.feed with inbound := s.feed.inbound ++ [f] } }
  else { s with feed := { s.feed with overrunCount := raise16 s.feed.overrunCount } }

/-- R160, R177: the frame of the characters from kind to the last of the body. -/
def frameOf (chars : List Byte) : Frame := ⟨byteAt chars 0, byteAt chars 1, chars.drop 3⟩

/-- R161: a complete frame that is not intact is counted. -/
def countCheck (s : State) : State :=
  { s with feed := { s.feed with checkCount := raise16 s.feed.checkCount } }

/-- R160 to R162: the check character completes the frame. -/
def completeFrame (check : Byte) (s : State) : State :=
  match s.feed.receiver with
  | .hunting => s
  | .inFrame chars _ =>
    if feedCheckNext chars then
      if sumsToZero (chars ++ [check]) then queueFrame (frameOf chars) (noteIntact (setReceiver .hunting s))
      else countCheck (setReceiver .hunting s)
    else s

/-- FRAME COMPLETE. -/
def execFrameComplete (check : Byte) (s : State) : Host.Outcome State Fault Refusal := powered (completeFrame check) s

/-- R165: the last character of the head reply has been sent, and the reply leaves the queue. -/
def sendReply (s : State) : State := { s with feed := { s.feed with replies := s.feed.replies.tail } }

/-- REPLY SENT. -/
def execReplySent (s : State) : Host.Outcome State Fault Refusal := powered sendReply s

/-- R164, step 1: a taken frame of a kind that is no message is answered MALFORMED. -/
def takeUnknown (s : State) : State :=
  match s.feed.inbound with
  | [] => s
  | f :: _ => if knownKind f.kind = false ∧ canTake s then placeReply f.kind f.tag ⟨.malformed, []⟩ (removeHead s) else s

/-- UNKNOWN KIND TAKEN. -/
def execUnknownKindTaken (s : State) : Host.Outcome State Fault Refusal := powered takeUnknown s

/-- R171: the conditions under which STALE becomes set. -/
def quietLimitReached (s : State) : Bool :=
  s.phase == .opened && !s.feed.stale && s.params.quietLimit != 0
    && decide (s.params.quietLimit * Config.intervalsPerSecond ≤ elapsed s.time s.feed.lastIntact)

/-- R171: the silence reaches the quiet limit. -/
def expireQuietLimit (s : State) : State := if quietLimitReached s then setStale true s else s

/-- QUIET LIMIT EXPIRY. -/
def execQuietLimitExpiry (s : State) : Host.Outcome State Fault Refusal := powered expireQuietLimit s

end Sys2Proof.Machine
end

