-- ==== Sys2Proof/Machine/Layout.lean ====
section
/-! DEFINITION. Chapter 4: LOAD ENTRY, UNLOAD ENTRY, DEFINE PAGE, UNDEFINE PAGE, SHOW PAGE and RESTORE PANEL. -/

namespace Sys2Proof.Machine

/-- R65: the range of a page. -/
def Page.holds (page : Page) (index : Nat) : Bool :=
  decide (page.first ≤ index) && decide (index < page.first + page.count)

/-- R59, R61: does the index lie in the range of any defined page? -/
def inDefinedPage (s : State) (index : Nat) : Bool :=
  s.pages.toList.any (fun page => match page with | none => false | some page => page.holds index)

/-- R65: "a page is shown while it is the current page of a panel". -/
def pageShown (s : State) (page : PageIx) : Bool := s.panels.toList.any (fun p => p.current == some page)

/-! ### LOAD ENTRY and UNLOAD ENTRY -/

/-- R60: the entry set at the index, and the positions that show the index marked. -/
def loadAt (index : EntryIx) (e : Entry) (s : State) : State :=
  let s1 : State := { s with entries := s.entries.set index (some e) }
  mark (Vec.select (fun _ pos => pos.shown == some index) s1.boards.positions) s1

/-- R59, step 3: a LOAD there would not break a defined page. -/
def loadFits (s : State) (index : EntryIx) (panel : PanelIx) (position : Fin 64) : Bool :=
  !inDefinedPage s index.val ||
    (match s.entries[index] with
      | none => false
      | some e => e.panel == panel && e.position == position)

/-- R59, R60: the layout store's answer to a LOAD ENTRY. -/
def applyLoadEntry (b : List Byte) (s : State) : State × Answer :=
  match symbolAt b 7 with
  | none => refuse .malformed s
  | some sym =>
    match placeOf (field b 0 2) 2048, placeOf (field b 2 1) 16, placeOf (field b 3 1) 64,
        fieldKindOfCode (byteAt b 4) with
    | some index, some panel, some position, some kind =>
      let width := field b 5 1
      if width < 1 ∨ 10 < width then refuse .range s
      else if loadFits s index panel position then
        let binding := (liveLookup sym s).map (·.1)
        (loadAt index ⟨panel, position, kind, width, flagAt b 6 0, flagAt b 6 1, sym, binding⟩ s,
          ⟨.ok, beBytes 2 index.val ++ orNone 2 (binding.map (·.val))⟩)
      else refuse .conflict s
    | _, _, _, _ => refuse .range s

/-- LOAD ENTRY. -/
def execLoadEntry (s : State) : Host.Outcome State Fault Refusal := powered (takeMessage .loadEntry applyLoadEntry) s

/-- R61: the layout store's answer to an UNLOAD ENTRY. -/
def applyUnloadEntry (b : List Byte) (s : State) : State × Answer :=
  match placeOf (field b 0 2) 2048 with
  | none => refuse .range s
  | some index =>
    if inDefinedPage s index.val then refuse .conflict s
    else ({ s with entries := s.entries.set index none }, ⟨.ok, []⟩)

/-- UNLOAD ENTRY. -/
def execUnloadEntry (s : State) : Host.Outcome State Fault Refusal :=
  powered (takeMessage .unloadEntry applyUnloadEntry) s

/-! ### DEFINE PAGE and UNDEFINE PAGE -/

/-- The entries of a range, absent where an index is EMPTY or does not exist. -/
def rangeEntries (s : State) (first count : Nat) : List (Option Entry) :=
  (List.range count).map (fun k => (placeOf (first + k) 2048).bind (fun i => s.entries[i]))

/-- R66, steps 4 and 5: the entry is LOADED and names the panel. -/
def namesPanel (panel : PanelIx) : Option Entry → Bool
  | none => false
  | some e => e.panel == panel

/-- R66, steps 3 to 6: the range is within the store, and its entries are LOADED, name the panel and name no position
twice. -/
def pageQualifies (s : State) (panel : PanelIx) (first count : Nat) : Bool :=
  let entries := rangeEntries s first count
  decide (first + count ≤ 2048)
    && entries.all (namesPanel panel)
    && decide ((entries.filterMap (fun e => e.map (·.position))).Nodup)

/-- R66: the layout store's answer to a DEFINE PAGE. -/
def applyDefinePage (b : List Byte) (s : State) : State × Answer :=
  let first := field b 2 2
  let count := field b 4 1
  match placeOf (field b 0 1) 32, placeOf (field b 1 1) 16 with
  | some n, some panel =>
    if 2047 < first ∨ count < 1 ∨ 64 < count then refuse .range s
    else if pageShown s n then refuse .shown s
    else if pageQualifies s panel first count then
      ({ s with pages := s.pages.set n (some ⟨panel, first, count⟩) }, ⟨.ok, []⟩)
    else refuse .badPage s
  | _, _ => refuse .range s

/-- DEFINE PAGE. -/
def execDefinePage (s : State) : Host.Outcome State Fault Refusal :=
  powered (takeMessage .definePage applyDefinePage) s

/-- R67: the layout store's answer to an UNDEFINE PAGE. -/
def applyUndefinePage (b : List Byte) (s : State) : State × Answer :=
  match placeOf (field b 0 1) 32 with
  | none => refuse .range s
  | some n =>
    if pageShown s n then refuse .shown s else ({ s with pages := s.pages.set n none }, ⟨.ok, []⟩)

/-- UNDEFINE PAGE. -/
def execUndefinePage (s : State) : Host.Outcome State Fault Refusal :=
  powered (takeMessage .undefinePage applyUndefinePage) s

/-! ### SHOW PAGE and RESTORE PANEL -/

/-- R69, R72: the reply body carries "the panel, its current page and its panel state after the message". -/
def panelAnswer (panel : PanelIx) (s : State) : State × Answer :=
  (s, ⟨.ok, [byte panel.val] ++ orNone 1 (s.panels[panel].current.map (·.val)) ++ [s.panels[panel].state.code]⟩)

/-- R69, steps 1 to 3. -/
def showPage (panel : PanelIx) (page : Option PageIx) (s : State) : State :=
  beginSwitch panel (setPanel panel (fun p => { p with current := page }) s)

/-- R69: a page can be shown on the panel when it is defined and belongs to it. -/
def pageOfPanel (s : State) (panel : PanelIx) (n : PageIx) : Bool :=
  match s.pages[n] with
  | none => false
  | some page => page.panel == panel

/-- R69, R177: the layout store's answer to a SHOW PAGE; the page byte 0xFF means none. -/
def applyShowPage (b : List Byte) (s : State) : State × Answer :=
  match placeOf (field b 0 1) 16 with
  | none => refuse .range s
  | some panel =>
    if byteAt b 1 = 0xFF then panelAnswer panel (showPage panel none s)
    else
      match placeOf (field b 1 1) 32 with
      | none => refuse .range s
      | some n =>
        if pageOfPanel s panel n then panelAnswer panel (showPage panel (some n) s) else refuse .badPage s

/-- SHOW PAGE. -/
def execShowPage (s : State) : Host.Outcome State Fault Refusal := powered (takeMessage .showPage applyShowPage) s

/-- R72: the effect by the panel state. -/
def restorePanel (panel : PanelIx) (s : State) : State :=
  match s.panels[panel].state with
  | .heldDark => beginSwitch panel s
  | .live => s
  | .shed => s

/-- R72: the layout store's answer to a RESTORE PANEL. -/
def applyRestorePanel (b : List Byte) (s : State) : State × Answer :=
  match placeOf (field b 0 1) 16 with
  | none => refuse .range s
  | some panel => panelAnswer panel (restorePanel panel s)

/-- RESTORE PANEL. -/
def execRestorePanel (s : State) : Host.Outcome State Fault Refusal :=
  powered (takeMessage .restorePanel applyRestorePanel) s

end Sys2Proof.Machine
end

