-- ==== Sys2Proof/Machine/Parameters.lean ====
section
/-! DEFINITION. Section 11.5: the numbered parameters, SET PARAMETER with the effect that each owner gives a write, and
READ PARAMETER. -/

namespace Sys2Proof.Machine

/-- R167: the parameters by name. -/
inductive Parameter where
  | quietLimit
  | flashCount
  | blinkPeriod (timer : AB)
  | litPart (timer : AB)
  | settleTime
  | sagCeiling
  | brightness (rail : RailIx)
  | policy (rail : RailIx)
  | panelRail (panel : PanelIx)
  | verifyEnable
  | verifyGap
  | failThreshold
  | clearThreshold
  | stepPeriod (ribbon : AB)
  | ec (tape : AB)
  | eb (tape : AB)
  | lc (tape : AB)
  | lb (tape : AB)
  | k (tape : AB)
  | replyWindow
  | absentThreshold
  | probeSpacing
  | mask
  deriving DecidableEq, Repr

/-- R167: the parameters in the order of their numbers, 1 to 52. -/
def parameterTable : List Parameter :=
  .quietLimit :: .flashCount :: .blinkPeriod .a :: .litPart .a :: .blinkPeriod .b :: .litPart .b :: .settleTime
    :: .sagCeiling :: List.append ((List.finRange 4).map .brightness) (List.append ((List.finRange 4).map .policy)
      (List.append ((List.finRange 16).map .panelRail)
        [.verifyEnable, .verifyGap, .failThreshold, .clearThreshold, .stepPeriod .a, .stepPeriod .b, .ec .a, .eb .a,
          .lc .a, .lb .a, .k .a, .ec .b, .eb .b, .lc .b, .lb .b, .k .b, .replyWindow, .absentThreshold, .probeSpacing,
          .mask]))

/-- R167: the parameter of a number; none where the number is not in the table. -/
def parameterOf (n : Nat) : Option Parameter :=
  match n with
  | 0 => none
  | m + 1 => parameterTable[m]?

/-- R167: a recovery policy is carried as 0 for RESTORE and 1 for HOLD. -/
def Policy.code : Policy → Nat
  | .restore => 0
  | .hold => 1

/-- R167: the value held for a parameter, "carried as a whole number". -/
def Params.value (p : Params) : Parameter → Nat
  | .quietLimit => p.quietLimit
  | .flashCount => p.flashCount
  | .blinkPeriod timer => p.blinkPeriod.get timer
  | .litPart timer => p.litPart.get timer
  | .settleTime => p.settleTime
  | .sagCeiling => p.sagCeiling
  | .brightness rail => p.brightness[rail]
  | .policy rail => p.policy[rail].code
  | .panelRail panel => p.panelRail[panel].val
  | .verifyEnable => if p.verifyEnable then 1 else 0
  | .verifyGap => p.verifyGap
  | .failThreshold => p.failThreshold
  | .clearThreshold => p.clearThreshold
  | .stepPeriod ribbon => p.stepPeriod.get ribbon
  | .ec tape => (p.thresholds.get tape).ec
  | .eb tape => (p.thresholds.get tape).eb
  | .lc tape => (p.thresholds.get tape).lc
  | .lb tape => (p.thresholds.get tape).lb
  | .k tape => (p.thresholds.get tape).k
  | .replyWindow => p.replyWindow
  | .absentThreshold => p.absentThreshold
  | .probeSpacing => p.probeSpacing
  | .mask => p.mask.toNat

/-- The parameter set given where the value lies within `lo` to `hi`. -/
def inRange (lo hi v : Nat) (p : Params) : Option Params := if lo ≤ v ∧ v ≤ hi then some p else none

/-- R85, R167: the four periods of a blink timer. -/
def blinkPeriodFits (v : Nat) : Bool := v == 250 || v == 500 || v == 1000 || v == 2000

/-- R130: the ranges of the five mode thresholds and the two conditions they must satisfy. -/
def Thresholds.fit (t : Thresholds) : Bool :=
  decide (1 ≤ t.ec ∧ t.ec ≤ 2048) && decide (1 ≤ t.eb ∧ t.eb ≤ 2048) && decide (t.lc ≤ 2047) && decide (t.lb ≤ 2047)
    && decide (1 ≤ t.k ∧ t.k ≤ 255) && decide (t.lc < t.ec) && decide (t.ec ≤ t.eb) && decide (t.lb < t.eb)

/-- R130: a tape's thresholds replaced, unless the new values break a range or a condition. -/
def setThresholds (p : Params) (tape : AB) (t : Thresholds) : Option Params :=
  if t.fit then some { p with thresholds := p.thresholds.put tape t } else none

/-- R167: the parameter set after a write of `v`; none is the refusal with RANGE. -/
def Params.write (p : Params) (q : Parameter) (v : Nat) : Option Params :=
  match q with
  | .quietLimit => inRange 0 60 v { p with quietLimit := v }
  | .flashCount => inRange 0 15 v { p with flashCount := v }
  | .blinkPeriod timer =>
    if blinkPeriodFits v then some { p with blinkPeriod := p.blinkPeriod.put timer v } else none
  | .litPart timer => inRange 0 8 v { p with litPart := p.litPart.put timer v }
  | .settleTime => inRange 2 50 v { p with settleTime := v }
  | .sagCeiling => inRange 1 12 v { p with sagCeiling := v }
  | .brightness rail => inRange 0 15 v { p with brightness := p.brightness.set rail v }
  | .policy rail =>
    if v = 0 then some { p with policy := p.policy.set rail .restore }
    else if v = 1 then some { p with policy := p.policy.set rail .hold }
    else none
  | .panelRail panel => (placeOf v 4).map (fun rail => { p with panelRail := p.panelRail.set panel rail })
  | .verifyEnable => inRange 0 1 v { p with verifyEnable := v == 1 }
  | .verifyGap => inRange 0 255 v { p with verifyGap := v }
  | .failThreshold => inRange 1 8 v { p with failThreshold := v }
  | .clearThreshold => inRange 1 8 v { p with clearThreshold := v }
  | .stepPeriod ribbon => inRange 4 30 v { p with stepPeriod := p.stepPeriod.put ribbon v }
  | .ec tape => setThresholds p tape { p.thresholds.get tape with ec := v }
  | .eb tape => setThresholds p tape { p.thresholds.get tape with eb := v }
  | .lc tape => setThresholds p tape { p.thresholds.get tape with lc := v }
  | .lb tape => setThresholds p tape { p.thresholds.get tape with lb := v }
  | .k tape => setThresholds p tape { p.thresholds.get tape with k := v }
  | .replyWindow => inRange 4 25 v { p with replyWindow := v }
  | .absentThreshold => inRange 1 8 v { p with absentThreshold := v }
  | .probeSpacing => inRange 2 64 v { p with probeSpacing := v }
  | .mask => some { p with mask := flagsOf v }

/-! ### What an owner does with a write -/

/-- R85: a write of a blink timer's period or lit part restarts the timer, "and that restart is itself a period
start". -/
def restartTimer (timer : AB) (s : State) : State := periodStarted timer (setTimerStart timer s.time s)

/-- R95: a panel assigned to another rail, by the state of its new rail. -/
def reassignPanel (panel : PanelIx) (s : State) : State :=
  let rail := s.params.panelRail[panel]
  if s.rails[rail].state = .fail then
    match s.panels[panel].state with
    | .live => shed panel s
    | .shed => s
    | .heldDark => shed panel s
  else
    match s.panels[panel].state with
    | .live => s
    | .shed => recover s.params.policy[rail] panel s
    | .heldDark => s

/-- R99: verify enable changed; `s` holds the new value. -/
def verifyEnableChanged (s : State) : State :=
  if s.params.verifyEnable then
    match s.verifier.phase with
    | .idle => beginGap s
    | .waiting _ _ => s
    | .ready => s
    | .reading => s
  else
    match s.verifier.phase with
    | .idle => s
    | .waiting _ _ => { s with verifier := { s.verifier with phase := .idle } }
    | .ready => { s with verifier := { s.verifier with phase := .idle } }
    | .reading => s

/-- R167: the effect that the owner of a parameter gives its write; `old` is the set before it, `s` holds the new. -/
def parameterWritten (q : Parameter) (old : Params) (s : State) : State :=
  match q with
  | .blinkPeriod timer => restartTimer timer s
  | .litPart timer => restartTimer timer s
  | .panelRail panel => if old.panelRail[panel] = s.params.panelRail[panel] then s else reassignPanel panel s
  | .verifyEnable => if old.verifyEnable = s.params.verifyEnable then s else verifyEnableChanged s
  | .quietLimit => s
  | .flashCount => s
  | .settleTime => s
  | .sagCeiling => s
  | .brightness _ => s
  | .policy _ => s
  | .verifyGap => s
  | .failThreshold => s
  | .clearThreshold => s
  | .stepPeriod _ => s
  | .ec _ => s
  | .eb _ => s
  | .lc _ => s
  | .lb _ => s
  | .k _ => s
  | .replyWindow => s
  | .absentThreshold => s
  | .probeSpacing => s
  | .mask => s

/-- R167: the body of both replies, "the number and the value held". -/
def parameterAnswer (n : Nat) (q : Parameter) (p : Params) : Answer := ⟨.ok, byte n :: beBytes 4 (p.value q)⟩

/-- R167: the answer to a SET PARAMETER. -/
def applySetParameter (b : List Byte) (s : State) : State × Answer :=
  match parameterOf (field b 0 1) with
  | none => refuse .range s
  | some q =>
    match s.params.write q (field b 1 4) with
    | none => refuse .range s
    | some p => (parameterWritten q s.params { s with params := p }, parameterAnswer (field b 0 1) q p)

/-- SET PARAMETER. -/
def execSetParameter (s : State) : Host.Outcome State Fault Refusal :=
  powered (takeMessage .setParameter applySetParameter) s

/-- R167: the answer to a READ PARAMETER. -/
def applyReadParameter (b : List Byte) (s : State) : State × Answer :=
  match parameterOf (field b 0 1) with
  | none => refuse .range s
  | some q => (s, parameterAnswer (field b 0 1) q s.params)

/-- READ PARAMETER. -/
def execReadParameter (s : State) : Host.Outcome State Fault Refusal :=
  powered (takeMessage .readParameter applyReadParameter) s

end Sys2Proof.Machine
end

