-- ==== Sys2Proof/Machine/Postings.lean ====
section
/-! DEFINITION. Chapter 3: TRADE, QUOTE, HALT and RESUME. -/

namespace Sys2Proof.Machine

/-! ### TRADE -/

/-- R43, step 4: a TRADE is accepted for a LISTED or TRADING record. -/
def RecState.trades : RecState → Bool
  | .listed => true
  | .trading => true
  | .halted _ => false
  | .closed => false
  | .retiring => false

/-- R44, steps 2 to 4: the record after a trade of `shares` shares at the posted price `p`. -/
def tradeRecord (r : Record) (p shares : Nat) : Record :=
  { r with
    direction := directionAfter r.reference p r.direction
    day := some (dayAfter r.day p)
    volume := volumeAfter r.volume shares
    trades := tradesAfter r.trades
    state := .trading }

/-- R44, step 5: PRICE, "with STATE added when step 4 moved the record from LISTED to TRADING". -/
def tradeGroups (r : Record) : List Group := if r.state = .listed then [.price, .state] else [.price]

/-- R45: the moved mark. -/
def movedMark (r : Record) (p : Nat) : Bool :=
  match r.day with
  | none => true
  | some d => d.last != p

/-- R44, steps 2 to 6, for the record `r` of slot `i` at the posted price `p`. -/
def postTrade (i : SlotIx) (r : Record) (p shares : Nat) (s : State) : State :=
  tradeNotice i r shares
    (changeNotice i (tradeGroups r) (movedMark r p) (setRecord i (tradeRecord r p shares) s))

/-- R26: ROUNDED when rounding changed the price, OK otherwise. -/
def roundedStatus (changed : Bool) : Status := if changed then .rounded else .ok

/-- R43, R44, R55: the record table's answer to a TRADE. -/
def applyTrade (b : List Byte) (s : State) : State × Answer :=
  match symbolAt b 0 with
  | none => refuse .malformed s
  | some sym =>
    match liveLookup sym s with
    | none => refuse .unknown s
    | some (i, r) =>
      let price := field b 4 3
      let shares := field b 7 3
      if s.phase ≠ .opened then refuse .session s
      else if r.state.trades = false then refuse .state s
      else if shares < 1 ∨ Config.maxShares < shares then refuse .range s
      else
        match roundToGrid r.denominator.step price with
        | none => refuse .range s
        | some p =>
          (postTrade i r p shares s,
            ⟨roundedStatus (p != price), beBytes 2 i.val ++ beBytes 3 p ++ [RecState.trading.code]⟩)

/-- TRADE. -/
def execTrade (s : State) : Host.Outcome State Fault Refusal := powered (takeMessage .trade applyTrade) s

/-! ### QUOTE -/

/-- R47, R177: a side of the message as given; none where it is not given. -/
def sideGiven (given : Bool) (price size : Nat) : Option Side := if given then some ⟨price, size⟩ else none

/-- R48, step 3: each given side has a size within 1 to 9,999 lots. -/
def sizeFits (side : Option Side) : Bool :=
  match side with
  | none => true
  | some x => decide (1 ≤ x.size) && decide (x.size ≤ Config.maxLots)

/-- R25, R26: a side rounded; a side not given is not rounded; none is the refusal of step 1 of R25. -/
def roundSide (g : Nat) (side : Option Side) : Option (Option Side) :=
  match side with
  | none => some none
  | some x => (roundToGrid g x.price).map (fun p => some ⟨p, x.size⟩)

/-- R49: the rounded bid is above the rounded ask. -/
def crossed (bid ask : Option Side) : Bool :=
  match bid, ask with
  | some x, some y => decide (y.price < x.price)
  | _, _ => false

/-- R50, steps 1 and 2. -/
def postQuote (i : SlotIx) (r : Record) (bid ask : Option Side) (s : State) : State :=
  changeNotice i [.quote] false (setRecord i { r with bid := bid, ask := ask } s)

/-- R48, R50, R55: the record table's answer to a QUOTE. -/
def applyQuote (b : List Byte) (s : State) : State × Answer :=
  match symbolAt b 0 with
  | none => refuse .malformed s
  | some sym =>
    match liveLookup sym s with
    | none => refuse .unknown s
    | some (i, r) =>
      let bidGiven := sideGiven (flagAt b 4 0) (field b 5 3) (field b 8 2)
      let askGiven := sideGiven (flagAt b 4 1) (field b 10 3) (field b 13 2)
      if sizeFits bidGiven = false ∨ sizeFits askGiven = false then refuse .range s
      else
        match roundSide r.denominator.step bidGiven, roundSide r.denominator.step askGiven with
        | some bid, some ask =>
          if crossed bid ask then refuse .crossed s
          else
            (postQuote i r bid ask s,
              ⟨roundedStatus (bid != bidGiven || ask != askGiven),
                beBytes 2 i.val ++ withPresence 3 (bid.map (·.price)) ++ withPresence 3 (ask.map (·.price))⟩)
        | _, _ => refuse .range s

/-- QUOTE. -/
def execQuote (s : State) : Host.Outcome State Fault Refusal := powered (takeMessage .quote applyQuote) s

/-! ### HALT and RESUME -/

/-- R52, R54: a record's state changed, with the STATE notice. -/
def postState (i : SlotIx) (r : Record) (st : RecState) (s : State) : State :=
  changeNotice i [.state] false (setRecord i { r with state := st } s)

/-- R51, R52, R55: the record table's answer to a HALT. -/
def applyHalt (b : List Byte) (s : State) : State × Answer :=
  match symbolAt b 0 with
  | none => refuse .malformed s
  | some sym =>
    match liveLookup sym s with
    | none => refuse .unknown s
    | some (i, r) =>
      match haltReasonOfCode (byteAt b 4) with
      | none => refuse .range s
      | some q =>
        (postState i r (.halted q) s, ⟨.ok, beBytes 2 i.val ++ [(RecState.halted q).code, q.code]⟩)

/-- HALT. -/
def execHalt (s : State) : Host.Outcome State Fault Refusal := powered (takeMessage .halt applyHalt) s

/-- R54: where a RESUME leads, by the phase and the presence of last. -/
def resumeState (phase : SessionPhase) (lastPresent : Bool) : RecState :=
  match phase with
  | .pre => .listed
  | .opened => if lastPresent then .trading else .listed
  | .post => .closed

/-- R53: is the record HALTED? -/
def RecState.isHalted : RecState → Bool
  | .listed => false
  | .trading => false
  | .halted _ => true
  | .closed => false
  | .retiring => false

/-- R53, R54, R55: the record table's answer to a RESUME. -/
def applyResume (b : List Byte) (s : State) : State × Answer :=
  match symbolAt b 0 with
  | none => refuse .malformed s
  | some sym =>
    match liveLookup sym s with
    | none => refuse .unknown s
    | some (i, r) =>
      if r.state.isHalted then
        let st := resumeState s.phase r.day.isSome
        (postState i r st s, ⟨.ok, beBytes 2 i.val ++ [st.code]⟩)
      else refuse .state s

/-- RESUME. -/
def execResume (s : State) : Host.Outcome State Fault Refusal := powered (takeMessage .resume applyResume) s

end Sys2Proof.Machine
end

