-- ==== Sys2Proof/Machine/Records.lean ====
section
/-! DEFINITION. Chapter 1: LIST, DELIST, QUERY RECORD, SESSION OPEN, SESSION CLOSE, DAY ROLL and TABLE CLEAR. -/

namespace Sys2Proof.Machine

/-! ### LIST -/

/-- R10, step 3: a close that is given is a price on the grid; "a close is not rounded". -/
def closeFits (d : Denominator) (close : Option Nat) : Bool :=
  match close with
  | none => true
  | some c => validPrice c && decide (c % d.step = 0)

/-- R11, step 2: the record of a newly listed issue. -/
def newRecord (sym : Symbol) (t : AB) (d : Denominator) (close : Option Nat) : Record where
  symbol := sym
  state := .listed
  tape := t
  denominator := d
  close := close
  day := none
  bid := none
  ask := none
  volume := 0
  trades := 0
  direction := .none
  pending := none

/-- R11, steps 2 to 5, for the slot taken. -/
def listAt (i : SlotIx) (r : Record) (s : State) : State :=
  let s1 := setRecord i r s
  let s2 : State := { s1 with directory := addDirectory r.symbol i s1.directory }
  changeNotice i [.day] false (bindEntries r.symbol i s2)

/-- R10, R11: the record table's answer to a LIST. -/
def applyList (b : List Byte) (s : State) : State × Answer :=
  match symbolAt b 0 with
  | none => refuse .malformed s
  | some sym =>
    match tapeOfCode (byteAt b 4), denominatorOfCode (byteAt b 5) with
    | some t, some d =>
      let close := if flagAt b 6 0 then some (field b 7 3) else none
      if closeFits d close then
        match fullLookup sym s with
        | some (_, r) => if r.state.isLive then refuse .existing s else refuse .busy s
        | none =>
          match lowestFree s with
          | none => refuse .full s
          | some i => (listAt i (newRecord sym t d close) s, ⟨.ok, beBytes 2 i.val⟩)
      else refuse .range s
    | _, _ => refuse .range s

/-- LIST. -/
def execList (s : State) : Host.Outcome State Fault Refusal := powered (takeMessage .list applyList) s

/-! ### DELIST -/

/-- R13: the record is freed, or becomes RETIRING while its pending print waits. -/
def retire (i : SlotIx) (r : Record) (s : State) : State :=
  match r.pending with
  | none => freeSlot i s
  | some _ => setRecord i { r with state := .retiring } s

/-- R12, steps 1 to 3. -/
def delistAt (i : SlotIx) (r : Record) (s : State) : State :=
  retire i r (onTerminals (Terminal.dropEntries (· == i)) (unbindEntries (· == i) s))

/-- R12: the record table's answer to a DELIST. -/
def applyDelist (b : List Byte) (s : State) : State × Answer :=
  match symbolAt b 0 with
  | none => refuse .malformed s
  | some sym =>
    match fullLookup sym s with
    | none => refuse .unknown s
    | some (i, r) => if r.state.isLive then (delistAt i r s, ⟨.ok, []⟩) else refuse .state s

/-- DELIST. -/
def execDelist (s : State) : Host.Outcome State Fault Refusal := powered (takeMessage .delist applyDelist) s

/-! ### QUERY RECORD -/

/-- R16. -/
def applyQueryRecord (b : List Byte) (s : State) : State × Answer :=
  match symbolAt b 0 with
  | none => refuse .malformed s
  | some sym =>
    match fullLookup sym s with
    | none => refuse .unknown s
    | some (i, r) => (s, ⟨.ok, recordImage i r⟩)

/-- QUERY RECORD. -/
def execQueryRecord (s : State) : Host.Outcome State Fault Refusal :=
  powered (takeMessage .queryRecord applyQueryRecord) s

/-! ### Session phases -/

/-- R17, R18. -/
def applySessionOpen (_b : List Byte) (s : State) : State × Answer :=
  if s.phase = .pre then ({ s with phase := .opened }, ⟨.ok, []⟩) else refuse .session s

/-- SESSION OPEN. -/
def execSessionOpen (s : State) : Host.Outcome State Fault Refusal :=
  powered (takeMessage .sessionOpen applySessionOpen) s

/-- R19, step 2: the states that SESSION CLOSE moves to CLOSED. -/
def RecState.closes : RecState → Bool
  | .listed => true
  | .trading => true
  | .halted _ => false
  | .closed => false
  | .retiring => false

/-- R19, step 2. -/
def closeRecord (r : Record) : Record := if r.state.closes then { r with state := .closed } else r

/-- R19, step 3: the slots whose records SESSION CLOSE moves. -/
def closingSlots (s : State) : List SlotIx :=
  Vec.select (fun _ r => match r with | none => false | some r => r.state.closes) s.records

/-- R19, steps 1 to 3. -/
def closeSession (s : State) : State :=
  changeNotices (closingSlots s) [.state]
    { s with phase := .post, records := Vec.mapIx (fun _ r => r.map closeRecord) s.records }

/-- R17, R19. -/
def applySessionClose (_b : List Byte) (s : State) : State × Answer :=
  if s.phase = .opened then (closeSession s, ⟨.ok, []⟩) else refuse .session s

/-- SESSION CLOSE. -/
def execSessionClose (s : State) : Host.Outcome State Fault Refusal :=
  powered (takeMessage .sessionClose applySessionClose) s

/-! ### DAY ROLL -/

/-- R21: a record after DAY ROLL. -/
def rollRecord (r : Record) : Record :=
  { r with
    close := match r.day with
      | some d => some d.last
      | none => r.close
    day := none
    bid := none
    ask := none
    volume := 0
    trades := 0
    state := if r.state = .closed then .listed else r.state }

/-- R21: the phase, the records and the notices of an accepted DAY ROLL. -/
def rollDay (s : State) : State :=
  changeNotices (occupiedSlots s) [.day]
    { s with phase := .pre, records := Vec.mapIx (fun _ r => r.map rollRecord) s.records }

/-- R20, R21. -/
def applyDayRoll (_b : List Byte) (s : State) : State × Answer :=
  if s.phase ≠ .post then refuse .session s
  else if s.tapes.a.prints ≠ [] ∨ s.tapes.b.prints ≠ [] then refuse .busy s
  else (rollDay s, ⟨.ok, []⟩)

/-- DAY ROLL. -/
def execDayRoll (s : State) : Host.Outcome State Fault Refusal := powered (takeMessage .dayRoll applyDayRoll) s

/-! ### TABLE CLEAR -/

/-- R22, step 4: every slot is freed, and "the directory becomes empty". -/
def freeAll (s : State) : State :=
  { s with
    directory := []
    records := Vec.mapIx (fun _ _ => none) s.records }

/-- R22, steps 1 to 4. -/
def clearTable (s : State) : State :=
  freeAll (onTerminals (Terminal.dropEntries (fun _ => true)) (unbindEntries (fun _ => true)
    (withdrawAll .b (withdrawAll .a s))))

/-- R22. -/
def applyTableClear (_b : List Byte) (s : State) : State × Answer :=
  if s.phase = .opened then refuse .session s else (clearTable s, ⟨.ok, []⟩)

/-- TABLE CLEAR. -/
def execTableClear (s : State) : Host.Outcome State Fault Refusal :=
  powered (takeMessage .tableClear applyTableClear) s

end Sys2Proof.Machine
end

