-- ==== Sys2Proof/Machine/Tapes.lean ====
section
/-! DEFINITION. Chapters 7 and 8: TAPE START, TAPE STOP, TAPE CLEAR, NOTICE, and the steps of the ribbons with their
selections. -/

namespace Sys2Proof.Machine

/-- A ribbon driver replaced. -/
def setRibbon (t : AB) (r : Ribbon) (s : State) : State := { s with ribbons := s.ribbons.put t r }

/-- R124: a step period, in intervals, as a time. -/
def stepPeriod (s : State) (t : AB) : Time := BitVec.ofNat 32 (s.params.stepPeriod.get t)

/-! ### TAPE START and TAPE STOP -/

/-- R123: the ribbon state after TAPE START. -/
def startedState (now period : Time) : RibbonState → RibbonState
  | .stopped => .running (now + period)
  | .running next => .running next
  | .stopping next => .running next

/-- R123: the ribbon state after TAPE STOP. -/
def stoppedState (feeder : Text) : RibbonState → RibbonState
  | .stopped => .stopped
  | .running next => if feeder = [] then .stopped else .stopping next
  | .stopping next => .stopping next

/-- R123: the ribbon of a tape started. -/
def startTape (t : AB) (s : State) : State :=
  let r := s.ribbons.get t
  setRibbon t { r with state := startedState s.time (stepPeriod s t) r.state } s

/-- R123: the ribbon of a tape stopped. -/
def stopTape (t : AB) (s : State) : State :=
  let r := s.ribbons.get t
  setRibbon t { r with state := stoppedState r.feeder r.state } s

/-- R123: the reply body carries "the tape and the ribbon state after the message". -/
def ribbonAnswer (t : AB) (s : State) : State × Answer := (s, ⟨.ok, [tapeCode t, (s.ribbons.get t).state.code]⟩)

/-- R123: the answer to a TAPE START. -/
def applyTapeStart (b : List Byte) (s : State) : State × Answer :=
  match tapeOfCode (byteAt b 0) with
  | none => refuse .range s
  | some t => ribbonAnswer t (startTape t s)

/-- TAPE START. -/
def execTapeStart (s : State) : Host.Outcome State Fault Refusal := powered (takeMessage .tapeStart applyTapeStart) s

/-- R123: the answer to a TAPE STOP. -/
def applyTapeStop (b : List Byte) (s : State) : State × Answer :=
  match tapeOfCode (byteAt b 0) with
  | none => refuse .range s
  | some t => ribbonAnswer t (stopTape t s)

/-- TAPE STOP. -/
def execTapeStop (s : State) : Host.Outcome State Fault Refusal := powered (takeMessage .tapeStop applyTapeStop) s

/-! ### TAPE CLEAR and NOTICE -/

/-- R116: the answer to a TAPE CLEAR: the tape, the number of entries withdrawn and the sum of their shares. -/
def applyTapeClear (b : List Byte) (s : State) : State × Answer :=
  match tapeOfCode (byteAt b 0) with
  | none => refuse .range s
  | some t =>
    (withdrawAll t s,
      ⟨.ok, [tapeCode t] ++ beBytes 2 (s.tapes.get t).prints.length ++ beBytes 4 (tapePendingShares t s).toNat⟩)

/-- TAPE CLEAR. -/
def execTapeClear (s : State) : Host.Outcome State Fault Refusal := powered (takeMessage .tapeClear applyTapeClear) s

/-- R132, step 1: 1 to 32 glyphs, each displayable. -/
def textFits (text : Text) : Bool :=
  decide (1 ≤ text.length) && decide (text.length ≤ 32) && text.all displayable

/-- R132: the text placed in the tape's staged slot. -/
def stageNotice (t : AB) (text : Text) (s : State) : State :=
  setTape t { s.tapes.get t with staged := some text } s

/-- R132: the tape unit's answer to a NOTICE. -/
def applyNotice (b : List Byte) (s : State) : State × Answer :=
  let text := b.drop 1
  if textFits text then
    match tapeOfCode (byteAt b 0) with
    | none => refuse .range s
    | some t =>
      if (s.tapes.get t).staged.isSome then refuse .busy s else (stageNotice t text s, ⟨.ok, [tapeCode t]⟩)
  else refuse .malformed s

/-- NOTICE. -/
def execNotice (s : State) : Host.Outcome State Fault Refusal := powered (takeMessage .notice applyNotice) s

/-! ### The selection (R126) -/

/-- R128, R129: "LATE m MIN". -/
def lateText (m : Nat) : Text :=
  [0x4C, 0x41, 0x54, 0x45, 0x20] ++ digits m ++ [0x20, 0x4D, 0x49, 0x4E]

/-- R128, R129: "ON TIME". -/
def onTimeText : Text := [0x4F, 0x4E, 0x20, 0x54, 0x49, 0x4D, 0x45]

/-- R129: the lateness in minutes from the joined time of the head entry; 0 for an empty list. -/
def latenessNow (now : Time) (oldest : Option Time) : Nat :=
  match oldest with
  | none => 0
  | some joined => min Config.maxLateness (elapsed now joined / Config.intervalsPerMinute)

/-- R119, R129: the joined time of the head entry of a tape's list. -/
def oldestJoined (t : AB) (s : State) : Option Time :=
  match (s.tapes.get t).prints with
  | [] => none
  | i :: _ => (s.records[i].bind (·.pending)).map (·.joined)

/-- R129: the lateness evaluation, for a lateness of `m` minutes. -/
def evaluateLateness (m : Nat) (u : TapeUnit) : TapeUnit :=
  if m = u.lateness then u
  else { u with lateSlot := some (if m = 0 then onTimeText else lateText m), lateness := m }

/-- R128, R131: the text of a mode. -/
def modeText : PrintMode → Text
  | .full => [0x46, 0x55, 0x4C, 0x4C, 0x20, 0x50, 0x52, 0x49, 0x4E, 0x54]
  | .cut => [0x50, 0x52, 0x49, 0x43, 0x45, 0x53, 0x20, 0x43, 0x55, 0x54]
  | .bare =>
    [0x50, 0x52, 0x49, 0x43, 0x45, 0x53, 0x20, 0x41, 0x4E, 0x44, 0x20, 0x53, 0x49, 0x5A, 0x45, 0x53, 0x20, 0x43, 0x55,
      0x54]

/-- R131: a counting selection: the count raised, or the mode fallen to `lower` when the count reaches K. -/
def countToward (lower here : PrintMode) (k count : Nat) : PrintMode × Nat :=
  let raised := min (count + 1) Config.maxModeCount
  if k ≤ raised then (lower, 0) else (here, raised)

/-- R131: mode and count after the mode evaluation of a selection that finds the backlog `backlog`. -/
def modeAfter (th : Thresholds) (backlog : Nat) (mode : PrintMode) (count : Nat) : PrintMode × Nat :=
  match mode with
  | .full => if th.eb ≤ backlog then (.bare, 0) else if th.ec ≤ backlog then (.cut, 0) else (.full, count)
  | .cut =>
    if th.eb ≤ backlog then (.bare, 0)
    else if backlog ≤ th.lc then countToward .full .cut th.k count
    else (.cut, 0)
  | .bare => if backlog ≤ th.lb then countToward .cut .bare th.k count else (.bare, 0)

/-- R131: the mode evaluation of a tape whose list has the backlog `backlog`. -/
def evaluateMode (th : Thresholds) (backlog : Nat) (u : TapeUnit) : TapeUnit :=
  let (mode, count) := modeAfter th backlog u.mode u.modeCount
  if mode = u.mode then { u with modeCount := count }
  else { u with mode := mode, modeCount := count, modeSlot := some (modeText mode) }

/-- R127: the notices are fed with three blanks after them. -/
def noticeItem (kind : ItemKind) (text : Text) : ItemKind × Text := (kind, text ++ blanks 3)

/-- R114, steps 1 to 6: the head `i` of a tape's list composed and taken off, where its record has a last price. -/
def composeHead (t : AB) (i : SlotIx) (r : Record) (last : Nat) (s : State) : State × (ItemKind × Text) :=
  let u := s.tapes.get t
  let shares := pendingShares s i
  (reportGone i (setPendingPrint i none
      (setTape t { u with prints := u.prints.tail, printed := u.printed + shares } s)),
    (.print, printText u.mode r.symbol last shares))

/-- R127, line 6. -/
def blankItem : ItemKind × Text := (.blank, blanks 1)

/-- R127, lines 5 and 6: the head of the list, or a blank. "Composition never meets a record without a price" (R114); in
a state that breaks that law, which no run reaches, a blank is fed (log 17). -/
def choosePrint (t : AB) (s : State) : State × (ItemKind × Text) :=
  match (s.tapes.get t).prints with
  | [] => (s, blankItem)
  | i :: _ =>
    match s.records[i] with
    | none => (s, blankItem)
    | some r =>
      match r.day with
      | none => (s, blankItem)
      | some d => composeHead t i r d.last s

/-- R127: the choice of the item to feed. -/
def chooseItem (t : AB) (s : State) : State × (ItemKind × Text) :=
  let u := s.tapes.get t
  match u.staged with
  | some text => (setTape t { u with staged := none } s, noticeItem .stagedNotice text)
  | none =>
    match u.feedSlot with
    | some text => (setTape t { u with feedSlot := none } s, noticeItem .feedNotice text)
    | none =>
      match u.modeSlot with
      | some text => (setTape t { u with modeSlot := none } s, noticeItem .modeNotice text)
      | none =>
        match u.lateSlot with
        | some text => (setTape t { u with lateSlot := none } s, noticeItem .latenessNotice text)
        | none => choosePrint t s

/-- R126, steps 1 and 2: both evaluations, and TAPE MODE CHANGE where the mode changed. -/
def evaluateTape (t : AB) (s : State) : State :=
  let u := s.tapes.get t
  let u1 := evaluateLateness (latenessNow s.time (oldestJoined t s)) u
  let u2 := evaluateMode (s.params.thresholds.get t) u.prints.length u1
  let s1 := setTape t u2 s
  if u2.mode = u.mode then s1 else latch (.tapeModeChange t) s1

/-- R126: a selection for a tape, which gives the item to feed. -/
def select (t : AB) (s : State) : State × (ItemKind × Text) := chooseItem t (evaluateTape t s)

/-! ### Steps (R124, R125) -/

/-- R124: the step time has been reached; times are compared as differences modulo 2^32 (log 6). -/
def stepDue (now next : Time) : Bool := decide (elapsed now next < 2 ^ 31)

/-- R133: a step that puts in the last character of a staged notice latches NOTICE DONE. -/
def noteNoticeDone (t : AB) (kind : ItemKind) (rest : Text) (s : State) : State :=
  if kind = .stagedNotice ∧ rest = [] then latch (.noticeDone t) s else s

/-- R125: a character enters the ribbon, and `rest` stays in the feeder. R122: the driver "presents each character to its
ribbon on the ribbon's character output and strobes the step output once". -/
def enter (t : AB) (st : RibbonState) (kind : ItemKind) (char : Byte) (rest : Text) (s : State) : State :=
  noteNoticeDone t kind rest
    (setRibbon t ⟨st, if rest = [] then .blank else kind, rest, char, (s.ribbons.get t).strobes + 1⟩ s)

/-- R125, R126: a step of a RUNNING ribbon with an empty feeder. -/
def stepSelect (t : AB) (st : RibbonState) (s : State) : State :=
  match select t s with
  | (s1, (_, [])) => setRibbon t { s1.ribbons.get t with state := st } s1
  | (s1, (kind, char :: rest)) => enter t st kind char rest s1

/-- R124, R125: a step event of a ribbon. -/
def stepRibbon (t : AB) (s : State) : State :=
  let r := s.ribbons.get t
  match r.state with
  | .stopped => s
  | .running next =>
    if stepDue s.time next then
      match r.feeder with
      | [] => stepSelect t (.running (next + stepPeriod s t)) s
      | char :: rest => enter t (.running (next + stepPeriod s t)) r.kind char rest s
    else s
  | .stopping next =>
    if stepDue s.time next then
      match r.feeder with
      | [] => s
      | char :: rest =>
        enter t (if rest = [] then .stopped else .stopping (next + stepPeriod s t)) r.kind char rest s
    else s

/-- STEP EVENT. -/
def execStepEvent (ribbon : AB) (s : State) : Host.Outcome State Fault Refusal := powered (stepRibbon ribbon) s

end Sys2Proof.Machine
end

