-- ==== Sys2Proof/Machine/Terminals.lean ====
section
/-! DEFINITION. Chapters 9 and 10: the rounds and visits of the terminal lines, the outcome of a visit, the requests and
their answers, and TERMINAL ENABLE. -/

namespace Sys2Proof.Machine

/-- A line controller changed. -/
def setLine (line : LineIx) (f : Line → Line) (s : State) : State :=
  { s with lines := Vec.update s.lines line f }

/-- A terminal record changed. -/
def setTerminal (t : TermIx) (f : Terminal → Terminal) (s : State) : State :=
  { s with terminals := Vec.update s.terminals t f }

/-- The visit in progress on a line changed in its phase. -/
def setVisitPhase (line : LineIx) (v : Visit) (phase : VisitPhase) (s : State) : State :=
  setLine line (fun l => { l with visit := some { v with phase := phase } }) s

/-! ### Frames the TQ86 sends (R137, R140, R158, R179) -/

/-- R179: the flags byte of UPDATE and ANSWER: bit 0 stale, bit 1 dropped. -/
def flagsByte (stale dropped : Bool) : Byte := byte ((if stale then 1 else 0) + (if dropped then 2 else 0))

/-- R140: POLL. -/
def pollFrame : TermFrame := ⟨pollKind, 0, []⟩

/-- R140, R158: the UPDATE of an ACTIVE entry. -/
def updateFrame (stale : Bool) (i : SlotIx) (r : Record) : TermFrame :=
  ⟨updateKind, 0, flagsByte stale false :: recordImage i r⟩

/-- R140, R158: the UPDATE that carries a dropped notice. -/
def droppedFrame (stale : Bool) (sym : Symbol) : TermFrame :=
  ⟨updateKind, 0, flagsByte stale true :: symbolBytes sym⟩

/-- R151: an ANSWER; `image` is present for the code RECORD alone. -/
def answerFrameOf (stale : Bool) (tag : Byte) (code : AnswerCode) (image : List Byte) : TermFrame :=
  ⟨answerKind, tag, flagsByte stale false :: code.code :: image⟩

/-! ### Rounds (R139) -/

/-- R139: a terminal is due in a round when its presence is UNKNOWN or PRESENT, or the round is a probe round. -/
def Terminal.due (t : Terminal) (counter : BitVec 16) (spacing : Nat) : Bool :=
  t.enabled && (t.presence != .absent || decide (counter.toNat % spacing = 0))

/-- R139: the first due drop of a round from the drop numbered `start`. -/
def nextDue (s : State) (line : LineIx) (counter : BitVec 16) (spacing start : Nat) : Option DropIx :=
  (List.finRange 8).find? (fun d =>
    decide (start ≤ d.val) && s.terminals[terminalAt line d].due counter spacing)

/-- R139: is a drop of the line enabled? -/
def anyEnabled (s : State) (line : LineIx) : Bool :=
  (List.finRange 8).any (fun d => s.terminals[terminalAt line d].enabled)

/-- R139: a round with the number given begins now, with the probe spacing that stands; it is empty when no drop is
due. -/
def beginRound (line : LineIx) (counter : BitVec 16) (s : State) : State :=
  let spacing := s.params.probeSpacing
  let round : Round := match nextDue s line counter spacing 0 with
    | none => .empty s.time
    | some _ => .atDrop 0
  setLine line (fun l => { l with counter := counter, spacing := spacing, round := round }) s

/-- R139: the round of a line with no visit in progress goes on: the line becomes IDLE where no drop is enabled, and
where no due drop is left the round ends and the next one begins. A round that has not reached a drop yet, and finds
none due any more, is an empty one (log 21). -/
def advanceRound (line : LineIx) (s : State) : State :=
  if anyEnabled s line then
    let l := s.lines[line]
    match l.round with
    | .idle => beginRound line l.counter s
    | .quiet _ => s
    | .empty _ => s
    | .atDrop next =>
      match nextDue s line l.counter l.spacing next with
      | some _ => s
      | none =>
        if next = 0 then setLine line (fun l => { l with round := .empty s.time }) s
        else beginRound line (l.counter + 1) s
  else setLine line (fun l => { l with round := .idle }) s

/-- R141: the visit of a line ends, and "the round goes on to the next due drop". -/
def endVisit (line : LineIx) (s : State) : State :=
  advanceRound line (setLine line (fun l => { l with visit := none }) s)

/-- R139: an empty round ends one interval after it began, and the next round begins. -/
def endEmptyRound (line : LineIx) (s : State) : State :=
  match s.lines[line].round with
  | .empty began =>
    if 1 ≤ elapsed s.time began then beginRound line (s.lines[line].counter + 1) s else s
  | .idle => s
  | .quiet _ => s
  | .atDrop _ => s

/-- EMPTY ROUND EXPIRY. -/
def execEmptyRoundExpiry (line : LineIx) (s : State) : Host.Outcome State Fault Refusal :=
  powered (endEmptyRound line) s

/-! ### Visits (R140) -/

/-- The watch entry of a symbol. -/
def Terminal.entryOf (t : Terminal) (sym : Symbol) : Option WatchEntry := t.watch.find? (fun w => w.symbol == sym)

/-- The place of a symbol's entry in the watch list. -/
def Terminal.placeOf (t : Terminal) (sym : Symbol) : Nat := t.watch.findIdx (fun w => w.symbol == sym)

/-- The watch list without the entry of a symbol. -/
def Terminal.without (t : Terminal) (sym : Symbol) : List WatchEntry := t.watch.filter (fun w => w.symbol != sym)

/-- What a visit sends, what it holds as outstanding, and what it leaves of the terminal record. -/
structure Sending where
  frame : TermFrame
  outstanding : Outstanding
  terminal : Terminal
  deriving DecidableEq, Repr

/-- R140, line 4. -/
def sendPoll (t : Terminal) : Sending := ⟨pollFrame, .nothing, t⟩

/-- R140, lines 2 and 3: the UPDATE of the oldest dirty entry `w`, `rest` being the dirty queue behind it. An ACTIVE
entry refers to a record (R149); in a state that breaks that law, which no run reaches, a POLL is sent (log 17). -/
def sendUpdate (s : State) (t : Terminal) (w : WatchEntry) (rest : List Symbol) : Sending :=
  match w.state with
  | .active slot =>
    match s.records[slot] with
    | none => sendPoll t
    | some r => ⟨updateFrame s.feed.stale slot r, .active w.symbol, { t with dirty := rest }⟩
  | .dropped =>
    ⟨droppedFrame s.feed.stale w.symbol, .dropped w.symbol (t.placeOf w.symbol),
      { t with dirty := rest, watch := t.without w.symbol }⟩

/-- R140: the frame of a visit, by the first line that applies. -/
def formFrame (s : State) (t : Terminal) : Sending :=
  match t.answer with
  | some frame => ⟨frame, .answer frame, { t with answer := none }⟩
  | none =>
    match t.dirty with
    | [] => sendPoll t
    | sym :: rest =>
      match t.entryOf sym with
      | none => sendPoll t
      | some w => sendUpdate s t w rest

/-- R140: the visit of a drop begins. -/
def beginVisit (line : LineIx) (d : DropIx) (s : State) : State :=
  let sending := formFrame s s.terminals[terminalAt line d]
  setTerminal (terminalAt line d) (fun _ => sending.terminal)
    (setLine line (fun l =>
      { l with
        round := .atDrop (d.val + 1)
        visit := some ⟨d, sending.frame, sending.outstanding, .sending, false⟩ }) s)

/-- R139, R140: the round reaches its next due drop, from the drop numbered `start`. -/
def visitNext (line : LineIx) (start : Nat) (s : State) : State :=
  match nextDue s line s.lines[line].counter s.lines[line].spacing start with
  | none => s
  | some d => beginVisit line d s

/-- R139, R140, R148: a visit begins where none is in progress and the round reaches a due drop; after a restart round
0 begins "when the line has been quiet for 2 intervals". -/
def visitLine (line : LineIx) (s : State) : State :=
  match s.lines[line].visit with
  | some _ => s
  | none =>
    match s.lines[line].round with
    | .idle => s
    | .empty _ => s
    | .atDrop next => visitNext line next s
    | .quiet since =>
      if Config.quietIntervals ≤ elapsed s.time since then
        visitNext line 0 (setLine line (fun l => { l with spacing := s.params.probeSpacing }) s)
      else s

/-- VISIT. -/
def execVisit (line : LineIx) (s : State) : Host.Outcome State Fault Refusal := powered (visitLine line) s

/-- R141: the last character of the frame has been sent and the window opens. -/
def openWindow (line : LineIx) (s : State) : State :=
  match s.lines[line].visit with
  | none => s
  | some v =>
    match v.phase with
    | .sending => setVisitPhase line v (.window s.time s.params.replyWindow) s
    | .window _ _ => s
    | .receiving _ _ => s
    | .settling _ => s

/-- REPLY WINDOW OPEN. -/
def execReplyWindowOpen (line : LineIx) (s : State) : Host.Outcome State Fault Refusal := powered (openWindow line) s

/-! ### Misses (R143) -/

/-- R141: the causes of a miss. -/
inductive MissCause where
  | silent
  | check
  | framing
  deriving DecidableEq, Repr

/-- R143, step 1: the line's count of the cause. -/
def countMiss (cause : MissCause) (l : Line) : Line :=
  match cause with
  | .silent => { l with silentCount := raise16 l.silentCount }
  | .check => { l with checkCount := raise16 l.checkCount }
  | .framing => { l with framingCount := raise16 l.framingCount }

/-- R143, R146: a DROPPED entry "returns to the watch list at its former place among the entries that remain". -/
def Terminal.reinsert (t : Terminal) (sym : Symbol) (place : Nat) : Terminal :=
  { t with watch := t.watch.take place ++ ⟨sym, .dropped⟩ :: t.watch.drop place }

/-- R143, step 2: the outstanding item is put back. -/
def putBack (o : Outstanding) (t : Terminal) : Terminal :=
  match o with
  | .nothing => t
  | .answer frame => { t with answer := some frame }
  | .active sym => t.mark sym
  | .dropped sym place => (t.reinsert sym place).mark sym

/-- R143, step 3: does the miss make the terminal ABSENT? -/
def goesAbsent (threshold : Nat) (t : Terminal) : Bool := t.presence != .absent && decide (threshold ≤ t.missRun)

/-- R143, step 3: the terminal becomes ABSENT. -/
def makeAbsent (t : Terminal) : Terminal := { t with presence := .absent, dirty := [], answer := none }

/-- R143, steps 1 and 2, at the terminal. -/
def missedTerminal (o : Outstanding) (t : Terminal) : Terminal :=
  putBack o { t with missRun := raiseRun t.missRun }

/-- R143, R146: the effects of a miss of the visit `v`; those on the terminal are not applied where it was disabled
during the visit. -/
def applyMiss (line : LineIx) (v : Visit) (cause : MissCause) (s : State) : State :=
  let s1 := setLine line (countMiss cause) s
  if v.detached then s1
  else
    let t := terminalAt line v.drop
    let missed := missedTerminal v.outstanding s.terminals[t]
    if goesAbsent s.params.absentThreshold missed then
      latch (.terminalChange line) (setTerminal t (fun _ => makeAbsent missed) s1)
    else setTerminal t (fun _ => missed) s1

/-- R141: a miss after which the visit is SETTLING; its outstanding item has been put back. -/
def missAndSettle (line : LineIx) (v : Visit) (cause : MissCause) (s : State) : State :=
  setVisitPhase line { v with outstanding := .nothing } (.settling s.time) (applyMiss line v cause s)

/-- R141: a miss that ends the visit. -/
def missAndEnd (line : LineIx) (v : Visit) (cause : MissCause) (s : State) : State :=
  endVisit line (applyMiss line v cause s)

/-- R141: the window expires. -/
def expireWindow (line : LineIx) (s : State) : State :=
  match s.lines[line].visit with
  | none => s
  | some v =>
    match v.phase with
    | .window opened length => if length ≤ elapsed s.time opened then missAndSettle line v .silent s else s
    | .sending => s
    | .receiving _ _ => s
    | .settling _ => s

/-- REPLY WINDOW EXPIRY. -/
def execReplyWindowExpiry (line : LineIx) (s : State) : Host.Outcome State Fault Refusal :=
  powered (expireWindow line) s

/-- R141: "more than 2 intervals pass since the last character arrived". -/
def expireReplyGap (line : LineIx) (s : State) : State :=
  match s.lines[line].visit with
  | none => s
  | some v =>
    match v.phase with
    | .receiving _ last => if Config.gapLimit < elapsed s.time last then missAndEnd line v .silent s else s
    | .sending => s
    | .window _ _ => s
    | .settling _ => s

/-- REPLY GAP EXPIRY. -/
def execReplyGapExpiry (line : LineIx) (s : State) : Host.Outcome State Fault Refusal :=
  powered (expireReplyGap line) s

/-- R141: "2 intervals pass with no character arriving". -/
def expireSettling (line : LineIx) (s : State) : State :=
  match s.lines[line].visit with
  | none => s
  | some v =>
    match v.phase with
    | .settling since => if Config.quietIntervals ≤ elapsed s.time since then endVisit line s else s
    | .sending => s
    | .window _ _ => s
    | .receiving _ _ => s

/-- SETTLING EXPIRY. -/
def execSettlingExpiry (line : LineIx) (s : State) : Host.Outcome State Fault Refusal :=
  powered (expireSettling line) s

/-! ### Characters of a reply (R136, R137, R141) -/

/-- R137: how many characters a reply has before its check character, once its length character is in. -/
def bodyEnd (chars : List Byte) : Option Nat := if chars.length < 3 then none else some (3 + (byteAt chars 2).toNat)

/-- R137: would the next character complete the frame? -/
def checkNext (chars : List Byte) : Bool := bodyEnd chars == some chars.length

/-- R137: would the character be a length character above 60? -/
def badTermLength (chars : List Byte) (char : Byte) : Bool :=
  decide (chars.length = 2) && decide (Config.maxTermLength < char.toNat)

/-- R148: a character on a line that waits for quiet after a restart begins the quiet anew (log 16). -/
def disturbQuiet (line : LineIx) (s : State) : State :=
  match s.lines[line].round with
  | .quiet _ => setLine line (fun l => { l with round := .quiet s.time }) s
  | .idle => s
  | .atDrop _ => s
  | .empty _ => s

/-- R141: a character that neither completes the frame nor is a framing error. -/
def takeReplyChar (line : LineIx) (char : Byte) (s : State) : State :=
  match s.lines[line].visit with
  | none => disturbQuiet line s
  | some v =>
    match v.phase with
    | .sending => s
    | .window _ _ => setVisitPhase line v (.receiving [char] s.time) s
    | .receiving chars _ =>
      if checkNext chars || badTermLength chars char then s
      else setVisitPhase line v (.receiving (chars ++ [char]) s.time) s
    | .settling _ => setVisitPhase line v (.settling s.time) s

/-- REPLY CHARACTER ARRIVAL. -/
def execReplyCharacterArrival (line : LineIx) (char : Byte) (s : State) : Host.Outcome State Fault Refusal :=
  powered (takeReplyChar line char) s

/-- R136, R137: is the failure one that the visit can meet, in RECEIVING with the characters so far? -/
def failureFits (chars : List Byte) : LineFailure → Bool
  | .badStop => true
  | .markOne => true
  | .badLength n => badTermLength chars n

/-- R141: a framing error; in SETTLING the character is discarded like any other (log 16). -/
def takeLineFailure (line : LineIx) (cause : LineFailure) (s : State) : State :=
  match s.lines[line].visit with
  | none => if failureFits [] cause then disturbQuiet line s else s
  | some v =>
    match v.phase with
    | .sending => s
    | .window _ _ => if failureFits [] cause then missAndSettle line v .framing s else s
    | .receiving chars _ => if failureFits chars cause then missAndSettle line v .framing s else s
    | .settling _ => if failureFits [] cause then setVisitPhase line v (.settling s.time) s else s

/-- TERMINAL FRAMING ERROR. -/
def execTerminalFramingError (line : LineIx) (cause : LineFailure) (s : State) : Host.Outcome State Fault Refusal :=
  powered (takeLineFailure line cause) s

/-! ### Requests (chapter 10) -/

/-- R152: LOOKUP. -/
def answerLookup (s : State) (tag : Byte) (places : List Byte) : TermFrame :=
  match (symbolOf places).bind (fun sym => liveLookup sym s) with
  | none => answerFrameOf s.feed.stale tag .unknown []
  | some (i, r) => answerFrameOf s.feed.stale tag .record (recordImage i r)

/-- R153, step 2: the DROPPED entry of the symbol becomes ACTIVE and bound, at its place, and is marked. -/
def Terminal.reactivate (t : Terminal) (sym : Symbol) (slot : SlotIx) : Terminal :=
  let t1 : Terminal := { t with
    watch := t.watch.map (fun w => if w.symbol == sym then { w with state := .active slot } else w) }
  t1.mark sym

/-- R153, step 5: a new entry, ACTIVE and bound, is appended and marked. -/
def Terminal.addEntry (t : Terminal) (sym : Symbol) (slot : SlotIx) : Terminal :=
  let t1 : Terminal := { t with watch := t.watch ++ [⟨sym, .active slot⟩] }
  t1.mark sym

/-- R153: WATCH of a symbol, with the slot of the live lookup: the code and the terminal after it. -/
def watchSymbol (sym : Symbol) (found : Option SlotIx) (t : Terminal) : AnswerCode × Terminal :=
  match t.entryOf sym with
  | some ⟨_, .active _⟩ => (.already, t)
  | some ⟨_, .dropped⟩ =>
    match found with
    | none => (.unknown, t)
    | some slot => (.watched, t.reactivate sym slot)
  | none =>
    match found with
    | none => (.unknown, t)
    | some slot => if Config.watchPlaces ≤ t.watch.length then (.full, t) else (.watched, t.addEntry sym slot)

/-- R151, R153: WATCH; a symbol that fails its check is answered UNKNOWN. -/
def applyWatch (s : State) (places : List Byte) (t : Terminal) : AnswerCode × Terminal :=
  match symbolOf places with
  | none => (.unknown, t)
  | some sym => watchSymbol sym ((liveLookup sym s).map (·.1)) t

/-- R151, R154: UNWATCH; a symbol that fails its check is answered NOT WATCHED. -/
def applyUnwatch (places : List Byte) (t : Terminal) : AnswerCode × Terminal :=
  match symbolOf places with
  | none => (.notWatched, t)
  | some sym =>
    match t.entryOf sym with
    | none => (.notWatched, t)
    | some _ => (.removed, { t with watch := t.without sym, dirty := t.dirty.filter (· != sym) })

/-- R155: REFRESH marks every entry in list order. -/
def applyRefresh (t : Terminal) : AnswerCode × Terminal := (.done, t.markAll t.watched)

/-- The code of a request placed in the answer slot as an ANSWER without a record image. -/
def answered (s : State) (tag : Byte) (x : AnswerCode × Terminal) : Terminal :=
  { x.2 with answer := some (answerFrameOf s.feed.stale tag x.1 []) }

/-- R151: a request applied to its terminal, with its answer placed in the answer slot. -/
def applyRequest (s : State) (tag : Byte) (req : Request) (t : Terminal) : Terminal :=
  match req with
  | .lookup places => { t with answer := some (answerLookup s tag places) }
  | .watch places => answered s tag (applyWatch s places t)
  | .unwatch places => answered s tag (applyUnwatch places t)
  | .refresh => answered s tag (applyRefresh t)

/-! ### The end of a reply (R141, R142) -/

/-- R142, step 2: the miss run, the presence, and the marks of a terminal that was not PRESENT. -/
def confirmPresent (t : Terminal) : Terminal :=
  let t1 := { t with missRun := 0, presence := .present }
  if t.presence = .present then t1 else t1.markAll t1.watched

/-- R142, steps 2 to 4, at the terminal. -/
def repliedTerminal (s : State) (kind tag : Byte) (body : List Byte) (t : Terminal) : Terminal :=
  match requestOf kind body with
  | none => confirmPresent t
  | some req => applyRequest s tag req (confirmPresent t)

/-- R142, step 2: TERMINAL CHANGE latches where the terminal was not PRESENT. -/
def notePresence (line : LineIx) (t : Terminal) (s : State) : State :=
  if t.presence = .present then s else latch (.terminalChange line) s

/-- R142, R146: an intact reply, of the characters before its check. -/
def applyReply (line : LineIx) (v : Visit) (chars : List Byte) (s : State) : State :=
  if v.detached then s
  else
    let t := terminalAt line v.drop
    notePresence line s.terminals[t]
      (setTerminal t (repliedTerminal s (byteAt chars 0) (byteAt chars 1) (chars.drop 3)) s)

/-- R141: the check character arrives: an intact reply ends the visit, a check failure is a miss. -/
def completeReply (line : LineIx) (check : Byte) (s : State) : State :=
  match s.lines[line].visit with
  | none => s
  | some v =>
    match v.phase with
    | .receiving chars _ =>
      if checkNext chars then
        if sumsToZero (chars ++ [check]) then endVisit line (applyReply line v chars s)
        else missAndSettle line v .check s
      else s
    | .sending => s
    | .window _ _ => s
    | .settling _ => s

/-- REPLY COMPLETE. -/
def execReplyComplete (line : LineIx) (check : Byte) (s : State) : Host.Outcome State Fault Refusal :=
  powered (completeReply line check) s

/-! ### TERMINAL ENABLE (R145, R146) -/

/-- R145: the terminal becomes enabled. -/
def enableTerminal (t : Terminal) : Terminal := { t with enabled := true, presence := .unknown, missRun := 0 }

/-- R146: the outstanding item of a visit whose terminal is disabled. -/
def settleItem (o : Outstanding) (t : Terminal) : Terminal :=
  match o with
  | .nothing => t
  | .answer _ => t
  | .active _ => t
  | .dropped sym place => t.reinsert sym place

/-- R145: the terminal becomes disabled. -/
def disableTerminal (t : Terminal) : Terminal :=
  { t with enabled := false, presence := .unknown, dirty := [], answer := none }

/-- The outstanding item of a line's visit, where the visit is of the drop. -/
def outstandingOf (s : State) (line : LineIx) (d : DropIx) : Outstanding :=
  match s.lines[line].visit with
  | none => .nothing
  | some v => if v.drop = d then v.outstanding else .nothing

/-- R146: a visit whose terminal is disabled goes on without its terminal. -/
def detachVisit (v : Visit) : Visit := { v with outstanding := .nothing, detached := true }

/-- R145, R146: one drop's enabled flag set. -/
def setEnabled (line : LineIx) (d : DropIx) (flag : Bool) (s : State) : State :=
  let t := terminalAt line d
  if s.terminals[t].enabled then
    if flag then s
    else
      setLine line (fun l => { l with visit := l.visit.map (fun v => if v.drop = d then detachVisit v else v) })
        (setTerminal t (fun r => settleItem (outstandingOf s line d) (disableTerminal r)) s)
  else if flag then setTerminal t enableTerminal s
  else s

/-- R139, R145: after the flags are set a line with no visit in progress becomes IN ROUND or IDLE. -/
def settleRounds (line : LineIx) (s : State) : State :=
  match s.lines[line].visit with
  | none => advanceRound line s
  | some _ => s

/-- R145: each drop's flag set from the mask. -/
def enableDrops (line : LineIx) (mask : Byte) (s : State) : State :=
  settleRounds line ((List.finRange 8).foldl (fun s d => setEnabled line d (mask.getLsbD d.val) s) s)

/-- R145: the line's enabled mask. -/
def enabledMask (s : State) (line : LineIx) : Byte :=
  byte ((List.finRange 8).foldl (fun n d => n + (if s.terminals[terminalAt line d].enabled then 2 ^ d.val else 0)) 0)

/-- R145: the answer to a TERMINAL ENABLE. -/
def applyTerminalEnable (b : List Byte) (s : State) : State × Answer :=
  match placeOf (field b 0 1) 4 with
  | none => refuse .range s
  | some line =>
    let s1 := enableDrops line (byteAt b 1) s
    (s1, ⟨.ok, [byte line.val, enabledMask s1 line]⟩)

/-- TERMINAL ENABLE. -/
def execTerminalEnable (s : State) : Host.Outcome State Fault Refusal :=
  powered (takeMessage .terminalEnable applyTerminalEnable) s

end Sys2Proof.Machine
end

