-- ==== Sys2Proof/Machine/Verify.lean ====
section
/-! DEFINITION. Chapter 6: the position verifier's gap, reads and outcomes, and CLEAR FAULTS. -/

namespace Sys2Proof.Machine

/-! ### CLEAR FAULTS -/

/-- R105: every position GOOD, every run 0, the last failed position none. -/
def clearFaults (s : State) : State :=
  let s1 := onPositions (fun _ pos => { pos with verify := .good, mismatchRun := 0, matchRun := 0 }) s
  { s1 with verifier := { s1.verifier with lastFailed := none } }

/-- R105: the verifier's answer to a CLEAR FAULTS. -/
def applyClearFaults (_b : List Byte) (s : State) : State × Answer := (clearFaults s, ⟨.ok, []⟩)

/-- CLEAR FAULTS. -/
def execClearFaults (s : State) : Host.Outcome State Fault Refusal :=
  powered (takeMessage .clearFaults applyClearFaults) s

/-! ### The gap -/

/-- R99: WAITING becomes READY when the gap has run its length. -/
def endGap (s : State) : State :=
  match s.verifier.phase with
  | .idle => s
  | .waiting start length =>
    if length ≤ elapsed s.time start then { s with verifier := { s.verifier with phase := .ready } } else s
  | .ready => s
  | .reading => s

/-- VERIFY GAP EXPIRY. -/
def execVerifyGapExpiry (s : State) : Host.Outcome State Fault Refusal := powered endGap s

/-! ### Reads -/

/-- R98: the conditions on a position record. -/
def Position.canVerify (pos : Position) : Bool :=
  pos.image.isSome && !pos.switchPending && (pos.verify == .good || pos.verify == .suspect)

/-- R98: the eligible positions, in position order. -/
def eligiblePositions (s : State) : List PosIx :=
  Vec.select (fun p pos => panelLive s (panelOf p) && pos.canVerify && !s.boards.repaint.contains p)
    s.boards.positions

/-- R100: the first eligible position met from the walk cursor, "wrapping from 15/63 to 0/0". -/
def nextToVerify (s : State) : Option PosIx :=
  let eligible := eligiblePositions s
  match eligible.find? (fun p => decide (s.verifier.cursor ≤ p)) with
  | some p => some p
  | none => eligible.head?

/-- R100: the position after one in walk order. -/
def nextInWalk (p : PosIx) : PosIx := p + 1

/-- R100: a read starts when the verifier is READY, the bus is free, the queue is empty and a position is eligible. -/
def startRead (s : State) : State :=
  if s.verifier.phase = .ready ∧ busFree s = true ∧ s.boards.repaint = [] then
    match nextToVerify s with
    | none => s
    | some p =>
      { s with verifier := { s.verifier with
          phase := .reading, target := some p, overtaken := false, cursor := nextInWalk p } }
  else s

/-- READ START. -/
def execReadStart (s : State) : Host.Outcome State Fault Refusal := powered startRead s

/-! ### Outcomes -/

/-- R104: a match. -/
def matchedPosition (clear : Nat) (pos : Position) : Position :=
  let run := raiseRun pos.matchRun
  { pos with
    matchRun := run
    mismatchRun := 0
    verify := if pos.verify = .suspect ∧ clear ≤ run then .good else pos.verify }

/-- R104. -/
def applyMatch (p : PosIx) (s : State) : State := setPosition p (matchedPosition s.params.clearThreshold) s

/-- R103, step 3. -/
def VerifyState.mismatched : VerifyState → VerifyState
  | .good => .suspect
  | .suspect => .suspect
  | .failed => .failed

/-- R103, steps 1, 3 and 4. -/
def mismatchedPosition (fail : Nat) (pos : Position) : Position :=
  let run := raiseRun pos.mismatchRun
  { pos with
    mismatchRun := run
    matchRun := 0
    verify := if pos.verify.mismatched = .suspect ∧ fail ≤ run then .failed else pos.verify.mismatched }

/-- R103, step 4: does the mismatch make the position FAILED? -/
def failsNow (fail : Nat) (pos : Position) : Bool :=
  pos.verify.mismatched == .suspect && decide (fail ≤ raiseRun pos.mismatchRun)

/-- R103, step 4: the last failed position and the condition POSITION FAILED. -/
def noteFailed (p : PosIx) (s : State) : State :=
  latch .positionFailed { s with verifier := { s.verifier with lastFailed := some p } }

/-- R103: a mismatch. -/
def applyMismatch (p : PosIx) (s : State) : State :=
  let s1 := setPosition p (mismatchedPosition s.params.failThreshold)
    { s with verifier := { s.verifier with mismatchTotal := raise16 s.verifier.mismatchTotal } }
  mark [p] (if failsNow s.params.failThreshold s.boards.positions[p] then noteFailed p s1 else s1)

/-- R102: after the outcome the target becomes none, the phase moves by R99 and the bus becomes free. -/
def endRead (s : State) : State :=
  let s1 : State := { s with verifier := { s.verifier with target := none, overtaken := false } }
  if s1.params.verifyEnable then beginGap s1 else { s1 with verifier := { s1.verifier with phase := .idle } }

/-- R102, R180: the echo equals the written image "byte for byte". -/
def echoMatches (p : PosIx) (echo : List Byte) (pos : Position) : Bool :=
  match pos.image with
  | none => false
  | some c => echo == imageBytes p c

/-- R101, R102: a complete echo ends the read; an echo of fewer than twelve bytes is not complete, and one that comes
with no read in progress is discarded. -/
def takeEcho (echo : List Byte) (s : State) : State :=
  match s.verifier.target with
  | none => s
  | some p =>
    if echoComplete echo then
      endRead (if s.verifier.overtaken then s
        else if echoMatches p echo s.boards.positions[p] then applyMatch p s
        else applyMismatch p s)
    else s

/-- ECHO ARRIVAL. -/
def execEchoArrival (echo : List Byte) (s : State) : Host.Outcome State Fault Refusal := powered (takeEcho echo) s

/-- R101, R102: the echo limit ends the read as a mismatch, unless it was overtaken. -/
def endEchoLimit (s : State) : State :=
  match s.verifier.target with
  | none => s
  | some p => endRead (if s.verifier.overtaken then s else applyMismatch p s)

/-- ECHO LIMIT EXPIRY. -/
def execEchoLimitExpiry (s : State) : Host.Outcome State Fault Refusal := powered endEchoLimit s

end Sys2Proof.Machine
end

