-- ==== Sys2Proof/Machine/Resets.lean ====
section
/-! DEFINITION. Section 11.9: RESTART, the RESTART input and the POR input, with every block's part in a restart. -/

namespace Sys2Proof.Machine

/-- R173, steps 1 to 6: the feed link interface's own part. -/
def restartFeed (s : State) : State :=
  { s with feed := { s.feed with
      receiver := .hunting, inbound := [], replies := [], latched := 0, stale := false, lastIntact := s.time } }

/-- R128 to R130: a tape's notice slots, lateness and print mode at restart. -/
def restartTape (u : TapeUnit) : TapeUnit :=
  { u with
    mode := .full
    modeCount := 0
    staged := none
    feedSlot := none
    modeSlot := none
    lateSlot := none
    lateness := 0 }

/-- R122: a ribbon at restart: STOPPED, its feeder emptied. Nothing is presented, so the character output stays (log 13)
and the step output gives no strobe. -/
def restartRibbon (r : Ribbon) : Ribbon := { r with state := .stopped, kind := .blank, feeder := [] }

/-- R121, R122, R128 to R130: the tape unit and the ribbon drivers. -/
def restartTapes (s : State) : State :=
  let s1 := withdrawAll .b (withdrawAll .a s)
  { s1 with
    tapes := s1.tapes.map restartTape
    ribbons := s1.ribbons.map restartRibbon }

/-- R96, step 1: the image of a position whose write is abandoned becomes UNKNOWN. -/
def abandonWrite (s : State) : State :=
  match s.boards.write with
  | none => s
  | some w => setPosition w.position (fun pos => { pos with image := none }) s

/-- R96: the board refresh unit, the rail monitor keeping its own state. -/
def restartBoards (s : State) : State :=
  let s1 := onPositions (fun _ pos => { pos with flash := 0 }) (abandonWrite s)
  { s1 with boards := { s1.boards with repaint := [], write := none, timerStart := ⟨s.time, s.time⟩ } }

/-- R106: the verifier takes "the same state as after a power-on reset, except that the verify parameters are kept". -/
def restartVerifier (s : State) : State :=
  let s1 := onPositions (fun _ pos => { pos with verify := .good, mismatchRun := 0, matchRun := 0 }) s
  let s2 : State := { s1 with verifier := { Verifier.reset with phase := .idle } }
  if s2.params.verifyEnable then beginGap s2 else s2

/-- R73: the reshow of every panel, in panel order 0 to 15; it "does not lift HELD-DARK". -/
def reshowAll (s : State) : State := mark (List.finRange 1024) (reshow (fun _ => true) s)

/-- R148, step 1: the outstanding item of a visit that is abandoned. -/
def abandonedItem (s : State) (t : TermIx) : Outstanding := outstandingOf s (lineOf t) (dropOf t)

/-- R148, steps 1 to 3: a terminal at restart; the marks go "into a dirty queue emptied first". -/
def restartTerminal (o : Outstanding) (t : Terminal) : Terminal :=
  let t1 := { settleItem o t with answer := none, missRun := 0, presence := .unknown, dirty := [] }
  t1.markAll t1.watched

/-- R148, steps 1 and 4: a line at restart; its round 0 waits for 2 quiet intervals. That they are counted from the
restart, quiet before it not counting, is the model's choice (log 28). -/
def restartLine (now : Time) (enabled : Bool) (l : Line) : Line :=
  { l with
    counter := 0
    visit := none
    round := if enabled then .quiet now else .idle }

/-- R148: the terminal lines. -/
def restartLines (s : State) : State :=
  { s with
    terminals := Vec.mapIx (fun t r => restartTerminal (abandonedItem s t) r) s.terminals
    lines := Vec.mapIx (fun line l => restartLine s.time (anyEnabled s line) l) s.lines }

/-- R173: "it reaches every block at once. Each block does what its own chapter gives for restart", the reshow after the
refresh unit (R96) and the verifier (R106). -/
def restartAll (s : State) : State :=
  reshowAll (restartVerifier (restartBoards (restartLines (restartTapes (restartFeed s)))))

/-- R173, step 7: "for a RESTART message, its reply, status OK with no body". -/
def applyRestart (_b : List Byte) (s : State) : State × Answer := (restartAll s, ⟨.ok, []⟩)

/-- RESTART. -/
def execRestart (s : State) : Host.Outcome State Fault Refusal := powered (takeMessage .restart applyRestart) s

/-- RESTART INPUT: a restart; "for the RESTART input, no reply is placed". -/
def execRestartInput (s : State) : Host.Outcome State Fault Refusal := powered restartAll s

/-- R174: every block held in its power-on reset state; the queue of commands is the sender's and stays. -/
def powerOn (por : Bool) (s : State) : State := { State.reset with por := por, pending := s.pending }

/-- POR ASSERT. -/
def execPorAssert (s : State) : Host.Outcome State Fault Refusal := .next (powerOn true s)

/-- POR RELEASE: the part starts from its power-on reset values; there is nothing to release where POR is not asserted
(log 10). -/
def execPorRelease (s : State) : Host.Outcome State Fault Refusal := .next (if s.por then powerOn false s else s)

end Sys2Proof.Machine
end

