-- ==== Sys2Proof/Machine/Status.lean ====
section
/-! DEFINITION. Section 11.6: the four sections of READ STATUS with the clear option, and CLEAR CONDITIONS. -/

namespace Sys2Proof.Machine

/-- R168, R175: the GENERAL section; the frame just taken is no longer in the inbound queue, and its reply is not yet
in the reply queue (log 18). -/
def generalSection (s : State) : List Byte :=
  [s.phase.code] ++ beBytes 2 (occupiedSlots s).length ++ yesNo s.feed.stale ++ beBytes 4 s.time.toNat
    ++ [byte s.feed.inbound.length, byte s.feed.replies.length]
    ++ beBytes 2 s.feed.checkCount ++ beBytes 2 s.feed.framingCount ++ beBytes 2 s.feed.overrunCount
    ++ flagsBytes s.feed.latched ++ flagsBytes s.params.mask

/-- R119, R135: a tape's items in the TAPES section. -/
def tapeSection (s : State) (t : AB) : List Byte :=
  let u := s.tapes.get t
  let r := s.ribbons.get t
  beBytes 2 u.prints.length ++ beBytes 2 u.backlogMax ++ beBytes 4 u.accepted.toNat ++ beBytes 4 u.printed.toNat
    ++ beBytes 4 u.withdrawn.toNat ++ beBytes 4 (tapePendingShares t s).toNat
    ++ withPresence 4 ((oldestJoined t s).map (·.toNat))
    ++ [r.state.code, byte r.feeder.length, u.mode.code, byte u.modeCount]
    ++ yesNo u.staged.isSome ++ yesNo u.feedSlot.isSome ++ yesNo u.modeSlot.isSome ++ yesNo u.lateSlot.isSome
    ++ [byte u.lateness]

/-- R168: the TAPES section, "tape A before tape B". -/
def tapesSection (s : State) : List Byte := tapeSection s .a ++ tapeSection s .b

/-- R97: the number of a panel's positions in a verify state. -/
def verifyCount (s : State) (panel : PanelIx) (v : VerifyState) : Nat :=
  (Vec.select (fun p pos => panelOf p == panel && pos.verify == v) s.boards.positions).length

/-- R168: a panel's items in the PANELS section. -/
def panelSection (s : State) (panel : PanelIx) : List Byte :=
  let p := s.panels[panel]
  [p.state.code, byte s.params.panelRail[panel].val] ++ orNone 1 (p.current.map (·.val))
    ++ orNone 1 (p.lastShown.map (·.val))
    ++ [byte (switchesPending s panel), byte (verifyCount s panel .suspect), byte (verifyCount s panel .failed)]

/-- R168: the PANELS section. -/
def panelsSection (s : State) : List Byte :=
  (List.finRange 16).flatMap (panelSection s)
    ++ (List.finRange 4).flatMap (fun rail => [s.rails[rail].state.code, byte (railDuty s rail)])
    ++ beBytes 2 s.boards.repaint.length ++ beBytes 2 s.verifier.mismatchTotal ++ positionBytes s.verifier.lastFailed

/-- R147: a line's items in the TERMINALS section. -/
def lineSection (s : State) (line : LineIx) : List Byte :=
  let l := s.lines[line]
  [l.round.code] ++ beBytes 2 l.counter.toNat ++ orNone 1 (l.visit.map (·.drop.val))
    ++ beBytes 2 l.silentCount ++ beBytes 2 l.checkCount ++ beBytes 2 l.framingCount

/-- R147: a terminal's items in the TERMINALS section. -/
def terminalSection (t : Terminal) : List Byte :=
  yesNo t.enabled ++ [t.presence.code, byte t.missRun, byte t.watch.length, byte t.dirty.length]
    ++ yesNo t.answer.isSome

/-- R168: the TERMINALS section. -/
def terminalsSection (s : State) : List Byte :=
  (List.finRange 4).flatMap (lineSection s) ++ s.terminals.toList.flatMap terminalSection

/-- R168: the clear option of the GENERAL section. -/
def clearCounters (s : State) : State :=
  { s with feed := { s.feed with checkCount := 0, framingCount := 0, overrunCount := 0 } }

/-- R112, R168: the clear option of the TAPES section. -/
def clearBacklogMaxima (s : State) : State :=
  { s with tapes := s.tapes.map (fun u => { u with backlogMax := u.prints.length }) }

/-- R168: the answer to a READ STATUS; "the section's clearable items are reset after the reply is formed". -/
def applyReadStatus (b : List Byte) (s : State) : State × Answer :=
  let clear := flagAt b 1 0
  if byteAt b 0 = 0 then (if clear then clearCounters s else s, ⟨.ok, generalSection s⟩)
  else if byteAt b 0 = 1 then (if clear then clearBacklogMaxima s else s, ⟨.ok, tapesSection s⟩)
  else if byteAt b 0 = 2 then (s, ⟨.ok, panelsSection s⟩)
  else if byteAt b 0 = 3 then (s, ⟨.ok, terminalsSection s⟩)
  else refuse .range s

/-- READ STATUS. -/
def execReadStatus (s : State) : Host.Outcome State Fault Refusal :=
  powered (takeMessage .readStatus applyReadStatus) s

/-- R170: the answer to a CLEAR CONDITIONS: "the set of conditions still latched after the clear". -/
def applyClearConditions (b : List Byte) (s : State) : State × Answer :=
  let s1 := clearConditions (flagsOf (field b 0 4)) s
  (s1, ⟨.ok, flagsBytes s1.feed.latched⟩)

/-- CLEAR CONDITIONS. -/
def execClearConditions (s : State) : Host.Outcome State Fault Refusal :=
  powered (takeMessage .clearConditions applyClearConditions) s

end Sys2Proof.Machine
end

