-- ==== Sys2Proof/Machine/Dispatch.lean ====
section
/-! DEFINITION. One arm for each command of the table: the meaning that the command has. -/

namespace Sys2Proof.Machine

/-- The effect of a command on everything but the queue of waiting commands. -/
def exec (i : Instr) (s : State) : Host.Outcome State Fault Refusal :=
  match i with
  | .list => Sys2Proof.Machine.execList s
  | .delist => Sys2Proof.Machine.execDelist s
  | .queryRecord => Sys2Proof.Machine.execQueryRecord s
  | .sessionOpen => Sys2Proof.Machine.execSessionOpen s
  | .sessionClose => Sys2Proof.Machine.execSessionClose s
  | .dayRoll => Sys2Proof.Machine.execDayRoll s
  | .tableClear => Sys2Proof.Machine.execTableClear s
  | .trade => Sys2Proof.Machine.execTrade s
  | .quote => Sys2Proof.Machine.execQuote s
  | .halt => Sys2Proof.Machine.execHalt s
  | .resume => Sys2Proof.Machine.execResume s
  | .loadEntry => Sys2Proof.Machine.execLoadEntry s
  | .unloadEntry => Sys2Proof.Machine.execUnloadEntry s
  | .definePage => Sys2Proof.Machine.execDefinePage s
  | .undefinePage => Sys2Proof.Machine.execUndefinePage s
  | .showPage => Sys2Proof.Machine.execShowPage s
  | .restorePanel => Sys2Proof.Machine.execRestorePanel s
  | .clearFaults => Sys2Proof.Machine.execClearFaults s
  | .tapeStart => Sys2Proof.Machine.execTapeStart s
  | .tapeStop => Sys2Proof.Machine.execTapeStop s
  | .tapeClear => Sys2Proof.Machine.execTapeClear s
  | .notice => Sys2Proof.Machine.execNotice s
  | .terminalEnable => Sys2Proof.Machine.execTerminalEnable s
  | .setParameter => Sys2Proof.Machine.execSetParameter s
  | .readParameter => Sys2Proof.Machine.execReadParameter s
  | .readStatus => Sys2Proof.Machine.execReadStatus s
  | .clearConditions => Sys2Proof.Machine.execClearConditions s
  | .restart => Sys2Proof.Machine.execRestart s
  | .unknownKindTaken => Sys2Proof.Machine.execUnknownKindTaken s
  | .restartInput => Sys2Proof.Machine.execRestartInput s
  | .porAssert => Sys2Proof.Machine.execPorAssert s
  | .porRelease => Sys2Proof.Machine.execPorRelease s
  | .frameComplete check => Sys2Proof.Machine.execFrameComplete check s
  | .framingFailure cause => Sys2Proof.Machine.execFramingFailure cause s
  | .frameGapExpiry => Sys2Proof.Machine.execFrameGapExpiry s
  | .replySent => Sys2Proof.Machine.execReplySent s
  | .quietLimitExpiry => Sys2Proof.Machine.execQuietLimitExpiry s
  | .positionWriteStart => Sys2Proof.Machine.execPositionWriteStart s
  | .positionWriteComplete => Sys2Proof.Machine.execPositionWriteComplete s
  | .periodStart timer => Sys2Proof.Machine.execPeriodStart timer s
  | .railSample rail working fail => Sys2Proof.Machine.execRailSample rail working fail s
  | .railStateChange rail => Sys2Proof.Machine.execRailStateChange rail s
  | .verifyGapExpiry => Sys2Proof.Machine.execVerifyGapExpiry s
  | .readStart => Sys2Proof.Machine.execReadStart s
  | .echoArrival echo => Sys2Proof.Machine.execEchoArrival echo s
  | .echoLimitExpiry => Sys2Proof.Machine.execEchoLimitExpiry s
  | .stepEvent ribbon => Sys2Proof.Machine.execStepEvent ribbon s
  | .visit line => Sys2Proof.Machine.execVisit line s
  | .emptyRoundExpiry line => Sys2Proof.Machine.execEmptyRoundExpiry line s
  | .replyWindowExpiry line => Sys2Proof.Machine.execReplyWindowExpiry line s
  | .replyComplete line check => Sys2Proof.Machine.execReplyComplete line check s
  | .terminalFramingError line cause => Sys2Proof.Machine.execTerminalFramingError line cause s
  | .replyGapExpiry line => Sys2Proof.Machine.execReplyGapExpiry line s
  | .settlingExpiry line => Sys2Proof.Machine.execSettlingExpiry line s
  | .feedCharacterArrival char => Sys2Proof.Machine.execFeedCharacterArrival char s
  | .replyCharacterArrival line char => Sys2Proof.Machine.execReplyCharacterArrival line char s
  | .replyWindowOpen line => Sys2Proof.Machine.execReplyWindowOpen line s

end Sys2Proof.Machine
end

