-- ==== Sys2Proof/Machine/Step.lean ====
section
/-! DEFINITION. One step of the machine: the command at the front of the queue takes its effect; with no command waiting
one interval of the time base passes. -/

namespace Sys2Proof.Machine

/-- The machine with the queue of waiting commands replaced. -/
def State.withPending (q : List Instr) (s : State) : State := { s with pending := q }

/-- The command at the front of the queue runs on the machine with the queue's rest; on an empty queue one interval
passes (log 3). -/
def step (s : State) : Host.Outcome State Fault Refusal :=
  match s.pending with
  | [] => .next (nextInterval s)
  | c :: rest => exec c (s.withPending rest)

/-- The machine with the command that a word of the table's bits spells at the front of its queue; unchanged where the
word spells none (log 23). -/
def State.withFetchWord (s : State) (nbits w : Nat) : State :=
  match decodeTableWord nbits w with
  | none => s
  | some c => s.withPending (c :: s.pending)

end Sys2Proof.Machine
end

