-- ==== Sys2Proof/Machine/Outputs.lean ====
section
/-! DEFINITION. What the part drives out of its ports, as views of the state: the phase lines, the lamp duty, what a
panel module is made to show, and the bytes on the feed link, the panel bus and the terminal lines. READY and ATTENTION
stand in Machine/Flags.lean. -/

namespace Sys2Proof.Machine

/-- R85: is a blink timer's phase line lit? Lit for the lit part of each period, from its start; held dark at 0 and lit
at 8. The line is given at the resolution of the time base (log 12). -/
def phaseLit (s : State) (timer : AB) : Bool :=
  let lit := s.params.litPart.get timer
  let passed := Config.msPerInterval * elapsed s.time (s.boards.timerStart.get timer)
  decide (8 ≤ lit) || decide (8 * passed < lit * s.params.blinkPeriod.get timer)

/-- R90: the lamp enable's duty in the present multiplex frame, in twelfths. -/
def lampDuty (s : State) (rail : RailIx) : Nat := s.rails[rail].duty

/-- R86: are a position's cells lit, in the phases of the two lines? -/
def cellsLit (phaseA phaseB : Bool) : DriveMode → Bool
  | .steady => true
  | .flashA => phaseA
  | .blinkB => phaseB
  | .dark => false

/-- R86: is a position's tick lamp lit? -/
def lampLit (phaseB : Bool) : TickLamp → Bool
  | .up => true
  | .down => true
  | .upB => phaseB
  | .downB => phaseB
  | .dark => false

/-- R180: the 13 bytes of the position write in progress. -/
def writeBytes (w : PositionWrite) : List Byte :=
  byte (0x80 + (panelOf w.position).val) :: imageBytes w.position w.content

/-- R180: the 2 bytes of a verification read. -/
def readBytes (p : PosIx) : List Byte := [byte (0x90 + (panelOf p).val), byte (positionIn p).val]

/-- R165, R176: the bytes of a reply on the feed link, "with its status as the first body character". -/
def replyBytes (r : Reply) : List Byte :=
  let body := r.status.code :: r.body
  let chars := [r.kind, r.tag, byte body.length] ++ body
  leadByte :: (chars ++ [checkFor chars])

/-- R165: the reply being sent is the head of the reply queue; while POR is asserted nothing is sent (R174). -/
def sendingReply (s : State) : Option Reply := if s.por then none else s.feed.replies.head?

/-- R137: the characters of a terminal frame. -/
def termFrameBytes (f : TermFrame) : List Byte :=
  let chars := [f.kind, f.tag, byte f.body.length] ++ f.body
  chars ++ [checkFor chars]

/-- R140: what a visit sends: the address character with mark 1, then the frame with mark 0. -/
def visitChars (v : Visit) : List (Bool × Byte) :=
  (true, byte v.drop.val) :: (termFrameBytes v.frame).map (fun b => (false, b))

end Sys2Proof.Machine
end

