-- ==== Sys2Proof/Safety.lean ====
section
/-! DEFINITION. The laws that the manual says the blocks keep, as predicates on the state, and the words of the
statements. Each law is meant to hold at reset and to be kept by every step; a state that breaks one is a state no run
reaches. -/

namespace Sys2Proof.Machine

/-! ### Records (R2, R8, R62, R149) -/

/-- R24: a price within 1 to 319,999 on the grid of the denominator. -/
def OnGrid (d : Denominator) (p : Nat) : Prop := 1 ≤ p ∧ p ≤ 319999 ∧ p % d.step = 0

/-- R2: the law of last, open, high and low. -/
structure DayLaw (d : Denominator) (x : DayPrices) : Prop where
  last : OnGrid d x.last
  opened : OnGrid d x.opened
  high : OnGrid d x.high
  low : OnGrid d x.low
  openRange : x.low ≤ x.opened ∧ x.opened ≤ x.high
  lastRange : x.low ≤ x.last ∧ x.last ≤ x.high

/-- R2: a side's price on the grid, its size within 1 to 9,999 lots. -/
def SideLaw (d : Denominator) (x : Side) : Prop := OnGrid d x.price ∧ 1 ≤ x.size ∧ x.size ≤ 9999

/-- R2, R3, R7: the law of one record. -/
structure RecordLaw (r : Record) : Prop where
  symbol : r.symbol ≠ [] ∧ r.symbol.length ≤ 4 ∧ ∀ g ∈ r.symbol, isLetter g = true
  close : ∀ c, r.close = some c → OnGrid r.denominator c
  day : ∀ d, r.day = some d → DayLaw r.denominator d
  bid : ∀ x, r.bid = some x → SideLaw r.denominator x
  ask : ∀ x, r.ask = some x → SideLaw r.denominator x
  notCrossed : ∀ x y, r.bid = some x → r.ask = some y → x.price ≤ y.price
  volume : r.volume ≤ 999999999
  trades : r.trades ≤ 65535
  folded : ∀ p, r.pending = some p → 1 ≤ p.folded ∧ p.folded ≤ 65535

/-- R2: "the record table keeps the following law for every record that is not FREE". -/
def RecordsLaw (s : State) : Prop := ∀ (i : SlotIx) r, s.records[i] = some r → RecordLaw r

/-- R8: at most one entry per symbol, every entry naming a non-FREE slot that holds the symbol, and one entry for every
non-FREE slot. -/
structure DirectoryLaw (s : State) : Prop where
  oncePerSymbol : (s.directory.map (·.1)).Nodup
  names : ∀ e ∈ s.directory, ∃ r, s.records[e.2] = some r ∧ r.symbol = e.1
  complete : ∀ (i : SlotIx) r, s.records[i] = some r → (r.symbol, i) ∈ s.directory

/-- R62, R149: the slot holds a live record of the symbol. -/
def RefersTo (s : State) (sym : Symbol) (i : SlotIx) : Prop :=
  ∃ r, s.records[i] = some r ∧ r.state.isLive = true ∧ r.symbol = sym

/-- R62, R149: "every bound layout entry refers to a record that is neither FREE nor RETIRING and whose symbol equals
the entry's symbol", and so does every ACTIVE watch entry. -/
structure BindingLaw (s : State) : Prop where
  entries : ∀ (k : EntryIx) e i, s.entries[k] = some e → e.binding = some i → RefersTo s e.symbol i
  watch : ∀ (t : TermIx) w i, w ∈ s.terminals[t].watch → w.state = .active i → RefersTo s w.symbol i

/-- The law of the symbol directory and of what refers to its records. -/
structure TableLaw (s : State) : Prop where
  directory : DirectoryLaw s
  binding : BindingLaw s

/-! ### Tapes and ribbons (R13, R108, R112, R113, R125) -/

/-- R108, R113: the law of one tape's list and account. -/
structure TapeLaw (s : State) (t : AB) : Prop where
  once : (s.tapes.get t).prints.Nodup
  listed : ∀ i ∈ (s.tapes.get t).prints, ∃ r, s.records[i] = some r ∧ r.tape = t ∧ r.pending ≠ none
  balanced : (s.tapes.get t).accepted
    = (s.tapes.get t).printed + (s.tapes.get t).withdrawn + tapePendingShares t s
  backlog : (s.tapes.get t).prints.length ≤ (s.tapes.get t).backlogMax

/-- R13, R108, section 2.7: a record has a pending print only while it stands on its tape's list; it then has a last
price; a RETIRING record has one. -/
structure PendingLaw (s : State) : Prop where
  onList : ∀ (i : SlotIx) r, s.records[i] = some r → r.pending ≠ none → i ∈ (s.tapes.get r.tape).prints
  priced : ∀ (i : SlotIx) r, s.records[i] = some r → r.pending ≠ none → r.day ≠ none
  retiring : ∀ (i : SlotIx) r, s.records[i] = some r → r.state = .retiring → r.pending ≠ none

/-- The law of both tapes and of the pending prints. -/
structure TapesLaw (s : State) : Prop where
  tape : ∀ t, TapeLaw s t
  pending : PendingLaw s

/-- R125: "a STOPPING ribbon with an empty feeder does not arise". -/
def RibbonsLaw (s : State) : Prop :=
  ∀ t next, (s.ribbons.get t).state = .stopping next → (s.ribbons.get t).feeder ≠ []

/-! ### Boards (R75, R77, R92, R93, R103) -/

/-- R97, R103: a read that has not been overtaken has a target on a LIVE panel, with a known image, not FAILED and not
queued. -/
structure ReadLaw (s : State) (t : PosIx) : Prop where
  live : s.panels[panelOf t].state = .live
  image : s.boards.positions[t].image ≠ none
  verify : s.boards.positions[t].verify ≠ .failed
  unqueued : t ∉ s.boards.repaint

/-- The laws of the repaint queue (R75), the panel bus (R77), the dark panels (R93) and the verifier (R97). -/
structure RefreshLaw (s : State) : Prop where
  queueOnce : s.boards.repaint.Nodup
  queueLive : ∀ p ∈ s.boards.repaint, s.panels[panelOf p].state = .live
  oneOperation : s.boards.write = none ∨ s.verifier.target = none
  readingTarget : s.verifier.phase = .reading ↔ s.verifier.target ≠ none
  read : ∀ t, s.verifier.target = some t → s.verifier.overtaken = false → ReadLaw s t
  dark : ∀ p : PosIx, s.panels[panelOf p].state ≠ .live →
    s.boards.positions[p].image = none ∧ s.boards.positions[p].flash = 0

/-- R95: the state of the rail to which a panel is assigned. -/
def feedState (s : State) (panel : PanelIx) : RailState := s.rails[s.params.panelRail[panel]].state

/-- The law of the boards; R92: a panel is SHED exactly while the rail that feeds it is FAIL. -/
structure BoardLaw (s : State) : Prop where
  shedIffFail : ∀ panel : PanelIx, s.panels[panel].state = .shed ↔ feedState s panel = .fail
  refresh : RefreshLaw s

/-! ### Pages (R65, R68) -/

/-- R65: every defined page has entries that "all name that panel and distinct positions"; a panel's current page is
defined and belongs to it; R68: each position shows what the current page of its panel gives it. -/
structure PagesLaw (s : State) : Prop where
  defined : ∀ (n : PageIx) page, s.pages[n] = some page →
    1 ≤ page.count ∧ page.count ≤ 64 ∧ pageQualifies s page.panel page.first page.count = true
  current : ∀ (panel : PanelIx) n, s.panels[panel].current = some n →
    ∃ page, s.pages[n] = some page ∧ page.panel = panel
  shown : ∀ p : PosIx, s.boards.positions[p].shown = shownBy s p

/-! ### Terminal lines (R138, R139, R140) -/

/-- R138: the law of one terminal record. -/
structure TerminalLaw (t : Terminal) : Prop where
  places : t.watch.length ≤ 12
  distinct : t.watched.Nodup
  dirtyOnce : t.dirty.Nodup
  dirtyWatched : ∀ sym ∈ t.dirty, sym ∈ t.watched
  away : t.takesMarks = false → t.dirty = [] ∧ t.answer = none
  misses : t.missRun ≤ 8

/-- R140, R143: what an outstanding item says of its terminal while the visit lasts. -/
def Outstanding.Held (t : Terminal) : Outstanding → Prop
  | .nothing => True
  | .answer _ => t.takesMarks = true ∧ t.answer = none
  | .active sym => t.takesMarks = true ∧ sym ∈ t.watched
  | .dropped sym _ => t.takesMarks = true ∧ sym ∉ t.watched ∧ t.watch.length ≤ 11

/-- R139, R140: the law of one line. -/
structure LineLaw (s : State) (line : LineIx) : Prop where
  visiting : ∀ v, s.lines[line].visit = some v → s.lines[line].round = .atDrop (v.drop.val + 1)
  attached : ∀ v, s.lines[line].visit = some v → v.detached = false →
    s.terminals[terminalAt line v.drop].enabled = true
      ∧ v.outstanding.Held s.terminals[terminalAt line v.drop]
  detached : ∀ v, s.lines[line].visit = some v → v.detached = true → v.outstanding = .nothing
  idle : s.lines[line].visit = none → (s.lines[line].round = .idle ↔ anyEnabled s line = false)

/-- The law of the terminal records and the line controllers. -/
structure TerminalsLaw (s : State) : Prop where
  terminal : ∀ t : TermIx, TerminalLaw s.terminals[t]
  line : ∀ line : LineIx, LineLaw s line

/-! ### The feed link and the parameters (R130, R161, R162, R165, R167) -/

/-- R130: the five mode thresholds of a tape. -/
structure ThresholdsLaw (t : Thresholds) : Prop where
  ec : 1 ≤ t.ec ∧ t.ec ≤ 2048
  eb : 1 ≤ t.eb ∧ t.eb ≤ 2048
  lc : t.lc ≤ 2047
  lb : t.lb ≤ 2047
  k : 1 ≤ t.k ∧ t.k ≤ 255
  order : t.lc < t.ec ∧ t.ec ≤ t.eb ∧ t.lb < t.eb

/-- R167: every parameter lies within its range. -/
structure ParamsLaw (p : Params) : Prop where
  quietLimit : p.quietLimit ≤ 60
  flashCount : p.flashCount ≤ 15
  blinkPeriod : ∀ x, p.blinkPeriod.get x = 250 ∨ p.blinkPeriod.get x = 500 ∨ p.blinkPeriod.get x = 1000
    ∨ p.blinkPeriod.get x = 2000
  litPart : ∀ x, p.litPart.get x ≤ 8
  settleTime : 2 ≤ p.settleTime ∧ p.settleTime ≤ 50
  sagCeiling : 1 ≤ p.sagCeiling ∧ p.sagCeiling ≤ 12
  brightness : ∀ rail : RailIx, p.brightness[rail] ≤ 15
  verifyGap : p.verifyGap ≤ 255
  failThreshold : 1 ≤ p.failThreshold ∧ p.failThreshold ≤ 8
  clearThreshold : 1 ≤ p.clearThreshold ∧ p.clearThreshold ≤ 8
  stepPeriod : ∀ x, 4 ≤ p.stepPeriod.get x ∧ p.stepPeriod.get x ≤ 30
  thresholds : ∀ x, ThresholdsLaw (p.thresholds.get x)
  replyWindow : 4 ≤ p.replyWindow ∧ p.replyWindow ≤ 25
  absentThreshold : 1 ≤ p.absentThreshold ∧ p.absentThreshold ≤ 8
  probeSpacing : 2 ≤ p.probeSpacing ∧ p.probeSpacing ≤ 64

/-- R161, R162, R165: the queues within their places, the receive counters within 16 bits. -/
structure FeedLaw (s : State) : Prop where
  inbound : s.feed.inbound.length ≤ 8
  replies : s.feed.replies.length ≤ 8
  check : s.feed.checkCount ≤ 65535
  framing : s.feed.framingCount ≤ 65535
  overrun : s.feed.overrunCount ≤ 65535

/-- The law of the feed link interface. -/
structure InterfaceLaw (s : State) : Prop where
  feed : FeedLaw s
  params : ParamsLaw s.params

/-! ### The words of the statements: the taking of a message (R164)

A taken message leaves the inbound queue (`removeHead`), its owner's rules are applied, and its reply is placed at the
tail of the reply queue with the message's kind and tag (`placeReply`). -/

/-- The message at the head of the inbound queue can be taken as a message of the kind. -/
structure CanTakeHead (k : Kind) (f : Frame) (s : State) : Prop where
  powered : s.por = false
  head : s.feed.inbound.head? = some f
  kind : f.kind = k.code
  place : s.feed.replies.length < 8

/-- The command that takes a message of the kind. -/
def Kind.command : Kind → Instr
  | .list => .list
  | .delist => .delist
  | .trade => .trade
  | .quote => .quote
  | .halt => .halt
  | .resume => .resume
  | .sessionOpen => .sessionOpen
  | .sessionClose => .sessionClose
  | .dayRoll => .dayRoll
  | .tableClear => .tableClear
  | .queryRecord => .queryRecord
  | .loadEntry => .loadEntry
  | .unloadEntry => .unloadEntry
  | .definePage => .definePage
  | .undefinePage => .undefinePage
  | .showPage => .showPage
  | .restorePanel => .restorePanel
  | .clearFaults => .clearFaults
  | .tapeStart => .tapeStart
  | .tapeStop => .tapeStop
  | .tapeClear => .tapeClear
  | .notice => .notice
  | .terminalEnable => .terminalEnable
  | .setParameter => .setParameter
  | .readParameter => .readParameter
  | .readStatus => .readStatus
  | .clearConditions => .clearConditions
  | .restart => .restart

/-- R41, R164: a taken message refused with the status: a reply of the status alone, and no other change. -/
def turnedAway (f : Frame) (status : Status) (s : State) : State := placeReply f.kind f.tag ⟨status, []⟩ (removeHead s)

/-! ### The words of the statements: marks, reads, pages and STALE -/

/-- R75, R101: the positions that `P` picks out have been marked in the state `s`, in position order, which has given
the repaint queue and the overtaken indication of `u`. -/
structure Marked (s : State) (P : PosIx → Prop) (u : State) : Prop where
  queue : ∃ added, u.boards.repaint = s.boards.repaint ++ added ∧ added.Pairwise (· < ·) ∧
    ∀ p : PosIx, p ∈ added ↔ P p ∧ s.panels[panelOf p].state = .live ∧ p ∉ s.boards.repaint
  overtaken : u.verifier.overtaken = true ↔ s.verifier.overtaken = true ∨
    ∃ p : PosIx, s.verifier.target = some p ∧ P p ∧ s.panels[panelOf p].state = .live ∧ p ∉ s.boards.repaint

/-- R98: the position is eligible for a read. -/
structure Eligible (s : State) (p : PosIx) : Prop where
  live : s.panels[panelOf p].state = .live
  image : s.boards.positions[p].image ≠ none
  switched : s.boards.positions[p].switchPending = false
  unqueued : p ∉ s.boards.repaint
  verify : s.boards.positions[p].verify = .good ∨ s.boards.positions[p].verify = .suspect

/-- R81: the price kinds. -/
def priceKinds : List FieldKind := [.last, .change, .bid, .ask, .high, .low, .opened]

/-- R68: the entry is in the range of the page and names the position. -/
def ShowsUnder (s : State) (page : Option PageIx) (p : PosIx) (i : EntryIx) : Prop :=
  ∃ n d e, page = some n ∧ s.pages[n] = some d ∧ d.first ≤ i.val ∧ i.val < d.first + d.count ∧
    s.entries[i] = some e ∧ e.position = positionIn p

/-- R69: the current page of the panel has been set to `page` in `s`, with the steps that follow, which has given `u`. -/
structure PanelSwitched (panel : PanelIx) (page : Option PageIx) (s u : State) : Prop where
  frame : u = { s with
    panels := s.panels.set panel { s.panels[panel] with
      current := page, state := if s.panels[panel].state = .shed then .shed else .live }
    boards := { s.boards with positions := u.boards.positions, repaint := u.boards.repaint }
    verifier := { s.verifier with overtaken := u.verifier.overtaken } }
  switched : ∀ p : PosIx, panelOf p = panel → u.boards.positions[p] = { s.boards.positions[p] with
    shown := shownBy u p, switchPending := true, flash := 0 }
  kept : ∀ p : PosIx, panelOf p ≠ panel → u.boards.positions[p] = s.boards.positions[p]
  marked : Marked { s with panels := u.panels } (fun p => panelOf p = panel) u

/-! ### The words of the statements: parameters and restart -/

/-- R167, R130, R85: the value may be written to the parameter. -/
def ValueFits (p : Params) (q : Parameter) (v : Nat) : Prop :=
  match q with
  | .quietLimit => v ≤ 60
  | .flashCount => v ≤ 15
  | .blinkPeriod _ => v = 250 ∨ v = 500 ∨ v = 1000 ∨ v = 2000
  | .litPart _ => v ≤ 8
  | .settleTime => 2 ≤ v ∧ v ≤ 50
  | .sagCeiling => 1 ≤ v ∧ v ≤ 12
  | .brightness _ => v ≤ 15
  | .policy _ => v ≤ 1
  | .panelRail _ => v ≤ 3
  | .verifyEnable => v ≤ 1
  | .verifyGap => v ≤ 255
  | .failThreshold => 1 ≤ v ∧ v ≤ 8
  | .clearThreshold => 1 ≤ v ∧ v ≤ 8
  | .stepPeriod _ => 4 ≤ v ∧ v ≤ 30
  | .ec x => ThresholdsLaw { p.thresholds.get x with ec := v }
  | .eb x => ThresholdsLaw { p.thresholds.get x with eb := v }
  | .lc x => ThresholdsLaw { p.thresholds.get x with lc := v }
  | .lb x => ThresholdsLaw { p.thresholds.get x with lb := v }
  | .k x => ThresholdsLaw { p.thresholds.get x with k := v }
  | .replyWindow => 4 ≤ v ∧ v ≤ 25
  | .absentThreshold => 1 ≤ v ∧ v ≤ 8
  | .probeSpacing => 2 ≤ v ∧ v ≤ 64
  | .mask => True

/-- R173, block by block: a restart of `s` has given `u`, the reply queue apart. -/
structure Restarted (s u : State) : Prop where
  kept : u.time = s.time ∧ u.por = s.por ∧ u.phase = s.phase ∧ u.params = s.params ∧ u.entries = s.entries ∧
    u.pages = s.pages ∧ u.panels = s.panels ∧ u.rails = s.rails ∧ u.pending = s.pending
  feed : u.feed = { s.feed with
    receiver := .hunting, inbound := [], replies := u.feed.replies, latched := 0, stale := false, lastIntact := s.time }
  records : ∀ i : SlotIx, u.records[i] = s.records[i].bind (fun r =>
    if r.state = .retiring then none else some { r with pending := none })
  directory : u.directory.Sublist s.directory ∧ ∀ e, e ∈ u.directory ↔ e ∈ s.directory ∧
    ¬ ∃ r, s.records[e.2] = some r ∧ r.state = .retiring
  tapes : ∀ x : AB, u.tapes.get x =
    { prints := [], backlogMax := (s.tapes.get x).backlogMax, accepted := (s.tapes.get x).accepted
      printed := (s.tapes.get x).printed, withdrawn := (s.tapes.get x).withdrawn + tapePendingShares x s, mode := .full
      modeCount := 0, staged := none, feedSlot := none, modeSlot := none, lateSlot := none, lateness := 0 }
  ribbons : ∀ x : AB, (u.ribbons.get x).state = .stopped ∧ (u.ribbons.get x).feeder = [] ∧
    (u.ribbons.get x).charOut = (s.ribbons.get x).charOut ∧ (u.ribbons.get x).strobes = (s.ribbons.get x).strobes
  bus : u.boards.write = none ∧ u.boards.timerStart = ⟨s.time, s.time⟩
  positions : ∀ p : PosIx, u.boards.positions[p] = { s.boards.positions[p] with
    image := if s.boards.write.map (·.position) = some p then none else s.boards.positions[p].image
    shown := shownBy s p
    switchPending := true
    flash := 0
    verify := .good
    mismatchRun := 0
    matchRun := 0 }
  repaint : u.boards.repaint.Pairwise (· < ·) ∧
    ∀ p : PosIx, p ∈ u.boards.repaint ↔ s.panels[panelOf p].state = .live
  verifier : u.verifier =
    { phase := if s.params.verifyEnable = true then
          (if s.params.verifyGap = 0 then .ready else .waiting s.time s.params.verifyGap)
        else .idle
      cursor := 0, target := none, overtaken := false, mismatchTotal := 0, lastFailed := none }
  lines : ∀ line : LineIx, u.lines[line] = { s.lines[line] with
    counter := 0
    visit := none
    round := if anyEnabled s line = true then .quiet s.time else .idle }
  terminals : ∀ (line : LineIx) (d : DropIx) (t : Terminal), t = s.terminals[terminalAt line d] →
    ∃ t', u.terminals[terminalAt line d] = t' ∧ t'.enabled = t.enabled ∧ t'.presence = .unknown ∧ t'.missRun = 0 ∧
      t'.answer = none ∧
      t'.watch = (match outstandingOf s line d with
        | .dropped sym place => t.watch.take place ++ ⟨sym, .dropped⟩ :: t.watch.drop place
        | _ => t.watch) ∧
      (t.enabled = false → t'.dirty = []) ∧ (t.enabled = true → t'.watched.Nodup → t'.dirty = t'.watched)

/-! ### The words of the statements: selections, rounds and misses -/

/-- R125, R127: the item has been fed to the RUNNING ribbon `x` at the step time `next`: its first character has entered
the ribbon with one strobe (R122), the rest is in the feeder, and the tape unit and the latched conditions are as given. -/
def fed (x : AB) (next : Time) (kind : ItemKind) (item : Text) (unit : TapeUnit) (latched : Flags30) (s : State) :
    State :=
  { s with
    tapes := s.tapes.put x unit
    ribbons := s.ribbons.put x
      ⟨.running (next + BitVec.ofNat 32 (s.params.stepPeriod.get x)), if item.tail = [] then .blank else kind, item.tail,
        item.headD (s.ribbons.get x).charOut, (s.ribbons.get x).strobes + 1⟩
    feed := { s.feed with latched := latched } }

/-- R139: a terminal is due in the round of the number given. -/
def IsDue (t : Terminal) (counter : BitVec 16) (spacing : Nat) : Prop :=
  t.enabled = true ∧ (t.presence ≠ .absent ∨ counter.toNat % spacing = 0)

/-- R139: the stage of the round of the number given when it begins: at its first drop, or empty. -/
def RoundBegins (s : State) (line : LineIx) (counter : BitVec 16) (round : Round) : Prop :=
  ((∃ d : DropIx, IsDue s.terminals[terminalAt line d] counter s.params.probeSpacing) → round = .atDrop 0) ∧
    ((∀ d : DropIx, ¬ IsDue s.terminals[terminalAt line d] counter s.params.probeSpacing) → round = .empty s.time)

/-- R141: the visit has met a miss, whose effects are those of R143, and is SETTLING with nothing outstanding. -/
def missedAndSettling (line : LineIx) (v : Visit) (cause : MissCause) (s : State) : State :=
  let z := applyMiss line v cause s
  { z with lines := z.lines.set line { z.lines[line] with
    visit := some { v with outstanding := .nothing, phase := .settling s.time } } }

/-- R87, R134, R171, R172: STALE has become set or clear in `s`, with its effects, which has given `u`. -/
structure StaleTurned (stale : Bool) (text : Text) (s u : State) : Prop where
  frame : u = { s with
    feed := { s.feed with stale := stale, latched := s.feed.latched ||| BitVec.twoPow 30 29 }
    tapes := ⟨{ s.tapes.a with feedSlot := some text }, { s.tapes.b with feedSlot := some text }⟩
    boards := { s.boards with repaint := u.boards.repaint }
    verifier := { s.verifier with overtaken := u.verifier.overtaken } }
  marked : Marked s (fun p => ∃ e, shownEntry s s.boards.positions[p] = some e ∧ e.kind ∈ priceKinds) u

end Sys2Proof.Machine
end

