-- ==== Sys2Proof/Certificates/Slice0/Obligations.lean ====
section
/-! DEFINITION. The statements for the provers, from the rules of spec/: the machine and its laws, then the families of
commands in the order of the chapters. A statement of what a taken message does names the frame at the head of the
inbound queue by `CanTakeHead`; the state it reaches is written as an update of the state before, so that everything
not named is unchanged. Logs 1 and 2 hold throughout: an event command is stated under the conditions of its event. -/

open Sys2Proof Sys2Proof.Machine

/-! ### The machine -/

/-- A step runs the command at the front of the queue on the machine with the queue's rest. -/
def Obligations.StepRunsFront : Prop :=
  ∀ (c : Instr) (rest : List Instr) (s : State), s.pending = c :: rest → step s = exec c { s with pending := rest }

/-- With no command waiting an interval passes (the model's choice, log 3): the time base counts, and each rail's lamp
duty is the effective duty of R90 in the multiplex frame that begins (log 9). While POR is asserted the time base does
not count (R174). -/
def Obligations.IdleStepPassesInterval : Prop :=
  ∀ s : State, s.pending = [] →
    (s.por = true → step s = .next s) ∧
    (s.por = false → ∃ t, step s = .next t ∧ t = { s with time := s.time + 1, rails := t.rails } ∧
      ∀ rail : RailIx, t.rails[rail] = { s.rails[rail] with sampled := false, duty := lampDuty t rail } ∧
        lampDuty t rail = (match s.rails[rail].state with
          | .ok => min s.params.brightness[rail] 12
          | .low => min (min s.params.brightness[rail] 12) s.params.sagCeiling
          | .fail => 0))

/-- Every command, in every state, answers a next state and leaves the queue of waiting commands as it is. -/
def Obligations.EveryCommandAnswersNext : Prop :=
  ∀ (c : Instr) (s : State), ∃ t, exec c s = .next t ∧ t.pending = s.pending

/-- R174: what POR holds, and what its release leaves: every value that the chapters state for a power-on reset. That
no command but POR ASSERT and POR RELEASE has an effect while POR is asserted, RESTART INPUT among them, is the model's
choice (log 10). -/
def Obligations.PowerOnReset : Prop :=
  (∀ s : State, exec .porAssert s = .next { State.reset with por := true, pending := s.pending }) ∧
  (∀ (c : Instr) (s : State), s.por = true → c ≠ .porAssert → c ≠ .porRelease → exec c s = .next s) ∧
  (∀ s : State, s.por = true → s.ready = false ∧ s.attention = false ∧ sendingReply s = none) ∧
  (∀ s : State, s.por = true → exec .porRelease s = .next { State.reset with pending := s.pending }) ∧
  (State.reset.por = false ∧ State.reset.time = 0 ∧ State.reset.ready = true ∧ State.reset.attention = false ∧
    sendingReply State.reset = none) ∧
  (State.reset.feed.receiver = .hunting ∧ State.reset.feed.inbound = [] ∧ State.reset.feed.replies = [] ∧
    State.reset.feed.checkCount = 0 ∧ State.reset.feed.framingCount = 0 ∧ State.reset.feed.overrunCount = 0 ∧
    State.reset.feed.latched = 0 ∧ State.reset.feed.stale = false ∧ State.reset.feed.lastIntact = 0) ∧
  (State.reset.phase = .pre ∧ State.reset.directory = [] ∧ (∀ i : SlotIx, State.reset.records[i] = none) ∧
    (∀ k : EntryIx, State.reset.entries[k] = none) ∧ (∀ n : PageIx, State.reset.pages[n] = none)) ∧
  (∀ panel : PanelIx, State.reset.panels[panel] = ⟨.shed, none, none⟩) ∧
  (∀ p : PosIx, State.reset.boards.positions[p] = ⟨none, none, false, 0, .good, 0, 0⟩) ∧
  (State.reset.boards.repaint = [] ∧ State.reset.boards.write = none ∧ State.reset.boards.timerStart = ⟨0, 0⟩) ∧
  (∀ rail : RailIx, State.reset.rails[rail].state = .fail ∧ State.reset.rails[rail].candidate = .fail ∧
    State.reset.rails[rail].run = 1) ∧
  (State.reset.verifier.phase = .waiting 0 10 ∧ State.reset.verifier.cursor = 0 ∧
    State.reset.verifier.target = none ∧ State.reset.verifier.overtaken = false ∧
    State.reset.verifier.mismatchTotal = 0 ∧ State.reset.verifier.lastFailed = none) ∧
  (∀ t : AB, State.reset.tapes.get t = ⟨[], 0, 0, 0, 0, .full, 0, none, none, none, none, 0⟩ ∧
    (State.reset.ribbons.get t).state = .stopped ∧ (State.reset.ribbons.get t).feeder = []) ∧
  (∀ line : LineIx, State.reset.lines[line].counter = 0 ∧ State.reset.lines[line].round = .idle ∧
    State.reset.lines[line].visit = none ∧ State.reset.lines[line].silentCount = 0 ∧
    State.reset.lines[line].checkCount = 0 ∧ State.reset.lines[line].framingCount = 0) ∧
  (∀ t : TermIx, State.reset.terminals[t] = ⟨false, .unknown, 0, none, [], []⟩) ∧
  State.reset.params =
    { quietLimit := 10, flashCount := 6, blinkPeriod := ⟨500, 1000⟩, litPart := ⟨4, 6⟩, settleTime := 4, sagCeiling := 6
      brightness := #v[12, 12, 12, 12], policy := #v[.restore, .restore, .restore, .restore]
      panelRail := #v[0, 0, 0, 0, 1, 1, 1, 1, 2, 2, 2, 2, 3, 3, 3, 3], verifyEnable := true, verifyGap := 10
      failThreshold := 3, clearThreshold := 4, stepPeriod := ⟨8, 8⟩
      thresholds := ⟨⟨40, 120, 20, 80, 8⟩, ⟨40, 120, 20, 80, 8⟩⟩, replyWindow := 4, absentThreshold := 3
      probeSpacing := 16, mask := BitVec.allOnes 30 }

/-- Every law of Safety.lean holds at reset. -/
def Obligations.ResetKeepsEveryLaw : Prop :=
  RecordsLaw State.reset ∧ TableLaw State.reset ∧ TapesLaw State.reset ∧ RibbonsLaw State.reset ∧
    BoardLaw State.reset ∧ PagesLaw State.reset ∧ TerminalsLaw State.reset ∧ InterfaceLaw State.reset

/-- R2: every step keeps the law of the records. -/
def Obligations.RecordLawKept : Prop :=
  ∀ s t : State, RecordsLaw s → step s = .next t → RecordsLaw t

/-- R8, R62, R149: every step keeps the law of the directory and of the bindings. -/
def Obligations.TableLawKept : Prop :=
  ∀ s t : State, TableLaw s → step s = .next t → TableLaw t

/-- R13, R108, R113, R125: every step keeps the law of the lists and accounts of both tapes and of the ribbons. -/
def Obligations.TapeLawsKept : Prop :=
  (∀ s t : State, TapesLaw s → step s = .next t → TapesLaw t) ∧
    ∀ s t : State, RibbonsLaw s → step s = .next t → RibbonsLaw t

/-- R65, R68, R75, R77, R92, R97: every step keeps the laws of the boards and of the pages. -/
def Obligations.BoardLawsKept : Prop :=
  (∀ s t : State, BoardLaw s → step s = .next t → BoardLaw t) ∧
    ∀ s t : State, PagesLaw s → step s = .next t → PagesLaw t

/-- R138, R139, R140: every step keeps the law of the terminal records and the line controllers. -/
def Obligations.TerminalLawsKept : Prop :=
  ∀ s t : State, TerminalsLaw s → step s = .next t → TerminalsLaw t

/-- R130, R161, R162, R165, R167: every step keeps the law of the queues, counters and parameters. -/
def Obligations.InterfaceLawKept : Prop :=
  ∀ s t : State, InterfaceLaw s → step s = .next t → InterfaceLaw t

/-! ### The taking of messages -/

/-- R164: a frame of an unknown kind, or whose length does not suit its kind, is answered MALFORMED; R7: and so is a
message whose symbol field is not 1 to 4 capital letters followed by blanks. Its reply carries the frame's kind and tag,
and nothing else changes. R164, R165: with 8 replies waiting no message is taken. -/
def Obligations.MessagesMalformedOrHeld : Prop :=
  (∀ (f : Frame) (s t : State), s.por = false → s.feed.inbound.head? = some f → s.feed.replies.length < 8 →
    t = { s with feed := { s.feed with
      inbound := s.feed.inbound.tail, replies := s.feed.replies ++ [⟨f.kind, f.tag, .malformed, []⟩] } } →
    ((∀ k : Kind, f.kind ≠ k.code) → exec .unknownKindTaken s = .next t) ∧
    (∀ k : Kind, f.kind = k.code → k.lengthFits f.body.length = false → exec k.command s = .next t) ∧
    (∀ (k : Kind) (offset : Nat), f.kind = k.code → k.lengthFits f.body.length = true →
      (k ∈ [Kind.list, .delist, .trade, .quote, .halt, .resume, .queryRecord] ∧ offset = 0 ∨
        k = .loadEntry ∧ offset = 7) →
      (∀ letters : Symbol, 1 ≤ letters.length → (∀ g ∈ letters, 0x41 ≤ g ∧ g ≤ 0x5A) →
        (f.body.drop offset).take 4 ≠ letters ++ List.replicate (4 - letters.length) 0x20) →
      exec k.command s = .next t)) ∧
  ∀ s : State, 8 ≤ s.feed.replies.length →
    exec .unknownKindTaken s = .next s ∧ ∀ k : Kind, exec k.command s = .next s

/-! ### Records (chapter 1) -/

/-- R10, R11, R62: an accepted LIST takes the lowest-numbered FREE slot, sets every field of its record, adds its
directory entry, binds the UNBOUND entries that name the symbol, and issues one change notice of group DAY. -/
def Obligations.ListAccepted : Prop :=
  ∀ (f : Frame) (s : State) (sym : Symbol) (tape : AB) (d : Denominator) (close : Option Nat) (i : SlotIx),
    CanTakeHead .list f s → f.body.length = 10 →
    symbolAt f.body 0 = some sym → byteAt f.body 4 = tapeCode tape → field f.body 5 1 = d.value →
    close = (if flagAt f.body 6 0 then some (field f.body 7 3) else none) → (∀ c, close = some c → OnGrid d c) →
    (∀ e ∈ s.directory, e.1 ≠ sym) → s.records[i] = none → (∀ j, j < i → s.records[j] ≠ none) →
    ∃ u : State, exec .list s
        = .next (placeReply f.kind f.tag ⟨.ok, beBytes 2 i.val⟩ (changeNotice i [.day] false u)) ∧
      u = { removeHead s with
        records := s.records.set i (some
          { symbol := sym, state := .listed, tape := tape, denominator := d, close := close, day := none, bid := none
            ask := none, volume := 0, trades := 0, direction := .none, pending := none })
        directory := u.directory
        entries := u.entries } ∧
      (∀ e, e ∈ u.directory ↔ e = (sym, i) ∨ e ∈ s.directory) ∧
      ∀ k : EntryIx, u.entries[k] = s.entries[k].map (fun e =>
        if e.symbol = sym ∧ e.binding = none then { e with binding := some i } else e)

/-- R10: a LIST is refused at the first check that fails, with that check's status, and changes nothing. -/
def Obligations.ListRefused : Prop :=
  ∀ (f : Frame) (s : State), CanTakeHead .list f s → f.body.length = 10 →
    (symbolAt f.body 0 = none → exec .list s = .next (turnedAway f .malformed s)) ∧
    ∀ sym, symbolAt f.body 0 = some sym →
      ((field f.body 4 1 ∉ [0, 1] ∨ field f.body 5 1 ∉ [8, 16, 32]) → exec .list s = .next (turnedAway f .range s)) ∧
      (field f.body 4 1 ∈ [0, 1] → ∀ d : Denominator, field f.body 5 1 = d.value →
        (flagAt f.body 6 0 = true → ¬ OnGrid d (field f.body 7 3) → exec .list s = .next (turnedAway f .range s)) ∧
        ((flagAt f.body 6 0 = true → OnGrid d (field f.body 7 3)) →
          (∀ i r, fullLookup sym s = some (i, r) → r.state ≠ .retiring →
            exec .list s = .next (turnedAway f .existing s)) ∧
          (∀ i r, fullLookup sym s = some (i, r) → r.state = .retiring →
            exec .list s = .next (turnedAway f .busy s)) ∧
          (fullLookup sym s = none → (∀ i : SlotIx, s.records[i] ≠ none) →
            exec .list s = .next (turnedAway f .full s))))

/-- R4, R12, R13, R63: DELIST unbinds the slot's layout entries and marks their positions, drops its watch entries, and
frees the record, or leaves it RETIRING while its pending print waits. -/
def Obligations.DelistTaken : Prop :=
  ∀ (f : Frame) (s : State) (sym : Symbol), CanTakeHead .delist f s → f.body.length = 4 →
    symbolAt f.body 0 = some sym →
    (fullLookup sym s = none → exec .delist s = .next (turnedAway f .unknown s)) ∧
    (∀ i r, fullLookup sym s = some (i, r) → r.state = .retiring → exec .delist s = .next (turnedAway f .state s)) ∧
    (∀ i r, fullLookup sym s = some (i, r) → r.state ≠ .retiring →
      ∃ u : State, exec .delist s = .next (placeReply f.kind f.tag ⟨.ok, []⟩ u) ∧
        u = { removeHead s with
          records := u.records
          directory := u.directory
          entries := u.entries
          terminals := u.terminals
          boards := { s.boards with repaint := u.boards.repaint }
          verifier := { s.verifier with overtaken := u.verifier.overtaken } } ∧
        (r.pending = none → u.records = s.records.set i none ∧ u.directory = s.directory.filter (fun e => e.2 != i)) ∧
        (r.pending ≠ none →
          u.records = s.records.set i (some { r with state := .retiring }) ∧ u.directory = s.directory) ∧
        (∀ k : EntryIx, u.entries[k] = s.entries[k].map (fun e =>
          if e.binding = some i then { e with binding := none } else e)) ∧
        Marked s (fun p => shownSlot s s.boards.positions[p] = some i) u ∧
        ∀ t : TermIx, u.terminals[t] = s.terminals[t].dropEntries (fun j => j == i))

/-- R157, R150: what becomes of a terminal's watch entries when slots are delisted: each ACTIVE entry bound to one of
them becomes DROPPED and is marked, or is removed at once where the terminal is ABSENT or disabled; the others stay. That
the entries of one terminal are marked in list order is the model's choice (log 26). -/
def Obligations.DelistedWatchEntriesDrop : Prop :=
  ∀ (hit : SlotIx → Bool) (t : Terminal),
    (t.enabled = true → t.presence ≠ .absent →
      ∃ added, t.dropEntries hit = { t with
          watch := t.watch.map (fun w => match w.state with
            | .active i => if hit i then ⟨w.symbol, .dropped⟩ else w
            | .dropped => w)
          dirty := t.dirty ++ added } ∧
        added.Sublist t.watched ∧
        ∀ sym, sym ∈ added ↔ sym ∉ t.dirty ∧ ∃ i, ⟨sym, .active i⟩ ∈ t.watch ∧ hit i = true) ∧
    (t.enabled = false ∨ t.presence = .absent →
      t.dropEntries hit = { t with watch := t.watch.filter (fun w => match w.state with
        | .active i => !hit i
        | .dropped => true) })

/-- R9, R16: QUERY RECORD answers with the record image of the record that the full lookup finds, changing nothing;
where the directory keeps its law, the full lookup finds exactly the record of the symbol, and the live lookup finds it
unless it is RETIRING. R178: the record image, field by field at its offsets, with 0 in the places of an absent field. -/
def Obligations.QueryRecordAnswered : Prop :=
  (∀ (f : Frame) (s : State) (sym : Symbol), CanTakeHead .queryRecord f s → f.body.length = 4 →
    symbolAt f.body 0 = some sym →
    (fullLookup sym s = none → exec .queryRecord s = .next (turnedAway f .unknown s)) ∧
    ∀ i r, fullLookup sym s = some (i, r) →
      exec .queryRecord s = .next (placeReply f.kind f.tag ⟨.ok, recordImage i r⟩ (removeHead s)) ∧
        (recordImage i r).length = 53) ∧
  (∀ (s : State) (sym : Symbol) (i : SlotIx) (r : Record), DirectoryLaw s →
    (fullLookup sym s = some (i, r) ↔ s.records[i] = some r ∧ r.symbol = sym) ∧
    (liveLookup sym s = some (i, r) ↔ s.records[i] = some r ∧ r.symbol = sym ∧ r.state ≠ .retiring)) ∧
  ∀ (i : SlotIx) (r : Record) (image : List Byte), RecordLaw r → image = recordImage i r →
    image.length = 53 ∧ field image 0 2 = i.val ∧
    (image.drop 2).take 4 = r.symbol ++ List.replicate (4 - r.symbol.length) 0x20 ∧
    byteAt image 6 = (match r.state with
      | .listed => 1
      | .trading => 2
      | .halted _ => 3
      | .closed => 4
      | .retiring => 5) ∧
    byteAt image 7 = (match r.tape with
      | .a => 0
      | .b => 1) ∧
    byteAt image 8 = (match r.denominator with
      | .eighths => 8
      | .sixteenths => 16
      | .thirtySeconds => 32) ∧
    (flagAt image 9 0 = r.close.isSome ∧ flagAt image 9 1 = r.day.isSome ∧ flagAt image 9 2 = r.bid.isSome ∧
      flagAt image 9 3 = r.ask.isSome ∧ (flagAt image 9 4 = true ↔ ∃ q, r.state = .halted q) ∧
      flagAt image 9 5 = r.pending.isSome ∧ flagAt image 9 6 = false ∧ flagAt image 9 7 = false) ∧
    field image 10 3 = r.close.getD 0 ∧
    (field image 13 3 = (r.day.map (·.last)).getD 0 ∧ field image 16 3 = (r.day.map (·.opened)).getD 0 ∧
      field image 19 3 = (r.day.map (·.high)).getD 0 ∧ field image 22 3 = (r.day.map (·.low)).getD 0) ∧
    (field image 25 3 = (r.bid.map (·.price)).getD 0 ∧ field image 28 2 = (r.bid.map (·.size)).getD 0 ∧
      field image 30 3 = (r.ask.map (·.price)).getD 0 ∧ field image 33 2 = (r.ask.map (·.size)).getD 0) ∧
    (field image 35 4 = r.volume ∧ field image 39 2 = r.trades) ∧
    byteAt image 41 = (match r.direction with
      | .none => 0
      | .up => 1
      | .zeroUp => 2
      | .down => 3
      | .zeroDown => 4) ∧
    byteAt image 42 = (match r.state with
      | .halted .imbalance => 1
      | .halted .other => 2
      | _ => 0) ∧
    (field image 43 4 = (r.pending.map (·.joined.toNat)).getD 0 ∧
      field image 47 2 = (r.pending.map (·.folded)).getD 0 ∧
      field image 49 4 = (r.pending.map (·.shares.toNat)).getD 0)

/-- R17, R18, R19: SESSION OPEN leads from PRE to OPEN and changes nothing else; SESSION CLOSE leads from OPEN to POST,
moves every LISTED or TRADING record to CLOSED, and issues one change notice of group STATE for each, in ascending slot
order; in any other phase each is refused with SESSION. -/
def Obligations.SessionOpensAndCloses : Prop :=
  (∀ (f : Frame) (s : State), CanTakeHead .sessionOpen f s → f.body.length = 0 →
    (s.phase = .pre → exec .sessionOpen s = .next { s with
      phase := .opened
      feed := { s.feed with
        inbound := s.feed.inbound.tail, replies := s.feed.replies ++ [⟨f.kind, f.tag, .ok, []⟩] } }) ∧
    (s.phase ≠ .pre → exec .sessionOpen s = .next (turnedAway f .session s))) ∧
  (∀ (f : Frame) (s : State), CanTakeHead .sessionClose f s → f.body.length = 0 →
    (s.phase = .opened → ∃ (slots : List SlotIx) (u : State), exec .sessionClose s = .next (placeReply f.kind f.tag ⟨.ok, []⟩
        (slots.foldl (fun z i => changeNotice i [.state] false z) u)) ∧
      u = { removeHead s with phase := .post, records := u.records } ∧
      (∀ i : SlotIx, u.records[i] = s.records[i].map (fun r =>
        if r.state = .listed ∨ r.state = .trading then { r with state := .closed } else r)) ∧
      slots.Pairwise (· < ·) ∧
      ∀ i : SlotIx, i ∈ slots ↔ ∃ r, s.records[i] = some r ∧ (r.state = .listed ∨ r.state = .trading)) ∧
    (s.phase ≠ .opened → exec .sessionClose s = .next (turnedAway f .session s)))

/-- R20, R21: DAY ROLL is refused with SESSION outside POST, and with BUSY while a pending-print list is non-empty;
otherwise the phase becomes PRE, every record is rolled, and one change notice of group DAY is issued for each, in
ascending slot order. -/
def Obligations.DayRollTaken : Prop :=
  ∀ (f : Frame) (s : State), CanTakeHead .dayRoll f s → f.body.length = 0 →
    (s.phase ≠ .post → exec .dayRoll s = .next (turnedAway f .session s)) ∧
    (s.phase = .post → (s.tapes.a.prints ≠ [] ∨ s.tapes.b.prints ≠ []) →
      exec .dayRoll s = .next (turnedAway f .busy s)) ∧
    (s.phase = .post → s.tapes.a.prints = [] → s.tapes.b.prints = [] →
      ∃ (slots : List SlotIx) (u : State), exec .dayRoll s = .next (placeReply f.kind f.tag ⟨.ok, []⟩
          (slots.foldl (fun z i => changeNotice i [.day] false z) u)) ∧
        u = { removeHead s with phase := .pre, records := u.records } ∧
        (∀ i : SlotIx, u.records[i] = s.records[i].map (fun r => { r with
          close := (match r.day with
            | some d => some d.last
            | none => r.close)
          day := none
          bid := none
          ask := none
          volume := 0
          trades := 0
          state := if r.state = .closed then .listed else r.state })) ∧
        slots.Pairwise (· < ·) ∧ ∀ i : SlotIx, i ∈ slots ↔ s.records[i] ≠ none)

/-- R22, R64, R117: TABLE CLEAR is refused with SESSION in OPEN; otherwise it withdraws every pending print of both
tapes, unbinds every layout entry and marks the positions that showed one, drops every bound watch entry, and frees
every slot. That the dropped entries of one terminal are marked in list order is the model's choice (log 26). -/
def Obligations.TableClearTaken : Prop :=
  ∀ (f : Frame) (s : State), CanTakeHead .tableClear f s → f.body.length = 0 →
    (s.phase = .opened → exec .tableClear s = .next (turnedAway f .session s)) ∧
    (s.phase ≠ .opened → TapesLaw s →
      ∃ u : State, exec .tableClear s = .next (placeReply f.kind f.tag ⟨.ok, []⟩ u) ∧
        u = { removeHead s with
          records := u.records
          directory := []
          entries := u.entries
          terminals := u.terminals
          tapes := u.tapes
          boards := { s.boards with repaint := u.boards.repaint }
          verifier := { s.verifier with overtaken := u.verifier.overtaken } } ∧
        (∀ i : SlotIx, u.records[i] = none) ∧
        (∀ x : AB, u.tapes.get x = { s.tapes.get x with
          prints := [], withdrawn := (s.tapes.get x).withdrawn + tapePendingShares x s }) ∧
        (∀ k : EntryIx, u.entries[k] = s.entries[k].map (fun e => { e with binding := none })) ∧
        Marked s (fun p => shownSlot s s.boards.positions[p] ≠ none) u ∧
        ∀ t : TermIx, u.terminals[t] = s.terminals[t].dropEntries (fun _ => true))

/-! ### Prices and postings (chapters 2 and 3) -/

/-- R25: the steps of grid rounding; R24: the rounded price is on the grid, and differs from the price by less than the
grid step; R49: grid rounding never decreases as the price rises. -/
def Obligations.GridRounding : Prop :=
  ∀ (d : Denominator) (p : Nat),
    (p = 0 ∨ 319999 < p → roundToGrid d.step p = none) ∧
    (1 ≤ p → p ≤ 319999 → ∀ g r candidate : Nat, g = 32 / d.value → r = p % g →
      candidate = (if g ≤ 2 * r then p - r + g else p - r) →
      (r = 0 → roundToGrid d.step p = some p) ∧
      (r ≠ 0 → 319999 < candidate → roundToGrid d.step p = some (p - r)) ∧
      (r ≠ 0 → candidate = 0 → roundToGrid d.step p = some g) ∧
      (r ≠ 0 → 1 ≤ candidate → candidate ≤ 319999 → roundToGrid d.step p = some candidate)) ∧
    (∀ q, roundToGrid d.step p = some q →
      q % (32 / d.value) = 0 ∧ 1 ≤ q ∧ q ≤ 319999 ∧ q < p + 32 / d.value ∧ p < q + 32 / d.value) ∧
    ∀ p' q q', p ≤ p' → roundToGrid d.step p = some q → roundToGrid d.step p' = some q' → q ≤ q'

/-- R26, R27, R28, R44, R45, R46, R55: an accepted TRADE posts the rounded price, the direction, the day statistics and
the state, keeping the quote; hands a change notice with its groups and moved mark, then a trade notice with the shares
as given; and replies with the slot, the posted price and the state. -/
def Obligations.TradeAccepted : Prop :=
  ∀ (f : Frame) (s : State) (sym : Symbol) (i : SlotIx) (r r' : Record) (price shares p : Nat),
    CanTakeHead .trade f s → f.body.length = 10 → symbolAt f.body 0 = some sym → liveLookup sym s = some (i, r) →
    price = field f.body 4 3 → shares = field f.body 7 3 → s.phase = .opened →
    (r.state = .listed ∨ r.state = .trading) → 1 ≤ shares → shares ≤ 999999 →
    roundToGrid r.denominator.step price = some p →
    r' = { r with
      state := .trading
      direction := (match (match r.day with
          | some d => some d.last
          | none => r.close) with
        | none => .none
        | some q =>
          if q < p then .up
          else if p < q then .down
          else if r.direction = .up ∨ r.direction = .zeroUp then .zeroUp
          else if r.direction = .down ∨ r.direction = .zeroDown then .zeroDown
          else .none)
      day := some (match r.day with
        | none => ⟨p, p, p, p⟩
        | some d => ⟨p, d.opened, if d.high < p then p else d.high, if p < d.low then p else d.low⟩)
      volume := if r.volume + shares ≤ 999999999 then r.volume + shares else 999999999
      trades := if r.trades + 1 ≤ 65535 then r.trades + 1 else 65535 } →
    exec .trade s = .next (placeReply f.kind f.tag
      ⟨if p = price then .ok else .rounded, beBytes 2 i.val ++ beBytes 3 p ++ [0x02]⟩
      (tradeNotice i r' shares
        (changeNotice i (if r.state = .listed then [.price, .state] else [.price])
          (match r.day with
            | none => true
            | some d => decide (d.last ≠ p))
          { removeHead s with records := s.records.set i (some r') })))

/-- R43: a TRADE is refused at the first check that fails, with that check's status, and changes nothing. -/
def Obligations.TradeRefused : Prop :=
  ∀ (f : Frame) (s : State), CanTakeHead .trade f s → f.body.length = 10 →
    (symbolAt f.body 0 = none → exec .trade s = .next (turnedAway f .malformed s)) ∧
    ∀ sym, symbolAt f.body 0 = some sym →
      (liveLookup sym s = none → exec .trade s = .next (turnedAway f .unknown s)) ∧
      ∀ i r, liveLookup sym s = some (i, r) →
        (s.phase ≠ .opened → exec .trade s = .next (turnedAway f .session s)) ∧
        (s.phase = .opened →
          (r.state ≠ .listed → r.state ≠ .trading → exec .trade s = .next (turnedAway f .state s)) ∧
          ((r.state = .listed ∨ r.state = .trading) →
            ((field f.body 7 3 < 1 ∨ 999999 < field f.body 7 3) → exec .trade s = .next (turnedAway f .range s)) ∧
            (1 ≤ field f.body 7 3 → field f.body 7 3 ≤ 999999 →
              (field f.body 4 3 < 1 ∨ 319999 < field f.body 4 3) →
              exec .trade s = .next (turnedAway f .range s))))

/-- R26, R46, R47, R50, R55: an accepted QUOTE sets both sides of the quote, each given price rounded, a side not given
absent; it changes no other field, hands one change notice of group QUOTE, and replies ROUNDED when rounding changed a
given price. R48, R49: a QUOTE is refused at the first check that fails, with that check's status, and changes nothing;
the crossing check compares the rounded sides. -/
def Obligations.QuoteTaken : Prop :=
  (∀ (f : Frame) (s : State) (sym : Symbol) (i : SlotIx) (r : Record) (bidGiven askGiven bid ask : Option Side),
    CanTakeHead .quote f s → f.body.length = 15 → symbolAt f.body 0 = some sym → liveLookup sym s = some (i, r) →
    bidGiven = (if flagAt f.body 4 0 then some ⟨field f.body 5 3, field f.body 8 2⟩ else none) →
    askGiven = (if flagAt f.body 4 1 then some ⟨field f.body 10 3, field f.body 13 2⟩ else none) →
    (∀ x, bidGiven = some x ∨ askGiven = some x → 1 ≤ x.size ∧ x.size ≤ 9999) →
    bid.isSome = bidGiven.isSome → ask.isSome = askGiven.isSome →
    (∀ x y, bidGiven = some x → bid = some y →
      roundToGrid r.denominator.step x.price = some y.price ∧ y.size = x.size) →
    (∀ x y, askGiven = some x → ask = some y →
      roundToGrid r.denominator.step x.price = some y.price ∧ y.size = x.size) →
    (∀ x y, bid = some x → ask = some y → x.price ≤ y.price) →
    exec .quote s = .next (placeReply f.kind f.tag
      ⟨if bid = bidGiven ∧ ask = askGiven then .ok else .rounded,
        beBytes 2 i.val ++ withPresence 3 (bid.map (·.price)) ++ withPresence 3 (ask.map (·.price))⟩
      (changeNotice i [.quote] false
        { removeHead s with records := s.records.set i (some { r with bid := bid, ask := ask }) }))) ∧
  ∀ (f : Frame) (s : State), CanTakeHead .quote f s → f.body.length = 15 →
    (symbolAt f.body 0 = none → exec .quote s = .next (turnedAway f .malformed s)) ∧
    ∀ sym, symbolAt f.body 0 = some sym →
      (liveLookup sym s = none → exec .quote s = .next (turnedAway f .unknown s)) ∧
      ∀ i r, liveLookup sym s = some (i, r) → ∀ bidGiven askGiven : Bool,
        bidGiven = flagAt f.body 4 0 → askGiven = flagAt f.body 4 1 →
        (bidGiven = true ∧ (field f.body 8 2 < 1 ∨ 9999 < field f.body 8 2) ∨
            askGiven = true ∧ (field f.body 13 2 < 1 ∨ 9999 < field f.body 13 2) →
          exec .quote s = .next (turnedAway f .range s)) ∧
        ((bidGiven = true → 1 ≤ field f.body 8 2 ∧ field f.body 8 2 ≤ 9999) →
          (askGiven = true → 1 ≤ field f.body 13 2 ∧ field f.body 13 2 ≤ 9999) →
          (bidGiven = true ∧ (field f.body 5 3 < 1 ∨ 319999 < field f.body 5 3) ∨
              askGiven = true ∧ (field f.body 10 3 < 1 ∨ 319999 < field f.body 10 3) →
            exec .quote s = .next (turnedAway f .range s)) ∧
          (∀ b a, bidGiven = true → askGiven = true → roundToGrid r.denominator.step (field f.body 5 3) = some b →
            roundToGrid r.denominator.step (field f.body 10 3) = some a → a < b →
            exec .quote s = .next (turnedAway f .crossed s)))

/-- R51, R52, R53, R54, R55: a HALT of any live record makes it HALTED with the reason given; a RESUME of a HALTED record
leads to the state that the phase and the presence of last give; each keeps every other field and hands a change notice
of group STATE; their refusals, in the order of the checks. -/
def Obligations.HaltAndResumeTaken : Prop :=
  (∀ (f : Frame) (s : State), CanTakeHead .halt f s → f.body.length = 5 →
    (symbolAt f.body 0 = none → exec .halt s = .next (turnedAway f .malformed s)) ∧
    ∀ sym, symbolAt f.body 0 = some sym →
      (liveLookup sym s = none → exec .halt s = .next (turnedAway f .unknown s)) ∧
      ∀ i r, liveLookup sym s = some (i, r) →
        (2 < field f.body 4 1 → exec .halt s = .next (turnedAway f .range s)) ∧
        ∀ q : HaltReason, field f.body 4 1 = q.code.toNat →
          exec .halt s = .next (placeReply f.kind f.tag ⟨.ok, beBytes 2 i.val ++ [0x03, q.code]⟩
            (changeNotice i [.state] false
              { removeHead s with records := s.records.set i (some { r with state := .halted q }) }))) ∧
  ∀ (f : Frame) (s : State), CanTakeHead .resume f s → f.body.length = 4 →
    (symbolAt f.body 0 = none → exec .resume s = .next (turnedAway f .malformed s)) ∧
    ∀ sym, symbolAt f.body 0 = some sym →
      (liveLookup sym s = none → exec .resume s = .next (turnedAway f .unknown s)) ∧
      ∀ i r, liveLookup sym s = some (i, r) →
        ((∀ q, r.state ≠ .halted q) → exec .resume s = .next (turnedAway f .state s)) ∧
        ∀ q st, r.state = .halted q →
          st = (match s.phase with
            | .pre => RecState.listed
            | .opened => if r.day = none then .listed else .trading
            | .post => .closed) →
          exec .resume s = .next (placeReply f.kind f.tag ⟨.ok, beBytes 2 i.val ++ [st.code]⟩
            (changeNotice i [.state] false
              { removeHead s with records := s.records.set i (some { r with state := st }) }))

/-- R75, R76, R83, R156: what a change notice does: it starts the flash of the moved LAST and CHANGE positions, then
marks the positions that its groups affect, and marks the watch entries bound to the slot; nothing else changes. -/
def Obligations.ChangeNoticeReaches : Prop :=
  ∀ (slot : SlotIx) (groups : List Group) (moved : Bool) (s u : State), u = changeNotice slot groups moved s →
    u = { s with
      boards := { s.boards with positions := u.boards.positions, repaint := u.boards.repaint }
      verifier := { s.verifier with overtaken := u.verifier.overtaken }
      terminals := u.terminals } ∧
    (∀ p : PosIx,
      (moved = true → s.panels[panelOf p].state = .live →
        (∃ e, shownEntry s s.boards.positions[p] = some e ∧ e.binding = some slot ∧ e.flash = true ∧
          (e.kind = .last ∨ e.kind = .change)) →
        u.boards.positions[p] = { s.boards.positions[p] with flash := s.params.flashCount }) ∧
      ((moved = false ∨ s.panels[panelOf p].state ≠ .live ∨
        ¬ ∃ e, shownEntry s s.boards.positions[p] = some e ∧ e.binding = some slot ∧ e.flash = true ∧
          (e.kind = .last ∨ e.kind = .change)) →
        u.boards.positions[p] = s.boards.positions[p])) ∧
    Marked s (fun p => ∃ e, shownEntry s s.boards.positions[p] = some e ∧ e.binding = some slot ∧
      (.price ∈ groups ∧ e.kind ∈ [FieldKind.last, .change, .high, .low, .opened, .volume] ∨
        .quote ∈ groups ∧ e.kind ∈ [FieldKind.bid, .ask] ∨ .state ∈ groups ∧ e.kind = .state ∨ .day ∈ groups ∨
        e.tick = true ∧ (.price ∈ groups ∨ .state ∈ groups))) u ∧
    ∀ t : TermIx,
      (s.terminals[t].enabled = true → s.terminals[t].presence ≠ .absent → ∃ added,
        u.terminals[t] = { s.terminals[t] with dirty := s.terminals[t].dirty ++ added } ∧
        ∀ sym, sym ∈ added ↔ ⟨sym, .active slot⟩ ∈ s.terminals[t].watch ∧ sym ∉ s.terminals[t].dirty) ∧
      (s.terminals[t].enabled = false ∨ s.terminals[t].presence = .absent → u.terminals[t] = s.terminals[t])

/-- R109, R110, R112: what a trade notice does at the tape of the record: it raises the accepted counter, and the record
joins the tail of the list, or folds into its entry; nothing else changes. -/
def Obligations.TradeNoticeJoinsOrFolds : Prop :=
  ∀ (i : SlotIx) (r : Record) (shares : Nat) (s : State) (x : AB) (n : Word32),
    s.records[i] = some r → r.tape = x → n = BitVec.ofNat 32 shares →
    (r.pending = none → tradeNotice i r shares s = { s with
      records := s.records.set i (some { r with pending := some ⟨s.time, 1, n⟩ })
      tapes := s.tapes.put x { s.tapes.get x with
        accepted := (s.tapes.get x).accepted + n
        prints := (s.tapes.get x).prints ++ [i]
        backlogMax := if (s.tapes.get x).backlogMax < (s.tapes.get x).prints.length + 1
          then (s.tapes.get x).prints.length + 1 else (s.tapes.get x).backlogMax } }) ∧
    (∀ p folded, r.pending = some p → folded = (if p.folded + 1 ≤ 65535 then p.folded + 1 else 65535) →
      tradeNotice i r shares s = { s with
      records := s.records.set i (some { r with pending := some ⟨p.joined, folded, p.shares + n⟩ })
      tapes := s.tapes.put x { s.tapes.get x with accepted := (s.tapes.get x).accepted + n } })

/-! ### Board layout and pages (chapter 4) -/

/-- R59, R60: LOAD ENTRY sets every field of the entry, binds it by a live lookup, and marks the positions that show the
index; its refusals, in the order of the checks. -/
def Obligations.LoadEntryTaken : Prop :=
  ∀ (f : Frame) (s : State), CanTakeHead .loadEntry f s → f.body.length = 11 →
    (symbolAt f.body 7 = none → exec .loadEntry s = .next (turnedAway f .malformed s)) ∧
    ∀ sym, symbolAt f.body 7 = some sym →
      ((2047 < field f.body 0 2 ∨ 15 < field f.body 2 1 ∨ 63 < field f.body 3 1 ∨ 10 < field f.body 4 1 ∨
          field f.body 5 1 < 1 ∨ 10 < field f.body 5 1) →
        exec .loadEntry s = .next (turnedAway f .range s)) ∧
      ∀ (index : EntryIx) (panel : PanelIx) (position : Fin 64) (kind : FieldKind),
        field f.body 0 2 = index.val → field f.body 2 1 = panel.val → field f.body 3 1 = position.val →
        fieldKindOfCode (byteAt f.body 4) = some kind → 1 ≤ field f.body 5 1 → field f.body 5 1 ≤ 10 →
        ((∃ n page, s.pages[(n : PageIx)] = some page ∧ page.first ≤ index.val ∧
            index.val < page.first + page.count) →
          (∀ e, s.entries[index] = some e → e.panel ≠ panel ∨ e.position ≠ position) →
          exec .loadEntry s = .next (turnedAway f .conflict s)) ∧
        (((∀ n page, s.pages[(n : PageIx)] = some page → index.val < page.first ∨
              page.first + page.count ≤ index.val) ∨
            ∃ e, s.entries[index] = some e ∧ e.panel = panel ∧ e.position = position) →
          ∀ binding, binding = (liveLookup sym s).map (·.1) →
          ∃ u : State, exec .loadEntry s = .next (placeReply f.kind f.tag
              ⟨.ok, beBytes 2 index.val ++ (match binding with
                | none => [0xFF, 0xFF]
                | some i => beBytes 2 i.val)⟩ u) ∧
            u = { removeHead s with
              entries := s.entries.set index (some
                { panel := panel, position := position, kind := kind, width := field f.body 5 1
                  flash := flagAt f.body 6 0, tick := flagAt f.body 6 1, symbol := sym, binding := binding })
              boards := { s.boards with repaint := u.boards.repaint }
              verifier := { s.verifier with overtaken := u.verifier.overtaken } } ∧
            Marked s (fun p => s.boards.positions[p].shown = some index) u)

/-- R61, R67: UNLOAD ENTRY empties an index outside every defined page; UNDEFINE PAGE makes a page that is not shown
undefined; both mark nothing; their refusals, in the order of the checks. -/
def Obligations.UnloadAndUndefineTaken : Prop :=
  (∀ (f : Frame) (s : State), CanTakeHead .unloadEntry f s → f.body.length = 2 →
    (2047 < field f.body 0 2 → exec .unloadEntry s = .next (turnedAway f .range s)) ∧
    ∀ index : EntryIx, field f.body 0 2 = index.val →
      ((∃ n page, s.pages[(n : PageIx)] = some page ∧ page.first ≤ index.val ∧ index.val < page.first + page.count) →
        exec .unloadEntry s = .next (turnedAway f .conflict s)) ∧
      ((∀ n page, s.pages[(n : PageIx)] = some page → index.val < page.first ∨
          page.first + page.count ≤ index.val) →
        exec .unloadEntry s = .next (placeReply f.kind f.tag ⟨.ok, []⟩
          { removeHead s with entries := s.entries.set index none }))) ∧
  (∀ (f : Frame) (s : State), CanTakeHead .undefinePage f s → f.body.length = 1 →
    (31 < field f.body 0 1 → exec .undefinePage s = .next (turnedAway f .range s)) ∧
    ∀ n : PageIx, field f.body 0 1 = n.val →
      ((∃ panel : PanelIx, s.panels[panel].current = some n) →
        exec .undefinePage s = .next (turnedAway f .shown s)) ∧
      ((∀ panel : PanelIx, s.panels[panel].current ≠ some n) →
        exec .undefinePage s = .next (placeReply f.kind f.tag ⟨.ok, []⟩
          { removeHead s with pages := s.pages.set n none })))

/-- R66: DEFINE PAGE defines a page that is not shown and whose entries are LOADED, name its panel and name no position
twice; it marks nothing; its refusals, in the order of the checks. -/
def Obligations.DefinePageTaken : Prop :=
  ∀ (f : Frame) (s : State) (first count : Nat), CanTakeHead .definePage f s → f.body.length = 5 →
    first = field f.body 2 2 → count = field f.body 4 1 →
    ((31 < field f.body 0 1 ∨ 15 < field f.body 1 1 ∨ 2047 < first ∨ count < 1 ∨ 64 < count) →
      exec .definePage s = .next (turnedAway f .range s)) ∧
    ∀ (n : PageIx) (panel : PanelIx), field f.body 0 1 = n.val → field f.body 1 1 = panel.val → first ≤ 2047 →
      1 ≤ count → count ≤ 64 →
      ((∃ q : PanelIx, s.panels[q].current = some n) → exec .definePage s = .next (turnedAway f .shown s)) ∧
      ((∀ q : PanelIx, s.panels[q].current ≠ some n) → ∀ good : Prop,
        (good ↔ first + count ≤ 2048 ∧
          (∀ k : EntryIx, first ≤ k.val → k.val < first + count →
            ∃ e, s.entries[k] = some e ∧ e.panel = panel) ∧
          (∀ (k l : EntryIx) (e e' : Entry), first ≤ k.val → k.val < first + count → first ≤ l.val →
            l.val < first + count → s.entries[k] = some e → s.entries[l] = some e' → e.position = e'.position →
            k = l)) →
        (¬ good → exec .definePage s = .next (turnedAway f .badPage s)) ∧
        (good → exec .definePage s = .next (placeReply f.kind f.tag ⟨.ok, []⟩
          { removeHead s with pages := s.pages.set n (some ⟨panel, first, count⟩) })))

/-- R68, R69, R70, R72: SHOW PAGE sets the panel's current page, gives its 64 positions switch pending yes, the shown
entry of R68 and a flash countdown of 0, lifts HELD-DARK, and marks the positions of a LIVE panel; RESTORE PANEL does the
same with the present page for a HELD-DARK panel and nothing for any other; the refusals, in the order of the checks.
Under the law of the pages a shown entry is what R68 says. -/
def Obligations.PanelShown : Prop :=
  (∀ (f : Frame) (s : State), CanTakeHead .showPage f s → f.body.length = 2 →
    ((15 < field f.body 0 1 ∨ field f.body 1 1 ≠ 255 ∧ 31 < field f.body 1 1) →
      exec .showPage s = .next (turnedAway f .range s)) ∧
    ∀ panel : PanelIx, field f.body 0 1 = panel.val →
      (∀ n : PageIx, field f.body 1 1 = n.val → (∀ d, s.pages[n] = some d → d.panel ≠ panel) →
        exec .showPage s = .next (turnedAway f .badPage s)) ∧
      ∀ page : Option PageIx,
        (page = none ∧ field f.body 1 1 = 255 ∨
          ∃ n d, page = some n ∧ field f.body 1 1 = n.val ∧ s.pages[n] = some d ∧ d.panel = panel) →
        ∃ u : State, exec .showPage s = .next (placeReply f.kind f.tag
            ⟨.ok, [byte panel.val, byteAt f.body 1, u.panels[panel].state.code]⟩ u) ∧
          PanelSwitched panel page (removeHead s) u) ∧
  (∀ (f : Frame) (s : State), CanTakeHead .restorePanel f s → f.body.length = 1 →
    (15 < field f.body 0 1 → exec .restorePanel s = .next (turnedAway f .range s)) ∧
    ∀ panel : PanelIx, field f.body 0 1 = panel.val → ∀ pageByte : Byte,
      pageByte = (match s.panels[panel].current with
        | none => 0xFF
        | some n => byte n.val) →
      (s.panels[panel].state = .heldDark →
        ∃ u : State, exec .restorePanel s = .next (placeReply f.kind f.tag
            ⟨.ok, [byte panel.val, pageByte, PanelState.live.code]⟩ u) ∧
          PanelSwitched panel s.panels[panel].current (removeHead s) u) ∧
      (s.panels[panel].state ≠ .heldDark →
        exec .restorePanel s = .next (placeReply f.kind f.tag
          ⟨.ok, [byte panel.val, pageByte, s.panels[panel].state.code]⟩ (removeHead s)))) ∧
  ∀ (s : State) (p : PosIx) (i : EntryIx), PagesLaw s →
    (s.boards.positions[p].shown = some i ↔ ShowsUnder s s.panels[panelOf p].current p i)

/-! ### Board refresh and lamp drive (chapter 5) -/

/-- R77, R78: the write of the queue's head starts when the bus is free: the head leaves the queue and the write's
content is formed at that moment; while a write or a read is in progress none starts. R70, R71, R79: its completion: on
a LIVE panel the image is recorded, the switch pending flag of a position that is not queued is cleared, and the clearing
of the panel's last flag completes its switch with PAGE DONE; on any other panel nothing is recorded. -/
def Obligations.PositionWriteRuns : Prop :=
  (∀ (s : State), s.por = false →
    (∀ p rest, s.boards.repaint = p :: rest → s.boards.write = none → s.verifier.target = none →
      exec .positionWriteStart s = .next
        { s with boards := { s.boards with repaint := rest, write := some ⟨p, contentOf s p⟩ } }) ∧
    ((s.boards.write ≠ none ∨ s.verifier.target ≠ none) → exec .positionWriteStart s = .next s)) ∧
  ∀ (s : State) (w : PositionWrite) (p : PosIx), s.por = false → s.boards.write = some w → w.position = p →
    (s.panels[panelOf p].state ≠ .live →
      exec .positionWriteComplete s = .next { s with boards := { s.boards with write := none } }) ∧
    (s.panels[panelOf p].state = .live → ∀ u : State,
      u = { s with boards := { s.boards with
        write := none
        positions := s.boards.positions.set p { s.boards.positions[p] with
          image := some w.content
          switchPending := s.boards.positions[p].switchPending && s.boards.repaint.contains p } } } →
      ((∃ q, panelOf q = panelOf p ∧ u.boards.positions[(q : PosIx)].switchPending = true) ∨
          s.boards.positions[p].switchPending = false →
        exec .positionWriteComplete s = .next u) ∧
      ((∀ q, panelOf q = panelOf p → u.boards.positions[(q : PosIx)].switchPending = false) →
        s.boards.positions[p].switchPending = true →
        exec .positionWriteComplete s = .next { u with
          panels := s.panels.set (panelOf p)
            { s.panels[panelOf p] with lastShown := s.panels[panelOf p].current }
          feed := { s.feed with latched := s.feed.latched ||| BitVec.twoPow 30 (panelOf p).val } }))

/-- R35, R36, R80, R81, R82: the content of a write: cells, drive mode and tick lamp. -/
def Obligations.PositionContent : Prop :=
  (∀ (s : State) (p : PosIx),
    (∀ e, shownEntry s s.boards.positions[p] = some e → e.binding = none) →
    contentOf s p = ⟨.dark, .dark, List.replicate 10 0x20⟩) ∧
  (∀ (s : State) (p : PosIx) (e : Entry) (i : SlotIx) (r : Record),
    shownEntry s s.boards.positions[p] = some e → e.binding = some i → s.records[i] = some r →
    contentOf s p =
      ⟨if s.feed.stale = true ∧ e.kind ∈ priceKinds then .blinkB
        else if 0 < s.boards.positions[p].flash ∧ e.flash = true ∧ (e.kind = .last ∨ e.kind = .change) then .flashA
        else .steady,
      if e.tick = true ∧ r.isHalted = false then (match r.direction with
        | .up => .up
        | .zeroUp => .upB
        | .down => .down
        | .zeroDown => .downB
        | .none => .dark)
      else .dark,
      List.replicate (10 - e.width) 0x20 ++ window e.kind e.width r⟩) ∧
  ∀ (kind : FieldKind) (w : Nat) (r : Record),
    (fieldForm kind w r = .absent → window kind w r = List.replicate w 0x20) ∧
    (fieldForm kind w r = .noFit → window kind w r = List.replicate w 0x7F) ∧
    ∀ form, fieldForm kind w r = .text form →
      (w < form.length → window kind w r = List.replicate w 0x7F) ∧
      (form.length ≤ w → kind = .symbol → window kind w r = form ++ List.replicate (w - form.length) 0x20) ∧
      (form.length ≤ w → kind ≠ .symbol → window kind w r = List.replicate (w - form.length) 0x20 ++ form)

/-- R29 to R34: the text forms of the board fields: decimal digits, the FULL price form with its reduced fraction, the
change form, the volume form of a width, the state form, and the field that each kind reads. -/
def Obligations.TextForms : Prop :=
  (∀ n : Nat, (digits n).foldl (fun acc g => 10 * acc + (g.toNat - 0x30)) 0 = n ∧
    (∀ g ∈ digits n, 0x30 ≤ g.toNat ∧ g.toNat ≤ 0x39) ∧ ((digits n).head? = some 0x30 ↔ n = 0) ∧
    digits 0 = [0x30]) ∧
  (∀ v w f : Nat, w = v / 32 → f = v % 32 →
    (f = 0 → fullForm v = digits w) ∧
    ∀ n d : Nat, d ∈ [2, 4, 8, 16, 32] → n % 2 = 1 → f * d = 32 * n →
      (∀ k, d ≤ 8 → k * d = 8 * n →
        fullForm v = (if w = 0 then [] else digits w) ++ [BitVec.ofNat 8 (0x80 + k)]) ∧
      (16 ≤ d → fullForm v
        = (if w = 0 then [] else digits w ++ [0x20]) ++ digits n ++ [0x2F] ++ digits d)) ∧
  (changeForm 0 = [0x30] ∧
    ∀ m : Nat, 0 < m → changeForm m = 0x2B :: fullForm m ∧ changeForm (-m) = 0x2D :: fullForm m) ∧
  (∀ (volume w n : Nat) (lots thousands millions : Text), n = volume / 100 → lots = digits n →
    thousands = digits (n / 1000) ++ [0x4B] → millions = digits (n / 1000000) ++ [0x4D] →
    volumeForm volume w = (if lots.length ≤ w then some lots
      else if thousands.length ≤ w then some thousands
      else if millions.length ≤ w then some millions
      else none)) ∧
  (stateForm .listed = [0x50, 0x52, 0x45] ∧ stateForm .trading = [] ∧
    (∀ q, stateForm (.halted q) = [0x48, 0x41, 0x4C, 0x54]) ∧ stateForm .closed = [0x43, 0x4C, 0x53, 0x44]) ∧
  ∀ (w : Nat) (r : Record),
    (fieldForm .symbol w r = .text r.symbol ∧ fieldForm .state w r = .text (stateForm r.state) ∧
      fieldForm .volume w r = (match volumeForm r.volume w with
        | none => .noFit
        | some form => .text form)) ∧
    (r.day = none → ∀ kind ∈ [FieldKind.last, .change, .high, .low, .opened], fieldForm kind w r = .absent) ∧
    (∀ d, r.day = some d → fieldForm .last w r = .text (fullForm d.last) ∧
      fieldForm .high w r = .text (fullForm d.high) ∧ fieldForm .low w r = .text (fullForm d.low) ∧
      fieldForm .opened w r = .text (fullForm d.opened) ∧
      ∀ c, r.close = some c → fieldForm .change w r = .text (changeForm ((d.last : Int) - (c : Int)))) ∧
    (r.close = none → fieldForm .change w r = .absent ∧ fieldForm .close w r = .absent) ∧
    (∀ c, r.close = some c → fieldForm .close w r = .text (fullForm c)) ∧
    (r.bid = none → fieldForm .bid w r = .absent) ∧
    (∀ x, r.bid = some x → fieldForm .bid w r = .text (fullForm x.price)) ∧
    (r.ask = none → fieldForm .ask w r = .absent) ∧
    ∀ x, r.ask = some x → fieldForm .ask w r = .text (fullForm x.price)

/-- R37 to R40: the ribbon prints in the three modes: the size part of the summed shares, the FULL price form, and the
CUT price form, whose whole part is its last digit; the digits and the FULL price form are those of `TextForms`. -/
def Obligations.PrintForms : Prop :=
  (∀ (shares : Word32) (n : Nat), n = min shares.toNat 999999999 / 100 →
    (n ≤ 1 → sizePart shares = []) ∧
    (2 ≤ n → n ≤ 9999 → sizePart shares = digits n ++ [0x78]) ∧
    (10000 ≤ n → sizePart shares = digits (n / 1000) ++ [0x4B, 0x78])) ∧
  (∀ v w : Nat, w = v / 32 →
    (w < 10 → cutForm v = fullForm v) ∧
    (10 ≤ w → ∃ fraction, fullForm v = digits w ++ fraction ∧
      cutForm v = BitVec.ofNat 8 (0x30 + w % 10) :: fraction)) ∧
  ∀ (sym : Symbol) (last : Nat) (shares : Word32),
    printText .full sym last shares = sym ++ [0x20] ++ sizePart shares ++ fullForm last ++ [0x20, 0x20] ∧
    printText .cut sym last shares = sym ++ [0x20] ++ sizePart shares ++ cutForm last ++ [0x20, 0x20] ∧
    printText .bare sym last shares = sym ++ [0x20] ++ cutForm last ++ [0x20, 0x20]

/-- R84, R85: a period start of blink timer A lowers every running flash countdown and marks the positions whose
countdown reaches 0; one of timer B does not; the next period begins where the last one ended (log 24); and no period
start comes before the period has run. -/
def Obligations.PeriodStarts : Prop :=
  ∀ (x : AB) (s : State) (intervals : Nat), s.por = false → intervals = s.params.blinkPeriod.get x / 10 →
    (elapsed s.time (s.boards.timerStart.get x) < intervals → exec (.periodStart x) s = .next s) ∧
    (intervals ≤ elapsed s.time (s.boards.timerStart.get x) → ∀ start,
      start = s.boards.timerStart.put x (s.boards.timerStart.get x + BitVec.ofNat 32 intervals) →
      (x = .b → exec (.periodStart x) s = .next { s with boards := { s.boards with timerStart := start } }) ∧
      (x = .a → ∃ u : State, exec (.periodStart x) s = .next u ∧
        u = { s with
          boards := { s.boards with
            timerStart := start, positions := u.boards.positions, repaint := u.boards.repaint }
          verifier := { s.verifier with overtaken := u.verifier.overtaken } } ∧
        (∀ p : PosIx, u.boards.positions[p] = { s.boards.positions[p] with
          flash := s.boards.positions[p].flash - 1 }) ∧
        Marked s (fun p => s.boards.positions[p].flash = 1) u))

/-- R88, R89: a sample of a rail updates its candidate and run, and says whether a change of state is due (log 8); the
first sample of an interval that has been sampled begins the next interval (log 4). -/
def Obligations.RailSampled : Prop :=
  ∀ (rail : RailIx) (working fail : Bool) (s : State) (reading : RailState) (r : Rail) (run : Nat), s.por = false →
    reading = (if fail = false then .fail else if working = true then .ok else .low) → r = s.rails[rail] →
    run = (if reading = r.candidate then min (r.run + 1) 50 else 1) →
    (r.sampled = false → exec (.railSample rail working fail) s = .next { s with
      rails := s.rails.set rail { r with
        candidate := reading
        run := run
        sampled := true
        changeDue := decide (s.params.settleTime ≤ run ∧ reading ≠ r.state) } }) ∧
    (r.sampled = true → ∀ t, step { s with pending := [] } = .next t →
      exec (.railSample rail working fail) s = exec (.railSample rail working fail) { t with pending := s.pending })

/-- R91, R93, R94: a due change of a rail's state latches RAIL CHANGE; a rail that enters FAIL sheds its panels, and a
rail that leaves FAIL recovers them by its policy: LIVE and marked under RESTORE, HELD-DARK under HOLD. With no change
due nothing happens (log 8). -/
def Obligations.RailStateChanges : Prop :=
  ∀ (rail : RailIx) (s : State) (r : Rail), s.por = false → r = s.rails[rail] →
    (r.changeDue = false → exec (.railStateChange rail) s = .next s) ∧
    (r.changeDue = true → ∃ u : State, exec (.railStateChange rail) s = .next u ∧
      u = { s with
        rails := s.rails.set rail { r with state := r.candidate, changeDue := false }
        feed := { s.feed with latched := s.feed.latched ||| BitVec.twoPow 30 (20 + rail.val) }
        panels := u.panels
        boards := { s.boards with positions := u.boards.positions, repaint := u.boards.repaint }
        verifier := { s.verifier with overtaken := u.verifier.overtaken } } ∧
      (∀ panel : PanelIx, s.params.panelRail[panel] ≠ rail → u.panels[panel] = s.panels[panel]) ∧
      (∀ p : PosIx, s.params.panelRail[panelOf p] ≠ rail → u.boards.positions[p] = s.boards.positions[p]) ∧
      ((r.state = .fail ↔ r.candidate = .fail) →
        u.panels = s.panels ∧ u.boards = s.boards ∧ u.verifier = s.verifier) ∧
      (r.state ≠ .fail → r.candidate = .fail →
        (∀ panel : PanelIx, s.params.panelRail[panel] = rail →
          u.panels[panel] = { s.panels[panel] with state := .shed }) ∧
        (∀ p : PosIx, s.params.panelRail[panelOf p] = rail → u.boards.positions[p] = { s.boards.positions[p] with
          image := none, flash := 0, mismatchRun := 0, matchRun := 0 }) ∧
        u.boards.repaint = s.boards.repaint.filter (fun p => s.params.panelRail[panelOf p] ≠ rail) ∧
        (u.verifier.overtaken = true ↔ s.verifier.overtaken = true ∨
          ∃ p, s.verifier.target = some p ∧ s.params.panelRail[panelOf p] = rail)) ∧
      (r.state = .fail → r.candidate ≠ .fail → s.params.policy[rail] = .restore →
        (∀ panel : PanelIx, s.params.panelRail[panel] = rail →
          u.panels[panel] = { s.panels[panel] with state := .live }) ∧
        u.boards.positions = s.boards.positions ∧
        Marked { s with panels := u.panels } (fun p => s.params.panelRail[panelOf p] = rail) u) ∧
      (r.state = .fail → r.candidate ≠ .fail → s.params.policy[rail] = .hold →
        (∀ panel : PanelIx, s.params.panelRail[panel] = rail →
          u.panels[panel] = { s.panels[panel] with state := .heldDark }) ∧
        (∀ p : PosIx, s.params.panelRail[panelOf p] = rail →
          u.boards.positions[p] = { s.boards.positions[p] with flash := 0 }) ∧
        u.boards.repaint = s.boards.repaint ∧ u.verifier = s.verifier))

/-! ### Position verification (chapter 6) -/

/-- R98, R99, R100: the gap that has run its length makes the verifier READY; a READY verifier, with the bus free and
the repaint queue empty, reads the first eligible position met in walk order from the cursor, which moves past it; while
none is eligible it stays as it is. -/
def Obligations.GapEndsAndReadStarts : Prop :=
  (∀ (s : State) (start : Time) (length : Nat), s.por = false → s.verifier.phase = .waiting start length →
    (length ≤ elapsed s.time start →
      exec .verifyGapExpiry s = .next { s with verifier := { s.verifier with phase := .ready } }) ∧
    (elapsed s.time start < length → exec .verifyGapExpiry s = .next s)) ∧
  ∀ (s : State), s.por = false → s.verifier.phase = .ready → s.boards.write = none → s.verifier.target = none →
    s.boards.repaint = [] →
    (∀ p : PosIx, Eligible s p →
      (∀ q : PosIx, Eligible s q → (p - s.verifier.cursor).val ≤ (q - s.verifier.cursor).val) →
      exec .readStart s = .next { s with verifier := { s.verifier with
        phase := .reading, target := some p, overtaken := false, cursor := p + 1 } }) ∧
    ((∀ p : PosIx, ¬ Eligible s p) → exec .readStart s = .next s)

/-- R102, R103, R104: the outcome of a read that ends with an echo of twelve bytes or with the echo limit, and the end
of the read (R99); R105: CLEAR FAULTS. That the end of a read leaves the overtaken indication no (log 25), and that a gap
of 0 leads to READY in the same step (log 14), are the model's readings. -/
def Obligations.ReadOutcomesAndClearFaults : Prop :=
  (∀ (s : State) (p : PosIx) (ended : State → State), s.por = false → s.verifier.target = some p →
    (∀ z, ended z = { z with verifier := { z.verifier with
      target := none
      overtaken := false
      phase := if z.params.verifyEnable = true then
          (if z.params.verifyGap = 0 then .ready else .waiting z.time z.params.verifyGap)
        else .idle } }) →
    (s.verifier.overtaken = true → (∀ echo : List Byte, echo.length = 12 →
      exec (.echoArrival echo) s = .next (ended s)) ∧ exec .echoLimitExpiry s = .next (ended s)) ∧
    (s.verifier.overtaken = false →
      (∀ (c : Content) (run : Nat), s.boards.positions[p].image = some c → c.cells.length = 10 →
        run = min (s.boards.positions[p].matchRun + 1) 8 →
        exec (.echoArrival (imageBytes p c)) s = .next (ended { s with boards := { s.boards with
          positions := s.boards.positions.set p { s.boards.positions[p] with
            matchRun := run
            mismatchRun := 0
            verify := if s.boards.positions[p].verify = .suspect ∧ s.params.clearThreshold ≤ run then .good
              else s.boards.positions[p].verify } } })) ∧
      (∀ (run : Nat) (failed : Bool) (u : State), run = min (s.boards.positions[p].mismatchRun + 1) 8 →
        failed = decide (s.boards.positions[p].verify ≠ .failed ∧ s.params.failThreshold ≤ run) →
        u = { s with
          boards := { s.boards with
            positions := s.boards.positions.set p { s.boards.positions[p] with
              mismatchRun := run
              matchRun := 0
              verify := if failed = true ∨ s.boards.positions[p].verify = .failed then .failed else .suspect }
            repaint := if s.panels[panelOf p].state = .live ∧ p ∉ s.boards.repaint then s.boards.repaint ++ [p]
              else s.boards.repaint }
          verifier := { s.verifier with
            mismatchTotal := min (s.verifier.mismatchTotal + 1) 65535
            lastFailed := if failed = true then some p else s.verifier.lastFailed }
          feed := { s.feed with latched := if failed = true then s.feed.latched ||| BitVec.twoPow 30 28
            else s.feed.latched } } →
        exec .echoLimitExpiry s = .next (ended u) ∧
        ∀ echo : List Byte, echo.length = 12 → (∀ c, s.boards.positions[p].image = some c → echo ≠ imageBytes p c) →
          exec (.echoArrival echo) s = .next (ended u)))) ∧
  (∀ (f : Frame) (s : State), CanTakeHead .clearFaults f s → f.body.length = 0 →
    ∃ u : State, exec .clearFaults s = .next (placeReply f.kind f.tag ⟨.ok, []⟩ u) ∧
      u = { removeHead s with
        boards := { s.boards with positions := u.boards.positions }
        verifier := { s.verifier with lastFailed := none } } ∧
      ∀ p : PosIx, u.boards.positions[p] = { s.boards.positions[p] with
        verify := .good, mismatchRun := 0, matchRun := 0 })

/-! ### Pending prints, ribbons and tape modes (chapters 7 and 8) -/

/-- R123: the ribbon state after TAPE START and after TAPE STOP; each is refused with RANGE for any other tape. -/
def Obligations.TapeStartedAndStopped : Prop :=
  (∀ (f : Frame) (s : State), CanTakeHead .tapeStart f s → f.body.length = 1 →
    (1 < field f.body 0 1 → exec .tapeStart s = .next (turnedAway f .range s)) ∧
    ∀ (x : AB) (st : RibbonState), byteAt f.body 0 = tapeCode x →
      st = (match (s.ribbons.get x).state with
        | .stopped => .running (s.time + BitVec.ofNat 32 (s.params.stepPeriod.get x))
        | .running next => .running next
        | .stopping next => .running next) →
      exec .tapeStart s = .next (placeReply f.kind f.tag ⟨.ok, [tapeCode x, st.code]⟩
        { removeHead s with ribbons := s.ribbons.put x { s.ribbons.get x with state := st } })) ∧
  (∀ (f : Frame) (s : State), CanTakeHead .tapeStop f s → f.body.length = 1 →
    (1 < field f.body 0 1 → exec .tapeStop s = .next (turnedAway f .range s)) ∧
    ∀ (x : AB) (st : RibbonState), byteAt f.body 0 = tapeCode x →
      st = (match (s.ribbons.get x).state with
        | .stopped => .stopped
        | .running next => if (s.ribbons.get x).feeder = [] then .stopped else .stopping next
        | .stopping next => .stopping next) →
      exec .tapeStop s = .next (placeReply f.kind f.tag ⟨.ok, [tapeCode x, st.code]⟩
        { removeHead s with ribbons := s.ribbons.put x { s.ribbons.get x with state := st } }))

/-- R15, R115, R116: TAPE CLEAR withdraws every entry of the tape's list, counts their shares as withdrawn, frees their
RETIRING records, and replies with their number and the sum of their shares; it is refused with RANGE for any other
tape. -/
def Obligations.TapeCleared : Prop :=
  ∀ (f : Frame) (s : State), CanTakeHead .tapeClear f s → f.body.length = 1 →
    (1 < field f.body 0 1 → exec .tapeClear s = .next (turnedAway f .range s)) ∧
    ∀ x : AB, byteAt f.body 0 = tapeCode x → TapesLaw s →
      ∃ u : State, exec .tapeClear s = .next (placeReply f.kind f.tag
          ⟨.ok, [tapeCode x] ++ beBytes 2 (s.tapes.get x).prints.length ++ beBytes 4 (tapePendingShares x s).toNat⟩ u) ∧
        u = { removeHead s with
          records := u.records
          directory := u.directory
          tapes := s.tapes.put x { s.tapes.get x with
            prints := [], withdrawn := (s.tapes.get x).withdrawn + tapePendingShares x s } } ∧
        (∀ i : SlotIx, u.records[i] = s.records[i].bind (fun r =>
          if i ∉ (s.tapes.get x).prints then some r
          else if r.state = .retiring then none
          else some { r with pending := none })) ∧
        u.directory.Sublist s.directory ∧
        ∀ e, e ∈ u.directory ↔ e ∈ s.directory ∧
          ¬ (e.2 ∈ (s.tapes.get x).prints ∧ ∃ r, s.records[e.2] = some r ∧ r.state = .retiring)

/-- R132: a NOTICE of 1 to 32 displayable glyphs is placed in the empty staged slot of its tape; its refusals, in the
order of the checks. -/
def Obligations.NoticeStaged : Prop :=
  ∀ (f : Frame) (s : State) (text : Text), CanTakeHead .notice f s → f.body.length = text.length + 1 →
    1 ≤ text.length → text.length ≤ 32 → f.body.tail = text →
    ((∃ g ∈ text, displayable g = false) → exec .notice s = .next (turnedAway f .malformed s)) ∧
    ((∀ g ∈ text, displayable g = true) →
      (1 < field f.body 0 1 → exec .notice s = .next (turnedAway f .range s)) ∧
      ∀ x : AB, byteAt f.body 0 = tapeCode x →
        ((s.tapes.get x).staged ≠ none → exec .notice s = .next (turnedAway f .busy s)) ∧
        ((s.tapes.get x).staged = none →
          exec .notice s = .next (placeReply f.kind f.tag ⟨.ok, [tapeCode x]⟩
            { removeHead s with tapes := s.tapes.put x { s.tapes.get x with staged := some text } })))

/-- R122, R124, R125, R133: a step of a ribbon with a non-empty feeder: the first character is presented on the character
output with one strobe of the step output and enters the ribbon, a STOPPING ribbon stops with the last one, and the last
character of a staged notice latches NOTICE DONE; a STOPPED ribbon makes no step, and none comes before its step time.
That a time is reached when the difference is below 2^31 (log 6), that an emptied feeder holds the kind BLANK (log 13),
and that strobes are held as their count (log 27), are the model's choices. -/
def Obligations.StepMovesFeeder : Prop :=
  ∀ (x : AB) (s : State) (r : Ribbon) (period : Time), s.por = false → r = s.ribbons.get x →
    period = BitVec.ofNat 32 (s.params.stepPeriod.get x) →
    (r.state = .stopped → exec (.stepEvent x) s = .next s) ∧
    (∀ next, (r.state = .running next ∨ r.state = .stopping next) → 2 ^ 31 ≤ elapsed s.time next →
      exec (.stepEvent x) s = .next s) ∧
    ∀ next char rest st, r.feeder = char :: rest → elapsed s.time next < 2 ^ 31 →
      (r.state = .running next ∧ st = .running (next + period) ∨
        r.state = .stopping next ∧ st = (if rest = [] then .stopped else .stopping (next + period))) →
      exec (.stepEvent x) s = .next { s with
        ribbons := s.ribbons.put x ⟨st, if rest = [] then .blank else r.kind, rest, char, r.strobes + 1⟩
        feed := { s.feed with
          latched := if r.kind = .stagedNotice ∧ rest = [] then s.feed.latched ||| BitVec.twoPow 30 (16 + abNumber x)
            else s.feed.latched } }

/-- R114, R126, R127: a step of a RUNNING ribbon with an empty feeder makes a selection: both evaluations, then the
first item present of the four notices, the head of the list and a blank; its first character enters the ribbon. A
composed print leaves the list, is counted as printed, and frees a RETIRING record. That the step time is reached when
the difference is below 2^31 (log 6), that a selected blank, which leaves the feeder empty, leaves the kind BLANK
(log 13), and that strobes are held as their count (log 27), are the model's choices. -/
def Obligations.SelectionFeedsItem : Prop :=
  ∀ (x : AB) (s : State) (next : Time) (v : TapeUnit) (latched : Flags30), s.por = false →
    (s.ribbons.get x).state = .running next → elapsed s.time next < 2 ^ 31 → (s.ribbons.get x).feeder = [] →
    v = evaluateMode (s.params.thresholds.get x) (s.tapes.get x).prints.length
      (evaluateLateness (latenessNow s.time (oldestJoined x s)) (s.tapes.get x)) →
    latched = (if v.mode = (s.tapes.get x).mode then s.feed.latched
      else s.feed.latched ||| BitVec.twoPow 30 (18 + abNumber x)) →
    (∀ text, v.staged = some text → exec (.stepEvent x) s
      = .next (fed x next .stagedNotice (text ++ [0x20, 0x20, 0x20]) { v with staged := none } latched s)) ∧
    (v.staged = none →
      (∀ text, v.feedSlot = some text → exec (.stepEvent x) s
        = .next (fed x next .feedNotice (text ++ [0x20, 0x20, 0x20]) { v with feedSlot := none } latched s)) ∧
      (v.feedSlot = none →
        (∀ text, v.modeSlot = some text → exec (.stepEvent x) s
          = .next (fed x next .modeNotice (text ++ [0x20, 0x20, 0x20]) { v with modeSlot := none } latched s)) ∧
        (v.modeSlot = none →
          (∀ text, v.lateSlot = some text → exec (.stepEvent x) s
            = .next (fed x next .latenessNotice (text ++ [0x20, 0x20, 0x20]) { v with lateSlot := none } latched s)) ∧
          (v.lateSlot = none →
            (v.prints = [] → exec (.stepEvent x) s = .next (fed x next .blank [0x20] v latched s)) ∧
            ∀ i more r d p, v.prints = i :: more → s.records[(i : SlotIx)] = some r → r.day = some d →
              r.pending = some p → exec (.stepEvent x) s = .next
                { fed x next .print (printText v.mode r.symbol d.last p.shares)
                    { v with prints := more, printed := v.printed + p.shares } latched s with
                  records := s.records.set i (if r.state = .retiring then none else some { r with pending := none })
                  directory := if r.state = .retiring then s.directory.filter (fun e => e.2 != i)
                    else s.directory }))))

/-- R129, R131: the two evaluations of a selection: the lateness announced, and the mode with its consecutive count and
the text of a change. -/
def Obligations.SelectionEvaluations : Prop :=
  (∀ (x : AB) (s : State) (now : Time),
    ((s.tapes.get x).prints = [] → latenessNow now (oldestJoined x s) = 0) ∧
    ∀ i more r p, (s.tapes.get x).prints = i :: more → s.records[(i : SlotIx)] = some r → r.pending = some p →
      latenessNow now (oldestJoined x s) = min 99 (elapsed now p.joined / 6000)) ∧
  (∀ (m : Nat) (u : TapeUnit), m ≤ 99 →
    (m = u.lateness → evaluateLateness m u = u) ∧
    (m ≠ u.lateness → m = 0 → evaluateLateness m u = { u with
      lateSlot := some [0x4F, 0x4E, 0x20, 0x54, 0x49, 0x4D, 0x45], lateness := 0 }) ∧
    (m ≠ u.lateness → 1 ≤ m → evaluateLateness m u = { u with
      lateSlot := some ([0x4C, 0x41, 0x54, 0x45, 0x20]
        ++ (if m < 10 then [byte (0x30 + m)] else [byte (0x30 + m / 10), byte (0x30 + m % 10)])
        ++ [0x20, 0x4D, 0x49, 0x4E])
      lateness := m })) ∧
  ∀ (th : Thresholds) (backlog count : Nat) (u : TapeUnit), ThresholdsLaw th → count = min (u.modeCount + 1) 255 →
    (u.mode ≠ .bare → th.eb ≤ backlog → evaluateMode th backlog u = { u with
      mode := .bare, modeCount := 0, modeSlot := some (modeText .bare) }) ∧
    (u.mode = .full → th.ec ≤ backlog → backlog < th.eb → evaluateMode th backlog u = { u with
      mode := .cut, modeCount := 0, modeSlot := some (modeText .cut) }) ∧
    (u.mode = .full → backlog < th.ec → evaluateMode th backlog u = u) ∧
    (u.mode = .cut → backlog ≤ th.lc → count < th.k → evaluateMode th backlog u = { u with modeCount := count }) ∧
    (u.mode = .cut → backlog ≤ th.lc → th.k ≤ count → evaluateMode th backlog u = { u with
      mode := .full, modeCount := 0, modeSlot := some (modeText .full) }) ∧
    (u.mode = .cut → th.lc < backlog → backlog < th.eb → evaluateMode th backlog u = { u with modeCount := 0 }) ∧
    (u.mode = .bare → backlog ≤ th.lb → count < th.k → evaluateMode th backlog u = { u with modeCount := count }) ∧
    (u.mode = .bare → backlog ≤ th.lb → th.k ≤ count → evaluateMode th backlog u = { u with
      mode := .cut, modeCount := 0, modeSlot := some (modeText .cut) }) ∧
    (u.mode = .bare → th.lb < backlog → evaluateMode th backlog u = { u with modeCount := 0 })

/-! ### Terminal lines and requests (chapters 9 and 10) -/

/-- R139, R145, R146: TERMINAL ENABLE sets each drop's enabled flag from the mask, with the effect that each change has
on its terminal and on a visit in progress, and the line becomes IN ROUND or IDLE; it is refused with RANGE for a line
above 3. The model's choices: a disabled terminal keeps its miss run (log 20); a line that waits for quiet becomes IDLE
with mask 0, and a round that is left with no due drop ends, or is an empty one where it has not passed its first drop
(log 21). -/
def Obligations.TerminalEnableTaken : Prop :=
  ∀ (f : Frame) (s : State), CanTakeHead .terminalEnable f s → f.body.length = 2 →
    (3 < field f.body 0 1 → exec .terminalEnable s = .next (turnedAway f .range s)) ∧
    ∀ (line : LineIx) (l : Line) (mask : Byte), field f.body 0 1 = line.val → l = s.lines[line] →
      mask = byteAt f.body 1 → TerminalsLaw s →
      ∃ u : State, exec .terminalEnable s = .next (placeReply f.kind f.tag ⟨.ok, [byte line.val, mask]⟩ u) ∧
        u = { removeHead s with terminals := u.terminals, lines := s.lines.set line u.lines[line] } ∧
        (∀ t : TermIx, lineOf t ≠ line → u.terminals[t] = s.terminals[t]) ∧
        (∀ (d : DropIx) (t : Terminal), t = s.terminals[terminalAt line d] →
          (t.enabled = mask.getLsbD d.val → u.terminals[terminalAt line d] = t) ∧
          (t.enabled = false → mask.getLsbD d.val = true →
            u.terminals[terminalAt line d] = { t with enabled := true, presence := .unknown, missRun := 0 }) ∧
          (t.enabled = true → mask.getLsbD d.val = false → u.terminals[terminalAt line d] = { t with
            enabled := false, presence := .unknown, dirty := [], answer := none
            watch := (match outstandingOf s line d with
              | .dropped sym place => t.watch.take place ++ ⟨sym, .dropped⟩ :: t.watch.drop place
              | _ => t.watch) })) ∧
        (∀ v v', l.visit = some v →
          v' = (if s.terminals[terminalAt line v.drop].enabled = true ∧ mask.getLsbD v.drop.val = false then
            { v with outstanding := .nothing, detached := true } else v) →
          u.lines[line] = { l with visit := some v' }) ∧
        (l.visit = none →
          (mask = 0 → u.lines[line] = { l with round := .idle }) ∧
          (mask ≠ 0 → l.round = .idle →
            u.lines[line] = { l with round := .atDrop 0, spacing := s.params.probeSpacing }) ∧
          (mask ≠ 0 → ∀ since, (l.round = .quiet since ∨ l.round = .empty since) → u.lines[line] = l) ∧
          (∀ next, l.round = .atDrop next →
            (∃ d : DropIx, next ≤ d.val ∧ IsDue u.terminals[terminalAt line d] l.counter l.spacing) →
            u.lines[line] = l) ∧
          (mask ≠ 0 → ∀ next, l.round = .atDrop next →
            (∀ d : DropIx, next ≤ d.val → ¬ IsDue u.terminals[terminalAt line d] l.counter l.spacing) →
            (next = 0 → u.lines[line] = { l with round := .empty s.time }) ∧
            (next ≠ 0 → ∃ round, RoundBegins u line (l.counter + 1) round ∧ u.lines[line] = { l with
              counter := l.counter + 1, spacing := s.params.probeSpacing, round := round })))

/-- R139, R140, R148: a visit begins when the line's round reaches its next due drop; its frame, its outstanding item
and what it leaves of the terminal record are given by the first line of R140 that applies. R141: the reply window opens
when the frame has been sent. -/
def Obligations.VisitBegins : Prop :=
  (∀ (line : LineIx) (s : State) (l : Line) (start spacing : Nat) (d : DropIx) (t : Terminal), s.por = false →
    l = s.lines[line] → l.visit = none →
    (l.round = .atDrop start ∧ spacing = l.spacing ∨
      ∃ since, l.round = .quiet since ∧ 2 ≤ elapsed s.time since ∧ start = 0 ∧ spacing = s.params.probeSpacing) →
    t = s.terminals[terminalAt line d] → start ≤ d.val → IsDue t l.counter spacing →
    (∀ e : DropIx, start ≤ e.val → e < d → ¬ IsDue s.terminals[terminalAt line e] l.counter spacing) →
    ∃ frame outstanding t', exec (.visit line) s = .next { s with
        lines := s.lines.set line { l with
          round := .atDrop (d.val + 1), spacing := spacing, visit := some ⟨d, frame, outstanding, .sending, false⟩ }
        terminals := s.terminals.set (terminalAt line d) t' } ∧
      (∀ a, t.answer = some a → frame = a ∧ outstanding = .answer a ∧ t' = { t with answer := none }) ∧
      (t.answer = none →
        (t.dirty = [] → frame = ⟨0x01, 0, []⟩ ∧ outstanding = .nothing ∧ t' = t) ∧
        (∀ sym rest i r, t.dirty = sym :: rest → t.entryOf sym = some ⟨sym, .active i⟩ → s.records[i] = some r →
          frame = ⟨0x02, 0, flagsByte s.feed.stale false :: recordImage i r⟩ ∧ outstanding = .active sym ∧
            t' = { t with dirty := rest }) ∧
        (∀ sym rest, t.dirty = sym :: rest → t.entryOf sym = some ⟨sym, .dropped⟩ →
          frame = ⟨0x02, 0, flagsByte s.feed.stale true :: symbolBytes sym⟩ ∧
            outstanding = .dropped sym (t.placeOf sym) ∧
            t' = { t with dirty := rest, watch := t.watch.filter (fun w => w.symbol ≠ sym) }))) ∧
  (∀ (line : LineIx) (s : State) (v : Visit), s.por = false → s.lines[line].visit = some v → v.phase = .sending →
    exec (.replyWindowOpen line) s = .next { s with
      lines := s.lines.set line { s.lines[line] with
        visit := some { v with phase := .window s.time s.params.replyWindow } } })

/-- R143, R146: what a miss does: the line's count of its cause, the miss run, the outstanding item put back, and
absence with TERMINAL CHANGE at the threshold; a miss of a terminal disabled during the visit is counted at the line
alone. -/
def Obligations.MissEffects : Prop :=
  ∀ (line : LineIx) (v : Visit) (cause : MissCause) (s : State) (l : Line) (t : Terminal) (m : Nat),
    l = (match cause with
      | .silent => { s.lines[line] with silentCount := min (s.lines[line].silentCount + 1) 65535 }
      | .check => { s.lines[line] with checkCount := min (s.lines[line].checkCount + 1) 65535 }
      | .framing => { s.lines[line] with framingCount := min (s.lines[line].framingCount + 1) 65535 }) →
    t = s.terminals[terminalAt line v.drop] → m = min (t.missRun + 1) 8 →
    (v.detached = true → applyMiss line v cause s = { s with lines := s.lines.set line l }) ∧
    (v.detached = false → v.outstanding.Held t → ∀ back : Terminal,
      back = (match v.outstanding with
        | .nothing => { t with missRun := m }
        | .answer a => { t with missRun := m, answer := some a }
        | .active sym => { t with missRun := m, dirty := if sym ∈ t.dirty then t.dirty else t.dirty ++ [sym] }
        | .dropped sym place => { t with
          missRun := m
          watch := t.watch.take place ++ ⟨sym, .dropped⟩ :: t.watch.drop place
          dirty := if sym ∈ t.dirty then t.dirty else t.dirty ++ [sym] }) →
      ((t.presence = .absent ∨ m < s.params.absentThreshold) → applyMiss line v cause s = { s with
        lines := s.lines.set line l
        terminals := s.terminals.set (terminalAt line v.drop) back }) ∧
      (t.presence ≠ .absent → s.params.absentThreshold ≤ m → applyMiss line v cause s = { s with
        lines := s.lines.set line l
        terminals := s.terminals.set (terminalAt line v.drop)
          { back with presence := .absent, dirty := [], answer := none }
        feed := { s.feed with latched := s.feed.latched ||| BitVec.twoPow 30 (24 + line.val) } }))

/-- R136, R137, R141: the phases of a listening visit up to the end of the reply: the expiry of the window, the gap
inside a reply, a framing error, and a character that does not complete the frame. -/
def Obligations.ListeningPhases : Prop :=
  ∀ (line : LineIx) (s : State) (v : Visit) (inPhase : VisitPhase → State), s.por = false →
    s.lines[line].visit = some v →
    (∀ phase, inPhase phase = { s with
      lines := s.lines.set line { s.lines[line] with visit := some { v with phase := phase } } }) →
    (∀ opened length, v.phase = .window opened length →
      (elapsed s.time opened < length → exec (.replyWindowExpiry line) s = .next s) ∧
      (length ≤ elapsed s.time opened →
        exec (.replyWindowExpiry line) s = .next (missedAndSettling line v .silent s)) ∧
      (∀ cause, (cause = .badStop ∨ cause = .markOne) →
        exec (.terminalFramingError line cause) s = .next (missedAndSettling line v .framing s)) ∧
      ∀ char, exec (.replyCharacterArrival line char) s = .next (inPhase (.receiving [char] s.time))) ∧
    (∀ chars last, v.phase = .receiving chars last →
      (elapsed s.time last ≤ 2 → exec (.replyGapExpiry line) s = .next s) ∧
      (2 < elapsed s.time last →
        exec (.replyGapExpiry line) s = .next (endVisit line (applyMiss line v .silent s))) ∧
      (∀ cause, (cause = .badStop ∨ cause = .markOne ∨ ∃ n : Byte, cause = .badLength n ∧ chars.length = 2 ∧
          60 < n.toNat) →
        exec (.terminalFramingError line cause) s = .next (missedAndSettling line v .framing s)) ∧
      ∀ char : Byte, (chars.length < 2 ∨ chars.length = 2 ∧ char.toNat ≤ 60 ∨
          3 ≤ chars.length ∧ chars.length < 3 + (byteAt chars 2).toNat) →
        exec (.replyCharacterArrival line char) s = .next (inPhase (.receiving (chars ++ [char]) s.time))) ∧
    (∀ since, v.phase = .settling since → ∀ char,
      exec (.replyCharacterArrival line char) s = .next (inPhase (.settling s.time))) ∧
    (v.phase = .sending → ∀ char, exec (.replyCharacterArrival line char) s = .next s)

/-- R139, R141: the end of a visit that settles, and where its round goes on; R139: the end of an empty round. -/
def Obligations.RoundGoesOn : Prop :=
  (∀ (line : LineIx) (s : State) (v : Visit) (since : Time), s.por = false → s.lines[line].visit = some v →
    v.phase = .settling since →
    (elapsed s.time since < 2 → exec (.settlingExpiry line) s = .next s) ∧
    (2 ≤ elapsed s.time since → exec (.settlingExpiry line) s = .next (endVisit line s))) ∧
  (∀ (line : LineIx) (s : State) (l : Line) (next : Nat), l = s.lines[line] → l.round = .atDrop next → 1 ≤ next →
    ((∀ d : DropIx, s.terminals[terminalAt line d].enabled = false) →
      endVisit line s = { s with lines := s.lines.set line { l with visit := none, round := .idle } }) ∧
    ((∃ d : DropIx, next ≤ d.val ∧ IsDue s.terminals[terminalAt line d] l.counter l.spacing) →
      endVisit line s = { s with lines := s.lines.set line { l with visit := none } }) ∧
    ((∃ d : DropIx, s.terminals[terminalAt line d].enabled = true) →
      (∀ d : DropIx, next ≤ d.val → ¬ IsDue s.terminals[terminalAt line d] l.counter l.spacing) →
      ∃ round, RoundBegins s line (l.counter + 1) round ∧ endVisit line s = { s with
        lines := s.lines.set line { l with
          visit := none, counter := l.counter + 1, spacing := s.params.probeSpacing, round := round } })) ∧
  ∀ (line : LineIx) (s : State) (l : Line) (began : Time), s.por = false → l = s.lines[line] → l.round = .empty began →
    (elapsed s.time began = 0 → exec (.emptyRoundExpiry line) s = .next s) ∧
    (1 ≤ elapsed s.time began → ∃ round, RoundBegins s line (l.counter + 1) round ∧
      exec (.emptyRoundExpiry line) s = .next { s with
        lines := s.lines.set line { l with
          counter := l.counter + 1, spacing := s.params.probeSpacing, round := round } })

/-- R137, R141, R142, R146: the check character of a reply: a check failure is a miss after which the visit settles; an
intact reply ends the visit, delivers the outstanding item, makes the terminal PRESENT, marks the entries of one that
was not, and hands on a request; it does nothing to a terminal disabled during the visit. -/
def Obligations.ReplyCompletes : Prop :=
  ∀ (line : LineIx) (s : State) (v : Visit) (chars : List Byte) (last : Time) (check : Byte) (t : Terminal),
    s.por = false → s.lines[line].visit = some v → v.phase = .receiving chars last → 3 ≤ chars.length →
    chars.length = 3 + (byteAt chars 2).toNat → t = s.terminals[terminalAt line v.drop] →
    ((chars ++ [check]).foldl (· + ·) 0 ≠ 0 →
      exec (.replyComplete line check) s = .next (missedAndSettling line v .check s)) ∧
    ((chars ++ [check]).foldl (· + ·) 0 = 0 →
      (v.detached = true → exec (.replyComplete line check) s = .next (endVisit line s)) ∧
      (v.detached = false → t.enabled = true → t.watched.Nodup → ∀ t1 t2 : Terminal,
        t1 = { t with
          missRun := 0
          presence := .present
          dirty := if t.presence = .present then t.dirty
            else t.dirty ++ t.watched.filter (fun sym => sym ∉ t.dirty) } →
        t2 = (match requestOf (byteAt chars 0) (chars.drop 3) with
          | none => t1
          | some request => applyRequest s (byteAt chars 1) request t1) →
        exec (.replyComplete line check) s = .next (endVisit line { s with
          terminals := s.terminals.set (terminalAt line v.drop) t2
          feed := { s.feed with latched := if t.presence = .present then s.feed.latched
            else s.feed.latched ||| BitVec.twoPow 30 (24 + line.val) } })))

/-- R142, R151, R152, R153, R154, R155, R179: the requests of a terminal, and the answer placed in its answer slot. -/
def Obligations.RequestsApplied : Prop :=
  (∀ (kind : Byte) (body : List Byte),
    requestOf kind body =
      if kind = 0x11 ∧ body.length = 4 then some (.lookup body)
      else if kind = 0x12 ∧ body.length = 4 then some (.watch body)
      else if kind = 0x13 ∧ body.length = 4 then some (.unwatch body)
      else if kind = 0x14 ∧ body.length = 0 then some .refresh
      else none) ∧
  ∀ (s : State) (tag : Byte) (t : Terminal) (answer : Byte → List Byte → Option TermFrame), t.enabled = true →
    t.presence = .present → TerminalLaw t →
    (∀ code image, answer code image = some ⟨0x03, tag, flagsByte s.feed.stale false :: code :: image⟩) →
    (∀ places, symbolOf places = none →
      applyRequest s tag (.lookup places) t = { t with answer := answer 1 [] } ∧
      applyRequest s tag (.watch places) t = { t with answer := answer 1 [] } ∧
      applyRequest s tag (.unwatch places) t = { t with answer := answer 6 [] }) ∧
    (∀ places sym, symbolOf places = some sym →
      (liveLookup sym s = none → applyRequest s tag (.lookup places) t = { t with answer := answer 1 [] }) ∧
      (∀ i r, liveLookup sym s = some (i, r) →
        applyRequest s tag (.lookup places) t = { t with answer := answer 0 (recordImage i r) }) ∧
      (∀ i, ⟨sym, .active i⟩ ∈ t.watch → applyRequest s tag (.watch places) t = { t with answer := answer 3 [] }) ∧
      (⟨sym, .dropped⟩ ∈ t.watch →
        (liveLookup sym s = none → applyRequest s tag (.watch places) t = { t with answer := answer 1 [] }) ∧
        ∀ i r, liveLookup sym s = some (i, r) → applyRequest s tag (.watch places) t = { t with
          answer := answer 2 []
          watch := t.watch.map (fun w => if w.symbol = sym then ⟨w.symbol, .active i⟩ else w)
          dirty := if sym ∈ t.dirty then t.dirty else t.dirty ++ [sym] }) ∧
      (sym ∉ t.watched →
        (liveLookup sym s = none → applyRequest s tag (.watch places) t = { t with answer := answer 1 [] }) ∧
        ∀ i r, liveLookup sym s = some (i, r) →
          (12 ≤ t.watch.length → applyRequest s tag (.watch places) t = { t with answer := answer 4 [] }) ∧
          (t.watch.length < 12 → applyRequest s tag (.watch places) t = { t with
            answer := answer 2 []
            watch := t.watch ++ [⟨sym, .active i⟩]
            dirty := t.dirty ++ [sym] })) ∧
      (sym ∈ t.watched → applyRequest s tag (.unwatch places) t = { t with
        answer := answer 5 []
        watch := t.watch.filter (fun w => w.symbol ≠ sym)
        dirty := t.dirty.filter (fun x => x ≠ sym) }) ∧
      (sym ∉ t.watched → applyRequest s tag (.unwatch places) t = { t with answer := answer 6 [] })) ∧
    applyRequest s tag .refresh t = { t with
      answer := answer 7 []
      dirty := t.dirty ++ t.watched.filter (fun sym => sym ∉ t.dirty) }

/-! ### The feed link, parameters, status and resets (chapter 11) -/

/-- R160, R161: the receiver: the lead byte, the characters of a frame up to its check character, and the failures that
are met inside a frame; what arrives in HUNTING otherwise is discarded and counted nowhere. R160, R161, R162, R172: the
check character completes the frame: one that is not intact is counted; an intact one restarts the quiet measure, clears
STALE where it is set, and is queued, or lost to overrun with all 8 places full. -/
def Obligations.FeedFramesReceived : Prop :=
  (∀ (s : State) (failed : State), s.por = false →
    failed = { s with feed := { s.feed with
      receiver := .hunting, framingCount := min (s.feed.framingCount + 1) 65535 } } →
    (s.feed.receiver = .hunting →
      exec (.feedCharacterArrival 0xC3) s = .next { s with feed := { s.feed with receiver := .inFrame [] s.time } } ∧
      (∀ char : Byte, char ≠ 0xC3 → exec (.feedCharacterArrival char) s = .next s) ∧
      (∀ cause, exec (.framingFailure cause) s = .next s) ∧ exec .frameGapExpiry s = .next s) ∧
    ∀ chars last, s.feed.receiver = .inFrame chars last →
      (∀ char : Byte, (chars.length < 2 ∨ chars.length = 2 ∧ char.toNat ≤ 240 ∨
          3 ≤ chars.length ∧ chars.length < 3 + (byteAt chars 2).toNat) →
        exec (.feedCharacterArrival char) s
          = .next { s with feed := { s.feed with receiver := .inFrame (chars ++ [char]) s.time } }) ∧
      exec (.framingFailure .badStop) s = .next failed ∧
      (∀ n : Byte, chars.length = 2 → 240 < n.toNat → exec (.framingFailure (.badLength n)) s = .next failed) ∧
      (elapsed s.time last ≤ 2 → exec .frameGapExpiry s = .next s) ∧
      (2 < elapsed s.time last → exec .frameGapExpiry s = .next failed)) ∧
  ∀ (s : State) (chars : List Byte) (last : Time) (check : Byte), s.por = false →
    s.feed.receiver = .inFrame chars last → 3 ≤ chars.length → chars.length = 3 + (byteAt chars 2).toNat →
    ((chars ++ [check]).foldl (· + ·) 0 ≠ 0 → exec (.frameComplete check) s = .next { s with
      feed := { s.feed with receiver := .hunting, checkCount := min (s.feed.checkCount + 1) 65535 } }) ∧
    ((chars ++ [check]).foldl (· + ·) 0 = 0 → ∃ z : State,
      (s.feed.stale = false →
        z = { s with feed := { s.feed with receiver := .hunting, lastIntact := s.time } }) ∧
      (s.feed.stale = true → StaleTurned false quotesResumed
        { s with feed := { s.feed with receiver := .hunting, lastIntact := s.time } } z) ∧
      (s.feed.inbound.length < 8 → exec (.frameComplete check) s = .next { z with
        feed := { z.feed with
          inbound := s.feed.inbound ++ [⟨byteAt chars 0, byteAt chars 1, chars.drop 3⟩] } }) ∧
      (8 ≤ s.feed.inbound.length → exec (.frameComplete check) s = .next { z with
        feed := { z.feed with overrunCount := min (s.feed.overrunCount + 1) 65535 } }))

/-- R165: a reply that has been sent leaves the head of the reply queue; R171: STALE becomes set, with its effects, when
the silence reaches the quiet limit in the phase OPEN, and under no other condition. -/
def Obligations.ReplySentAndQuietLimit : Prop :=
  (∀ (s : State) (r : Reply) (rest : List Reply), s.por = false → s.feed.replies = r :: rest →
    sendingReply s = some r ∧
      exec .replySent s = .next { s with feed := { s.feed with replies := rest } }) ∧
  ∀ (s : State) (due : Prop), s.por = false →
    (due ↔ s.phase = .opened ∧ s.feed.stale = false ∧ s.params.quietLimit ≠ 0 ∧
      s.params.quietLimit * 100 ≤ elapsed s.time s.feed.lastIntact) →
    (due → ∃ u : State, exec .quietLimitExpiry s = .next u ∧ StaleTurned true quotesDelayed s u) ∧
    (¬ due → exec .quietLimitExpiry s = .next s)

/-- R85, R95, R99, R130, R167: SET PARAMETER is refused with RANGE for a number not in the table, a value outside the
parameter's range, or a mode threshold that breaks a condition; otherwise the value is held, every other parameter keeps
its value, and the owner acts: a blink timer restarts with a period start, a panel is shed or recovered by the state of
its new rail, and the verifier's phase follows verify enable. READ PARAMETER replies with the value held. The numbers of
the table, and the value that each names, are spelled out. That bits 30 and 31 of a mask are ignored and no mask is
refused (log 15), and that a gap of 0 leads to READY in the same step (log 14), are the model's readings. -/
def Obligations.ParametersSetAndRead : Prop :=
  ((parameterOf 1 = some .quietLimit ∧ parameterOf 2 = some .flashCount ∧ parameterOf 3 = some (.blinkPeriod .a) ∧
      parameterOf 4 = some (.litPart .a) ∧ parameterOf 5 = some (.blinkPeriod .b) ∧ parameterOf 6 = some (.litPart .b) ∧
      parameterOf 7 = some .settleTime ∧ parameterOf 8 = some .sagCeiling) ∧
    (∀ rail : RailIx, parameterOf (9 + rail.val) = some (.brightness rail) ∧
      parameterOf (13 + rail.val) = some (.policy rail)) ∧
    (∀ panel : PanelIx, parameterOf (17 + panel.val) = some (.panelRail panel)) ∧
    (parameterOf 33 = some .verifyEnable ∧ parameterOf 34 = some .verifyGap ∧ parameterOf 35 = some .failThreshold ∧
      parameterOf 36 = some .clearThreshold ∧ parameterOf 37 = some (.stepPeriod .a) ∧
      parameterOf 38 = some (.stepPeriod .b)) ∧
    (∀ (x : AB) (first : Nat), first = (match x with
        | .a => 39
        | .b => 44) →
      parameterOf first = some (.ec x) ∧ parameterOf (first + 1) = some (.eb x) ∧
      parameterOf (first + 2) = some (.lc x) ∧ parameterOf (first + 3) = some (.lb x) ∧
      parameterOf (first + 4) = some (.k x)) ∧
    (parameterOf 49 = some .replyWindow ∧ parameterOf 50 = some .absentThreshold ∧
      parameterOf 51 = some .probeSpacing ∧ parameterOf 52 = some .mask)) ∧
  (∀ p : Params, ∀ q, p.value q = (match q with
    | .quietLimit => p.quietLimit
    | .flashCount => p.flashCount
    | .blinkPeriod x => p.blinkPeriod.get x
    | .litPart x => p.litPart.get x
    | .settleTime => p.settleTime
    | .sagCeiling => p.sagCeiling
    | .brightness rail => p.brightness[rail]
    | .policy rail => if p.policy[rail] = .restore then 0 else 1
    | .panelRail panel => p.panelRail[panel].val
    | .verifyEnable => if p.verifyEnable = true then 1 else 0
    | .verifyGap => p.verifyGap
    | .failThreshold => p.failThreshold
    | .clearThreshold => p.clearThreshold
    | .stepPeriod x => p.stepPeriod.get x
    | .ec x => (p.thresholds.get x).ec
    | .eb x => (p.thresholds.get x).eb
    | .lc x => (p.thresholds.get x).lc
    | .lb x => (p.thresholds.get x).lb
    | .k x => (p.thresholds.get x).k
    | .replyWindow => p.replyWindow
    | .absentThreshold => p.absentThreshold
    | .probeSpacing => p.probeSpacing
    | .mask => p.mask.toNat)) ∧
  (∀ (f : Frame) (s : State), CanTakeHead .readParameter f s → f.body.length = 1 →
    ((field f.body 0 1 < 1 ∨ 52 < field f.body 0 1) → exec .readParameter s = .next (turnedAway f .range s)) ∧
    ∀ q, parameterOf (field f.body 0 1) = some q → exec .readParameter s = .next (placeReply f.kind f.tag
      ⟨.ok, byteAt f.body 0 :: beBytes 4 (s.params.value q)⟩ (removeHead s))) ∧
  (∀ (f : Frame) (s : State) (v : Nat), CanTakeHead .setParameter f s → f.body.length = 5 → v = field f.body 1 4 →
    ((field f.body 0 1 < 1 ∨ 52 < field f.body 0 1) → exec .setParameter s = .next (turnedAway f .range s)) ∧
    ∀ q, parameterOf (field f.body 0 1) = some q →
      (¬ ValueFits s.params q v → exec .setParameter s = .next (turnedAway f .range s)) ∧
      (ValueFits s.params q v → ∃ (p : Params) (u : State),
        exec .setParameter s = .next (placeReply f.kind f.tag
          ⟨.ok, byteAt f.body 0 :: beBytes 4 (p.value q)⟩ u) ∧
        p.value q = (if q = .mask then v % 2 ^ 30 else v) ∧
        (∀ q', q' ≠ q → p.value q' = s.params.value q') ∧
        ((∀ x, q ≠ .blinkPeriod x ∧ q ≠ .litPart x) → (∀ panel, q ≠ .panelRail panel) → q ≠ .verifyEnable →
          u = { removeHead s with params := p }) ∧
        (∀ x : AB, (q = .blinkPeriod x ∨ q = .litPart x) → ∀ z : State,
          z = { removeHead s with
            params := p, boards := { s.boards with timerStart := s.boards.timerStart.put x s.time } } →
          (x = .a → u = lowerFlashes z) ∧ (x = .b → u = z)) ∧
        (∀ panel, q = .panelRail panel → ∀ z : State, z = { removeHead s with params := p } →
          (s.params.panelRail[panel].val = v → u = z) ∧
          (s.params.panelRail[panel].val ≠ v → ∀ rail : RailIx, rail.val = v →
            (s.rails[rail].state = .fail → s.panels[panel].state = .shed → u = z) ∧
            (s.rails[rail].state = .fail → s.panels[panel].state ≠ .shed → u = shed panel z) ∧
            (s.rails[rail].state ≠ .fail → s.panels[panel].state = .shed →
              u = recover s.params.policy[rail] panel z) ∧
            (s.rails[rail].state ≠ .fail → s.panels[panel].state ≠ .shed → u = z))) ∧
        (q = .verifyEnable → u = { removeHead s with
          params := p
          verifier := { s.verifier with
            phase := if p.verifyEnable = true ∧ s.params.verifyEnable = false ∧ s.verifier.phase = .idle then
                (if s.params.verifyGap = 0 then .ready else .waiting s.time s.params.verifyGap)
              else if p.verifyEnable = false ∧ s.params.verifyEnable = true ∧ s.verifier.phase ≠ .reading then .idle
              else s.verifier.phase } })))

/-- R112, R119, R135, R147, R168, R175: READ STATUS replies with the section's items, spelled out in their bytes and
formed before the clear option acts, which sets the three receive counters to 0 (GENERAL) or each backlog maximum to the
backlog (TAPES) and nothing else; any other section is refused with RANGE. R170: CLEAR CONDITIONS clears the conditions
whose flags are set and replies with those still latched. The model's readings: GENERAL counts neither the frame taken
nor its own reply (log 18); PANELS reports the duty that the table of R90 gives at that moment (log 9); CLEAR CONDITIONS
ignores bits 30 and 31 (log 15). -/
def Obligations.StatusReadAndConditionsCleared : Prop :=
  (∀ (f : Frame) (s : State) (clear : Bool), CanTakeHead .readStatus f s → f.body.length = 2 →
    clear = flagAt f.body 1 0 →
    ∀ (yes : Bool → Byte) (two four : Nat → List Byte) (orNoPage : Option PageIx → Byte)
      (count : (PosIx → Bool) → Nat),
    (∀ b, yes b = if b = true then 1 else 0) → two = beBytes 2 → four = beBytes 4 →
    (∀ page, orNoPage page = (match page with
      | none => 0xFF
      | some n => byte n.val)) →
    (∀ P, count P = ((List.finRange 1024).filter P).length) →
    (3 < field f.body 0 1 → exec .readStatus s = .next (turnedAway f .range s)) ∧
    (field f.body 0 1 = 0 → ∃ z : State, exec .readStatus s = .next (placeReply f.kind f.tag
        ⟨.ok, [s.phase.code] ++ two ((List.finRange 2048).filter (fun i => s.records[i] ≠ none)).length
          ++ [yes s.feed.stale] ++ four s.time.toNat
          ++ [byte (s.feed.inbound.length - 1), byte s.feed.replies.length]
          ++ two s.feed.checkCount ++ two s.feed.framingCount ++ two s.feed.overrunCount
          ++ flagsBytes s.feed.latched ++ flagsBytes s.params.mask⟩ z) ∧
      (clear = false → z = removeHead s) ∧
      (clear = true → z = { s with feed := { s.feed with
        inbound := s.feed.inbound.tail, checkCount := 0, framingCount := 0, overrunCount := 0 } })) ∧
    (field f.body 0 1 = 1 → ∀ (entry : SlotIx → Option PendingPrint) (items : AB → List Byte),
      (∀ i, entry i = s.records[i].bind (·.pending)) →
      (∀ x, items x =
        two (s.tapes.get x).prints.length ++ two (s.tapes.get x).backlogMax ++ four (s.tapes.get x).accepted.toNat
          ++ four (s.tapes.get x).printed.toNat ++ four (s.tapes.get x).withdrawn.toNat
          ++ four ((s.tapes.get x).prints.foldl (fun sum i => sum + ((entry i).map (·.shares)).getD 0)
            (0 : Word32)).toNat
          ++ (match (s.tapes.get x).prints.head?.bind entry with
            | none => [0, 0, 0, 0, 0]
            | some p => 1 :: four p.joined.toNat)
          ++ [(s.ribbons.get x).state.code, byte (s.ribbons.get x).feeder.length, (s.tapes.get x).mode.code,
            byte (s.tapes.get x).modeCount, yes (s.tapes.get x).staged.isSome, yes (s.tapes.get x).feedSlot.isSome,
            yes (s.tapes.get x).modeSlot.isSome, yes (s.tapes.get x).lateSlot.isSome,
            byte (s.tapes.get x).lateness]) →
      exec .readStatus s = .next (placeReply f.kind f.tag ⟨.ok, items .a ++ items .b⟩
        { removeHead s with tapes := if clear = true then
            ⟨{ s.tapes.a with backlogMax := s.tapes.a.prints.length },
              { s.tapes.b with backlogMax := s.tapes.b.prints.length }⟩
          else s.tapes })) ∧
    (field f.body 0 1 = 2 → ∀ (panelItems : PanelIx → List Byte) (railItems : RailIx → List Byte),
      (∀ panel, panelItems panel =
        [s.panels[panel].state.code, byte s.params.panelRail[panel].val, orNoPage s.panels[panel].current,
          orNoPage s.panels[panel].lastShown,
          byte (count (fun p => decide (panelOf p = panel) && s.boards.positions[p].switchPending)),
          byte (count (fun p => decide (panelOf p = panel ∧ s.boards.positions[p].verify = .suspect))),
          byte (count (fun p => decide (panelOf p = panel ∧ s.boards.positions[p].verify = .failed)))]) →
      (∀ rail, railItems rail = [s.rails[rail].state.code, byte (match s.rails[rail].state with
        | .ok => min s.params.brightness[rail] 12
        | .low => min (min s.params.brightness[rail] 12) s.params.sagCeiling
        | .fail => 0)]) →
      exec .readStatus s = .next (placeReply f.kind f.tag
        ⟨.ok, (List.finRange 16).flatMap panelItems ++ (List.finRange 4).flatMap railItems
          ++ two s.boards.repaint.length ++ two s.verifier.mismatchTotal
          ++ (match s.verifier.lastFailed with
            | none => [0xFF, 0xFF]
            | some p => [byte (p.val / 64), byte (p.val % 64)])⟩ (removeHead s))) ∧
    (field f.body 0 1 = 3 → ∀ (lineItems : LineIx → List Byte) (terminalItems : TermIx → List Byte),
      (∀ line, lineItems line = [yes (decide (s.lines[line].round ≠ .idle))] ++ two s.lines[line].counter.toNat
        ++ [(match s.lines[line].visit with
          | none => 0xFF
          | some v => byte v.drop.val)]
        ++ two s.lines[line].silentCount ++ two s.lines[line].checkCount ++ two s.lines[line].framingCount) →
      (∀ t, terminalItems t = [yes s.terminals[t].enabled, s.terminals[t].presence.code, byte s.terminals[t].missRun,
        byte s.terminals[t].watch.length, byte s.terminals[t].dirty.length, yes s.terminals[t].answer.isSome]) →
      exec .readStatus s = .next (placeReply f.kind f.tag
        ⟨.ok, (List.finRange 4).flatMap lineItems ++ (List.finRange 32).flatMap terminalItems⟩ (removeHead s)))) ∧
  ∀ (f : Frame) (s : State) (latched : Flags30), CanTakeHead .clearConditions f s → f.body.length = 4 →
    latched = s.feed.latched &&& ~~~(BitVec.ofNat 30 (field f.body 0 4)) →
    exec .clearConditions s = .next (placeReply f.kind f.tag ⟨.ok, flagsBytes latched⟩
      { s with feed := { s.feed with inbound := s.feed.inbound.tail, latched := latched } })

/-- R173, with R1, R73, R96, R106, R121, R122, R128, R129, R130, R148: a restart, by the RESTART input or by a taken
RESTART message, whose reply is the one reply left in the reply queue. The model's readings: the time base goes on and no
period start is counted (log 19); the blocks act one after another (log 22); a gap of 0 leads to READY in the same step
(log 14); a ribbon keeps the character on its output (log 13) and gives no strobe (log 27); a line's 2 quiet intervals are
counted from the restart (log 28). -/
def Obligations.RestartReachesEveryBlock : Prop :=
  (∀ s : State, s.por = false → TapesLaw s →
    ∃ u, exec .restartInput s = .next u ∧ u.feed.replies = [] ∧ Restarted s u) ∧
  ∀ (f : Frame) (s : State), CanTakeHead .restart f s → f.body.length = 0 → TapesLaw s →
    ∃ u, exec .restart s = .next u ∧ u.feed.replies = [⟨f.kind, f.tag, .ok, []⟩] ∧ Restarted s u

/-! ### The outputs (chapters 5, 9, 11 and Appendix A) -/

/-- R163, R169, R85, R86: the output lines while POR is released: READY while at least 2 of the 8 places are free;
ATTENTION while a latched condition is enabled in the mask, the conditions by their numbers; the phase line of a blink
timer by its lit part, at the resolution of the time base (the model's choice, log 12); and what a module is made to
show. That the lines are views of the state is the model's choice (log 11). R122: a ribbon's character output and step
strobe, held as the last character and the count of strobes (log 27), change at a step of that ribbon alone; what a step
presents is in `StepMovesFeeder` and `SelectionFeedsItem`. That they stay at other commands is a reading of R122 (log 13
for a restart); the POR commands give their reset values. -/
def Obligations.OutputLines : Prop :=
  (∀ s : State, s.por = false →
    (s.ready = true ↔ s.feed.inbound.length + 2 ≤ 8) ∧
    (s.attention = true ↔ ∃ n, n < 30 ∧ s.feed.latched.getLsbD n = true ∧ s.params.mask.getLsbD n = true)) ∧
  (∀ (c : Condition) (s : State), latch c s = { s with feed := { s.feed with
    latched := s.feed.latched ||| BitVec.twoPow 30 (match c with
      | .pageDone panel => panel.val
      | .noticeDone .a => 16
      | .noticeDone .b => 17
      | .tapeModeChange .a => 18
      | .tapeModeChange .b => 19
      | .railChange rail => 20 + rail.val
      | .terminalChange line => 24 + line.val
      | .positionFailed => 28
      | .staleChange => 29) } }) ∧
  (∀ (s : State) (x : AB) (lit passed : Nat), lit = s.params.litPart.get x →
    passed = 10 * elapsed s.time (s.boards.timerStart.get x) →
    (lit = 0 → phaseLit s x = false) ∧ (8 ≤ lit → phaseLit s x = true) ∧
    (1 ≤ lit → lit ≤ 7 → (phaseLit s x = true ↔ 8 * passed < lit * s.params.blinkPeriod.get x))) ∧
  (∀ (c : Instr) (s t : State) (x : AB), exec c s = .next t → c ≠ .stepEvent x → c ≠ .porAssert → c ≠ .porRelease →
    (t.ribbons.get x).charOut = (s.ribbons.get x).charOut ∧
      (t.ribbons.get x).strobes = (s.ribbons.get x).strobes) ∧
  ∀ phaseA phaseB : Bool,
    (cellsLit phaseA phaseB .steady = true ∧ cellsLit phaseA phaseB .flashA = phaseA ∧
      cellsLit phaseA phaseB .blinkB = phaseB ∧ cellsLit phaseA phaseB .dark = false) ∧
    (lampLit phaseB .up = true ∧ lampLit phaseB .down = true ∧ lampLit phaseB .upB = phaseB ∧
      lampLit phaseB .downB = phaseB ∧ lampLit phaseB .dark = false)

/-- R175, R181: numbers, flags and codes in bytes; R180: the bytes of a position write, of a read and of the echo that
equals an image; R176: a reply on the feed link; R136, R137, R179: a terminal frame and the characters of a visit. -/
def Obligations.BytesSent : Prop :=
  (∀ w n : Nat, (beBytes w n).length = w ∧ field (beBytes w n) 0 w = n % 256 ^ w) ∧
  (∀ flags : Flags30, (flagsBytes flags).length = 4 ∧ field (flagsBytes flags) 0 4 = flags.toNat) ∧
  ([SessionPhase.pre, .opened, .post].map (·.code) = [0, 1, 2] ∧
    (∀ next, [RibbonState.stopped, .running next, .stopping next].map (·.code) = [0, 1, 2]) ∧
    [PrintMode.full, .cut, .bare].map (·.code) = [0, 1, 2] ∧
    [PanelState.live, .shed, .heldDark].map (·.code) = [0, 1, 2] ∧
    [RailState.ok, .low, .fail].map (·.code) = [0, 1, 2] ∧
    [Presence.unknown, .present, .absent].map (·.code) = [0, 1, 2] ∧
    (∀ q, [RecState.listed, .trading, .halted q, .closed, .retiring].map (·.code) = [1, 2, 3, 4, 5]) ∧
    [HaltReason.news, .imbalance, .other].map (·.code) = [0, 1, 2] ∧
    [AB.a, .b].map tapeCode = [0, 1]) ∧
  (∀ (w : PositionWrite) (drive : Nat), drive = (match w.content.mode with
        | .dark => 0
        | .steady => 1
        | .flashA => 2
        | .blinkB => 3)
      + 16 * (match w.content.lamp with
        | .dark => 0
        | .up => 1
        | .upB => 2
        | .down => 3
        | .downB => 4) →
    writeBytes w = [BitVec.ofNat 8 (0x80 + w.position.val / 64), BitVec.ofNat 8 (w.position.val % 64),
      BitVec.ofNat 8 drive] ++ w.content.cells ∧
    readBytes w.position = [BitVec.ofNat 8 (0x90 + w.position.val / 64), BitVec.ofNat 8 (w.position.val % 64)] ∧
    imageBytes w.position w.content
      = [BitVec.ofNat 8 (w.position.val % 64), BitVec.ofNat 8 drive] ++ w.content.cells) ∧
  (∀ (s : State) (p : PosIx), (∀ e, shownEntry s s.boards.positions[p] = some e → e.width ≤ 10) →
    (contentOf s p).cells.length = 10) ∧
  (∀ (r : Reply) (code : Byte), [Status.ok, .rounded, .unknown, .existing, .busy, .full, .range, .state, .session,
      .crossed, .conflict, .badPage, .shown, .malformed][code.toNat]? = some r.status →
    ∃ check, replyBytes r
        = [0xC3, r.kind, r.tag, BitVec.ofNat 8 (r.body.length + 1), code] ++ r.body ++ [check] ∧
      (replyBytes r).tail.foldl (· + ·) 0 = 0) ∧
  (∀ f : TermFrame, ∃ check, termFrameBytes f = [f.kind, f.tag, BitVec.ofNat 8 f.body.length] ++ f.body ++ [check] ∧
    (termFrameBytes f).foldl (· + ·) 0 = 0) ∧
  ∀ v : Visit, visitChars v
    = (true, BitVec.ofNat 8 v.drop.val) :: (termFrameBytes v.frame).map (fun char => (false, char))
end

