-- ==== Sys2Proof/Laws/Rounding.lean ====
section
/-! SUPPORT. Grid rounding (R25) and the symbol check (R7): what they give. -/

namespace Sys2Proof.Machine

theorem Denominator.step_pos (d : Denominator) : 0 < d.step := by cases d <;> decide

theorem validPrice_iff {p : Nat} : validPrice p = true ↔ 1 ≤ p ∧ p ≤ 319999 := by
  unfold validPrice
  rw [Bool.and_eq_true, decide_eq_true_iff, decide_eq_true_iff]
  rfl

/-- R25, step by step. -/
theorem roundToGrid_cases {g p q : Nat} (hg : 0 < g) (h : roundToGrid g p = some q) :
    (1 ≤ p ∧ p ≤ 319999) ∧
    ((p % g = 0 ∧ q = p) ∨
      (p % g ≠ 0 ∧ g ≤ 2 * (p % g) ∧ p - p % g + g ≤ 319999 ∧ q = p - p % g + g) ∨
      (p % g ≠ 0 ∧ g ≤ 2 * (p % g) ∧ 319999 < p - p % g + g ∧ q = p - p % g) ∨
      (p % g ≠ 0 ∧ 2 * (p % g) < g ∧ p - p % g ≠ 0 ∧ q = p - p % g) ∨
      (p % g ≠ 0 ∧ 2 * (p % g) < g ∧ p - p % g = 0 ∧ q = g)) := by
  by_cases hv : validPrice p = true
  · have hv' := validPrice_iff.mp hv
    refine ⟨hv', ?_⟩
    unfold roundToGrid at h
    rw [if_pos hv] at h
    dsimp only at h
    by_cases h0 : p % g = 0
    · rw [if_pos h0] at h
      exact .inl ⟨h0, by simpa using h.symm⟩
    · rw [if_neg h0] at h
      by_cases h1 : g ≤ 2 * (p % g)
      · rw [if_pos h1] at h
        by_cases h2 : Config.maxPrice < p - p % g + g
        · rw [if_pos h2] at h
          exact .inr (.inr (.inl ⟨h0, h1, h2, by simpa using h.symm⟩))
        · rw [if_neg h2, if_neg (by omega)] at h
          exact .inr (.inl ⟨h0, h1, Nat.le_of_not_lt h2, by simpa using h.symm⟩)
      · rw [if_neg h1] at h
        have h2 : ¬ Config.maxPrice < p - p % g := by
          have : Config.maxPrice = 319999 := rfl
          omega
        rw [if_neg h2] at h
        by_cases h3 : p - p % g = 0
        · rw [if_pos h3] at h
          exact .inr (.inr (.inr (.inr ⟨h0, by omega, h3, by simpa using h.symm⟩)))
        · rw [if_neg h3] at h
          exact .inr (.inr (.inr (.inl ⟨h0, by omega, h3, by simpa using h.symm⟩)))
  · unfold roundToGrid at h
    rw [if_neg hv] at h
    cases h

/-- R25: "the rounded price always lies on the grid, within 1 to 319,999". -/
theorem roundToGrid_onGrid {d : Denominator} {p q : Nat} (h : roundToGrid d.step p = some q) : OnGrid d q := by
  have hc := roundToGrid_cases d.step_pos h
  unfold OnGrid
  cases d <;> simp only [Denominator.step] at hc ⊢ <;> omega

/-- R49: "of two prices, the lower never rounds above the higher". -/
theorem roundToGrid_mono {d : Denominator} {p q p' q' : Nat} (h : roundToGrid d.step p = some p')
    (k : roundToGrid d.step q = some q') (hpq : p ≤ q) : p' ≤ q' := by
  have hp := roundToGrid_cases d.step_pos h
  have hq := roundToGrid_cases d.step_pos k
  cases d <;> simp only [Denominator.step] at hp hq <;> omega

theorem splitLetters_spec (l : List Byte) :
    (splitLetters l).1.length ≤ l.length ∧ ∀ g ∈ (splitLetters l).1, isLetter g = true := by
  induction l with
  | nil => simp [splitLetters]
  | cons g rest ih =>
    unfold splitLetters
    split
    · next hg =>
      obtain ⟨h1, h2⟩ := ih
      refine ⟨?_, ?_⟩
      · simpa using h1
      · intro x hx
        simp only [List.mem_cons] at hx
        rcases hx with rfl | hx
        · exact hg
        · exact h2 x hx
    · simp

/-- R7: an accepted symbol is 1 to 4 capital letters. -/
theorem symbolAt_law {body : List Byte} {n : Nat} {sym : Symbol} (h : symbolAt body n = some sym) :
    sym ≠ [] ∧ sym.length ≤ 4 ∧ ∀ g ∈ sym, isLetter g = true := by
  unfold symbolAt symbolOf at h
  have hs := splitLetters_spec ((body.drop n).take 4)
  dsimp only at h
  split at h
  · next hc =>
    cases h
    refine ⟨hc.1, hs.1.trans ?_, hs.2⟩
    simp
  · cases h

end Sys2Proof.Machine
end

