-- ==== Sys2Proof/Laws/Store.lean ====
section
/-! SUPPORT. What the reads and writes of the numbered stores give. -/

namespace Sys2Proof.Machine

@[simp] theorem Pair.get_put_same {α : Type} (p : Pair α) (i : AB) (v : α) : (p.put i v).get i = v := by
  cases i <;> rfl

theorem Pair.get_put {α : Type} (p : Pair α) (i j : AB) (v : α) :
    (p.put i v).get j = if i = j then v else p.get j := by
  cases i <;> cases j <;> rfl

@[simp] theorem Pair.get_put_ne {α : Type} (p : Pair α) {i j : AB} (v : α) (h : i ≠ j) :
    (p.put i v).get j = p.get j := by
  simp [Pair.get_put, h]

@[simp] theorem Pair.get_map {α β : Type} (p : Pair α) (f : α → β) (i : AB) : (p.map f).get i = f (p.get i) := by
  cases i <;> rfl

theorem Pair.ext_get {α : Type} (p q : Pair α) (h : ∀ i, p.get i = q.get i) : p = q := by
  cases p; cases q
  have ha := h .a
  have hb := h .b
  simp_all [Pair.get]

theorem Vec.set_get {α : Type} {n : Nat} (v : Vector α n) (i j : Fin n) (x : α) :
    (v.set i x)[j] = if i = j then x else v[j] := by
  rw [Fin.getElem_fin, Vector.getElem_set, Fin.getElem_fin]
  simp [Fin.ext_iff]

theorem Vec.update_get {α : Type} {n : Nat} (v : Vector α n) (i j : Fin n) (f : α → α) :
    (Vec.update v i f)[j] = if i = j then f v[j] else v[j] := by
  unfold Vec.update
  rw [Vec.set_get]
  split
  · next h => rw [h]
  · rfl

@[simp] theorem Vec.update_get_val {α : Type} {n : Nat} (v : Vector α n) (i j : Fin n) (f : α → α) :
    (Vec.update v i f)[(j : Nat)] = if i = j then f v[(j : Nat)] else v[(j : Nat)] := Vec.update_get v i j f

theorem Vec.mapIx_get {α β : Type} {n : Nat} (f : Fin n → α → β) (v : Vector α n) (i : Fin n) :
    (Vec.mapIx f v)[i] = f i v[i] := by
  unfold Vec.mapIx
  simp [Fin.getElem_fin]

@[simp] theorem Vec.mapIx_get_val {α β : Type} {n : Nat} (f : Fin n → α → β) (v : Vector α n) (i : Fin n) :
    (Vec.mapIx f v)[(i : Nat)] = f i v[(i : Nat)] := Vec.mapIx_get f v i

theorem Vec.ext_get {α : Type} {n : Nat} (v w : Vector α n) (h : ∀ i : Fin n, v[i] = w[i]) : v = w := by
  apply Vector.ext
  intro i hi
  exact h ⟨i, hi⟩

/-- A place is selected exactly when its contents satisfy the test. -/
@[simp] theorem Vec.mem_select {α : Type} {n : Nat} (f : Fin n → α → Bool) (v : Vector α n) (i : Fin n) :
    i ∈ Vec.select f v ↔ f i v[i] = true := by
  unfold Vec.select
  rw [List.mem_filterMap]
  constructor
  · rintro ⟨⟨j, x⟩, hmem, heq⟩
    obtain ⟨k, hk, hjx⟩ := List.mem_iff_getElem.mp hmem
    simp only [List.getElem_zip, List.getElem_finRange, Prod.mk.injEq] at hjx
    split at heq
    · next hf =>
      cases heq
      obtain ⟨rfl, rfl⟩ := hjx
      simpa [Fin.getElem_fin] using hf
    · cases heq
  · intro hf
    refine ⟨(i, v[i]), ?_, if_pos hf⟩
    rw [List.mem_iff_getElem]
    refine ⟨i.val, by simp, ?_⟩
    simp [Fin.getElem_fin]

/-- The places come in ascending order, each once. -/
theorem Vec.select_sorted {α : Type} {n : Nat} (f : Fin n → α → Bool) (v : Vector α n) :
    (Vec.select f v).Pairwise (· < ·) := by
  unfold Vec.select
  have hz : ((List.finRange n).zip v.toList).Pairwise (fun a b => a.1 < b.1) := by
    rw [← List.pairwise_map (f := Prod.fst) (R := (· < ·))]
    rw [List.map_fst_zip (by simp)]
    exact List.pairwise_lt_finRange n
  refine List.Pairwise.filterMap _ ?_ hz
  rintro ⟨i, x⟩ ⟨j, y⟩ hlt a ha b hb
  dsimp only at ha hb hlt
  split at ha <;> cases ha
  split at hb <;> cases hb
  exact hlt

theorem Vec.select_nodup {α : Type} {n : Nat} (f : Fin n → α → Bool) (v : Vector α n) :
    (Vec.select f v).Nodup :=
  (Vec.select_sorted f v).imp (fun h => Fin.ne_of_lt h)

/-- The places selected are those of the whole numbering, in order, that satisfy the test. -/
theorem Vec.select_eq_filter {α : Type} {n : Nat} (f : Fin n → α → Bool) (v : Vector α n) :
    Vec.select f v = (List.finRange n).filter (fun i => f i v[i]) := by
  refine List.Perm.eq_of_pairwise' (r := (· < ·)) (Vec.select_sorted f v) ((List.pairwise_lt_finRange n).filter _) ?_
  refine (List.perm_ext_iff_of_nodup (Vec.select_nodup f v) ((List.nodup_finRange n).filter _)).mpr fun i => ?_
  simp

theorem terminalAt_lineOf (t : TermIx) : terminalAt (lineOf t) (dropOf t) = t := by
  apply Fin.ext
  simp only [terminalAt, lineOf, dropOf]
  omega

@[simp] theorem lineOf_terminalAt (line : LineIx) (d : DropIx) : lineOf (terminalAt line d) = line := by
  apply Fin.ext
  simp only [terminalAt, lineOf]
  omega

@[simp] theorem dropOf_terminalAt (line : LineIx) (d : DropIx) : dropOf (terminalAt line d) = d := by
  apply Fin.ext
  simp only [terminalAt, dropOf]
  omega

theorem terminalAt_inj {l l' : LineIx} {d d' : DropIx} (h : terminalAt l d = terminalAt l' d') : l = l' ∧ d = d' := by
  have hl := congrArg lineOf h
  have hd := congrArg dropOf h
  simp at hl hd
  exact ⟨hl, hd⟩

@[simp] theorem panelOf_positionAt (panel : PanelIx) (n : Fin 64) : panelOf (positionAt panel n) = panel := by
  apply Fin.ext
  simp only [panelOf, positionAt]
  omega

@[simp] theorem positionIn_positionAt (panel : PanelIx) (n : Fin 64) : positionIn (positionAt panel n) = n := by
  apply Fin.ext
  simp only [positionIn, positionAt]
  omega

theorem positionAt_panelOf (p : PosIx) : positionAt (panelOf p) (positionIn p) = p := by
  apply Fin.ext
  simp only [positionAt, panelOf, positionIn]
  omega

@[simp] theorem mem_panelPositions (panel : PanelIx) (p : PosIx) : p ∈ panelPositions panel ↔ panelOf p = panel := by
  unfold panelPositions
  simp only [List.mem_map, List.mem_finRange, true_and]
  constructor
  · rintro ⟨n, rfl⟩
    simp
  · rintro rfl
    exact ⟨positionIn p, positionAt_panelOf p⟩

theorem placeOf_eq_some {n size : Nat} {i : Fin size} (h : placeOf n size = some i) : i.val = n := by
  unfold placeOf at h
  split at h
  · cases h
    rfl
  · cases h

end Sys2Proof.Machine
end

