-- ==== Sys2Proof/Laws/State.lean ====
section
/-! SUPPORT. What each named update leaves of each field of the state: one lemma for each field of each update, true by
definition, so that no proof unfolds an update of a record. -/

namespace Sys2Proof.Machine

variable (s : State)

@[simp] theorem withPending_time (q : List Instr) : (s.withPending q).time = s.time := rfl
@[simp] theorem withPending_por (q : List Instr) : (s.withPending q).por = s.por := rfl
@[simp] theorem withPending_phase (q : List Instr) : (s.withPending q).phase = s.phase := rfl
@[simp] theorem withPending_records (q : List Instr) : (s.withPending q).records = s.records := rfl
@[simp] theorem withPending_directory (q : List Instr) : (s.withPending q).directory = s.directory := rfl
@[simp] theorem withPending_feed (q : List Instr) : (s.withPending q).feed = s.feed := rfl
@[simp] theorem withPending_params (q : List Instr) : (s.withPending q).params = s.params := rfl
@[simp] theorem withPending_entries (q : List Instr) : (s.withPending q).entries = s.entries := rfl
@[simp] theorem withPending_pages (q : List Instr) : (s.withPending q).pages = s.pages := rfl
@[simp] theorem withPending_panels (q : List Instr) : (s.withPending q).panels = s.panels := rfl
@[simp] theorem withPending_boards (q : List Instr) : (s.withPending q).boards = s.boards := rfl
@[simp] theorem withPending_rails (q : List Instr) : (s.withPending q).rails = s.rails := rfl
@[simp] theorem withPending_verifier (q : List Instr) : (s.withPending q).verifier = s.verifier := rfl
@[simp] theorem withPending_tapes (q : List Instr) : (s.withPending q).tapes = s.tapes := rfl
@[simp] theorem withPending_ribbons (q : List Instr) : (s.withPending q).ribbons = s.ribbons := rfl
@[simp] theorem withPending_lines (q : List Instr) : (s.withPending q).lines = s.lines := rfl
@[simp] theorem withPending_terminals (q : List Instr) : (s.withPending q).terminals = s.terminals := rfl
@[simp] theorem withPending_pending (q : List Instr) : (s.withPending q).pending = q := rfl

@[simp] theorem setRecord_time (i : SlotIx) (r : Record) : (setRecord i r s).time = s.time := rfl
@[simp] theorem setRecord_por (i : SlotIx) (r : Record) : (setRecord i r s).por = s.por := rfl
@[simp] theorem setRecord_phase (i : SlotIx) (r : Record) : (setRecord i r s).phase = s.phase := rfl
@[simp] theorem setRecord_records (i : SlotIx) (r : Record) : (setRecord i r s).records = s.records.set i (some r) := rfl
@[simp] theorem setRecord_directory (i : SlotIx) (r : Record) : (setRecord i r s).directory = s.directory := rfl
@[simp] theorem setRecord_feed (i : SlotIx) (r : Record) : (setRecord i r s).feed = s.feed := rfl
@[simp] theorem setRecord_params (i : SlotIx) (r : Record) : (setRecord i r s).params = s.params := rfl
@[simp] theorem setRecord_entries (i : SlotIx) (r : Record) : (setRecord i r s).entries = s.entries := rfl
@[simp] theorem setRecord_pages (i : SlotIx) (r : Record) : (setRecord i r s).pages = s.pages := rfl
@[simp] theorem setRecord_panels (i : SlotIx) (r : Record) : (setRecord i r s).panels = s.panels := rfl
@[simp] theorem setRecord_boards (i : SlotIx) (r : Record) : (setRecord i r s).boards = s.boards := rfl
@[simp] theorem setRecord_rails (i : SlotIx) (r : Record) : (setRecord i r s).rails = s.rails := rfl
@[simp] theorem setRecord_verifier (i : SlotIx) (r : Record) : (setRecord i r s).verifier = s.verifier := rfl
@[simp] theorem setRecord_tapes (i : SlotIx) (r : Record) : (setRecord i r s).tapes = s.tapes := rfl
@[simp] theorem setRecord_ribbons (i : SlotIx) (r : Record) : (setRecord i r s).ribbons = s.ribbons := rfl
@[simp] theorem setRecord_lines (i : SlotIx) (r : Record) : (setRecord i r s).lines = s.lines := rfl
@[simp] theorem setRecord_terminals (i : SlotIx) (r : Record) : (setRecord i r s).terminals = s.terminals := rfl
@[simp] theorem setRecord_pending (i : SlotIx) (r : Record) : (setRecord i r s).pending = s.pending := rfl

@[simp] theorem freeSlot_time (i : SlotIx) : (freeSlot i s).time = s.time := rfl
@[simp] theorem freeSlot_por (i : SlotIx) : (freeSlot i s).por = s.por := rfl
@[simp] theorem freeSlot_phase (i : SlotIx) : (freeSlot i s).phase = s.phase := rfl
@[simp] theorem freeSlot_records (i : SlotIx) : (freeSlot i s).records = s.records.set i none := rfl
@[simp] theorem freeSlot_directory (i : SlotIx) : (freeSlot i s).directory = s.directory.filter (fun e => e.2 != i) := rfl
@[simp] theorem freeSlot_feed (i : SlotIx) : (freeSlot i s).feed = s.feed := rfl
@[simp] theorem freeSlot_params (i : SlotIx) : (freeSlot i s).params = s.params := rfl
@[simp] theorem freeSlot_entries (i : SlotIx) : (freeSlot i s).entries = s.entries := rfl
@[simp] theorem freeSlot_pages (i : SlotIx) : (freeSlot i s).pages = s.pages := rfl
@[simp] theorem freeSlot_panels (i : SlotIx) : (freeSlot i s).panels = s.panels := rfl
@[simp] theorem freeSlot_boards (i : SlotIx) : (freeSlot i s).boards = s.boards := rfl
@[simp] theorem freeSlot_rails (i : SlotIx) : (freeSlot i s).rails = s.rails := rfl
@[simp] theorem freeSlot_verifier (i : SlotIx) : (freeSlot i s).verifier = s.verifier := rfl
@[simp] theorem freeSlot_tapes (i : SlotIx) : (freeSlot i s).tapes = s.tapes := rfl
@[simp] theorem freeSlot_ribbons (i : SlotIx) : (freeSlot i s).ribbons = s.ribbons := rfl
@[simp] theorem freeSlot_lines (i : SlotIx) : (freeSlot i s).lines = s.lines := rfl
@[simp] theorem freeSlot_terminals (i : SlotIx) : (freeSlot i s).terminals = s.terminals := rfl
@[simp] theorem freeSlot_pending (i : SlotIx) : (freeSlot i s).pending = s.pending := rfl

@[simp] theorem setPendingPrint_time (i : SlotIx) (p : Option PendingPrint) : (setPendingPrint i p s).time = s.time := rfl
@[simp] theorem setPendingPrint_por (i : SlotIx) (p : Option PendingPrint) : (setPendingPrint i p s).por = s.por := rfl
@[simp] theorem setPendingPrint_phase (i : SlotIx) (p : Option PendingPrint) : (setPendingPrint i p s).phase = s.phase := rfl
@[simp] theorem setPendingPrint_records (i : SlotIx) (p : Option PendingPrint) : (setPendingPrint i p s).records = Vec.update s.records i (fun r => r.map (fun r => { r with pending := p })) := rfl
@[simp] theorem setPendingPrint_directory (i : SlotIx) (p : Option PendingPrint) : (setPendingPrint i p s).directory = s.directory := rfl
@[simp] theorem setPendingPrint_feed (i : SlotIx) (p : Option PendingPrint) : (setPendingPrint i p s).feed = s.feed := rfl
@[simp] theorem setPendingPrint_params (i : SlotIx) (p : Option PendingPrint) : (setPendingPrint i p s).params = s.params := rfl
@[simp] theorem setPendingPrint_entries (i : SlotIx) (p : Option PendingPrint) : (setPendingPrint i p s).entries = s.entries := rfl
@[simp] theorem setPendingPrint_pages (i : SlotIx) (p : Option PendingPrint) : (setPendingPrint i p s).pages = s.pages := rfl
@[simp] theorem setPendingPrint_panels (i : SlotIx) (p : Option PendingPrint) : (setPendingPrint i p s).panels = s.panels := rfl
@[simp] theorem setPendingPrint_boards (i : SlotIx) (p : Option PendingPrint) : (setPendingPrint i p s).boards = s.boards := rfl
@[simp] theorem setPendingPrint_rails (i : SlotIx) (p : Option PendingPrint) : (setPendingPrint i p s).rails = s.rails := rfl
@[simp] theorem setPendingPrint_verifier (i : SlotIx) (p : Option PendingPrint) : (setPendingPrint i p s).verifier = s.verifier := rfl
@[simp] theorem setPendingPrint_tapes (i : SlotIx) (p : Option PendingPrint) : (setPendingPrint i p s).tapes = s.tapes := rfl
@[simp] theorem setPendingPrint_ribbons (i : SlotIx) (p : Option PendingPrint) : (setPendingPrint i p s).ribbons = s.ribbons := rfl
@[simp] theorem setPendingPrint_lines (i : SlotIx) (p : Option PendingPrint) : (setPendingPrint i p s).lines = s.lines := rfl
@[simp] theorem setPendingPrint_terminals (i : SlotIx) (p : Option PendingPrint) : (setPendingPrint i p s).terminals = s.terminals := rfl
@[simp] theorem setPendingPrint_pending (i : SlotIx) (p : Option PendingPrint) : (setPendingPrint i p s).pending = s.pending := rfl

@[simp] theorem latch_time (c : Condition) : (latch c s).time = s.time := rfl
@[simp] theorem latch_por (c : Condition) : (latch c s).por = s.por := rfl
@[simp] theorem latch_phase (c : Condition) : (latch c s).phase = s.phase := rfl
@[simp] theorem latch_records (c : Condition) : (latch c s).records = s.records := rfl
@[simp] theorem latch_directory (c : Condition) : (latch c s).directory = s.directory := rfl
@[simp] theorem latch_feed (c : Condition) : (latch c s).feed = { s.feed with latched := s.feed.latched ||| c.flag } := rfl
@[simp] theorem latch_params (c : Condition) : (latch c s).params = s.params := rfl
@[simp] theorem latch_entries (c : Condition) : (latch c s).entries = s.entries := rfl
@[simp] theorem latch_pages (c : Condition) : (latch c s).pages = s.pages := rfl
@[simp] theorem latch_panels (c : Condition) : (latch c s).panels = s.panels := rfl
@[simp] theorem latch_boards (c : Condition) : (latch c s).boards = s.boards := rfl
@[simp] theorem latch_rails (c : Condition) : (latch c s).rails = s.rails := rfl
@[simp] theorem latch_verifier (c : Condition) : (latch c s).verifier = s.verifier := rfl
@[simp] theorem latch_tapes (c : Condition) : (latch c s).tapes = s.tapes := rfl
@[simp] theorem latch_ribbons (c : Condition) : (latch c s).ribbons = s.ribbons := rfl
@[simp] theorem latch_lines (c : Condition) : (latch c s).lines = s.lines := rfl
@[simp] theorem latch_terminals (c : Condition) : (latch c s).terminals = s.terminals := rfl
@[simp] theorem latch_pending (c : Condition) : (latch c s).pending = s.pending := rfl

@[simp] theorem removeHead_time : (removeHead s).time = s.time := rfl
@[simp] theorem removeHead_por : (removeHead s).por = s.por := rfl
@[simp] theorem removeHead_phase : (removeHead s).phase = s.phase := rfl
@[simp] theorem removeHead_records : (removeHead s).records = s.records := rfl
@[simp] theorem removeHead_directory : (removeHead s).directory = s.directory := rfl
@[simp] theorem removeHead_feed : (removeHead s).feed = { s.feed with inbound := s.feed.inbound.tail } := rfl
@[simp] theorem removeHead_params : (removeHead s).params = s.params := rfl
@[simp] theorem removeHead_entries : (removeHead s).entries = s.entries := rfl
@[simp] theorem removeHead_pages : (removeHead s).pages = s.pages := rfl
@[simp] theorem removeHead_panels : (removeHead s).panels = s.panels := rfl
@[simp] theorem removeHead_boards : (removeHead s).boards = s.boards := rfl
@[simp] theorem removeHead_rails : (removeHead s).rails = s.rails := rfl
@[simp] theorem removeHead_verifier : (removeHead s).verifier = s.verifier := rfl
@[simp] theorem removeHead_tapes : (removeHead s).tapes = s.tapes := rfl
@[simp] theorem removeHead_ribbons : (removeHead s).ribbons = s.ribbons := rfl
@[simp] theorem removeHead_lines : (removeHead s).lines = s.lines := rfl
@[simp] theorem removeHead_terminals : (removeHead s).terminals = s.terminals := rfl
@[simp] theorem removeHead_pending : (removeHead s).pending = s.pending := rfl

@[simp] theorem placeReply_time (k g : Byte) (a : Answer) : (placeReply k g a s).time = s.time := rfl
@[simp] theorem placeReply_por (k g : Byte) (a : Answer) : (placeReply k g a s).por = s.por := rfl
@[simp] theorem placeReply_phase (k g : Byte) (a : Answer) : (placeReply k g a s).phase = s.phase := rfl
@[simp] theorem placeReply_records (k g : Byte) (a : Answer) : (placeReply k g a s).records = s.records := rfl
@[simp] theorem placeReply_directory (k g : Byte) (a : Answer) : (placeReply k g a s).directory = s.directory := rfl
@[simp] theorem placeReply_feed (k g : Byte) (a : Answer) : (placeReply k g a s).feed = { s.feed with replies := s.feed.replies ++ [⟨k, g, a.status, a.body⟩] } := rfl
@[simp] theorem placeReply_params (k g : Byte) (a : Answer) : (placeReply k g a s).params = s.params := rfl
@[simp] theorem placeReply_entries (k g : Byte) (a : Answer) : (placeReply k g a s).entries = s.entries := rfl
@[simp] theorem placeReply_pages (k g : Byte) (a : Answer) : (placeReply k g a s).pages = s.pages := rfl
@[simp] theorem placeReply_panels (k g : Byte) (a : Answer) : (placeReply k g a s).panels = s.panels := rfl
@[simp] theorem placeReply_boards (k g : Byte) (a : Answer) : (placeReply k g a s).boards = s.boards := rfl
@[simp] theorem placeReply_rails (k g : Byte) (a : Answer) : (placeReply k g a s).rails = s.rails := rfl
@[simp] theorem placeReply_verifier (k g : Byte) (a : Answer) : (placeReply k g a s).verifier = s.verifier := rfl
@[simp] theorem placeReply_tapes (k g : Byte) (a : Answer) : (placeReply k g a s).tapes = s.tapes := rfl
@[simp] theorem placeReply_ribbons (k g : Byte) (a : Answer) : (placeReply k g a s).ribbons = s.ribbons := rfl
@[simp] theorem placeReply_lines (k g : Byte) (a : Answer) : (placeReply k g a s).lines = s.lines := rfl
@[simp] theorem placeReply_terminals (k g : Byte) (a : Answer) : (placeReply k g a s).terminals = s.terminals := rfl
@[simp] theorem placeReply_pending (k g : Byte) (a : Answer) : (placeReply k g a s).pending = s.pending := rfl

@[simp] theorem mark_time (ps : List PosIx) : (mark ps s).time = s.time := rfl
@[simp] theorem mark_por (ps : List PosIx) : (mark ps s).por = s.por := rfl
@[simp] theorem mark_phase (ps : List PosIx) : (mark ps s).phase = s.phase := rfl
@[simp] theorem mark_records (ps : List PosIx) : (mark ps s).records = s.records := rfl
@[simp] theorem mark_directory (ps : List PosIx) : (mark ps s).directory = s.directory := rfl
@[simp] theorem mark_feed (ps : List PosIx) : (mark ps s).feed = s.feed := rfl
@[simp] theorem mark_params (ps : List PosIx) : (mark ps s).params = s.params := rfl
@[simp] theorem mark_entries (ps : List PosIx) : (mark ps s).entries = s.entries := rfl
@[simp] theorem mark_pages (ps : List PosIx) : (mark ps s).pages = s.pages := rfl
@[simp] theorem mark_panels (ps : List PosIx) : (mark ps s).panels = s.panels := rfl
@[simp] theorem mark_boards (ps : List PosIx) : (mark ps s).boards = { s.boards with
      repaint := appendMarks (fun p => panelLive s (panelOf p)) s.boards.repaint ps } := rfl
@[simp] theorem mark_rails (ps : List PosIx) : (mark ps s).rails = s.rails := rfl
@[simp] theorem mark_verifier (ps : List PosIx) : (mark ps s).verifier = { s.verifier with overtaken := s.verifier.overtaken || marksOvertake s ps } := rfl
@[simp] theorem mark_tapes (ps : List PosIx) : (mark ps s).tapes = s.tapes := rfl
@[simp] theorem mark_ribbons (ps : List PosIx) : (mark ps s).ribbons = s.ribbons := rfl
@[simp] theorem mark_lines (ps : List PosIx) : (mark ps s).lines = s.lines := rfl
@[simp] theorem mark_terminals (ps : List PosIx) : (mark ps s).terminals = s.terminals := rfl
@[simp] theorem mark_pending (ps : List PosIx) : (mark ps s).pending = s.pending := rfl

@[simp] theorem onPositions_time (f : PosIx → Position → Position) : (onPositions f s).time = s.time := rfl
@[simp] theorem onPositions_por (f : PosIx → Position → Position) : (onPositions f s).por = s.por := rfl
@[simp] theorem onPositions_phase (f : PosIx → Position → Position) : (onPositions f s).phase = s.phase := rfl
@[simp] theorem onPositions_records (f : PosIx → Position → Position) : (onPositions f s).records = s.records := rfl
@[simp] theorem onPositions_directory (f : PosIx → Position → Position) : (onPositions f s).directory = s.directory := rfl
@[simp] theorem onPositions_feed (f : PosIx → Position → Position) : (onPositions f s).feed = s.feed := rfl
@[simp] theorem onPositions_params (f : PosIx → Position → Position) : (onPositions f s).params = s.params := rfl
@[simp] theorem onPositions_entries (f : PosIx → Position → Position) : (onPositions f s).entries = s.entries := rfl
@[simp] theorem onPositions_pages (f : PosIx → Position → Position) : (onPositions f s).pages = s.pages := rfl
@[simp] theorem onPositions_panels (f : PosIx → Position → Position) : (onPositions f s).panels = s.panels := rfl
@[simp] theorem onPositions_boards (f : PosIx → Position → Position) : (onPositions f s).boards = { s.boards with positions := Vec.mapIx f s.boards.positions } := rfl
@[simp] theorem onPositions_rails (f : PosIx → Position → Position) : (onPositions f s).rails = s.rails := rfl
@[simp] theorem onPositions_verifier (f : PosIx → Position → Position) : (onPositions f s).verifier = s.verifier := rfl
@[simp] theorem onPositions_tapes (f : PosIx → Position → Position) : (onPositions f s).tapes = s.tapes := rfl
@[simp] theorem onPositions_ribbons (f : PosIx → Position → Position) : (onPositions f s).ribbons = s.ribbons := rfl
@[simp] theorem onPositions_lines (f : PosIx → Position → Position) : (onPositions f s).lines = s.lines := rfl
@[simp] theorem onPositions_terminals (f : PosIx → Position → Position) : (onPositions f s).terminals = s.terminals := rfl
@[simp] theorem onPositions_pending (f : PosIx → Position → Position) : (onPositions f s).pending = s.pending := rfl

@[simp] theorem setPosition_time (p : PosIx) (f : Position → Position) : (setPosition p f s).time = s.time := rfl
@[simp] theorem setPosition_por (p : PosIx) (f : Position → Position) : (setPosition p f s).por = s.por := rfl
@[simp] theorem setPosition_phase (p : PosIx) (f : Position → Position) : (setPosition p f s).phase = s.phase := rfl
@[simp] theorem setPosition_records (p : PosIx) (f : Position → Position) : (setPosition p f s).records = s.records := rfl
@[simp] theorem setPosition_directory (p : PosIx) (f : Position → Position) : (setPosition p f s).directory = s.directory := rfl
@[simp] theorem setPosition_feed (p : PosIx) (f : Position → Position) : (setPosition p f s).feed = s.feed := rfl
@[simp] theorem setPosition_params (p : PosIx) (f : Position → Position) : (setPosition p f s).params = s.params := rfl
@[simp] theorem setPosition_entries (p : PosIx) (f : Position → Position) : (setPosition p f s).entries = s.entries := rfl
@[simp] theorem setPosition_pages (p : PosIx) (f : Position → Position) : (setPosition p f s).pages = s.pages := rfl
@[simp] theorem setPosition_panels (p : PosIx) (f : Position → Position) : (setPosition p f s).panels = s.panels := rfl
@[simp] theorem setPosition_boards (p : PosIx) (f : Position → Position) : (setPosition p f s).boards = { s.boards with positions := Vec.update s.boards.positions p f } := rfl
@[simp] theorem setPosition_rails (p : PosIx) (f : Position → Position) : (setPosition p f s).rails = s.rails := rfl
@[simp] theorem setPosition_verifier (p : PosIx) (f : Position → Position) : (setPosition p f s).verifier = s.verifier := rfl
@[simp] theorem setPosition_tapes (p : PosIx) (f : Position → Position) : (setPosition p f s).tapes = s.tapes := rfl
@[simp] theorem setPosition_ribbons (p : PosIx) (f : Position → Position) : (setPosition p f s).ribbons = s.ribbons := rfl
@[simp] theorem setPosition_lines (p : PosIx) (f : Position → Position) : (setPosition p f s).lines = s.lines := rfl
@[simp] theorem setPosition_terminals (p : PosIx) (f : Position → Position) : (setPosition p f s).terminals = s.terminals := rfl
@[simp] theorem setPosition_pending (p : PosIx) (f : Position → Position) : (setPosition p f s).pending = s.pending := rfl

@[simp] theorem setTimerStart_time (x : AB) (t : Time) : (setTimerStart x t s).time = s.time := rfl
@[simp] theorem setTimerStart_por (x : AB) (t : Time) : (setTimerStart x t s).por = s.por := rfl
@[simp] theorem setTimerStart_phase (x : AB) (t : Time) : (setTimerStart x t s).phase = s.phase := rfl
@[simp] theorem setTimerStart_records (x : AB) (t : Time) : (setTimerStart x t s).records = s.records := rfl
@[simp] theorem setTimerStart_directory (x : AB) (t : Time) : (setTimerStart x t s).directory = s.directory := rfl
@[simp] theorem setTimerStart_feed (x : AB) (t : Time) : (setTimerStart x t s).feed = s.feed := rfl
@[simp] theorem setTimerStart_params (x : AB) (t : Time) : (setTimerStart x t s).params = s.params := rfl
@[simp] theorem setTimerStart_entries (x : AB) (t : Time) : (setTimerStart x t s).entries = s.entries := rfl
@[simp] theorem setTimerStart_pages (x : AB) (t : Time) : (setTimerStart x t s).pages = s.pages := rfl
@[simp] theorem setTimerStart_panels (x : AB) (t : Time) : (setTimerStart x t s).panels = s.panels := rfl
@[simp] theorem setTimerStart_boards (x : AB) (t : Time) : (setTimerStart x t s).boards = { s.boards with timerStart := s.boards.timerStart.put x t } := rfl
@[simp] theorem setTimerStart_rails (x : AB) (t : Time) : (setTimerStart x t s).rails = s.rails := rfl
@[simp] theorem setTimerStart_verifier (x : AB) (t : Time) : (setTimerStart x t s).verifier = s.verifier := rfl
@[simp] theorem setTimerStart_tapes (x : AB) (t : Time) : (setTimerStart x t s).tapes = s.tapes := rfl
@[simp] theorem setTimerStart_ribbons (x : AB) (t : Time) : (setTimerStart x t s).ribbons = s.ribbons := rfl
@[simp] theorem setTimerStart_lines (x : AB) (t : Time) : (setTimerStart x t s).lines = s.lines := rfl
@[simp] theorem setTimerStart_terminals (x : AB) (t : Time) : (setTimerStart x t s).terminals = s.terminals := rfl
@[simp] theorem setTimerStart_pending (x : AB) (t : Time) : (setTimerStart x t s).pending = s.pending := rfl

@[simp] theorem onTerminals_time (f : Terminal → Terminal) : (onTerminals f s).time = s.time := rfl
@[simp] theorem onTerminals_por (f : Terminal → Terminal) : (onTerminals f s).por = s.por := rfl
@[simp] theorem onTerminals_phase (f : Terminal → Terminal) : (onTerminals f s).phase = s.phase := rfl
@[simp] theorem onTerminals_records (f : Terminal → Terminal) : (onTerminals f s).records = s.records := rfl
@[simp] theorem onTerminals_directory (f : Terminal → Terminal) : (onTerminals f s).directory = s.directory := rfl
@[simp] theorem onTerminals_feed (f : Terminal → Terminal) : (onTerminals f s).feed = s.feed := rfl
@[simp] theorem onTerminals_params (f : Terminal → Terminal) : (onTerminals f s).params = s.params := rfl
@[simp] theorem onTerminals_entries (f : Terminal → Terminal) : (onTerminals f s).entries = s.entries := rfl
@[simp] theorem onTerminals_pages (f : Terminal → Terminal) : (onTerminals f s).pages = s.pages := rfl
@[simp] theorem onTerminals_panels (f : Terminal → Terminal) : (onTerminals f s).panels = s.panels := rfl
@[simp] theorem onTerminals_boards (f : Terminal → Terminal) : (onTerminals f s).boards = s.boards := rfl
@[simp] theorem onTerminals_rails (f : Terminal → Terminal) : (onTerminals f s).rails = s.rails := rfl
@[simp] theorem onTerminals_verifier (f : Terminal → Terminal) : (onTerminals f s).verifier = s.verifier := rfl
@[simp] theorem onTerminals_tapes (f : Terminal → Terminal) : (onTerminals f s).tapes = s.tapes := rfl
@[simp] theorem onTerminals_ribbons (f : Terminal → Terminal) : (onTerminals f s).ribbons = s.ribbons := rfl
@[simp] theorem onTerminals_lines (f : Terminal → Terminal) : (onTerminals f s).lines = s.lines := rfl
@[simp] theorem onTerminals_terminals (f : Terminal → Terminal) : (onTerminals f s).terminals = Vec.mapIx (fun _ t => f t) s.terminals := rfl
@[simp] theorem onTerminals_pending (f : Terminal → Terminal) : (onTerminals f s).pending = s.pending := rfl

@[simp] theorem setTerminal_time (t : TermIx) (f : Terminal → Terminal) : (setTerminal t f s).time = s.time := rfl
@[simp] theorem setTerminal_por (t : TermIx) (f : Terminal → Terminal) : (setTerminal t f s).por = s.por := rfl
@[simp] theorem setTerminal_phase (t : TermIx) (f : Terminal → Terminal) : (setTerminal t f s).phase = s.phase := rfl
@[simp] theorem setTerminal_records (t : TermIx) (f : Terminal → Terminal) : (setTerminal t f s).records = s.records := rfl
@[simp] theorem setTerminal_directory (t : TermIx) (f : Terminal → Terminal) : (setTerminal t f s).directory = s.directory := rfl
@[simp] theorem setTerminal_feed (t : TermIx) (f : Terminal → Terminal) : (setTerminal t f s).feed = s.feed := rfl
@[simp] theorem setTerminal_params (t : TermIx) (f : Terminal → Terminal) : (setTerminal t f s).params = s.params := rfl
@[simp] theorem setTerminal_entries (t : TermIx) (f : Terminal → Terminal) : (setTerminal t f s).entries = s.entries := rfl
@[simp] theorem setTerminal_pages (t : TermIx) (f : Terminal → Terminal) : (setTerminal t f s).pages = s.pages := rfl
@[simp] theorem setTerminal_panels (t : TermIx) (f : Terminal → Terminal) : (setTerminal t f s).panels = s.panels := rfl
@[simp] theorem setTerminal_boards (t : TermIx) (f : Terminal → Terminal) : (setTerminal t f s).boards = s.boards := rfl
@[simp] theorem setTerminal_rails (t : TermIx) (f : Terminal → Terminal) : (setTerminal t f s).rails = s.rails := rfl
@[simp] theorem setTerminal_verifier (t : TermIx) (f : Terminal → Terminal) : (setTerminal t f s).verifier = s.verifier := rfl
@[simp] theorem setTerminal_tapes (t : TermIx) (f : Terminal → Terminal) : (setTerminal t f s).tapes = s.tapes := rfl
@[simp] theorem setTerminal_ribbons (t : TermIx) (f : Terminal → Terminal) : (setTerminal t f s).ribbons = s.ribbons := rfl
@[simp] theorem setTerminal_lines (t : TermIx) (f : Terminal → Terminal) : (setTerminal t f s).lines = s.lines := rfl
@[simp] theorem setTerminal_terminals (t : TermIx) (f : Terminal → Terminal) : (setTerminal t f s).terminals = Vec.update s.terminals t f := rfl
@[simp] theorem setTerminal_pending (t : TermIx) (f : Terminal → Terminal) : (setTerminal t f s).pending = s.pending := rfl

@[simp] theorem setLine_time (l : LineIx) (f : Line → Line) : (setLine l f s).time = s.time := rfl
@[simp] theorem setLine_por (l : LineIx) (f : Line → Line) : (setLine l f s).por = s.por := rfl
@[simp] theorem setLine_phase (l : LineIx) (f : Line → Line) : (setLine l f s).phase = s.phase := rfl
@[simp] theorem setLine_records (l : LineIx) (f : Line → Line) : (setLine l f s).records = s.records := rfl
@[simp] theorem setLine_directory (l : LineIx) (f : Line → Line) : (setLine l f s).directory = s.directory := rfl
@[simp] theorem setLine_feed (l : LineIx) (f : Line → Line) : (setLine l f s).feed = s.feed := rfl
@[simp] theorem setLine_params (l : LineIx) (f : Line → Line) : (setLine l f s).params = s.params := rfl
@[simp] theorem setLine_entries (l : LineIx) (f : Line → Line) : (setLine l f s).entries = s.entries := rfl
@[simp] theorem setLine_pages (l : LineIx) (f : Line → Line) : (setLine l f s).pages = s.pages := rfl
@[simp] theorem setLine_panels (l : LineIx) (f : Line → Line) : (setLine l f s).panels = s.panels := rfl
@[simp] theorem setLine_boards (l : LineIx) (f : Line → Line) : (setLine l f s).boards = s.boards := rfl
@[simp] theorem setLine_rails (l : LineIx) (f : Line → Line) : (setLine l f s).rails = s.rails := rfl
@[simp] theorem setLine_verifier (l : LineIx) (f : Line → Line) : (setLine l f s).verifier = s.verifier := rfl
@[simp] theorem setLine_tapes (l : LineIx) (f : Line → Line) : (setLine l f s).tapes = s.tapes := rfl
@[simp] theorem setLine_ribbons (l : LineIx) (f : Line → Line) : (setLine l f s).ribbons = s.ribbons := rfl
@[simp] theorem setLine_lines (l : LineIx) (f : Line → Line) : (setLine l f s).lines = Vec.update s.lines l f := rfl
@[simp] theorem setLine_terminals (l : LineIx) (f : Line → Line) : (setLine l f s).terminals = s.terminals := rfl
@[simp] theorem setLine_pending (l : LineIx) (f : Line → Line) : (setLine l f s).pending = s.pending := rfl

@[simp] theorem setTape_time (t : AB) (u : TapeUnit) : (setTape t u s).time = s.time := rfl
@[simp] theorem setTape_por (t : AB) (u : TapeUnit) : (setTape t u s).por = s.por := rfl
@[simp] theorem setTape_phase (t : AB) (u : TapeUnit) : (setTape t u s).phase = s.phase := rfl
@[simp] theorem setTape_records (t : AB) (u : TapeUnit) : (setTape t u s).records = s.records := rfl
@[simp] theorem setTape_directory (t : AB) (u : TapeUnit) : (setTape t u s).directory = s.directory := rfl
@[simp] theorem setTape_feed (t : AB) (u : TapeUnit) : (setTape t u s).feed = s.feed := rfl
@[simp] theorem setTape_params (t : AB) (u : TapeUnit) : (setTape t u s).params = s.params := rfl
@[simp] theorem setTape_entries (t : AB) (u : TapeUnit) : (setTape t u s).entries = s.entries := rfl
@[simp] theorem setTape_pages (t : AB) (u : TapeUnit) : (setTape t u s).pages = s.pages := rfl
@[simp] theorem setTape_panels (t : AB) (u : TapeUnit) : (setTape t u s).panels = s.panels := rfl
@[simp] theorem setTape_boards (t : AB) (u : TapeUnit) : (setTape t u s).boards = s.boards := rfl
@[simp] theorem setTape_rails (t : AB) (u : TapeUnit) : (setTape t u s).rails = s.rails := rfl
@[simp] theorem setTape_verifier (t : AB) (u : TapeUnit) : (setTape t u s).verifier = s.verifier := rfl
@[simp] theorem setTape_tapes (t : AB) (u : TapeUnit) : (setTape t u s).tapes = s.tapes.put t u := rfl
@[simp] theorem setTape_ribbons (t : AB) (u : TapeUnit) : (setTape t u s).ribbons = s.ribbons := rfl
@[simp] theorem setTape_lines (t : AB) (u : TapeUnit) : (setTape t u s).lines = s.lines := rfl
@[simp] theorem setTape_terminals (t : AB) (u : TapeUnit) : (setTape t u s).terminals = s.terminals := rfl
@[simp] theorem setTape_pending (t : AB) (u : TapeUnit) : (setTape t u s).pending = s.pending := rfl

@[simp] theorem setRibbon_time (t : AB) (r : Ribbon) : (setRibbon t r s).time = s.time := rfl
@[simp] theorem setRibbon_por (t : AB) (r : Ribbon) : (setRibbon t r s).por = s.por := rfl
@[simp] theorem setRibbon_phase (t : AB) (r : Ribbon) : (setRibbon t r s).phase = s.phase := rfl
@[simp] theorem setRibbon_records (t : AB) (r : Ribbon) : (setRibbon t r s).records = s.records := rfl
@[simp] theorem setRibbon_directory (t : AB) (r : Ribbon) : (setRibbon t r s).directory = s.directory := rfl
@[simp] theorem setRibbon_feed (t : AB) (r : Ribbon) : (setRibbon t r s).feed = s.feed := rfl
@[simp] theorem setRibbon_params (t : AB) (r : Ribbon) : (setRibbon t r s).params = s.params := rfl
@[simp] theorem setRibbon_entries (t : AB) (r : Ribbon) : (setRibbon t r s).entries = s.entries := rfl
@[simp] theorem setRibbon_pages (t : AB) (r : Ribbon) : (setRibbon t r s).pages = s.pages := rfl
@[simp] theorem setRibbon_panels (t : AB) (r : Ribbon) : (setRibbon t r s).panels = s.panels := rfl
@[simp] theorem setRibbon_boards (t : AB) (r : Ribbon) : (setRibbon t r s).boards = s.boards := rfl
@[simp] theorem setRibbon_rails (t : AB) (r : Ribbon) : (setRibbon t r s).rails = s.rails := rfl
@[simp] theorem setRibbon_verifier (t : AB) (r : Ribbon) : (setRibbon t r s).verifier = s.verifier := rfl
@[simp] theorem setRibbon_tapes (t : AB) (r : Ribbon) : (setRibbon t r s).tapes = s.tapes := rfl
@[simp] theorem setRibbon_ribbons (t : AB) (r : Ribbon) : (setRibbon t r s).ribbons = s.ribbons.put t r := rfl
@[simp] theorem setRibbon_lines (t : AB) (r : Ribbon) : (setRibbon t r s).lines = s.lines := rfl
@[simp] theorem setRibbon_terminals (t : AB) (r : Ribbon) : (setRibbon t r s).terminals = s.terminals := rfl
@[simp] theorem setRibbon_pending (t : AB) (r : Ribbon) : (setRibbon t r s).pending = s.pending := rfl

@[simp] theorem setPanel_time (i : PanelIx) (f : Panel → Panel) : (setPanel i f s).time = s.time := rfl
@[simp] theorem setPanel_por (i : PanelIx) (f : Panel → Panel) : (setPanel i f s).por = s.por := rfl
@[simp] theorem setPanel_phase (i : PanelIx) (f : Panel → Panel) : (setPanel i f s).phase = s.phase := rfl
@[simp] theorem setPanel_records (i : PanelIx) (f : Panel → Panel) : (setPanel i f s).records = s.records := rfl
@[simp] theorem setPanel_directory (i : PanelIx) (f : Panel → Panel) : (setPanel i f s).directory = s.directory := rfl
@[simp] theorem setPanel_feed (i : PanelIx) (f : Panel → Panel) : (setPanel i f s).feed = s.feed := rfl
@[simp] theorem setPanel_params (i : PanelIx) (f : Panel → Panel) : (setPanel i f s).params = s.params := rfl
@[simp] theorem setPanel_entries (i : PanelIx) (f : Panel → Panel) : (setPanel i f s).entries = s.entries := rfl
@[simp] theorem setPanel_pages (i : PanelIx) (f : Panel → Panel) : (setPanel i f s).pages = s.pages := rfl
@[simp] theorem setPanel_panels (i : PanelIx) (f : Panel → Panel) : (setPanel i f s).panels = Vec.update s.panels i f := rfl
@[simp] theorem setPanel_boards (i : PanelIx) (f : Panel → Panel) : (setPanel i f s).boards = s.boards := rfl
@[simp] theorem setPanel_rails (i : PanelIx) (f : Panel → Panel) : (setPanel i f s).rails = s.rails := rfl
@[simp] theorem setPanel_verifier (i : PanelIx) (f : Panel → Panel) : (setPanel i f s).verifier = s.verifier := rfl
@[simp] theorem setPanel_tapes (i : PanelIx) (f : Panel → Panel) : (setPanel i f s).tapes = s.tapes := rfl
@[simp] theorem setPanel_ribbons (i : PanelIx) (f : Panel → Panel) : (setPanel i f s).ribbons = s.ribbons := rfl
@[simp] theorem setPanel_lines (i : PanelIx) (f : Panel → Panel) : (setPanel i f s).lines = s.lines := rfl
@[simp] theorem setPanel_terminals (i : PanelIx) (f : Panel → Panel) : (setPanel i f s).terminals = s.terminals := rfl
@[simp] theorem setPanel_pending (i : PanelIx) (f : Panel → Panel) : (setPanel i f s).pending = s.pending := rfl

@[simp] theorem setRail_time (i : RailIx) (f : Rail → Rail) : (setRail i f s).time = s.time := rfl
@[simp] theorem setRail_por (i : RailIx) (f : Rail → Rail) : (setRail i f s).por = s.por := rfl
@[simp] theorem setRail_phase (i : RailIx) (f : Rail → Rail) : (setRail i f s).phase = s.phase := rfl
@[simp] theorem setRail_records (i : RailIx) (f : Rail → Rail) : (setRail i f s).records = s.records := rfl
@[simp] theorem setRail_directory (i : RailIx) (f : Rail → Rail) : (setRail i f s).directory = s.directory := rfl
@[simp] theorem setRail_feed (i : RailIx) (f : Rail → Rail) : (setRail i f s).feed = s.feed := rfl
@[simp] theorem setRail_params (i : RailIx) (f : Rail → Rail) : (setRail i f s).params = s.params := rfl
@[simp] theorem setRail_entries (i : RailIx) (f : Rail → Rail) : (setRail i f s).entries = s.entries := rfl
@[simp] theorem setRail_pages (i : RailIx) (f : Rail → Rail) : (setRail i f s).pages = s.pages := rfl
@[simp] theorem setRail_panels (i : RailIx) (f : Rail → Rail) : (setRail i f s).panels = s.panels := rfl
@[simp] theorem setRail_boards (i : RailIx) (f : Rail → Rail) : (setRail i f s).boards = s.boards := rfl
@[simp] theorem setRail_rails (i : RailIx) (f : Rail → Rail) : (setRail i f s).rails = Vec.update s.rails i f := rfl
@[simp] theorem setRail_verifier (i : RailIx) (f : Rail → Rail) : (setRail i f s).verifier = s.verifier := rfl
@[simp] theorem setRail_tapes (i : RailIx) (f : Rail → Rail) : (setRail i f s).tapes = s.tapes := rfl
@[simp] theorem setRail_ribbons (i : RailIx) (f : Rail → Rail) : (setRail i f s).ribbons = s.ribbons := rfl
@[simp] theorem setRail_lines (i : RailIx) (f : Rail → Rail) : (setRail i f s).lines = s.lines := rfl
@[simp] theorem setRail_terminals (i : RailIx) (f : Rail → Rail) : (setRail i f s).terminals = s.terminals := rfl
@[simp] theorem setRail_pending (i : RailIx) (f : Rail → Rail) : (setRail i f s).pending = s.pending := rfl

@[simp] theorem beginGap_time : (beginGap s).time = s.time := rfl
@[simp] theorem beginGap_por : (beginGap s).por = s.por := rfl
@[simp] theorem beginGap_phase : (beginGap s).phase = s.phase := rfl
@[simp] theorem beginGap_records : (beginGap s).records = s.records := rfl
@[simp] theorem beginGap_directory : (beginGap s).directory = s.directory := rfl
@[simp] theorem beginGap_feed : (beginGap s).feed = s.feed := rfl
@[simp] theorem beginGap_params : (beginGap s).params = s.params := rfl
@[simp] theorem beginGap_entries : (beginGap s).entries = s.entries := rfl
@[simp] theorem beginGap_pages : (beginGap s).pages = s.pages := rfl
@[simp] theorem beginGap_panels : (beginGap s).panels = s.panels := rfl
@[simp] theorem beginGap_boards : (beginGap s).boards = s.boards := rfl
@[simp] theorem beginGap_rails : (beginGap s).rails = s.rails := rfl
@[simp] theorem beginGap_verifier : (beginGap s).verifier = { s.verifier with
      phase := if s.params.verifyGap = 0 then .ready else .waiting s.time s.params.verifyGap } := rfl
@[simp] theorem beginGap_tapes : (beginGap s).tapes = s.tapes := rfl
@[simp] theorem beginGap_ribbons : (beginGap s).ribbons = s.ribbons := rfl
@[simp] theorem beginGap_lines : (beginGap s).lines = s.lines := rfl
@[simp] theorem beginGap_terminals : (beginGap s).terminals = s.terminals := rfl
@[simp] theorem beginGap_pending : (beginGap s).pending = s.pending := rfl

@[simp] theorem setReceiver_time (r : Receiver) : (setReceiver r s).time = s.time := rfl
@[simp] theorem setReceiver_por (r : Receiver) : (setReceiver r s).por = s.por := rfl
@[simp] theorem setReceiver_phase (r : Receiver) : (setReceiver r s).phase = s.phase := rfl
@[simp] theorem setReceiver_records (r : Receiver) : (setReceiver r s).records = s.records := rfl
@[simp] theorem setReceiver_directory (r : Receiver) : (setReceiver r s).directory = s.directory := rfl
@[simp] theorem setReceiver_feed (r : Receiver) : (setReceiver r s).feed = { s.feed with receiver := r } := rfl
@[simp] theorem setReceiver_params (r : Receiver) : (setReceiver r s).params = s.params := rfl
@[simp] theorem setReceiver_entries (r : Receiver) : (setReceiver r s).entries = s.entries := rfl
@[simp] theorem setReceiver_pages (r : Receiver) : (setReceiver r s).pages = s.pages := rfl
@[simp] theorem setReceiver_panels (r : Receiver) : (setReceiver r s).panels = s.panels := rfl
@[simp] theorem setReceiver_boards (r : Receiver) : (setReceiver r s).boards = s.boards := rfl
@[simp] theorem setReceiver_rails (r : Receiver) : (setReceiver r s).rails = s.rails := rfl
@[simp] theorem setReceiver_verifier (r : Receiver) : (setReceiver r s).verifier = s.verifier := rfl
@[simp] theorem setReceiver_tapes (r : Receiver) : (setReceiver r s).tapes = s.tapes := rfl
@[simp] theorem setReceiver_ribbons (r : Receiver) : (setReceiver r s).ribbons = s.ribbons := rfl
@[simp] theorem setReceiver_lines (r : Receiver) : (setReceiver r s).lines = s.lines := rfl
@[simp] theorem setReceiver_terminals (r : Receiver) : (setReceiver r s).terminals = s.terminals := rfl
@[simp] theorem setReceiver_pending (r : Receiver) : (setReceiver r s).pending = s.pending := rfl

@[simp] theorem reshow_time (g : PanelIx → Bool) : (reshow g s).time = s.time := rfl
@[simp] theorem reshow_por (g : PanelIx → Bool) : (reshow g s).por = s.por := rfl
@[simp] theorem reshow_phase (g : PanelIx → Bool) : (reshow g s).phase = s.phase := rfl
@[simp] theorem reshow_records (g : PanelIx → Bool) : (reshow g s).records = s.records := rfl
@[simp] theorem reshow_directory (g : PanelIx → Bool) : (reshow g s).directory = s.directory := rfl
@[simp] theorem reshow_feed (g : PanelIx → Bool) : (reshow g s).feed = s.feed := rfl
@[simp] theorem reshow_params (g : PanelIx → Bool) : (reshow g s).params = s.params := rfl
@[simp] theorem reshow_entries (g : PanelIx → Bool) : (reshow g s).entries = s.entries := rfl
@[simp] theorem reshow_pages (g : PanelIx → Bool) : (reshow g s).pages = s.pages := rfl
@[simp] theorem reshow_panels (g : PanelIx → Bool) : (reshow g s).panels = s.panels := rfl
@[simp] theorem reshow_boards (g : PanelIx → Bool) : (reshow g s).boards = { s.boards with
      positions := Vec.mapIx (fun p pos =>
        if g (panelOf p) then { pos with shown := shownBy s p, switchPending := true, flash := 0 } else pos)
        s.boards.positions } := rfl
@[simp] theorem reshow_rails (g : PanelIx → Bool) : (reshow g s).rails = s.rails := rfl
@[simp] theorem reshow_verifier (g : PanelIx → Bool) : (reshow g s).verifier = s.verifier := rfl
@[simp] theorem reshow_tapes (g : PanelIx → Bool) : (reshow g s).tapes = s.tapes := rfl
@[simp] theorem reshow_ribbons (g : PanelIx → Bool) : (reshow g s).ribbons = s.ribbons := rfl
@[simp] theorem reshow_lines (g : PanelIx → Bool) : (reshow g s).lines = s.lines := rfl
@[simp] theorem reshow_terminals (g : PanelIx → Bool) : (reshow g s).terminals = s.terminals := rfl
@[simp] theorem reshow_pending (g : PanelIx → Bool) : (reshow g s).pending = s.pending := rfl

end Sys2Proof.Machine
end

