-- ==== Sys2Proof/Laws/Frames.lean ====
section
/-! SUPPORT. What the operations that several commands share leave alone: for each of them one lemma for each field of
the state that it does not change. -/

namespace Sys2Proof.Machine

/-- What every turn of a loop leaves alone, the loop leaves alone. -/
theorem foldl_same {α β γ : Type} (g : β → γ) {f : β → α → β} (h : ∀ b a, g (f b a) = g b) :
    ∀ (l : List α) (b : β), g (l.foldl f b) = g b
  | [], _ => rfl
  | a :: rest, b => (foldl_same g h rest (f b a)).trans (h b a)

/-- What every turn of a loop keeps, the loop keeps. -/
theorem foldl_keeps {α β : Type} {P : β → Prop} {f : β → α → β} (h : ∀ b a, P b → P (f b a)) :
    ∀ (l : List α) (b : β), P b → P (l.foldl f b)
  | [], _, hb => hb
  | a :: rest, b, hb => foldl_keeps h rest (f b a) (h b a hb)

variable (s : State)

@[simp] theorem startFlash_time (i : SlotIx) : (startFlash i s).time = s.time := rfl
@[simp] theorem startFlash_por (i : SlotIx) : (startFlash i s).por = s.por := rfl
@[simp] theorem startFlash_phase (i : SlotIx) : (startFlash i s).phase = s.phase := rfl
@[simp] theorem startFlash_records (i : SlotIx) : (startFlash i s).records = s.records := rfl
@[simp] theorem startFlash_directory (i : SlotIx) : (startFlash i s).directory = s.directory := rfl
@[simp] theorem startFlash_feed (i : SlotIx) : (startFlash i s).feed = s.feed := rfl
@[simp] theorem startFlash_params (i : SlotIx) : (startFlash i s).params = s.params := rfl
@[simp] theorem startFlash_entries (i : SlotIx) : (startFlash i s).entries = s.entries := rfl
@[simp] theorem startFlash_pages (i : SlotIx) : (startFlash i s).pages = s.pages := rfl
@[simp] theorem startFlash_panels (i : SlotIx) : (startFlash i s).panels = s.panels := rfl
@[simp] theorem startFlash_rails (i : SlotIx) : (startFlash i s).rails = s.rails := rfl
@[simp] theorem startFlash_verifier (i : SlotIx) : (startFlash i s).verifier = s.verifier := rfl
@[simp] theorem startFlash_tapes (i : SlotIx) : (startFlash i s).tapes = s.tapes := rfl
@[simp] theorem startFlash_ribbons (i : SlotIx) : (startFlash i s).ribbons = s.ribbons := rfl
@[simp] theorem startFlash_lines (i : SlotIx) : (startFlash i s).lines = s.lines := rfl
@[simp] theorem startFlash_terminals (i : SlotIx) : (startFlash i s).terminals = s.terminals := rfl
@[simp] theorem startFlash_pending (i : SlotIx) : (startFlash i s).pending = s.pending := rfl

@[simp] theorem boardNotice_time (i : SlotIx) (g : List Group) (m : Bool) : (boardNotice i g m s).time = s.time :=
  by cases m <;> rfl
@[simp] theorem boardNotice_por (i : SlotIx) (g : List Group) (m : Bool) : (boardNotice i g m s).por = s.por :=
  by cases m <;> rfl
@[simp] theorem boardNotice_phase (i : SlotIx) (g : List Group) (m : Bool) : (boardNotice i g m s).phase = s.phase :=
  by cases m <;> rfl
@[simp] theorem boardNotice_records (i : SlotIx) (g : List Group) (m : Bool) : (boardNotice i g m s).records = s.records :=
  by cases m <;> rfl
@[simp] theorem boardNotice_directory (i : SlotIx) (g : List Group) (m : Bool) : (boardNotice i g m s).directory = s.directory :=
  by cases m <;> rfl
@[simp] theorem boardNotice_feed (i : SlotIx) (g : List Group) (m : Bool) : (boardNotice i g m s).feed = s.feed :=
  by cases m <;> rfl
@[simp] theorem boardNotice_params (i : SlotIx) (g : List Group) (m : Bool) : (boardNotice i g m s).params = s.params :=
  by cases m <;> rfl
@[simp] theorem boardNotice_entries (i : SlotIx) (g : List Group) (m : Bool) : (boardNotice i g m s).entries = s.entries :=
  by cases m <;> rfl
@[simp] theorem boardNotice_pages (i : SlotIx) (g : List Group) (m : Bool) : (boardNotice i g m s).pages = s.pages :=
  by cases m <;> rfl
@[simp] theorem boardNotice_panels (i : SlotIx) (g : List Group) (m : Bool) : (boardNotice i g m s).panels = s.panels :=
  by cases m <;> rfl
@[simp] theorem boardNotice_rails (i : SlotIx) (g : List Group) (m : Bool) : (boardNotice i g m s).rails = s.rails :=
  by cases m <;> rfl
@[simp] theorem boardNotice_tapes (i : SlotIx) (g : List Group) (m : Bool) : (boardNotice i g m s).tapes = s.tapes :=
  by cases m <;> rfl
@[simp] theorem boardNotice_ribbons (i : SlotIx) (g : List Group) (m : Bool) : (boardNotice i g m s).ribbons = s.ribbons :=
  by cases m <;> rfl
@[simp] theorem boardNotice_lines (i : SlotIx) (g : List Group) (m : Bool) : (boardNotice i g m s).lines = s.lines :=
  by cases m <;> rfl
@[simp] theorem boardNotice_terminals (i : SlotIx) (g : List Group) (m : Bool) : (boardNotice i g m s).terminals = s.terminals :=
  by cases m <;> rfl
@[simp] theorem boardNotice_pending (i : SlotIx) (g : List Group) (m : Bool) : (boardNotice i g m s).pending = s.pending :=
  by cases m <;> rfl

@[simp] theorem changeNotice_time (i : SlotIx) (g : List Group) (m : Bool) : (changeNotice i g m s).time = s.time :=
  by cases m <;> rfl
@[simp] theorem changeNotice_por (i : SlotIx) (g : List Group) (m : Bool) : (changeNotice i g m s).por = s.por :=
  by cases m <;> rfl
@[simp] theorem changeNotice_phase (i : SlotIx) (g : List Group) (m : Bool) : (changeNotice i g m s).phase = s.phase :=
  by cases m <;> rfl
@[simp] theorem changeNotice_records (i : SlotIx) (g : List Group) (m : Bool) : (changeNotice i g m s).records = s.records :=
  by cases m <;> rfl
@[simp] theorem changeNotice_directory (i : SlotIx) (g : List Group) (m : Bool) : (changeNotice i g m s).directory = s.directory :=
  by cases m <;> rfl
@[simp] theorem changeNotice_feed (i : SlotIx) (g : List Group) (m : Bool) : (changeNotice i g m s).feed = s.feed :=
  by cases m <;> rfl
@[simp] theorem changeNotice_params (i : SlotIx) (g : List Group) (m : Bool) : (changeNotice i g m s).params = s.params :=
  by cases m <;> rfl
@[simp] theorem changeNotice_entries (i : SlotIx) (g : List Group) (m : Bool) : (changeNotice i g m s).entries = s.entries :=
  by cases m <;> rfl
@[simp] theorem changeNotice_pages (i : SlotIx) (g : List Group) (m : Bool) : (changeNotice i g m s).pages = s.pages :=
  by cases m <;> rfl
@[simp] theorem changeNotice_panels (i : SlotIx) (g : List Group) (m : Bool) : (changeNotice i g m s).panels = s.panels :=
  by cases m <;> rfl
@[simp] theorem changeNotice_rails (i : SlotIx) (g : List Group) (m : Bool) : (changeNotice i g m s).rails = s.rails :=
  by cases m <;> rfl
@[simp] theorem changeNotice_tapes (i : SlotIx) (g : List Group) (m : Bool) : (changeNotice i g m s).tapes = s.tapes :=
  by cases m <;> rfl
@[simp] theorem changeNotice_ribbons (i : SlotIx) (g : List Group) (m : Bool) : (changeNotice i g m s).ribbons = s.ribbons :=
  by cases m <;> rfl
@[simp] theorem changeNotice_lines (i : SlotIx) (g : List Group) (m : Bool) : (changeNotice i g m s).lines = s.lines :=
  by cases m <;> rfl
@[simp] theorem changeNotice_pending (i : SlotIx) (g : List Group) (m : Bool) : (changeNotice i g m s).pending = s.pending :=
  by cases m <;> rfl

@[simp] theorem changeNotices_time (is : List SlotIx) (g : List Group) : (changeNotices is g s).time = s.time :=
  foldl_same State.time (fun s i => changeNotice_time s i g false) is s
@[simp] theorem changeNotices_por (is : List SlotIx) (g : List Group) : (changeNotices is g s).por = s.por :=
  foldl_same State.por (fun s i => changeNotice_por s i g false) is s
@[simp] theorem changeNotices_phase (is : List SlotIx) (g : List Group) : (changeNotices is g s).phase = s.phase :=
  foldl_same State.phase (fun s i => changeNotice_phase s i g false) is s
@[simp] theorem changeNotices_records (is : List SlotIx) (g : List Group) : (changeNotices is g s).records = s.records :=
  foldl_same State.records (fun s i => changeNotice_records s i g false) is s
@[simp] theorem changeNotices_directory (is : List SlotIx) (g : List Group) : (changeNotices is g s).directory = s.directory :=
  foldl_same State.directory (fun s i => changeNotice_directory s i g false) is s
@[simp] theorem changeNotices_feed (is : List SlotIx) (g : List Group) : (changeNotices is g s).feed = s.feed :=
  foldl_same State.feed (fun s i => changeNotice_feed s i g false) is s
@[simp] theorem changeNotices_params (is : List SlotIx) (g : List Group) : (changeNotices is g s).params = s.params :=
  foldl_same State.params (fun s i => changeNotice_params s i g false) is s
@[simp] theorem changeNotices_entries (is : List SlotIx) (g : List Group) : (changeNotices is g s).entries = s.entries :=
  foldl_same State.entries (fun s i => changeNotice_entries s i g false) is s
@[simp] theorem changeNotices_pages (is : List SlotIx) (g : List Group) : (changeNotices is g s).pages = s.pages :=
  foldl_same State.pages (fun s i => changeNotice_pages s i g false) is s
@[simp] theorem changeNotices_panels (is : List SlotIx) (g : List Group) : (changeNotices is g s).panels = s.panels :=
  foldl_same State.panels (fun s i => changeNotice_panels s i g false) is s
@[simp] theorem changeNotices_rails (is : List SlotIx) (g : List Group) : (changeNotices is g s).rails = s.rails :=
  foldl_same State.rails (fun s i => changeNotice_rails s i g false) is s
@[simp] theorem changeNotices_tapes (is : List SlotIx) (g : List Group) : (changeNotices is g s).tapes = s.tapes :=
  foldl_same State.tapes (fun s i => changeNotice_tapes s i g false) is s
@[simp] theorem changeNotices_ribbons (is : List SlotIx) (g : List Group) : (changeNotices is g s).ribbons = s.ribbons :=
  foldl_same State.ribbons (fun s i => changeNotice_ribbons s i g false) is s
@[simp] theorem changeNotices_lines (is : List SlotIx) (g : List Group) : (changeNotices is g s).lines = s.lines :=
  foldl_same State.lines (fun s i => changeNotice_lines s i g false) is s
@[simp] theorem changeNotices_pending (is : List SlotIx) (g : List Group) : (changeNotices is g s).pending = s.pending :=
  foldl_same State.pending (fun s i => changeNotice_pending s i g false) is s

@[simp] theorem reportGone_time (i : SlotIx) : (reportGone i s).time = s.time :=
  by unfold reportGone; split <;> [rfl; (split <;> rfl)]
@[simp] theorem reportGone_por (i : SlotIx) : (reportGone i s).por = s.por :=
  by unfold reportGone; split <;> [rfl; (split <;> rfl)]
@[simp] theorem reportGone_phase (i : SlotIx) : (reportGone i s).phase = s.phase :=
  by unfold reportGone; split <;> [rfl; (split <;> rfl)]
@[simp] theorem reportGone_feed (i : SlotIx) : (reportGone i s).feed = s.feed :=
  by unfold reportGone; split <;> [rfl; (split <;> rfl)]
@[simp] theorem reportGone_params (i : SlotIx) : (reportGone i s).params = s.params :=
  by unfold reportGone; split <;> [rfl; (split <;> rfl)]
@[simp] theorem reportGone_entries (i : SlotIx) : (reportGone i s).entries = s.entries :=
  by unfold reportGone; split <;> [rfl; (split <;> rfl)]
@[simp] theorem reportGone_pages (i : SlotIx) : (reportGone i s).pages = s.pages :=
  by unfold reportGone; split <;> [rfl; (split <;> rfl)]
@[simp] theorem reportGone_panels (i : SlotIx) : (reportGone i s).panels = s.panels :=
  by unfold reportGone; split <;> [rfl; (split <;> rfl)]
@[simp] theorem reportGone_boards (i : SlotIx) : (reportGone i s).boards = s.boards :=
  by unfold reportGone; split <;> [rfl; (split <;> rfl)]
@[simp] theorem reportGone_rails (i : SlotIx) : (reportGone i s).rails = s.rails :=
  by unfold reportGone; split <;> [rfl; (split <;> rfl)]
@[simp] theorem reportGone_verifier (i : SlotIx) : (reportGone i s).verifier = s.verifier :=
  by unfold reportGone; split <;> [rfl; (split <;> rfl)]
@[simp] theorem reportGone_tapes (i : SlotIx) : (reportGone i s).tapes = s.tapes :=
  by unfold reportGone; split <;> [rfl; (split <;> rfl)]
@[simp] theorem reportGone_ribbons (i : SlotIx) : (reportGone i s).ribbons = s.ribbons :=
  by unfold reportGone; split <;> [rfl; (split <;> rfl)]
@[simp] theorem reportGone_lines (i : SlotIx) : (reportGone i s).lines = s.lines :=
  by unfold reportGone; split <;> [rfl; (split <;> rfl)]
@[simp] theorem reportGone_terminals (i : SlotIx) : (reportGone i s).terminals = s.terminals :=
  by unfold reportGone; split <;> [rfl; (split <;> rfl)]
@[simp] theorem reportGone_pending (i : SlotIx) : (reportGone i s).pending = s.pending :=
  by unfold reportGone; split <;> [rfl; (split <;> rfl)]

@[simp] theorem tradeNotice_time (i : SlotIx) (r : Record) (n : Nat) : (tradeNotice i r n s).time = s.time :=
  by unfold tradeNotice; split <;> rfl
@[simp] theorem tradeNotice_por (i : SlotIx) (r : Record) (n : Nat) : (tradeNotice i r n s).por = s.por :=
  by unfold tradeNotice; split <;> rfl
@[simp] theorem tradeNotice_phase (i : SlotIx) (r : Record) (n : Nat) : (tradeNotice i r n s).phase = s.phase :=
  by unfold tradeNotice; split <;> rfl
@[simp] theorem tradeNotice_directory (i : SlotIx) (r : Record) (n : Nat) : (tradeNotice i r n s).directory = s.directory :=
  by unfold tradeNotice; split <;> rfl
@[simp] theorem tradeNotice_feed (i : SlotIx) (r : Record) (n : Nat) : (tradeNotice i r n s).feed = s.feed :=
  by unfold tradeNotice; split <;> rfl
@[simp] theorem tradeNotice_params (i : SlotIx) (r : Record) (n : Nat) : (tradeNotice i r n s).params = s.params :=
  by unfold tradeNotice; split <;> rfl
@[simp] theorem tradeNotice_entries (i : SlotIx) (r : Record) (n : Nat) : (tradeNotice i r n s).entries = s.entries :=
  by unfold tradeNotice; split <;> rfl
@[simp] theorem tradeNotice_pages (i : SlotIx) (r : Record) (n : Nat) : (tradeNotice i r n s).pages = s.pages :=
  by unfold tradeNotice; split <;> rfl
@[simp] theorem tradeNotice_panels (i : SlotIx) (r : Record) (n : Nat) : (tradeNotice i r n s).panels = s.panels :=
  by unfold tradeNotice; split <;> rfl
@[simp] theorem tradeNotice_boards (i : SlotIx) (r : Record) (n : Nat) : (tradeNotice i r n s).boards = s.boards :=
  by unfold tradeNotice; split <;> rfl
@[simp] theorem tradeNotice_rails (i : SlotIx) (r : Record) (n : Nat) : (tradeNotice i r n s).rails = s.rails :=
  by unfold tradeNotice; split <;> rfl
@[simp] theorem tradeNotice_verifier (i : SlotIx) (r : Record) (n : Nat) : (tradeNotice i r n s).verifier = s.verifier :=
  by unfold tradeNotice; split <;> rfl
@[simp] theorem tradeNotice_ribbons (i : SlotIx) (r : Record) (n : Nat) : (tradeNotice i r n s).ribbons = s.ribbons :=
  by unfold tradeNotice; split <;> rfl
@[simp] theorem tradeNotice_lines (i : SlotIx) (r : Record) (n : Nat) : (tradeNotice i r n s).lines = s.lines :=
  by unfold tradeNotice; split <;> rfl
@[simp] theorem tradeNotice_terminals (i : SlotIx) (r : Record) (n : Nat) : (tradeNotice i r n s).terminals = s.terminals :=
  by unfold tradeNotice; split <;> rfl
@[simp] theorem tradeNotice_pending (i : SlotIx) (r : Record) (n : Nat) : (tradeNotice i r n s).pending = s.pending :=
  by unfold tradeNotice; split <;> rfl

@[simp] theorem withdraw_time (t : AB) (i : SlotIx) : (withdraw t i s).time = s.time := by unfold withdraw; simp
@[simp] theorem withdraw_por (t : AB) (i : SlotIx) : (withdraw t i s).por = s.por := by unfold withdraw; simp
@[simp] theorem withdraw_phase (t : AB) (i : SlotIx) : (withdraw t i s).phase = s.phase := by unfold withdraw; simp
@[simp] theorem withdraw_feed (t : AB) (i : SlotIx) : (withdraw t i s).feed = s.feed := by unfold withdraw; simp
@[simp] theorem withdraw_params (t : AB) (i : SlotIx) : (withdraw t i s).params = s.params := by unfold withdraw; simp
@[simp] theorem withdraw_entries (t : AB) (i : SlotIx) : (withdraw t i s).entries = s.entries := by unfold withdraw; simp
@[simp] theorem withdraw_pages (t : AB) (i : SlotIx) : (withdraw t i s).pages = s.pages := by unfold withdraw; simp
@[simp] theorem withdraw_panels (t : AB) (i : SlotIx) : (withdraw t i s).panels = s.panels := by unfold withdraw; simp
@[simp] theorem withdraw_boards (t : AB) (i : SlotIx) : (withdraw t i s).boards = s.boards := by unfold withdraw; simp
@[simp] theorem withdraw_rails (t : AB) (i : SlotIx) : (withdraw t i s).rails = s.rails := by unfold withdraw; simp
@[simp] theorem withdraw_verifier (t : AB) (i : SlotIx) : (withdraw t i s).verifier = s.verifier := by unfold withdraw; simp
@[simp] theorem withdraw_ribbons (t : AB) (i : SlotIx) : (withdraw t i s).ribbons = s.ribbons := by unfold withdraw; simp
@[simp] theorem withdraw_lines (t : AB) (i : SlotIx) : (withdraw t i s).lines = s.lines := by unfold withdraw; simp
@[simp] theorem withdraw_terminals (t : AB) (i : SlotIx) : (withdraw t i s).terminals = s.terminals := by unfold withdraw; simp
@[simp] theorem withdraw_pending (t : AB) (i : SlotIx) : (withdraw t i s).pending = s.pending := by unfold withdraw; simp

@[simp] theorem withdrawAll_time (t : AB) : (withdrawAll t s).time = s.time :=
  foldl_same State.time (fun s i => withdraw_time s t i) _ s
@[simp] theorem withdrawAll_por (t : AB) : (withdrawAll t s).por = s.por :=
  foldl_same State.por (fun s i => withdraw_por s t i) _ s
@[simp] theorem withdrawAll_phase (t : AB) : (withdrawAll t s).phase = s.phase :=
  foldl_same State.phase (fun s i => withdraw_phase s t i) _ s
@[simp] theorem withdrawAll_feed (t : AB) : (withdrawAll t s).feed = s.feed :=
  foldl_same State.feed (fun s i => withdraw_feed s t i) _ s
@[simp] theorem withdrawAll_params (t : AB) : (withdrawAll t s).params = s.params :=
  foldl_same State.params (fun s i => withdraw_params s t i) _ s
@[simp] theorem withdrawAll_entries (t : AB) : (withdrawAll t s).entries = s.entries :=
  foldl_same State.entries (fun s i => withdraw_entries s t i) _ s
@[simp] theorem withdrawAll_pages (t : AB) : (withdrawAll t s).pages = s.pages :=
  foldl_same State.pages (fun s i => withdraw_pages s t i) _ s
@[simp] theorem withdrawAll_panels (t : AB) : (withdrawAll t s).panels = s.panels :=
  foldl_same State.panels (fun s i => withdraw_panels s t i) _ s
@[simp] theorem withdrawAll_boards (t : AB) : (withdrawAll t s).boards = s.boards :=
  foldl_same State.boards (fun s i => withdraw_boards s t i) _ s
@[simp] theorem withdrawAll_rails (t : AB) : (withdrawAll t s).rails = s.rails :=
  foldl_same State.rails (fun s i => withdraw_rails s t i) _ s
@[simp] theorem withdrawAll_verifier (t : AB) : (withdrawAll t s).verifier = s.verifier :=
  foldl_same State.verifier (fun s i => withdraw_verifier s t i) _ s
@[simp] theorem withdrawAll_ribbons (t : AB) : (withdrawAll t s).ribbons = s.ribbons :=
  foldl_same State.ribbons (fun s i => withdraw_ribbons s t i) _ s
@[simp] theorem withdrawAll_lines (t : AB) : (withdrawAll t s).lines = s.lines :=
  foldl_same State.lines (fun s i => withdraw_lines s t i) _ s
@[simp] theorem withdrawAll_terminals (t : AB) : (withdrawAll t s).terminals = s.terminals :=
  foldl_same State.terminals (fun s i => withdraw_terminals s t i) _ s
@[simp] theorem withdrawAll_pending (t : AB) : (withdrawAll t s).pending = s.pending :=
  foldl_same State.pending (fun s i => withdraw_pending s t i) _ s

@[simp] theorem bindEntries_time (sym : Symbol) (i : SlotIx) : (bindEntries sym i s).time = s.time := rfl
@[simp] theorem bindEntries_por (sym : Symbol) (i : SlotIx) : (bindEntries sym i s).por = s.por := rfl
@[simp] theorem bindEntries_phase (sym : Symbol) (i : SlotIx) : (bindEntries sym i s).phase = s.phase := rfl
@[simp] theorem bindEntries_records (sym : Symbol) (i : SlotIx) : (bindEntries sym i s).records = s.records := rfl
@[simp] theorem bindEntries_directory (sym : Symbol) (i : SlotIx) : (bindEntries sym i s).directory = s.directory := rfl
@[simp] theorem bindEntries_feed (sym : Symbol) (i : SlotIx) : (bindEntries sym i s).feed = s.feed := rfl
@[simp] theorem bindEntries_params (sym : Symbol) (i : SlotIx) : (bindEntries sym i s).params = s.params := rfl
@[simp] theorem bindEntries_pages (sym : Symbol) (i : SlotIx) : (bindEntries sym i s).pages = s.pages := rfl
@[simp] theorem bindEntries_panels (sym : Symbol) (i : SlotIx) : (bindEntries sym i s).panels = s.panels := rfl
@[simp] theorem bindEntries_boards (sym : Symbol) (i : SlotIx) : (bindEntries sym i s).boards = s.boards := rfl
@[simp] theorem bindEntries_rails (sym : Symbol) (i : SlotIx) : (bindEntries sym i s).rails = s.rails := rfl
@[simp] theorem bindEntries_verifier (sym : Symbol) (i : SlotIx) : (bindEntries sym i s).verifier = s.verifier := rfl
@[simp] theorem bindEntries_tapes (sym : Symbol) (i : SlotIx) : (bindEntries sym i s).tapes = s.tapes := rfl
@[simp] theorem bindEntries_ribbons (sym : Symbol) (i : SlotIx) : (bindEntries sym i s).ribbons = s.ribbons := rfl
@[simp] theorem bindEntries_lines (sym : Symbol) (i : SlotIx) : (bindEntries sym i s).lines = s.lines := rfl
@[simp] theorem bindEntries_terminals (sym : Symbol) (i : SlotIx) : (bindEntries sym i s).terminals = s.terminals := rfl
@[simp] theorem bindEntries_pending (sym : Symbol) (i : SlotIx) : (bindEntries sym i s).pending = s.pending := rfl

@[simp] theorem unbindEntries_time (hit : SlotIx → Bool) : (unbindEntries hit s).time = s.time := rfl
@[simp] theorem unbindEntries_por (hit : SlotIx → Bool) : (unbindEntries hit s).por = s.por := rfl
@[simp] theorem unbindEntries_phase (hit : SlotIx → Bool) : (unbindEntries hit s).phase = s.phase := rfl
@[simp] theorem unbindEntries_records (hit : SlotIx → Bool) : (unbindEntries hit s).records = s.records := rfl
@[simp] theorem unbindEntries_directory (hit : SlotIx → Bool) : (unbindEntries hit s).directory = s.directory := rfl
@[simp] theorem unbindEntries_feed (hit : SlotIx → Bool) : (unbindEntries hit s).feed = s.feed := rfl
@[simp] theorem unbindEntries_params (hit : SlotIx → Bool) : (unbindEntries hit s).params = s.params := rfl
@[simp] theorem unbindEntries_pages (hit : SlotIx → Bool) : (unbindEntries hit s).pages = s.pages := rfl
@[simp] theorem unbindEntries_panels (hit : SlotIx → Bool) : (unbindEntries hit s).panels = s.panels := rfl
@[simp] theorem unbindEntries_rails (hit : SlotIx → Bool) : (unbindEntries hit s).rails = s.rails := rfl
@[simp] theorem unbindEntries_tapes (hit : SlotIx → Bool) : (unbindEntries hit s).tapes = s.tapes := rfl
@[simp] theorem unbindEntries_ribbons (hit : SlotIx → Bool) : (unbindEntries hit s).ribbons = s.ribbons := rfl
@[simp] theorem unbindEntries_lines (hit : SlotIx → Bool) : (unbindEntries hit s).lines = s.lines := rfl
@[simp] theorem unbindEntries_terminals (hit : SlotIx → Bool) : (unbindEntries hit s).terminals = s.terminals := rfl
@[simp] theorem unbindEntries_pending (hit : SlotIx → Bool) : (unbindEntries hit s).pending = s.pending := rfl

@[simp] theorem beginSwitch_time (i : PanelIx) : (beginSwitch i s).time = s.time := by unfold beginSwitch; split <;> rfl
@[simp] theorem beginSwitch_por (i : PanelIx) : (beginSwitch i s).por = s.por := by unfold beginSwitch; split <;> rfl
@[simp] theorem beginSwitch_phase (i : PanelIx) : (beginSwitch i s).phase = s.phase := by unfold beginSwitch; split <;> rfl
@[simp] theorem beginSwitch_records (i : PanelIx) : (beginSwitch i s).records = s.records := by unfold beginSwitch; split <;> rfl
@[simp] theorem beginSwitch_directory (i : PanelIx) : (beginSwitch i s).directory = s.directory := by unfold beginSwitch; split <;> rfl
@[simp] theorem beginSwitch_feed (i : PanelIx) : (beginSwitch i s).feed = s.feed := by unfold beginSwitch; split <;> rfl
@[simp] theorem beginSwitch_params (i : PanelIx) : (beginSwitch i s).params = s.params := by unfold beginSwitch; split <;> rfl
@[simp] theorem beginSwitch_entries (i : PanelIx) : (beginSwitch i s).entries = s.entries := by unfold beginSwitch; split <;> rfl
@[simp] theorem beginSwitch_pages (i : PanelIx) : (beginSwitch i s).pages = s.pages := by unfold beginSwitch; split <;> rfl
@[simp] theorem beginSwitch_rails (i : PanelIx) : (beginSwitch i s).rails = s.rails := by unfold beginSwitch; split <;> rfl
@[simp] theorem beginSwitch_tapes (i : PanelIx) : (beginSwitch i s).tapes = s.tapes := by unfold beginSwitch; split <;> rfl
@[simp] theorem beginSwitch_ribbons (i : PanelIx) : (beginSwitch i s).ribbons = s.ribbons := by unfold beginSwitch; split <;> rfl
@[simp] theorem beginSwitch_lines (i : PanelIx) : (beginSwitch i s).lines = s.lines := by unfold beginSwitch; split <;> rfl
@[simp] theorem beginSwitch_terminals (i : PanelIx) : (beginSwitch i s).terminals = s.terminals := by unfold beginSwitch; split <;> rfl
@[simp] theorem beginSwitch_pending (i : PanelIx) : (beginSwitch i s).pending = s.pending := by unfold beginSwitch; split <;> rfl

@[simp] theorem shed_time (i : PanelIx) : (shed i s).time = s.time := rfl
@[simp] theorem shed_por (i : PanelIx) : (shed i s).por = s.por := rfl
@[simp] theorem shed_phase (i : PanelIx) : (shed i s).phase = s.phase := rfl
@[simp] theorem shed_records (i : PanelIx) : (shed i s).records = s.records := rfl
@[simp] theorem shed_directory (i : PanelIx) : (shed i s).directory = s.directory := rfl
@[simp] theorem shed_feed (i : PanelIx) : (shed i s).feed = s.feed := rfl
@[simp] theorem shed_params (i : PanelIx) : (shed i s).params = s.params := rfl
@[simp] theorem shed_entries (i : PanelIx) : (shed i s).entries = s.entries := rfl
@[simp] theorem shed_pages (i : PanelIx) : (shed i s).pages = s.pages := rfl
@[simp] theorem shed_rails (i : PanelIx) : (shed i s).rails = s.rails := rfl
@[simp] theorem shed_tapes (i : PanelIx) : (shed i s).tapes = s.tapes := rfl
@[simp] theorem shed_ribbons (i : PanelIx) : (shed i s).ribbons = s.ribbons := rfl
@[simp] theorem shed_lines (i : PanelIx) : (shed i s).lines = s.lines := rfl
@[simp] theorem shed_terminals (i : PanelIx) : (shed i s).terminals = s.terminals := rfl
@[simp] theorem shed_pending (i : PanelIx) : (shed i s).pending = s.pending := rfl

@[simp] theorem recover_time (y : Policy) (i : PanelIx) : (recover y i s).time = s.time := by cases y <;> rfl
@[simp] theorem recover_por (y : Policy) (i : PanelIx) : (recover y i s).por = s.por := by cases y <;> rfl
@[simp] theorem recover_phase (y : Policy) (i : PanelIx) : (recover y i s).phase = s.phase := by cases y <;> rfl
@[simp] theorem recover_records (y : Policy) (i : PanelIx) : (recover y i s).records = s.records := by cases y <;> rfl
@[simp] theorem recover_directory (y : Policy) (i : PanelIx) : (recover y i s).directory = s.directory := by cases y <;> rfl
@[simp] theorem recover_feed (y : Policy) (i : PanelIx) : (recover y i s).feed = s.feed := by cases y <;> rfl
@[simp] theorem recover_params (y : Policy) (i : PanelIx) : (recover y i s).params = s.params := by cases y <;> rfl
@[simp] theorem recover_entries (y : Policy) (i : PanelIx) : (recover y i s).entries = s.entries := by cases y <;> rfl
@[simp] theorem recover_pages (y : Policy) (i : PanelIx) : (recover y i s).pages = s.pages := by cases y <;> rfl
@[simp] theorem recover_rails (y : Policy) (i : PanelIx) : (recover y i s).rails = s.rails := by cases y <;> rfl
@[simp] theorem recover_tapes (y : Policy) (i : PanelIx) : (recover y i s).tapes = s.tapes := by cases y <;> rfl
@[simp] theorem recover_ribbons (y : Policy) (i : PanelIx) : (recover y i s).ribbons = s.ribbons := by cases y <;> rfl
@[simp] theorem recover_lines (y : Policy) (i : PanelIx) : (recover y i s).lines = s.lines := by cases y <;> rfl
@[simp] theorem recover_terminals (y : Policy) (i : PanelIx) : (recover y i s).terminals = s.terminals := by cases y <;> rfl
@[simp] theorem recover_pending (y : Policy) (i : PanelIx) : (recover y i s).pending = s.pending := by cases y <;> rfl

@[simp] theorem lowerFlashes_time : (lowerFlashes s).time = s.time := rfl
@[simp] theorem lowerFlashes_por : (lowerFlashes s).por = s.por := rfl
@[simp] theorem lowerFlashes_phase : (lowerFlashes s).phase = s.phase := rfl
@[simp] theorem lowerFlashes_records : (lowerFlashes s).records = s.records := rfl
@[simp] theorem lowerFlashes_directory : (lowerFlashes s).directory = s.directory := rfl
@[simp] theorem lowerFlashes_feed : (lowerFlashes s).feed = s.feed := rfl
@[simp] theorem lowerFlashes_params : (lowerFlashes s).params = s.params := rfl
@[simp] theorem lowerFlashes_entries : (lowerFlashes s).entries = s.entries := rfl
@[simp] theorem lowerFlashes_pages : (lowerFlashes s).pages = s.pages := rfl
@[simp] theorem lowerFlashes_panels : (lowerFlashes s).panels = s.panels := rfl
@[simp] theorem lowerFlashes_rails : (lowerFlashes s).rails = s.rails := rfl
@[simp] theorem lowerFlashes_tapes : (lowerFlashes s).tapes = s.tapes := rfl
@[simp] theorem lowerFlashes_ribbons : (lowerFlashes s).ribbons = s.ribbons := rfl
@[simp] theorem lowerFlashes_lines : (lowerFlashes s).lines = s.lines := rfl
@[simp] theorem lowerFlashes_terminals : (lowerFlashes s).terminals = s.terminals := rfl
@[simp] theorem lowerFlashes_pending : (lowerFlashes s).pending = s.pending := rfl

@[simp] theorem periodStarted_time (x : AB) : (periodStarted x s).time = s.time := by cases x <;> rfl
@[simp] theorem periodStarted_por (x : AB) : (periodStarted x s).por = s.por := by cases x <;> rfl
@[simp] theorem periodStarted_phase (x : AB) : (periodStarted x s).phase = s.phase := by cases x <;> rfl
@[simp] theorem periodStarted_records (x : AB) : (periodStarted x s).records = s.records := by cases x <;> rfl
@[simp] theorem periodStarted_directory (x : AB) : (periodStarted x s).directory = s.directory := by cases x <;> rfl
@[simp] theorem periodStarted_feed (x : AB) : (periodStarted x s).feed = s.feed := by cases x <;> rfl
@[simp] theorem periodStarted_params (x : AB) : (periodStarted x s).params = s.params := by cases x <;> rfl
@[simp] theorem periodStarted_entries (x : AB) : (periodStarted x s).entries = s.entries := by cases x <;> rfl
@[simp] theorem periodStarted_pages (x : AB) : (periodStarted x s).pages = s.pages := by cases x <;> rfl
@[simp] theorem periodStarted_panels (x : AB) : (periodStarted x s).panels = s.panels := by cases x <;> rfl
@[simp] theorem periodStarted_rails (x : AB) : (periodStarted x s).rails = s.rails := by cases x <;> rfl
@[simp] theorem periodStarted_tapes (x : AB) : (periodStarted x s).tapes = s.tapes := by cases x <;> rfl
@[simp] theorem periodStarted_ribbons (x : AB) : (periodStarted x s).ribbons = s.ribbons := by cases x <;> rfl
@[simp] theorem periodStarted_lines (x : AB) : (periodStarted x s).lines = s.lines := by cases x <;> rfl
@[simp] theorem periodStarted_terminals (x : AB) : (periodStarted x s).terminals = s.terminals := by cases x <;> rfl
@[simp] theorem periodStarted_pending (x : AB) : (periodStarted x s).pending = s.pending := by cases x <;> rfl

@[simp] theorem setStale_time (b : Bool) : (setStale b s).time = s.time := rfl
@[simp] theorem setStale_por (b : Bool) : (setStale b s).por = s.por := rfl
@[simp] theorem setStale_phase (b : Bool) : (setStale b s).phase = s.phase := rfl
@[simp] theorem setStale_records (b : Bool) : (setStale b s).records = s.records := rfl
@[simp] theorem setStale_directory (b : Bool) : (setStale b s).directory = s.directory := rfl
@[simp] theorem setStale_params (b : Bool) : (setStale b s).params = s.params := rfl
@[simp] theorem setStale_entries (b : Bool) : (setStale b s).entries = s.entries := rfl
@[simp] theorem setStale_pages (b : Bool) : (setStale b s).pages = s.pages := rfl
@[simp] theorem setStale_panels (b : Bool) : (setStale b s).panels = s.panels := rfl
@[simp] theorem setStale_rails (b : Bool) : (setStale b s).rails = s.rails := rfl
@[simp] theorem setStale_ribbons (b : Bool) : (setStale b s).ribbons = s.ribbons := rfl
@[simp] theorem setStale_lines (b : Bool) : (setStale b s).lines = s.lines := rfl
@[simp] theorem setStale_terminals (b : Bool) : (setStale b s).terminals = s.terminals := rfl
@[simp] theorem setStale_pending (b : Bool) : (setStale b s).pending = s.pending := rfl

end Sys2Proof.Machine
end

