-- ==== Sys2Proof/Laws/Parts.lean ====
section
/-! SUPPORT. What the parts of single commands leave alone: for each of them one lemma for each field of the state that
it does not change. -/

namespace Sys2Proof.Machine

set_option linter.all false

variable (s : State)

@[simp] theorem retire_time (i : SlotIx) (r : Record) : (retire i r s).time = s.time :=
  by unfold retire; split <;> simp
@[simp] theorem retire_por (i : SlotIx) (r : Record) : (retire i r s).por = s.por := by unfold retire; split <;> simp
@[simp] theorem retire_phase (i : SlotIx) (r : Record) : (retire i r s).phase = s.phase :=
  by unfold retire; split <;> simp
@[simp] theorem retire_feed (i : SlotIx) (r : Record) : (retire i r s).feed = s.feed :=
  by unfold retire; split <;> simp
@[simp] theorem retire_params (i : SlotIx) (r : Record) : (retire i r s).params = s.params :=
  by unfold retire; split <;> simp
@[simp] theorem retire_entries (i : SlotIx) (r : Record) : (retire i r s).entries = s.entries :=
  by unfold retire; split <;> simp
@[simp] theorem retire_pages (i : SlotIx) (r : Record) : (retire i r s).pages = s.pages :=
  by unfold retire; split <;> simp
@[simp] theorem retire_panels (i : SlotIx) (r : Record) : (retire i r s).panels = s.panels :=
  by unfold retire; split <;> simp
@[simp] theorem retire_boards (i : SlotIx) (r : Record) : (retire i r s).boards = s.boards :=
  by unfold retire; split <;> simp
@[simp] theorem retire_rails (i : SlotIx) (r : Record) : (retire i r s).rails = s.rails :=
  by unfold retire; split <;> simp
@[simp] theorem retire_verifier (i : SlotIx) (r : Record) : (retire i r s).verifier = s.verifier :=
  by unfold retire; split <;> simp
@[simp] theorem retire_tapes (i : SlotIx) (r : Record) : (retire i r s).tapes = s.tapes :=
  by unfold retire; split <;> simp
@[simp] theorem retire_ribbons (i : SlotIx) (r : Record) : (retire i r s).ribbons = s.ribbons :=
  by unfold retire; split <;> simp
@[simp] theorem retire_lines (i : SlotIx) (r : Record) : (retire i r s).lines = s.lines :=
  by unfold retire; split <;> simp
@[simp] theorem retire_terminals (i : SlotIx) (r : Record) : (retire i r s).terminals = s.terminals :=
  by unfold retire; split <;> simp
@[simp] theorem retire_pending (i : SlotIx) (r : Record) : (retire i r s).pending = s.pending :=
  by unfold retire; split <;> simp

@[simp] theorem railChanged_time (x y : RailState) (z : Policy) (i : PanelIx) : (railChanged x y z i s).time = s.time := by
  unfold railChanged
  (repeat' split) <;> simp
@[simp] theorem railChanged_por (x y : RailState) (z : Policy) (i : PanelIx) : (railChanged x y z i s).por = s.por := by
  unfold railChanged
  (repeat' split) <;> simp
@[simp] theorem railChanged_phase (x y : RailState) (z : Policy) (i : PanelIx) : (railChanged x y z i s).phase = s.phase := by
  unfold railChanged
  (repeat' split) <;> simp
@[simp] theorem railChanged_records (x y : RailState) (z : Policy) (i : PanelIx) : (railChanged x y z i s).records = s.records := by
  unfold railChanged
  (repeat' split) <;> simp
@[simp] theorem railChanged_directory (x y : RailState) (z : Policy) (i : PanelIx) : (railChanged x y z i s).directory = s.directory := by
  unfold railChanged
  (repeat' split) <;> simp
@[simp] theorem railChanged_feed (x y : RailState) (z : Policy) (i : PanelIx) : (railChanged x y z i s).feed = s.feed := by
  unfold railChanged
  (repeat' split) <;> simp
@[simp] theorem railChanged_params (x y : RailState) (z : Policy) (i : PanelIx) : (railChanged x y z i s).params = s.params := by
  unfold railChanged
  (repeat' split) <;> simp
@[simp] theorem railChanged_entries (x y : RailState) (z : Policy) (i : PanelIx) : (railChanged x y z i s).entries = s.entries := by
  unfold railChanged
  (repeat' split) <;> simp
@[simp] theorem railChanged_pages (x y : RailState) (z : Policy) (i : PanelIx) : (railChanged x y z i s).pages = s.pages := by
  unfold railChanged
  (repeat' split) <;> simp
@[simp] theorem railChanged_rails (x y : RailState) (z : Policy) (i : PanelIx) : (railChanged x y z i s).rails = s.rails := by
  unfold railChanged
  (repeat' split) <;> simp
@[simp] theorem railChanged_tapes (x y : RailState) (z : Policy) (i : PanelIx) : (railChanged x y z i s).tapes = s.tapes := by
  unfold railChanged
  (repeat' split) <;> simp
@[simp] theorem railChanged_ribbons (x y : RailState) (z : Policy) (i : PanelIx) : (railChanged x y z i s).ribbons = s.ribbons := by
  unfold railChanged
  (repeat' split) <;> simp
@[simp] theorem railChanged_lines (x y : RailState) (z : Policy) (i : PanelIx) : (railChanged x y z i s).lines = s.lines := by
  unfold railChanged
  (repeat' split) <;> simp
@[simp] theorem railChanged_terminals (x y : RailState) (z : Policy) (i : PanelIx) : (railChanged x y z i s).terminals = s.terminals := by
  unfold railChanged
  (repeat' split) <;> simp
@[simp] theorem railChanged_pending (x y : RailState) (z : Policy) (i : PanelIx) : (railChanged x y z i s).pending = s.pending := by
  unfold railChanged
  (repeat' split) <;> simp

@[simp] theorem nextInterval_por : (nextInterval s).por = s.por := by unfold nextInterval; split <;> rfl
@[simp] theorem nextInterval_phase : (nextInterval s).phase = s.phase := by unfold nextInterval; split <;> rfl
@[simp] theorem nextInterval_records : (nextInterval s).records = s.records := by unfold nextInterval; split <;> rfl
@[simp] theorem nextInterval_directory : (nextInterval s).directory = s.directory :=
  by unfold nextInterval; split <;> rfl
@[simp] theorem nextInterval_feed : (nextInterval s).feed = s.feed := by unfold nextInterval; split <;> rfl
@[simp] theorem nextInterval_params : (nextInterval s).params = s.params := by unfold nextInterval; split <;> rfl
@[simp] theorem nextInterval_entries : (nextInterval s).entries = s.entries := by unfold nextInterval; split <;> rfl
@[simp] theorem nextInterval_pages : (nextInterval s).pages = s.pages := by unfold nextInterval; split <;> rfl
@[simp] theorem nextInterval_panels : (nextInterval s).panels = s.panels := by unfold nextInterval; split <;> rfl
@[simp] theorem nextInterval_boards : (nextInterval s).boards = s.boards := by unfold nextInterval; split <;> rfl
@[simp] theorem nextInterval_verifier : (nextInterval s).verifier = s.verifier :=
  by unfold nextInterval; split <;> rfl
@[simp] theorem nextInterval_tapes : (nextInterval s).tapes = s.tapes := by unfold nextInterval; split <;> rfl
@[simp] theorem nextInterval_ribbons : (nextInterval s).ribbons = s.ribbons := by unfold nextInterval; split <;> rfl
@[simp] theorem nextInterval_lines : (nextInterval s).lines = s.lines := by unfold nextInterval; split <;> rfl
@[simp] theorem nextInterval_terminals : (nextInterval s).terminals = s.terminals :=
  by unfold nextInterval; split <;> rfl
@[simp] theorem nextInterval_pending : (nextInterval s).pending = s.pending := by unfold nextInterval; split <;> rfl

@[simp] theorem changeRail_time (i : RailIx) : (changeRail i s).time = s.time := by
  unfold changeRail
  dsimp only
  split
  · rw [foldl_same State.time (fun s i => railChanged_time s _ _ _ i)]; rfl
  · rfl
@[simp] theorem changeRail_por (i : RailIx) : (changeRail i s).por = s.por := by
  unfold changeRail
  dsimp only
  split
  · rw [foldl_same State.por (fun s i => railChanged_por s _ _ _ i)]; rfl
  · rfl
@[simp] theorem changeRail_phase (i : RailIx) : (changeRail i s).phase = s.phase := by
  unfold changeRail
  dsimp only
  split
  · rw [foldl_same State.phase (fun s i => railChanged_phase s _ _ _ i)]; rfl
  · rfl
@[simp] theorem changeRail_records (i : RailIx) : (changeRail i s).records = s.records := by
  unfold changeRail
  dsimp only
  split
  · rw [foldl_same State.records (fun s i => railChanged_records s _ _ _ i)]; rfl
  · rfl
@[simp] theorem changeRail_directory (i : RailIx) : (changeRail i s).directory = s.directory := by
  unfold changeRail
  dsimp only
  split
  · rw [foldl_same State.directory (fun s i => railChanged_directory s _ _ _ i)]; rfl
  · rfl
@[simp] theorem changeRail_params (i : RailIx) : (changeRail i s).params = s.params := by
  unfold changeRail
  dsimp only
  split
  · rw [foldl_same State.params (fun s i => railChanged_params s _ _ _ i)]; rfl
  · rfl
@[simp] theorem changeRail_entries (i : RailIx) : (changeRail i s).entries = s.entries := by
  unfold changeRail
  dsimp only
  split
  · rw [foldl_same State.entries (fun s i => railChanged_entries s _ _ _ i)]; rfl
  · rfl
@[simp] theorem changeRail_pages (i : RailIx) : (changeRail i s).pages = s.pages := by
  unfold changeRail
  dsimp only
  split
  · rw [foldl_same State.pages (fun s i => railChanged_pages s _ _ _ i)]; rfl
  · rfl
@[simp] theorem changeRail_tapes (i : RailIx) : (changeRail i s).tapes = s.tapes := by
  unfold changeRail
  dsimp only
  split
  · rw [foldl_same State.tapes (fun s i => railChanged_tapes s _ _ _ i)]; rfl
  · rfl
@[simp] theorem changeRail_ribbons (i : RailIx) : (changeRail i s).ribbons = s.ribbons := by
  unfold changeRail
  dsimp only
  split
  · rw [foldl_same State.ribbons (fun s i => railChanged_ribbons s _ _ _ i)]; rfl
  · rfl
@[simp] theorem changeRail_lines (i : RailIx) : (changeRail i s).lines = s.lines := by
  unfold changeRail
  dsimp only
  split
  · rw [foldl_same State.lines (fun s i => railChanged_lines s _ _ _ i)]; rfl
  · rfl
@[simp] theorem changeRail_terminals (i : RailIx) : (changeRail i s).terminals = s.terminals := by
  unfold changeRail
  dsimp only
  split
  · rw [foldl_same State.terminals (fun s i => railChanged_terminals s _ _ _ i)]; rfl
  · rfl
@[simp] theorem changeRail_pending (i : RailIx) : (changeRail i s).pending = s.pending := by
  unfold changeRail
  dsimp only
  split
  · rw [foldl_same State.pending (fun s i => railChanged_pending s _ _ _ i)]; rfl
  · rfl

@[simp] theorem reassignPanel_time (i : PanelIx) : (reassignPanel i s).time = s.time := by
  unfold reassignPanel
  dsimp only
  (repeat' split) <;> simp
@[simp] theorem reassignPanel_por (i : PanelIx) : (reassignPanel i s).por = s.por := by
  unfold reassignPanel
  dsimp only
  (repeat' split) <;> simp
@[simp] theorem reassignPanel_phase (i : PanelIx) : (reassignPanel i s).phase = s.phase := by
  unfold reassignPanel
  dsimp only
  (repeat' split) <;> simp
@[simp] theorem reassignPanel_records (i : PanelIx) : (reassignPanel i s).records = s.records := by
  unfold reassignPanel
  dsimp only
  (repeat' split) <;> simp
@[simp] theorem reassignPanel_directory (i : PanelIx) : (reassignPanel i s).directory = s.directory := by
  unfold reassignPanel
  dsimp only
  (repeat' split) <;> simp
@[simp] theorem reassignPanel_feed (i : PanelIx) : (reassignPanel i s).feed = s.feed := by
  unfold reassignPanel
  dsimp only
  (repeat' split) <;> simp
@[simp] theorem reassignPanel_params (i : PanelIx) : (reassignPanel i s).params = s.params := by
  unfold reassignPanel
  dsimp only
  (repeat' split) <;> simp
@[simp] theorem reassignPanel_entries (i : PanelIx) : (reassignPanel i s).entries = s.entries := by
  unfold reassignPanel
  dsimp only
  (repeat' split) <;> simp
@[simp] theorem reassignPanel_pages (i : PanelIx) : (reassignPanel i s).pages = s.pages := by
  unfold reassignPanel
  dsimp only
  (repeat' split) <;> simp
@[simp] theorem reassignPanel_rails (i : PanelIx) : (reassignPanel i s).rails = s.rails := by
  unfold reassignPanel
  dsimp only
  (repeat' split) <;> simp
@[simp] theorem reassignPanel_tapes (i : PanelIx) : (reassignPanel i s).tapes = s.tapes := by
  unfold reassignPanel
  dsimp only
  (repeat' split) <;> simp
@[simp] theorem reassignPanel_ribbons (i : PanelIx) : (reassignPanel i s).ribbons = s.ribbons := by
  unfold reassignPanel
  dsimp only
  (repeat' split) <;> simp
@[simp] theorem reassignPanel_lines (i : PanelIx) : (reassignPanel i s).lines = s.lines := by
  unfold reassignPanel
  dsimp only
  (repeat' split) <;> simp
@[simp] theorem reassignPanel_terminals (i : PanelIx) : (reassignPanel i s).terminals = s.terminals := by
  unfold reassignPanel
  dsimp only
  (repeat' split) <;> simp
@[simp] theorem reassignPanel_pending (i : PanelIx) : (reassignPanel i s).pending = s.pending := by
  unfold reassignPanel
  dsimp only
  (repeat' split) <;> simp

@[simp] theorem verifyEnableChanged_time : (verifyEnableChanged s).time = s.time := by
  unfold verifyEnableChanged
  dsimp only
  (repeat' split) <;> simp
@[simp] theorem verifyEnableChanged_por : (verifyEnableChanged s).por = s.por := by
  unfold verifyEnableChanged
  dsimp only
  (repeat' split) <;> simp
@[simp] theorem verifyEnableChanged_phase : (verifyEnableChanged s).phase = s.phase := by
  unfold verifyEnableChanged
  dsimp only
  (repeat' split) <;> simp
@[simp] theorem verifyEnableChanged_records : (verifyEnableChanged s).records = s.records := by
  unfold verifyEnableChanged
  dsimp only
  (repeat' split) <;> simp
@[simp] theorem verifyEnableChanged_directory : (verifyEnableChanged s).directory = s.directory := by
  unfold verifyEnableChanged
  dsimp only
  (repeat' split) <;> simp
@[simp] theorem verifyEnableChanged_feed : (verifyEnableChanged s).feed = s.feed := by
  unfold verifyEnableChanged
  dsimp only
  (repeat' split) <;> simp
@[simp] theorem verifyEnableChanged_params : (verifyEnableChanged s).params = s.params := by
  unfold verifyEnableChanged
  dsimp only
  (repeat' split) <;> simp
@[simp] theorem verifyEnableChanged_entries : (verifyEnableChanged s).entries = s.entries := by
  unfold verifyEnableChanged
  dsimp only
  (repeat' split) <;> simp
@[simp] theorem verifyEnableChanged_pages : (verifyEnableChanged s).pages = s.pages := by
  unfold verifyEnableChanged
  dsimp only
  (repeat' split) <;> simp
@[simp] theorem verifyEnableChanged_panels : (verifyEnableChanged s).panels = s.panels := by
  unfold verifyEnableChanged
  dsimp only
  (repeat' split) <;> simp
@[simp] theorem verifyEnableChanged_boards : (verifyEnableChanged s).boards = s.boards := by
  unfold verifyEnableChanged
  dsimp only
  (repeat' split) <;> simp
@[simp] theorem verifyEnableChanged_rails : (verifyEnableChanged s).rails = s.rails := by
  unfold verifyEnableChanged
  dsimp only
  (repeat' split) <;> simp
@[simp] theorem verifyEnableChanged_tapes : (verifyEnableChanged s).tapes = s.tapes := by
  unfold verifyEnableChanged
  dsimp only
  (repeat' split) <;> simp
@[simp] theorem verifyEnableChanged_ribbons : (verifyEnableChanged s).ribbons = s.ribbons := by
  unfold verifyEnableChanged
  dsimp only
  (repeat' split) <;> simp
@[simp] theorem verifyEnableChanged_lines : (verifyEnableChanged s).lines = s.lines := by
  unfold verifyEnableChanged
  dsimp only
  (repeat' split) <;> simp
@[simp] theorem verifyEnableChanged_terminals : (verifyEnableChanged s).terminals = s.terminals := by
  unfold verifyEnableChanged
  dsimp only
  (repeat' split) <;> simp
@[simp] theorem verifyEnableChanged_pending : (verifyEnableChanged s).pending = s.pending := by
  unfold verifyEnableChanged
  dsimp only
  (repeat' split) <;> simp

@[simp] theorem parameterWritten_time (q : Parameter) (p : Params) : (parameterWritten q p s).time = s.time := by
  unfold parameterWritten restartTimer
  (repeat' split) <;> simp
@[simp] theorem parameterWritten_por (q : Parameter) (p : Params) : (parameterWritten q p s).por = s.por := by
  unfold parameterWritten restartTimer
  (repeat' split) <;> simp
@[simp] theorem parameterWritten_phase (q : Parameter) (p : Params) : (parameterWritten q p s).phase = s.phase := by
  unfold parameterWritten restartTimer
  (repeat' split) <;> simp
@[simp] theorem parameterWritten_records (q : Parameter) (p : Params) : (parameterWritten q p s).records = s.records := by
  unfold parameterWritten restartTimer
  (repeat' split) <;> simp
@[simp] theorem parameterWritten_directory (q : Parameter) (p : Params) : (parameterWritten q p s).directory = s.directory := by
  unfold parameterWritten restartTimer
  (repeat' split) <;> simp
@[simp] theorem parameterWritten_feed (q : Parameter) (p : Params) : (parameterWritten q p s).feed = s.feed := by
  unfold parameterWritten restartTimer
  (repeat' split) <;> simp
@[simp] theorem parameterWritten_params (q : Parameter) (p : Params) : (parameterWritten q p s).params = s.params := by
  unfold parameterWritten restartTimer
  (repeat' split) <;> simp
@[simp] theorem parameterWritten_entries (q : Parameter) (p : Params) : (parameterWritten q p s).entries = s.entries := by
  unfold parameterWritten restartTimer
  (repeat' split) <;> simp
@[simp] theorem parameterWritten_pages (q : Parameter) (p : Params) : (parameterWritten q p s).pages = s.pages := by
  unfold parameterWritten restartTimer
  (repeat' split) <;> simp
@[simp] theorem parameterWritten_rails (q : Parameter) (p : Params) : (parameterWritten q p s).rails = s.rails := by
  unfold parameterWritten restartTimer
  (repeat' split) <;> simp
@[simp] theorem parameterWritten_tapes (q : Parameter) (p : Params) : (parameterWritten q p s).tapes = s.tapes := by
  unfold parameterWritten restartTimer
  (repeat' split) <;> simp
@[simp] theorem parameterWritten_ribbons (q : Parameter) (p : Params) : (parameterWritten q p s).ribbons = s.ribbons := by
  unfold parameterWritten restartTimer
  (repeat' split) <;> simp
@[simp] theorem parameterWritten_lines (q : Parameter) (p : Params) : (parameterWritten q p s).lines = s.lines := by
  unfold parameterWritten restartTimer
  (repeat' split) <;> simp
@[simp] theorem parameterWritten_terminals (q : Parameter) (p : Params) : (parameterWritten q p s).terminals = s.terminals := by
  unfold parameterWritten restartTimer
  (repeat' split) <;> simp
@[simp] theorem parameterWritten_pending (q : Parameter) (p : Params) : (parameterWritten q p s).pending = s.pending := by
  unfold parameterWritten restartTimer
  (repeat' split) <;> simp

@[simp] theorem completeSwitch_time (i : PanelIx) : (completeSwitch i s).time = s.time := rfl
@[simp] theorem completeSwitch_por (i : PanelIx) : (completeSwitch i s).por = s.por := rfl
@[simp] theorem completeSwitch_phase (i : PanelIx) : (completeSwitch i s).phase = s.phase := rfl
@[simp] theorem completeSwitch_records (i : PanelIx) : (completeSwitch i s).records = s.records := rfl
@[simp] theorem completeSwitch_directory (i : PanelIx) : (completeSwitch i s).directory = s.directory := rfl
@[simp] theorem completeSwitch_params (i : PanelIx) : (completeSwitch i s).params = s.params := rfl
@[simp] theorem completeSwitch_entries (i : PanelIx) : (completeSwitch i s).entries = s.entries := rfl
@[simp] theorem completeSwitch_pages (i : PanelIx) : (completeSwitch i s).pages = s.pages := rfl
@[simp] theorem completeSwitch_boards (i : PanelIx) : (completeSwitch i s).boards = s.boards := rfl
@[simp] theorem completeSwitch_rails (i : PanelIx) : (completeSwitch i s).rails = s.rails := rfl
@[simp] theorem completeSwitch_verifier (i : PanelIx) : (completeSwitch i s).verifier = s.verifier := rfl
@[simp] theorem completeSwitch_tapes (i : PanelIx) : (completeSwitch i s).tapes = s.tapes := rfl
@[simp] theorem completeSwitch_ribbons (i : PanelIx) : (completeSwitch i s).ribbons = s.ribbons := rfl
@[simp] theorem completeSwitch_lines (i : PanelIx) : (completeSwitch i s).lines = s.lines := rfl
@[simp] theorem completeSwitch_terminals (i : PanelIx) : (completeSwitch i s).terminals = s.terminals := rfl
@[simp] theorem completeSwitch_pending (i : PanelIx) : (completeSwitch i s).pending = s.pending := rfl

@[simp] theorem clearSwitch_time (p : PosIx) : (clearSwitch p s).time = s.time := by
  unfold clearSwitch
  dsimp only
  (repeat' split) <;> simp
@[simp] theorem clearSwitch_por (p : PosIx) : (clearSwitch p s).por = s.por := by
  unfold clearSwitch
  dsimp only
  (repeat' split) <;> simp
@[simp] theorem clearSwitch_phase (p : PosIx) : (clearSwitch p s).phase = s.phase := by
  unfold clearSwitch
  dsimp only
  (repeat' split) <;> simp
@[simp] theorem clearSwitch_records (p : PosIx) : (clearSwitch p s).records = s.records := by
  unfold clearSwitch
  dsimp only
  (repeat' split) <;> simp
@[simp] theorem clearSwitch_directory (p : PosIx) : (clearSwitch p s).directory = s.directory := by
  unfold clearSwitch
  dsimp only
  (repeat' split) <;> simp
@[simp] theorem clearSwitch_params (p : PosIx) : (clearSwitch p s).params = s.params := by
  unfold clearSwitch
  dsimp only
  (repeat' split) <;> simp
@[simp] theorem clearSwitch_entries (p : PosIx) : (clearSwitch p s).entries = s.entries := by
  unfold clearSwitch
  dsimp only
  (repeat' split) <;> simp
@[simp] theorem clearSwitch_pages (p : PosIx) : (clearSwitch p s).pages = s.pages := by
  unfold clearSwitch
  dsimp only
  (repeat' split) <;> simp
@[simp] theorem clearSwitch_rails (p : PosIx) : (clearSwitch p s).rails = s.rails := by
  unfold clearSwitch
  dsimp only
  (repeat' split) <;> simp
@[simp] theorem clearSwitch_verifier (p : PosIx) : (clearSwitch p s).verifier = s.verifier := by
  unfold clearSwitch
  dsimp only
  (repeat' split) <;> simp
@[simp] theorem clearSwitch_tapes (p : PosIx) : (clearSwitch p s).tapes = s.tapes := by
  unfold clearSwitch
  dsimp only
  (repeat' split) <;> simp
@[simp] theorem clearSwitch_ribbons (p : PosIx) : (clearSwitch p s).ribbons = s.ribbons := by
  unfold clearSwitch
  dsimp only
  (repeat' split) <;> simp
@[simp] theorem clearSwitch_lines (p : PosIx) : (clearSwitch p s).lines = s.lines := by
  unfold clearSwitch
  dsimp only
  (repeat' split) <;> simp
@[simp] theorem clearSwitch_terminals (p : PosIx) : (clearSwitch p s).terminals = s.terminals := by
  unfold clearSwitch
  dsimp only
  (repeat' split) <;> simp
@[simp] theorem clearSwitch_pending (p : PosIx) : (clearSwitch p s).pending = s.pending := by
  unfold clearSwitch
  dsimp only
  (repeat' split) <;> simp

@[simp] theorem recordWrite_time (w : PositionWrite) : (recordWrite w s).time = s.time :=
  by unfold recordWrite; split <;> simp
@[simp] theorem recordWrite_por (w : PositionWrite) : (recordWrite w s).por = s.por :=
  by unfold recordWrite; split <;> simp
@[simp] theorem recordWrite_phase (w : PositionWrite) : (recordWrite w s).phase = s.phase :=
  by unfold recordWrite; split <;> simp
@[simp] theorem recordWrite_records (w : PositionWrite) : (recordWrite w s).records = s.records :=
  by unfold recordWrite; split <;> simp
@[simp] theorem recordWrite_directory (w : PositionWrite) : (recordWrite w s).directory = s.directory :=
  by unfold recordWrite; split <;> simp
@[simp] theorem recordWrite_params (w : PositionWrite) : (recordWrite w s).params = s.params :=
  by unfold recordWrite; split <;> simp
@[simp] theorem recordWrite_entries (w : PositionWrite) : (recordWrite w s).entries = s.entries :=
  by unfold recordWrite; split <;> simp
@[simp] theorem recordWrite_pages (w : PositionWrite) : (recordWrite w s).pages = s.pages :=
  by unfold recordWrite; split <;> simp
@[simp] theorem recordWrite_rails (w : PositionWrite) : (recordWrite w s).rails = s.rails :=
  by unfold recordWrite; split <;> simp
@[simp] theorem recordWrite_verifier (w : PositionWrite) : (recordWrite w s).verifier = s.verifier :=
  by unfold recordWrite; split <;> simp
@[simp] theorem recordWrite_tapes (w : PositionWrite) : (recordWrite w s).tapes = s.tapes :=
  by unfold recordWrite; split <;> simp
@[simp] theorem recordWrite_ribbons (w : PositionWrite) : (recordWrite w s).ribbons = s.ribbons :=
  by unfold recordWrite; split <;> simp
@[simp] theorem recordWrite_lines (w : PositionWrite) : (recordWrite w s).lines = s.lines :=
  by unfold recordWrite; split <;> simp
@[simp] theorem recordWrite_terminals (w : PositionWrite) : (recordWrite w s).terminals = s.terminals :=
  by unfold recordWrite; split <;> simp
@[simp] theorem recordWrite_pending (w : PositionWrite) : (recordWrite w s).pending = s.pending :=
  by unfold recordWrite; split <;> simp

@[simp] theorem applyMatch_time (p : PosIx) : (applyMatch p s).time = s.time := rfl
@[simp] theorem applyMatch_por (p : PosIx) : (applyMatch p s).por = s.por := rfl
@[simp] theorem applyMatch_phase (p : PosIx) : (applyMatch p s).phase = s.phase := rfl
@[simp] theorem applyMatch_records (p : PosIx) : (applyMatch p s).records = s.records := rfl
@[simp] theorem applyMatch_directory (p : PosIx) : (applyMatch p s).directory = s.directory := rfl
@[simp] theorem applyMatch_feed (p : PosIx) : (applyMatch p s).feed = s.feed := rfl
@[simp] theorem applyMatch_params (p : PosIx) : (applyMatch p s).params = s.params := rfl
@[simp] theorem applyMatch_entries (p : PosIx) : (applyMatch p s).entries = s.entries := rfl
@[simp] theorem applyMatch_pages (p : PosIx) : (applyMatch p s).pages = s.pages := rfl
@[simp] theorem applyMatch_panels (p : PosIx) : (applyMatch p s).panels = s.panels := rfl
@[simp] theorem applyMatch_rails (p : PosIx) : (applyMatch p s).rails = s.rails := rfl
@[simp] theorem applyMatch_verifier (p : PosIx) : (applyMatch p s).verifier = s.verifier := rfl
@[simp] theorem applyMatch_tapes (p : PosIx) : (applyMatch p s).tapes = s.tapes := rfl
@[simp] theorem applyMatch_ribbons (p : PosIx) : (applyMatch p s).ribbons = s.ribbons := rfl
@[simp] theorem applyMatch_lines (p : PosIx) : (applyMatch p s).lines = s.lines := rfl
@[simp] theorem applyMatch_terminals (p : PosIx) : (applyMatch p s).terminals = s.terminals := rfl
@[simp] theorem applyMatch_pending (p : PosIx) : (applyMatch p s).pending = s.pending := rfl

@[simp] theorem applyMismatch_time (p : PosIx) : (applyMismatch p s).time = s.time :=
  by unfold applyMismatch noteFailed; dsimp only; split <;> simp
@[simp] theorem applyMismatch_por (p : PosIx) : (applyMismatch p s).por = s.por :=
  by unfold applyMismatch noteFailed; dsimp only; split <;> simp
@[simp] theorem applyMismatch_phase (p : PosIx) : (applyMismatch p s).phase = s.phase :=
  by unfold applyMismatch noteFailed; dsimp only; split <;> simp
@[simp] theorem applyMismatch_records (p : PosIx) : (applyMismatch p s).records = s.records :=
  by unfold applyMismatch noteFailed; dsimp only; split <;> simp
@[simp] theorem applyMismatch_directory (p : PosIx) : (applyMismatch p s).directory = s.directory :=
  by unfold applyMismatch noteFailed; dsimp only; split <;> simp
@[simp] theorem applyMismatch_params (p : PosIx) : (applyMismatch p s).params = s.params :=
  by unfold applyMismatch noteFailed; dsimp only; split <;> simp
@[simp] theorem applyMismatch_entries (p : PosIx) : (applyMismatch p s).entries = s.entries :=
  by unfold applyMismatch noteFailed; dsimp only; split <;> simp
@[simp] theorem applyMismatch_pages (p : PosIx) : (applyMismatch p s).pages = s.pages :=
  by unfold applyMismatch noteFailed; dsimp only; split <;> simp
@[simp] theorem applyMismatch_panels (p : PosIx) : (applyMismatch p s).panels = s.panels :=
  by unfold applyMismatch noteFailed; dsimp only; split <;> simp
@[simp] theorem applyMismatch_rails (p : PosIx) : (applyMismatch p s).rails = s.rails :=
  by unfold applyMismatch noteFailed; dsimp only; split <;> simp
@[simp] theorem applyMismatch_tapes (p : PosIx) : (applyMismatch p s).tapes = s.tapes :=
  by unfold applyMismatch noteFailed; dsimp only; split <;> simp
@[simp] theorem applyMismatch_ribbons (p : PosIx) : (applyMismatch p s).ribbons = s.ribbons :=
  by unfold applyMismatch noteFailed; dsimp only; split <;> simp
@[simp] theorem applyMismatch_lines (p : PosIx) : (applyMismatch p s).lines = s.lines :=
  by unfold applyMismatch noteFailed; dsimp only; split <;> simp
@[simp] theorem applyMismatch_terminals (p : PosIx) : (applyMismatch p s).terminals = s.terminals :=
  by unfold applyMismatch noteFailed; dsimp only; split <;> simp
@[simp] theorem applyMismatch_pending (p : PosIx) : (applyMismatch p s).pending = s.pending :=
  by unfold applyMismatch noteFailed; dsimp only; split <;> simp

@[simp] theorem endRead_time : (endRead s).time = s.time := by unfold endRead; dsimp only; split <;> simp
@[simp] theorem endRead_por : (endRead s).por = s.por := by unfold endRead; dsimp only; split <;> simp
@[simp] theorem endRead_phase : (endRead s).phase = s.phase := by unfold endRead; dsimp only; split <;> simp
@[simp] theorem endRead_records : (endRead s).records = s.records := by unfold endRead; dsimp only; split <;> simp
@[simp] theorem endRead_directory : (endRead s).directory = s.directory :=
  by unfold endRead; dsimp only; split <;> simp
@[simp] theorem endRead_feed : (endRead s).feed = s.feed := by unfold endRead; dsimp only; split <;> simp
@[simp] theorem endRead_params : (endRead s).params = s.params := by unfold endRead; dsimp only; split <;> simp
@[simp] theorem endRead_entries : (endRead s).entries = s.entries := by unfold endRead; dsimp only; split <;> simp
@[simp] theorem endRead_pages : (endRead s).pages = s.pages := by unfold endRead; dsimp only; split <;> simp
@[simp] theorem endRead_panels : (endRead s).panels = s.panels := by unfold endRead; dsimp only; split <;> simp
@[simp] theorem endRead_boards : (endRead s).boards = s.boards := by unfold endRead; dsimp only; split <;> simp
@[simp] theorem endRead_rails : (endRead s).rails = s.rails := by unfold endRead; dsimp only; split <;> simp
@[simp] theorem endRead_tapes : (endRead s).tapes = s.tapes := by unfold endRead; dsimp only; split <;> simp
@[simp] theorem endRead_ribbons : (endRead s).ribbons = s.ribbons := by unfold endRead; dsimp only; split <;> simp
@[simp] theorem endRead_lines : (endRead s).lines = s.lines := by unfold endRead; dsimp only; split <;> simp
@[simp] theorem endRead_terminals : (endRead s).terminals = s.terminals :=
  by unfold endRead; dsimp only; split <;> simp
@[simp] theorem endRead_pending : (endRead s).pending = s.pending := by unfold endRead; dsimp only; split <;> simp

@[simp] theorem beginRound_time (l : LineIx) (n : BitVec 16) : (beginRound l n s).time = s.time := rfl
@[simp] theorem beginRound_por (l : LineIx) (n : BitVec 16) : (beginRound l n s).por = s.por := rfl
@[simp] theorem beginRound_phase (l : LineIx) (n : BitVec 16) : (beginRound l n s).phase = s.phase := rfl
@[simp] theorem beginRound_records (l : LineIx) (n : BitVec 16) : (beginRound l n s).records = s.records := rfl
@[simp] theorem beginRound_directory (l : LineIx) (n : BitVec 16) : (beginRound l n s).directory = s.directory := rfl
@[simp] theorem beginRound_feed (l : LineIx) (n : BitVec 16) : (beginRound l n s).feed = s.feed := rfl
@[simp] theorem beginRound_params (l : LineIx) (n : BitVec 16) : (beginRound l n s).params = s.params := rfl
@[simp] theorem beginRound_entries (l : LineIx) (n : BitVec 16) : (beginRound l n s).entries = s.entries := rfl
@[simp] theorem beginRound_pages (l : LineIx) (n : BitVec 16) : (beginRound l n s).pages = s.pages := rfl
@[simp] theorem beginRound_panels (l : LineIx) (n : BitVec 16) : (beginRound l n s).panels = s.panels := rfl
@[simp] theorem beginRound_boards (l : LineIx) (n : BitVec 16) : (beginRound l n s).boards = s.boards := rfl
@[simp] theorem beginRound_rails (l : LineIx) (n : BitVec 16) : (beginRound l n s).rails = s.rails := rfl
@[simp] theorem beginRound_verifier (l : LineIx) (n : BitVec 16) : (beginRound l n s).verifier = s.verifier := rfl
@[simp] theorem beginRound_tapes (l : LineIx) (n : BitVec 16) : (beginRound l n s).tapes = s.tapes := rfl
@[simp] theorem beginRound_ribbons (l : LineIx) (n : BitVec 16) : (beginRound l n s).ribbons = s.ribbons := rfl
@[simp] theorem beginRound_terminals (l : LineIx) (n : BitVec 16) : (beginRound l n s).terminals = s.terminals := rfl
@[simp] theorem beginRound_pending (l : LineIx) (n : BitVec 16) : (beginRound l n s).pending = s.pending := rfl

@[simp] theorem advanceRound_time (l : LineIx) : (advanceRound l s).time = s.time := by
  unfold advanceRound
  dsimp only
  (repeat' split) <;> simp
@[simp] theorem advanceRound_por (l : LineIx) : (advanceRound l s).por = s.por := by
  unfold advanceRound
  dsimp only
  (repeat' split) <;> simp
@[simp] theorem advanceRound_phase (l : LineIx) : (advanceRound l s).phase = s.phase := by
  unfold advanceRound
  dsimp only
  (repeat' split) <;> simp
@[simp] theorem advanceRound_records (l : LineIx) : (advanceRound l s).records = s.records := by
  unfold advanceRound
  dsimp only
  (repeat' split) <;> simp
@[simp] theorem advanceRound_directory (l : LineIx) : (advanceRound l s).directory = s.directory := by
  unfold advanceRound
  dsimp only
  (repeat' split) <;> simp
@[simp] theorem advanceRound_feed (l : LineIx) : (advanceRound l s).feed = s.feed := by
  unfold advanceRound
  dsimp only
  (repeat' split) <;> simp
@[simp] theorem advanceRound_params (l : LineIx) : (advanceRound l s).params = s.params := by
  unfold advanceRound
  dsimp only
  (repeat' split) <;> simp
@[simp] theorem advanceRound_entries (l : LineIx) : (advanceRound l s).entries = s.entries := by
  unfold advanceRound
  dsimp only
  (repeat' split) <;> simp
@[simp] theorem advanceRound_pages (l : LineIx) : (advanceRound l s).pages = s.pages := by
  unfold advanceRound
  dsimp only
  (repeat' split) <;> simp
@[simp] theorem advanceRound_panels (l : LineIx) : (advanceRound l s).panels = s.panels := by
  unfold advanceRound
  dsimp only
  (repeat' split) <;> simp
@[simp] theorem advanceRound_boards (l : LineIx) : (advanceRound l s).boards = s.boards := by
  unfold advanceRound
  dsimp only
  (repeat' split) <;> simp
@[simp] theorem advanceRound_rails (l : LineIx) : (advanceRound l s).rails = s.rails := by
  unfold advanceRound
  dsimp only
  (repeat' split) <;> simp
@[simp] theorem advanceRound_verifier (l : LineIx) : (advanceRound l s).verifier = s.verifier := by
  unfold advanceRound
  dsimp only
  (repeat' split) <;> simp
@[simp] theorem advanceRound_tapes (l : LineIx) : (advanceRound l s).tapes = s.tapes := by
  unfold advanceRound
  dsimp only
  (repeat' split) <;> simp
@[simp] theorem advanceRound_ribbons (l : LineIx) : (advanceRound l s).ribbons = s.ribbons := by
  unfold advanceRound
  dsimp only
  (repeat' split) <;> simp
@[simp] theorem advanceRound_terminals (l : LineIx) : (advanceRound l s).terminals = s.terminals := by
  unfold advanceRound
  dsimp only
  (repeat' split) <;> simp
@[simp] theorem advanceRound_pending (l : LineIx) : (advanceRound l s).pending = s.pending := by
  unfold advanceRound
  dsimp only
  (repeat' split) <;> simp

@[simp] theorem endVisit_time (l : LineIx) : (endVisit l s).time = s.time := by unfold endVisit; simp
@[simp] theorem endVisit_por (l : LineIx) : (endVisit l s).por = s.por := by unfold endVisit; simp
@[simp] theorem endVisit_phase (l : LineIx) : (endVisit l s).phase = s.phase := by unfold endVisit; simp
@[simp] theorem endVisit_records (l : LineIx) : (endVisit l s).records = s.records := by unfold endVisit; simp
@[simp] theorem endVisit_directory (l : LineIx) : (endVisit l s).directory = s.directory := by unfold endVisit; simp
@[simp] theorem endVisit_feed (l : LineIx) : (endVisit l s).feed = s.feed := by unfold endVisit; simp
@[simp] theorem endVisit_params (l : LineIx) : (endVisit l s).params = s.params := by unfold endVisit; simp
@[simp] theorem endVisit_entries (l : LineIx) : (endVisit l s).entries = s.entries := by unfold endVisit; simp
@[simp] theorem endVisit_pages (l : LineIx) : (endVisit l s).pages = s.pages := by unfold endVisit; simp
@[simp] theorem endVisit_panels (l : LineIx) : (endVisit l s).panels = s.panels := by unfold endVisit; simp
@[simp] theorem endVisit_boards (l : LineIx) : (endVisit l s).boards = s.boards := by unfold endVisit; simp
@[simp] theorem endVisit_rails (l : LineIx) : (endVisit l s).rails = s.rails := by unfold endVisit; simp
@[simp] theorem endVisit_verifier (l : LineIx) : (endVisit l s).verifier = s.verifier := by unfold endVisit; simp
@[simp] theorem endVisit_tapes (l : LineIx) : (endVisit l s).tapes = s.tapes := by unfold endVisit; simp
@[simp] theorem endVisit_ribbons (l : LineIx) : (endVisit l s).ribbons = s.ribbons := by unfold endVisit; simp
@[simp] theorem endVisit_terminals (l : LineIx) : (endVisit l s).terminals = s.terminals := by unfold endVisit; simp
@[simp] theorem endVisit_pending (l : LineIx) : (endVisit l s).pending = s.pending := by unfold endVisit; simp

@[simp] theorem beginVisit_time (l : LineIx) (d : DropIx) : (beginVisit l d s).time = s.time := rfl
@[simp] theorem beginVisit_por (l : LineIx) (d : DropIx) : (beginVisit l d s).por = s.por := rfl
@[simp] theorem beginVisit_phase (l : LineIx) (d : DropIx) : (beginVisit l d s).phase = s.phase := rfl
@[simp] theorem beginVisit_records (l : LineIx) (d : DropIx) : (beginVisit l d s).records = s.records := rfl
@[simp] theorem beginVisit_directory (l : LineIx) (d : DropIx) : (beginVisit l d s).directory = s.directory := rfl
@[simp] theorem beginVisit_feed (l : LineIx) (d : DropIx) : (beginVisit l d s).feed = s.feed := rfl
@[simp] theorem beginVisit_params (l : LineIx) (d : DropIx) : (beginVisit l d s).params = s.params := rfl
@[simp] theorem beginVisit_entries (l : LineIx) (d : DropIx) : (beginVisit l d s).entries = s.entries := rfl
@[simp] theorem beginVisit_pages (l : LineIx) (d : DropIx) : (beginVisit l d s).pages = s.pages := rfl
@[simp] theorem beginVisit_panels (l : LineIx) (d : DropIx) : (beginVisit l d s).panels = s.panels := rfl
@[simp] theorem beginVisit_boards (l : LineIx) (d : DropIx) : (beginVisit l d s).boards = s.boards := rfl
@[simp] theorem beginVisit_rails (l : LineIx) (d : DropIx) : (beginVisit l d s).rails = s.rails := rfl
@[simp] theorem beginVisit_verifier (l : LineIx) (d : DropIx) : (beginVisit l d s).verifier = s.verifier := rfl
@[simp] theorem beginVisit_tapes (l : LineIx) (d : DropIx) : (beginVisit l d s).tapes = s.tapes := rfl
@[simp] theorem beginVisit_ribbons (l : LineIx) (d : DropIx) : (beginVisit l d s).ribbons = s.ribbons := rfl
@[simp] theorem beginVisit_pending (l : LineIx) (d : DropIx) : (beginVisit l d s).pending = s.pending := rfl

@[simp] theorem visitNext_time (l : LineIx) (n : Nat) : (visitNext l n s).time = s.time :=
  by unfold visitNext; split <;> simp
@[simp] theorem visitNext_por (l : LineIx) (n : Nat) : (visitNext l n s).por = s.por :=
  by unfold visitNext; split <;> simp
@[simp] theorem visitNext_phase (l : LineIx) (n : Nat) : (visitNext l n s).phase = s.phase :=
  by unfold visitNext; split <;> simp
@[simp] theorem visitNext_records (l : LineIx) (n : Nat) : (visitNext l n s).records = s.records :=
  by unfold visitNext; split <;> simp
@[simp] theorem visitNext_directory (l : LineIx) (n : Nat) : (visitNext l n s).directory = s.directory :=
  by unfold visitNext; split <;> simp
@[simp] theorem visitNext_feed (l : LineIx) (n : Nat) : (visitNext l n s).feed = s.feed :=
  by unfold visitNext; split <;> simp
@[simp] theorem visitNext_params (l : LineIx) (n : Nat) : (visitNext l n s).params = s.params :=
  by unfold visitNext; split <;> simp
@[simp] theorem visitNext_entries (l : LineIx) (n : Nat) : (visitNext l n s).entries = s.entries :=
  by unfold visitNext; split <;> simp
@[simp] theorem visitNext_pages (l : LineIx) (n : Nat) : (visitNext l n s).pages = s.pages :=
  by unfold visitNext; split <;> simp
@[simp] theorem visitNext_panels (l : LineIx) (n : Nat) : (visitNext l n s).panels = s.panels :=
  by unfold visitNext; split <;> simp
@[simp] theorem visitNext_boards (l : LineIx) (n : Nat) : (visitNext l n s).boards = s.boards :=
  by unfold visitNext; split <;> simp
@[simp] theorem visitNext_rails (l : LineIx) (n : Nat) : (visitNext l n s).rails = s.rails :=
  by unfold visitNext; split <;> simp
@[simp] theorem visitNext_verifier (l : LineIx) (n : Nat) : (visitNext l n s).verifier = s.verifier :=
  by unfold visitNext; split <;> simp
@[simp] theorem visitNext_tapes (l : LineIx) (n : Nat) : (visitNext l n s).tapes = s.tapes :=
  by unfold visitNext; split <;> simp
@[simp] theorem visitNext_ribbons (l : LineIx) (n : Nat) : (visitNext l n s).ribbons = s.ribbons :=
  by unfold visitNext; split <;> simp
@[simp] theorem visitNext_pending (l : LineIx) (n : Nat) : (visitNext l n s).pending = s.pending :=
  by unfold visitNext; split <;> simp

@[simp] theorem setVisitPhase_time (l : LineIx) (v : Visit) (x : VisitPhase) : (setVisitPhase l v x s).time = s.time :=
  rfl
@[simp] theorem setVisitPhase_por (l : LineIx) (v : Visit) (x : VisitPhase) : (setVisitPhase l v x s).por = s.por :=
  rfl
@[simp] theorem setVisitPhase_phase (l : LineIx) (v : Visit) (x : VisitPhase) : (setVisitPhase l v x s).phase = s.phase :=
  rfl
@[simp] theorem setVisitPhase_records (l : LineIx) (v : Visit) (x : VisitPhase) : (setVisitPhase l v x s).records = s.records :=
  rfl
@[simp] theorem setVisitPhase_directory (l : LineIx) (v : Visit) (x : VisitPhase) : (setVisitPhase l v x s).directory = s.directory :=
  rfl
@[simp] theorem setVisitPhase_feed (l : LineIx) (v : Visit) (x : VisitPhase) : (setVisitPhase l v x s).feed = s.feed :=
  rfl
@[simp] theorem setVisitPhase_params (l : LineIx) (v : Visit) (x : VisitPhase) : (setVisitPhase l v x s).params = s.params :=
  rfl
@[simp] theorem setVisitPhase_entries (l : LineIx) (v : Visit) (x : VisitPhase) : (setVisitPhase l v x s).entries = s.entries :=
  rfl
@[simp] theorem setVisitPhase_pages (l : LineIx) (v : Visit) (x : VisitPhase) : (setVisitPhase l v x s).pages = s.pages :=
  rfl
@[simp] theorem setVisitPhase_panels (l : LineIx) (v : Visit) (x : VisitPhase) : (setVisitPhase l v x s).panels = s.panels :=
  rfl
@[simp] theorem setVisitPhase_boards (l : LineIx) (v : Visit) (x : VisitPhase) : (setVisitPhase l v x s).boards = s.boards :=
  rfl
@[simp] theorem setVisitPhase_rails (l : LineIx) (v : Visit) (x : VisitPhase) : (setVisitPhase l v x s).rails = s.rails :=
  rfl
@[simp] theorem setVisitPhase_verifier (l : LineIx) (v : Visit) (x : VisitPhase) : (setVisitPhase l v x s).verifier = s.verifier :=
  rfl
@[simp] theorem setVisitPhase_tapes (l : LineIx) (v : Visit) (x : VisitPhase) : (setVisitPhase l v x s).tapes = s.tapes :=
  rfl
@[simp] theorem setVisitPhase_ribbons (l : LineIx) (v : Visit) (x : VisitPhase) : (setVisitPhase l v x s).ribbons = s.ribbons :=
  rfl
@[simp] theorem setVisitPhase_terminals (l : LineIx) (v : Visit) (x : VisitPhase) : (setVisitPhase l v x s).terminals = s.terminals :=
  rfl
@[simp] theorem setVisitPhase_pending (l : LineIx) (v : Visit) (x : VisitPhase) : (setVisitPhase l v x s).pending = s.pending :=
  rfl

@[simp] theorem applyMiss_time (l : LineIx) (v : Visit) (x : MissCause) : (applyMiss l v x s).time = s.time := by
  unfold applyMiss
  dsimp only
  (repeat' split) <;> simp
@[simp] theorem applyMiss_por (l : LineIx) (v : Visit) (x : MissCause) : (applyMiss l v x s).por = s.por := by
  unfold applyMiss
  dsimp only
  (repeat' split) <;> simp
@[simp] theorem applyMiss_phase (l : LineIx) (v : Visit) (x : MissCause) : (applyMiss l v x s).phase = s.phase := by
  unfold applyMiss
  dsimp only
  (repeat' split) <;> simp
@[simp] theorem applyMiss_records (l : LineIx) (v : Visit) (x : MissCause) : (applyMiss l v x s).records = s.records := by
  unfold applyMiss
  dsimp only
  (repeat' split) <;> simp
@[simp] theorem applyMiss_directory (l : LineIx) (v : Visit) (x : MissCause) : (applyMiss l v x s).directory = s.directory := by
  unfold applyMiss
  dsimp only
  (repeat' split) <;> simp
@[simp] theorem applyMiss_params (l : LineIx) (v : Visit) (x : MissCause) : (applyMiss l v x s).params = s.params := by
  unfold applyMiss
  dsimp only
  (repeat' split) <;> simp
@[simp] theorem applyMiss_entries (l : LineIx) (v : Visit) (x : MissCause) : (applyMiss l v x s).entries = s.entries := by
  unfold applyMiss
  dsimp only
  (repeat' split) <;> simp
@[simp] theorem applyMiss_pages (l : LineIx) (v : Visit) (x : MissCause) : (applyMiss l v x s).pages = s.pages := by
  unfold applyMiss
  dsimp only
  (repeat' split) <;> simp
@[simp] theorem applyMiss_panels (l : LineIx) (v : Visit) (x : MissCause) : (applyMiss l v x s).panels = s.panels := by
  unfold applyMiss
  dsimp only
  (repeat' split) <;> simp
@[simp] theorem applyMiss_boards (l : LineIx) (v : Visit) (x : MissCause) : (applyMiss l v x s).boards = s.boards := by
  unfold applyMiss
  dsimp only
  (repeat' split) <;> simp
@[simp] theorem applyMiss_rails (l : LineIx) (v : Visit) (x : MissCause) : (applyMiss l v x s).rails = s.rails := by
  unfold applyMiss
  dsimp only
  (repeat' split) <;> simp
@[simp] theorem applyMiss_verifier (l : LineIx) (v : Visit) (x : MissCause) : (applyMiss l v x s).verifier = s.verifier := by
  unfold applyMiss
  dsimp only
  (repeat' split) <;> simp
@[simp] theorem applyMiss_tapes (l : LineIx) (v : Visit) (x : MissCause) : (applyMiss l v x s).tapes = s.tapes := by
  unfold applyMiss
  dsimp only
  (repeat' split) <;> simp
@[simp] theorem applyMiss_ribbons (l : LineIx) (v : Visit) (x : MissCause) : (applyMiss l v x s).ribbons = s.ribbons := by
  unfold applyMiss
  dsimp only
  (repeat' split) <;> simp
@[simp] theorem applyMiss_pending (l : LineIx) (v : Visit) (x : MissCause) : (applyMiss l v x s).pending = s.pending := by
  unfold applyMiss
  dsimp only
  (repeat' split) <;> simp

@[simp] theorem missAndSettle_time (l : LineIx) (v : Visit) (x : MissCause) : (missAndSettle l v x s).time = s.time :=
  by unfold missAndSettle; simp
@[simp] theorem missAndSettle_por (l : LineIx) (v : Visit) (x : MissCause) : (missAndSettle l v x s).por = s.por :=
  by unfold missAndSettle; simp
@[simp] theorem missAndSettle_phase (l : LineIx) (v : Visit) (x : MissCause) : (missAndSettle l v x s).phase = s.phase :=
  by unfold missAndSettle; simp
@[simp] theorem missAndSettle_records (l : LineIx) (v : Visit) (x : MissCause) : (missAndSettle l v x s).records = s.records :=
  by unfold missAndSettle; simp
@[simp] theorem missAndSettle_directory (l : LineIx) (v : Visit) (x : MissCause) : (missAndSettle l v x s).directory = s.directory :=
  by unfold missAndSettle; simp
@[simp] theorem missAndSettle_params (l : LineIx) (v : Visit) (x : MissCause) : (missAndSettle l v x s).params = s.params :=
  by unfold missAndSettle; simp
@[simp] theorem missAndSettle_entries (l : LineIx) (v : Visit) (x : MissCause) : (missAndSettle l v x s).entries = s.entries :=
  by unfold missAndSettle; simp
@[simp] theorem missAndSettle_pages (l : LineIx) (v : Visit) (x : MissCause) : (missAndSettle l v x s).pages = s.pages :=
  by unfold missAndSettle; simp
@[simp] theorem missAndSettle_panels (l : LineIx) (v : Visit) (x : MissCause) : (missAndSettle l v x s).panels = s.panels :=
  by unfold missAndSettle; simp
@[simp] theorem missAndSettle_boards (l : LineIx) (v : Visit) (x : MissCause) : (missAndSettle l v x s).boards = s.boards :=
  by unfold missAndSettle; simp
@[simp] theorem missAndSettle_rails (l : LineIx) (v : Visit) (x : MissCause) : (missAndSettle l v x s).rails = s.rails :=
  by unfold missAndSettle; simp
@[simp] theorem missAndSettle_verifier (l : LineIx) (v : Visit) (x : MissCause) : (missAndSettle l v x s).verifier = s.verifier :=
  by unfold missAndSettle; simp
@[simp] theorem missAndSettle_tapes (l : LineIx) (v : Visit) (x : MissCause) : (missAndSettle l v x s).tapes = s.tapes :=
  by unfold missAndSettle; simp
@[simp] theorem missAndSettle_ribbons (l : LineIx) (v : Visit) (x : MissCause) : (missAndSettle l v x s).ribbons = s.ribbons :=
  by unfold missAndSettle; simp
@[simp] theorem missAndSettle_pending (l : LineIx) (v : Visit) (x : MissCause) : (missAndSettle l v x s).pending = s.pending :=
  by unfold missAndSettle; simp

@[simp] theorem missAndEnd_time (l : LineIx) (v : Visit) (x : MissCause) : (missAndEnd l v x s).time = s.time :=
  by unfold missAndEnd; simp
@[simp] theorem missAndEnd_por (l : LineIx) (v : Visit) (x : MissCause) : (missAndEnd l v x s).por = s.por :=
  by unfold missAndEnd; simp
@[simp] theorem missAndEnd_phase (l : LineIx) (v : Visit) (x : MissCause) : (missAndEnd l v x s).phase = s.phase :=
  by unfold missAndEnd; simp
@[simp] theorem missAndEnd_records (l : LineIx) (v : Visit) (x : MissCause) : (missAndEnd l v x s).records = s.records :=
  by unfold missAndEnd; simp
@[simp] theorem missAndEnd_directory (l : LineIx) (v : Visit) (x : MissCause) : (missAndEnd l v x s).directory = s.directory :=
  by unfold missAndEnd; simp
@[simp] theorem missAndEnd_params (l : LineIx) (v : Visit) (x : MissCause) : (missAndEnd l v x s).params = s.params :=
  by unfold missAndEnd; simp
@[simp] theorem missAndEnd_entries (l : LineIx) (v : Visit) (x : MissCause) : (missAndEnd l v x s).entries = s.entries :=
  by unfold missAndEnd; simp
@[simp] theorem missAndEnd_pages (l : LineIx) (v : Visit) (x : MissCause) : (missAndEnd l v x s).pages = s.pages :=
  by unfold missAndEnd; simp
@[simp] theorem missAndEnd_panels (l : LineIx) (v : Visit) (x : MissCause) : (missAndEnd l v x s).panels = s.panels :=
  by unfold missAndEnd; simp
@[simp] theorem missAndEnd_boards (l : LineIx) (v : Visit) (x : MissCause) : (missAndEnd l v x s).boards = s.boards :=
  by unfold missAndEnd; simp
@[simp] theorem missAndEnd_rails (l : LineIx) (v : Visit) (x : MissCause) : (missAndEnd l v x s).rails = s.rails :=
  by unfold missAndEnd; simp
@[simp] theorem missAndEnd_verifier (l : LineIx) (v : Visit) (x : MissCause) : (missAndEnd l v x s).verifier = s.verifier :=
  by unfold missAndEnd; simp
@[simp] theorem missAndEnd_tapes (l : LineIx) (v : Visit) (x : MissCause) : (missAndEnd l v x s).tapes = s.tapes :=
  by unfold missAndEnd; simp
@[simp] theorem missAndEnd_ribbons (l : LineIx) (v : Visit) (x : MissCause) : (missAndEnd l v x s).ribbons = s.ribbons :=
  by unfold missAndEnd; simp
@[simp] theorem missAndEnd_pending (l : LineIx) (v : Visit) (x : MissCause) : (missAndEnd l v x s).pending = s.pending :=
  by unfold missAndEnd; simp

@[simp] theorem disturbQuiet_time (l : LineIx) : (disturbQuiet l s).time = s.time :=
  by unfold disturbQuiet; split <;> simp
@[simp] theorem disturbQuiet_por (l : LineIx) : (disturbQuiet l s).por = s.por :=
  by unfold disturbQuiet; split <;> simp
@[simp] theorem disturbQuiet_phase (l : LineIx) : (disturbQuiet l s).phase = s.phase :=
  by unfold disturbQuiet; split <;> simp
@[simp] theorem disturbQuiet_records (l : LineIx) : (disturbQuiet l s).records = s.records :=
  by unfold disturbQuiet; split <;> simp
@[simp] theorem disturbQuiet_directory (l : LineIx) : (disturbQuiet l s).directory = s.directory :=
  by unfold disturbQuiet; split <;> simp
@[simp] theorem disturbQuiet_feed (l : LineIx) : (disturbQuiet l s).feed = s.feed :=
  by unfold disturbQuiet; split <;> simp
@[simp] theorem disturbQuiet_params (l : LineIx) : (disturbQuiet l s).params = s.params :=
  by unfold disturbQuiet; split <;> simp
@[simp] theorem disturbQuiet_entries (l : LineIx) : (disturbQuiet l s).entries = s.entries :=
  by unfold disturbQuiet; split <;> simp
@[simp] theorem disturbQuiet_pages (l : LineIx) : (disturbQuiet l s).pages = s.pages :=
  by unfold disturbQuiet; split <;> simp
@[simp] theorem disturbQuiet_panels (l : LineIx) : (disturbQuiet l s).panels = s.panels :=
  by unfold disturbQuiet; split <;> simp
@[simp] theorem disturbQuiet_boards (l : LineIx) : (disturbQuiet l s).boards = s.boards :=
  by unfold disturbQuiet; split <;> simp
@[simp] theorem disturbQuiet_rails (l : LineIx) : (disturbQuiet l s).rails = s.rails :=
  by unfold disturbQuiet; split <;> simp
@[simp] theorem disturbQuiet_verifier (l : LineIx) : (disturbQuiet l s).verifier = s.verifier :=
  by unfold disturbQuiet; split <;> simp
@[simp] theorem disturbQuiet_tapes (l : LineIx) : (disturbQuiet l s).tapes = s.tapes :=
  by unfold disturbQuiet; split <;> simp
@[simp] theorem disturbQuiet_ribbons (l : LineIx) : (disturbQuiet l s).ribbons = s.ribbons :=
  by unfold disturbQuiet; split <;> simp
@[simp] theorem disturbQuiet_terminals (l : LineIx) : (disturbQuiet l s).terminals = s.terminals :=
  by unfold disturbQuiet; split <;> simp
@[simp] theorem disturbQuiet_pending (l : LineIx) : (disturbQuiet l s).pending = s.pending :=
  by unfold disturbQuiet; split <;> simp

@[simp] theorem notePresence_time (l : LineIx) (t : Terminal) : (notePresence l t s).time = s.time :=
  by unfold notePresence; split <;> simp
@[simp] theorem notePresence_por (l : LineIx) (t : Terminal) : (notePresence l t s).por = s.por :=
  by unfold notePresence; split <;> simp
@[simp] theorem notePresence_phase (l : LineIx) (t : Terminal) : (notePresence l t s).phase = s.phase :=
  by unfold notePresence; split <;> simp
@[simp] theorem notePresence_records (l : LineIx) (t : Terminal) : (notePresence l t s).records = s.records :=
  by unfold notePresence; split <;> simp
@[simp] theorem notePresence_directory (l : LineIx) (t : Terminal) : (notePresence l t s).directory = s.directory :=
  by unfold notePresence; split <;> simp
@[simp] theorem notePresence_params (l : LineIx) (t : Terminal) : (notePresence l t s).params = s.params :=
  by unfold notePresence; split <;> simp
@[simp] theorem notePresence_entries (l : LineIx) (t : Terminal) : (notePresence l t s).entries = s.entries :=
  by unfold notePresence; split <;> simp
@[simp] theorem notePresence_pages (l : LineIx) (t : Terminal) : (notePresence l t s).pages = s.pages :=
  by unfold notePresence; split <;> simp
@[simp] theorem notePresence_panels (l : LineIx) (t : Terminal) : (notePresence l t s).panels = s.panels :=
  by unfold notePresence; split <;> simp
@[simp] theorem notePresence_boards (l : LineIx) (t : Terminal) : (notePresence l t s).boards = s.boards :=
  by unfold notePresence; split <;> simp
@[simp] theorem notePresence_rails (l : LineIx) (t : Terminal) : (notePresence l t s).rails = s.rails :=
  by unfold notePresence; split <;> simp
@[simp] theorem notePresence_verifier (l : LineIx) (t : Terminal) : (notePresence l t s).verifier = s.verifier :=
  by unfold notePresence; split <;> simp
@[simp] theorem notePresence_tapes (l : LineIx) (t : Terminal) : (notePresence l t s).tapes = s.tapes :=
  by unfold notePresence; split <;> simp
@[simp] theorem notePresence_ribbons (l : LineIx) (t : Terminal) : (notePresence l t s).ribbons = s.ribbons :=
  by unfold notePresence; split <;> simp
@[simp] theorem notePresence_lines (l : LineIx) (t : Terminal) : (notePresence l t s).lines = s.lines :=
  by unfold notePresence; split <;> simp
@[simp] theorem notePresence_terminals (l : LineIx) (t : Terminal) : (notePresence l t s).terminals = s.terminals :=
  by unfold notePresence; split <;> simp
@[simp] theorem notePresence_pending (l : LineIx) (t : Terminal) : (notePresence l t s).pending = s.pending :=
  by unfold notePresence; split <;> simp

@[simp] theorem applyReply_time (l : LineIx) (v : Visit) (cs : List Byte) : (applyReply l v cs s).time = s.time :=
  by unfold applyReply; dsimp only; split <;> simp
@[simp] theorem applyReply_por (l : LineIx) (v : Visit) (cs : List Byte) : (applyReply l v cs s).por = s.por :=
  by unfold applyReply; dsimp only; split <;> simp
@[simp] theorem applyReply_phase (l : LineIx) (v : Visit) (cs : List Byte) : (applyReply l v cs s).phase = s.phase :=
  by unfold applyReply; dsimp only; split <;> simp
@[simp] theorem applyReply_records (l : LineIx) (v : Visit) (cs : List Byte) : (applyReply l v cs s).records = s.records :=
  by unfold applyReply; dsimp only; split <;> simp
@[simp] theorem applyReply_directory (l : LineIx) (v : Visit) (cs : List Byte) : (applyReply l v cs s).directory = s.directory :=
  by unfold applyReply; dsimp only; split <;> simp
@[simp] theorem applyReply_params (l : LineIx) (v : Visit) (cs : List Byte) : (applyReply l v cs s).params = s.params :=
  by unfold applyReply; dsimp only; split <;> simp
@[simp] theorem applyReply_entries (l : LineIx) (v : Visit) (cs : List Byte) : (applyReply l v cs s).entries = s.entries :=
  by unfold applyReply; dsimp only; split <;> simp
@[simp] theorem applyReply_pages (l : LineIx) (v : Visit) (cs : List Byte) : (applyReply l v cs s).pages = s.pages :=
  by unfold applyReply; dsimp only; split <;> simp
@[simp] theorem applyReply_panels (l : LineIx) (v : Visit) (cs : List Byte) : (applyReply l v cs s).panels = s.panels :=
  by unfold applyReply; dsimp only; split <;> simp
@[simp] theorem applyReply_boards (l : LineIx) (v : Visit) (cs : List Byte) : (applyReply l v cs s).boards = s.boards :=
  by unfold applyReply; dsimp only; split <;> simp
@[simp] theorem applyReply_rails (l : LineIx) (v : Visit) (cs : List Byte) : (applyReply l v cs s).rails = s.rails :=
  by unfold applyReply; dsimp only; split <;> simp
@[simp] theorem applyReply_verifier (l : LineIx) (v : Visit) (cs : List Byte) : (applyReply l v cs s).verifier = s.verifier :=
  by unfold applyReply; dsimp only; split <;> simp
@[simp] theorem applyReply_tapes (l : LineIx) (v : Visit) (cs : List Byte) : (applyReply l v cs s).tapes = s.tapes :=
  by unfold applyReply; dsimp only; split <;> simp
@[simp] theorem applyReply_ribbons (l : LineIx) (v : Visit) (cs : List Byte) : (applyReply l v cs s).ribbons = s.ribbons :=
  by unfold applyReply; dsimp only; split <;> simp
@[simp] theorem applyReply_lines (l : LineIx) (v : Visit) (cs : List Byte) : (applyReply l v cs s).lines = s.lines :=
  by unfold applyReply; dsimp only; split <;> simp
@[simp] theorem applyReply_pending (l : LineIx) (v : Visit) (cs : List Byte) : (applyReply l v cs s).pending = s.pending :=
  by unfold applyReply; dsimp only; split <;> simp

@[simp] theorem setEnabled_time (l : LineIx) (d : DropIx) (b : Bool) : (setEnabled l d b s).time = s.time := by
  unfold setEnabled
  dsimp only
  (repeat' split) <;> simp
@[simp] theorem setEnabled_por (l : LineIx) (d : DropIx) (b : Bool) : (setEnabled l d b s).por = s.por := by
  unfold setEnabled
  dsimp only
  (repeat' split) <;> simp
@[simp] theorem setEnabled_phase (l : LineIx) (d : DropIx) (b : Bool) : (setEnabled l d b s).phase = s.phase := by
  unfold setEnabled
  dsimp only
  (repeat' split) <;> simp
@[simp] theorem setEnabled_records (l : LineIx) (d : DropIx) (b : Bool) : (setEnabled l d b s).records = s.records := by
  unfold setEnabled
  dsimp only
  (repeat' split) <;> simp
@[simp] theorem setEnabled_directory (l : LineIx) (d : DropIx) (b : Bool) : (setEnabled l d b s).directory = s.directory := by
  unfold setEnabled
  dsimp only
  (repeat' split) <;> simp
@[simp] theorem setEnabled_feed (l : LineIx) (d : DropIx) (b : Bool) : (setEnabled l d b s).feed = s.feed := by
  unfold setEnabled
  dsimp only
  (repeat' split) <;> simp
@[simp] theorem setEnabled_params (l : LineIx) (d : DropIx) (b : Bool) : (setEnabled l d b s).params = s.params := by
  unfold setEnabled
  dsimp only
  (repeat' split) <;> simp
@[simp] theorem setEnabled_entries (l : LineIx) (d : DropIx) (b : Bool) : (setEnabled l d b s).entries = s.entries := by
  unfold setEnabled
  dsimp only
  (repeat' split) <;> simp
@[simp] theorem setEnabled_pages (l : LineIx) (d : DropIx) (b : Bool) : (setEnabled l d b s).pages = s.pages := by
  unfold setEnabled
  dsimp only
  (repeat' split) <;> simp
@[simp] theorem setEnabled_panels (l : LineIx) (d : DropIx) (b : Bool) : (setEnabled l d b s).panels = s.panels := by
  unfold setEnabled
  dsimp only
  (repeat' split) <;> simp
@[simp] theorem setEnabled_boards (l : LineIx) (d : DropIx) (b : Bool) : (setEnabled l d b s).boards = s.boards := by
  unfold setEnabled
  dsimp only
  (repeat' split) <;> simp
@[simp] theorem setEnabled_rails (l : LineIx) (d : DropIx) (b : Bool) : (setEnabled l d b s).rails = s.rails := by
  unfold setEnabled
  dsimp only
  (repeat' split) <;> simp
@[simp] theorem setEnabled_verifier (l : LineIx) (d : DropIx) (b : Bool) : (setEnabled l d b s).verifier = s.verifier := by
  unfold setEnabled
  dsimp only
  (repeat' split) <;> simp
@[simp] theorem setEnabled_tapes (l : LineIx) (d : DropIx) (b : Bool) : (setEnabled l d b s).tapes = s.tapes := by
  unfold setEnabled
  dsimp only
  (repeat' split) <;> simp
@[simp] theorem setEnabled_ribbons (l : LineIx) (d : DropIx) (b : Bool) : (setEnabled l d b s).ribbons = s.ribbons := by
  unfold setEnabled
  dsimp only
  (repeat' split) <;> simp
@[simp] theorem setEnabled_pending (l : LineIx) (d : DropIx) (b : Bool) : (setEnabled l d b s).pending = s.pending := by
  unfold setEnabled
  dsimp only
  (repeat' split) <;> simp

@[simp] theorem settleRounds_time (l : LineIx) : (settleRounds l s).time = s.time :=
  by unfold settleRounds; split <;> simp
@[simp] theorem settleRounds_por (l : LineIx) : (settleRounds l s).por = s.por :=
  by unfold settleRounds; split <;> simp
@[simp] theorem settleRounds_phase (l : LineIx) : (settleRounds l s).phase = s.phase :=
  by unfold settleRounds; split <;> simp
@[simp] theorem settleRounds_records (l : LineIx) : (settleRounds l s).records = s.records :=
  by unfold settleRounds; split <;> simp
@[simp] theorem settleRounds_directory (l : LineIx) : (settleRounds l s).directory = s.directory :=
  by unfold settleRounds; split <;> simp
@[simp] theorem settleRounds_feed (l : LineIx) : (settleRounds l s).feed = s.feed :=
  by unfold settleRounds; split <;> simp
@[simp] theorem settleRounds_params (l : LineIx) : (settleRounds l s).params = s.params :=
  by unfold settleRounds; split <;> simp
@[simp] theorem settleRounds_entries (l : LineIx) : (settleRounds l s).entries = s.entries :=
  by unfold settleRounds; split <;> simp
@[simp] theorem settleRounds_pages (l : LineIx) : (settleRounds l s).pages = s.pages :=
  by unfold settleRounds; split <;> simp
@[simp] theorem settleRounds_panels (l : LineIx) : (settleRounds l s).panels = s.panels :=
  by unfold settleRounds; split <;> simp
@[simp] theorem settleRounds_boards (l : LineIx) : (settleRounds l s).boards = s.boards :=
  by unfold settleRounds; split <;> simp
@[simp] theorem settleRounds_rails (l : LineIx) : (settleRounds l s).rails = s.rails :=
  by unfold settleRounds; split <;> simp
@[simp] theorem settleRounds_verifier (l : LineIx) : (settleRounds l s).verifier = s.verifier :=
  by unfold settleRounds; split <;> simp
@[simp] theorem settleRounds_tapes (l : LineIx) : (settleRounds l s).tapes = s.tapes :=
  by unfold settleRounds; split <;> simp
@[simp] theorem settleRounds_ribbons (l : LineIx) : (settleRounds l s).ribbons = s.ribbons :=
  by unfold settleRounds; split <;> simp
@[simp] theorem settleRounds_terminals (l : LineIx) : (settleRounds l s).terminals = s.terminals :=
  by unfold settleRounds; split <;> simp
@[simp] theorem settleRounds_pending (l : LineIx) : (settleRounds l s).pending = s.pending :=
  by unfold settleRounds; split <;> simp

@[simp] theorem enableDrops_time (l : LineIx) (m : Byte) : (enableDrops l m s).time = s.time := by
  unfold enableDrops; rw [settleRounds_time]; exact foldl_same State.time (fun s d => setEnabled_time s l d _) _ s
@[simp] theorem enableDrops_por (l : LineIx) (m : Byte) : (enableDrops l m s).por = s.por := by
  unfold enableDrops; rw [settleRounds_por]; exact foldl_same State.por (fun s d => setEnabled_por s l d _) _ s
@[simp] theorem enableDrops_phase (l : LineIx) (m : Byte) : (enableDrops l m s).phase = s.phase := by
  unfold enableDrops; rw [settleRounds_phase]; exact foldl_same State.phase (fun s d => setEnabled_phase s l d _) _ s
@[simp] theorem enableDrops_records (l : LineIx) (m : Byte) : (enableDrops l m s).records = s.records := by
  unfold enableDrops; rw [settleRounds_records]; exact foldl_same State.records (fun s d => setEnabled_records s l d _) _ s
@[simp] theorem enableDrops_directory (l : LineIx) (m : Byte) : (enableDrops l m s).directory = s.directory := by
  unfold enableDrops; rw [settleRounds_directory]; exact foldl_same State.directory (fun s d => setEnabled_directory s l d _) _ s
@[simp] theorem enableDrops_feed (l : LineIx) (m : Byte) : (enableDrops l m s).feed = s.feed := by
  unfold enableDrops; rw [settleRounds_feed]; exact foldl_same State.feed (fun s d => setEnabled_feed s l d _) _ s
@[simp] theorem enableDrops_params (l : LineIx) (m : Byte) : (enableDrops l m s).params = s.params := by
  unfold enableDrops; rw [settleRounds_params]; exact foldl_same State.params (fun s d => setEnabled_params s l d _) _ s
@[simp] theorem enableDrops_entries (l : LineIx) (m : Byte) : (enableDrops l m s).entries = s.entries := by
  unfold enableDrops; rw [settleRounds_entries]; exact foldl_same State.entries (fun s d => setEnabled_entries s l d _) _ s
@[simp] theorem enableDrops_pages (l : LineIx) (m : Byte) : (enableDrops l m s).pages = s.pages := by
  unfold enableDrops; rw [settleRounds_pages]; exact foldl_same State.pages (fun s d => setEnabled_pages s l d _) _ s
@[simp] theorem enableDrops_panels (l : LineIx) (m : Byte) : (enableDrops l m s).panels = s.panels := by
  unfold enableDrops; rw [settleRounds_panels]; exact foldl_same State.panels (fun s d => setEnabled_panels s l d _) _ s
@[simp] theorem enableDrops_boards (l : LineIx) (m : Byte) : (enableDrops l m s).boards = s.boards := by
  unfold enableDrops; rw [settleRounds_boards]; exact foldl_same State.boards (fun s d => setEnabled_boards s l d _) _ s
@[simp] theorem enableDrops_rails (l : LineIx) (m : Byte) : (enableDrops l m s).rails = s.rails := by
  unfold enableDrops; rw [settleRounds_rails]; exact foldl_same State.rails (fun s d => setEnabled_rails s l d _) _ s
@[simp] theorem enableDrops_verifier (l : LineIx) (m : Byte) : (enableDrops l m s).verifier = s.verifier := by
  unfold enableDrops; rw [settleRounds_verifier]; exact foldl_same State.verifier (fun s d => setEnabled_verifier s l d _) _ s
@[simp] theorem enableDrops_tapes (l : LineIx) (m : Byte) : (enableDrops l m s).tapes = s.tapes := by
  unfold enableDrops; rw [settleRounds_tapes]; exact foldl_same State.tapes (fun s d => setEnabled_tapes s l d _) _ s
@[simp] theorem enableDrops_ribbons (l : LineIx) (m : Byte) : (enableDrops l m s).ribbons = s.ribbons := by
  unfold enableDrops; rw [settleRounds_ribbons]; exact foldl_same State.ribbons (fun s d => setEnabled_ribbons s l d _) _ s
@[simp] theorem enableDrops_pending (l : LineIx) (m : Byte) : (enableDrops l m s).pending = s.pending := by
  unfold enableDrops; rw [settleRounds_pending]; exact foldl_same State.pending (fun s d => setEnabled_pending s l d _) _ s

@[simp] theorem evaluateTape_time (t : AB) : (evaluateTape t s).time = s.time :=
  by unfold evaluateTape; dsimp only; split <;> simp
@[simp] theorem evaluateTape_por (t : AB) : (evaluateTape t s).por = s.por :=
  by unfold evaluateTape; dsimp only; split <;> simp
@[simp] theorem evaluateTape_phase (t : AB) : (evaluateTape t s).phase = s.phase :=
  by unfold evaluateTape; dsimp only; split <;> simp
@[simp] theorem evaluateTape_records (t : AB) : (evaluateTape t s).records = s.records :=
  by unfold evaluateTape; dsimp only; split <;> simp
@[simp] theorem evaluateTape_directory (t : AB) : (evaluateTape t s).directory = s.directory :=
  by unfold evaluateTape; dsimp only; split <;> simp
@[simp] theorem evaluateTape_params (t : AB) : (evaluateTape t s).params = s.params :=
  by unfold evaluateTape; dsimp only; split <;> simp
@[simp] theorem evaluateTape_entries (t : AB) : (evaluateTape t s).entries = s.entries :=
  by unfold evaluateTape; dsimp only; split <;> simp
@[simp] theorem evaluateTape_pages (t : AB) : (evaluateTape t s).pages = s.pages :=
  by unfold evaluateTape; dsimp only; split <;> simp
@[simp] theorem evaluateTape_panels (t : AB) : (evaluateTape t s).panels = s.panels :=
  by unfold evaluateTape; dsimp only; split <;> simp
@[simp] theorem evaluateTape_boards (t : AB) : (evaluateTape t s).boards = s.boards :=
  by unfold evaluateTape; dsimp only; split <;> simp
@[simp] theorem evaluateTape_rails (t : AB) : (evaluateTape t s).rails = s.rails :=
  by unfold evaluateTape; dsimp only; split <;> simp
@[simp] theorem evaluateTape_verifier (t : AB) : (evaluateTape t s).verifier = s.verifier :=
  by unfold evaluateTape; dsimp only; split <;> simp
@[simp] theorem evaluateTape_ribbons (t : AB) : (evaluateTape t s).ribbons = s.ribbons :=
  by unfold evaluateTape; dsimp only; split <;> simp
@[simp] theorem evaluateTape_lines (t : AB) : (evaluateTape t s).lines = s.lines :=
  by unfold evaluateTape; dsimp only; split <;> simp
@[simp] theorem evaluateTape_terminals (t : AB) : (evaluateTape t s).terminals = s.terminals :=
  by unfold evaluateTape; dsimp only; split <;> simp
@[simp] theorem evaluateTape_pending (t : AB) : (evaluateTape t s).pending = s.pending :=
  by unfold evaluateTape; dsimp only; split <;> simp

@[simp] theorem choosePrint_time (t : AB) : (choosePrint t s).1.time = s.time := by
  unfold choosePrint composeHead
  dsimp only
  (repeat' split) <;> simp
@[simp] theorem choosePrint_por (t : AB) : (choosePrint t s).1.por = s.por := by
  unfold choosePrint composeHead
  dsimp only
  (repeat' split) <;> simp
@[simp] theorem choosePrint_phase (t : AB) : (choosePrint t s).1.phase = s.phase := by
  unfold choosePrint composeHead
  dsimp only
  (repeat' split) <;> simp
@[simp] theorem choosePrint_feed (t : AB) : (choosePrint t s).1.feed = s.feed := by
  unfold choosePrint composeHead
  dsimp only
  (repeat' split) <;> simp
@[simp] theorem choosePrint_params (t : AB) : (choosePrint t s).1.params = s.params := by
  unfold choosePrint composeHead
  dsimp only
  (repeat' split) <;> simp
@[simp] theorem choosePrint_entries (t : AB) : (choosePrint t s).1.entries = s.entries := by
  unfold choosePrint composeHead
  dsimp only
  (repeat' split) <;> simp
@[simp] theorem choosePrint_pages (t : AB) : (choosePrint t s).1.pages = s.pages := by
  unfold choosePrint composeHead
  dsimp only
  (repeat' split) <;> simp
@[simp] theorem choosePrint_panels (t : AB) : (choosePrint t s).1.panels = s.panels := by
  unfold choosePrint composeHead
  dsimp only
  (repeat' split) <;> simp
@[simp] theorem choosePrint_boards (t : AB) : (choosePrint t s).1.boards = s.boards := by
  unfold choosePrint composeHead
  dsimp only
  (repeat' split) <;> simp
@[simp] theorem choosePrint_rails (t : AB) : (choosePrint t s).1.rails = s.rails := by
  unfold choosePrint composeHead
  dsimp only
  (repeat' split) <;> simp
@[simp] theorem choosePrint_verifier (t : AB) : (choosePrint t s).1.verifier = s.verifier := by
  unfold choosePrint composeHead
  dsimp only
  (repeat' split) <;> simp
@[simp] theorem choosePrint_ribbons (t : AB) : (choosePrint t s).1.ribbons = s.ribbons := by
  unfold choosePrint composeHead
  dsimp only
  (repeat' split) <;> simp
@[simp] theorem choosePrint_lines (t : AB) : (choosePrint t s).1.lines = s.lines := by
  unfold choosePrint composeHead
  dsimp only
  (repeat' split) <;> simp
@[simp] theorem choosePrint_terminals (t : AB) : (choosePrint t s).1.terminals = s.terminals := by
  unfold choosePrint composeHead
  dsimp only
  (repeat' split) <;> simp
@[simp] theorem choosePrint_pending (t : AB) : (choosePrint t s).1.pending = s.pending := by
  unfold choosePrint composeHead
  dsimp only
  (repeat' split) <;> simp

@[simp] theorem chooseItem_time (t : AB) : (chooseItem t s).1.time = s.time := by
  unfold chooseItem
  dsimp only
  (repeat' split) <;> simp
@[simp] theorem chooseItem_por (t : AB) : (chooseItem t s).1.por = s.por := by
  unfold chooseItem
  dsimp only
  (repeat' split) <;> simp
@[simp] theorem chooseItem_phase (t : AB) : (chooseItem t s).1.phase = s.phase := by
  unfold chooseItem
  dsimp only
  (repeat' split) <;> simp
@[simp] theorem chooseItem_feed (t : AB) : (chooseItem t s).1.feed = s.feed := by
  unfold chooseItem
  dsimp only
  (repeat' split) <;> simp
@[simp] theorem chooseItem_params (t : AB) : (chooseItem t s).1.params = s.params := by
  unfold chooseItem
  dsimp only
  (repeat' split) <;> simp
@[simp] theorem chooseItem_entries (t : AB) : (chooseItem t s).1.entries = s.entries := by
  unfold chooseItem
  dsimp only
  (repeat' split) <;> simp
@[simp] theorem chooseItem_pages (t : AB) : (chooseItem t s).1.pages = s.pages := by
  unfold chooseItem
  dsimp only
  (repeat' split) <;> simp
@[simp] theorem chooseItem_panels (t : AB) : (chooseItem t s).1.panels = s.panels := by
  unfold chooseItem
  dsimp only
  (repeat' split) <;> simp
@[simp] theorem chooseItem_boards (t : AB) : (chooseItem t s).1.boards = s.boards := by
  unfold chooseItem
  dsimp only
  (repeat' split) <;> simp
@[simp] theorem chooseItem_rails (t : AB) : (chooseItem t s).1.rails = s.rails := by
  unfold chooseItem
  dsimp only
  (repeat' split) <;> simp
@[simp] theorem chooseItem_verifier (t : AB) : (chooseItem t s).1.verifier = s.verifier := by
  unfold chooseItem
  dsimp only
  (repeat' split) <;> simp
@[simp] theorem chooseItem_ribbons (t : AB) : (chooseItem t s).1.ribbons = s.ribbons := by
  unfold chooseItem
  dsimp only
  (repeat' split) <;> simp
@[simp] theorem chooseItem_lines (t : AB) : (chooseItem t s).1.lines = s.lines := by
  unfold chooseItem
  dsimp only
  (repeat' split) <;> simp
@[simp] theorem chooseItem_terminals (t : AB) : (chooseItem t s).1.terminals = s.terminals := by
  unfold chooseItem
  dsimp only
  (repeat' split) <;> simp
@[simp] theorem chooseItem_pending (t : AB) : (chooseItem t s).1.pending = s.pending := by
  unfold chooseItem
  dsimp only
  (repeat' split) <;> simp

@[simp] theorem select_time (t : AB) : (select t s).1.time = s.time := by unfold select; simp
@[simp] theorem select_por (t : AB) : (select t s).1.por = s.por := by unfold select; simp
@[simp] theorem select_phase (t : AB) : (select t s).1.phase = s.phase := by unfold select; simp
@[simp] theorem select_params (t : AB) : (select t s).1.params = s.params := by unfold select; simp
@[simp] theorem select_entries (t : AB) : (select t s).1.entries = s.entries := by unfold select; simp
@[simp] theorem select_pages (t : AB) : (select t s).1.pages = s.pages := by unfold select; simp
@[simp] theorem select_panels (t : AB) : (select t s).1.panels = s.panels := by unfold select; simp
@[simp] theorem select_boards (t : AB) : (select t s).1.boards = s.boards := by unfold select; simp
@[simp] theorem select_rails (t : AB) : (select t s).1.rails = s.rails := by unfold select; simp
@[simp] theorem select_verifier (t : AB) : (select t s).1.verifier = s.verifier := by unfold select; simp
@[simp] theorem select_ribbons (t : AB) : (select t s).1.ribbons = s.ribbons := by unfold select; simp
@[simp] theorem select_lines (t : AB) : (select t s).1.lines = s.lines := by unfold select; simp
@[simp] theorem select_terminals (t : AB) : (select t s).1.terminals = s.terminals := by unfold select; simp
@[simp] theorem select_pending (t : AB) : (select t s).1.pending = s.pending := by unfold select; simp

@[simp] theorem noteNoticeDone_time (t : AB) (k : ItemKind) (x : Text) : (noteNoticeDone t k x s).time = s.time :=
  by unfold noteNoticeDone; split <;> simp
@[simp] theorem noteNoticeDone_por (t : AB) (k : ItemKind) (x : Text) : (noteNoticeDone t k x s).por = s.por :=
  by unfold noteNoticeDone; split <;> simp
@[simp] theorem noteNoticeDone_phase (t : AB) (k : ItemKind) (x : Text) : (noteNoticeDone t k x s).phase = s.phase :=
  by unfold noteNoticeDone; split <;> simp
@[simp] theorem noteNoticeDone_records (t : AB) (k : ItemKind) (x : Text) : (noteNoticeDone t k x s).records = s.records :=
  by unfold noteNoticeDone; split <;> simp
@[simp] theorem noteNoticeDone_directory (t : AB) (k : ItemKind) (x : Text) : (noteNoticeDone t k x s).directory = s.directory :=
  by unfold noteNoticeDone; split <;> simp
@[simp] theorem noteNoticeDone_params (t : AB) (k : ItemKind) (x : Text) : (noteNoticeDone t k x s).params = s.params :=
  by unfold noteNoticeDone; split <;> simp
@[simp] theorem noteNoticeDone_entries (t : AB) (k : ItemKind) (x : Text) : (noteNoticeDone t k x s).entries = s.entries :=
  by unfold noteNoticeDone; split <;> simp
@[simp] theorem noteNoticeDone_pages (t : AB) (k : ItemKind) (x : Text) : (noteNoticeDone t k x s).pages = s.pages :=
  by unfold noteNoticeDone; split <;> simp
@[simp] theorem noteNoticeDone_panels (t : AB) (k : ItemKind) (x : Text) : (noteNoticeDone t k x s).panels = s.panels :=
  by unfold noteNoticeDone; split <;> simp
@[simp] theorem noteNoticeDone_boards (t : AB) (k : ItemKind) (x : Text) : (noteNoticeDone t k x s).boards = s.boards :=
  by unfold noteNoticeDone; split <;> simp
@[simp] theorem noteNoticeDone_rails (t : AB) (k : ItemKind) (x : Text) : (noteNoticeDone t k x s).rails = s.rails :=
  by unfold noteNoticeDone; split <;> simp
@[simp] theorem noteNoticeDone_verifier (t : AB) (k : ItemKind) (x : Text) : (noteNoticeDone t k x s).verifier = s.verifier :=
  by unfold noteNoticeDone; split <;> simp
@[simp] theorem noteNoticeDone_tapes (t : AB) (k : ItemKind) (x : Text) : (noteNoticeDone t k x s).tapes = s.tapes :=
  by unfold noteNoticeDone; split <;> simp
@[simp] theorem noteNoticeDone_ribbons (t : AB) (k : ItemKind) (x : Text) : (noteNoticeDone t k x s).ribbons = s.ribbons :=
  by unfold noteNoticeDone; split <;> simp
@[simp] theorem noteNoticeDone_lines (t : AB) (k : ItemKind) (x : Text) : (noteNoticeDone t k x s).lines = s.lines :=
  by unfold noteNoticeDone; split <;> simp
@[simp] theorem noteNoticeDone_terminals (t : AB) (k : ItemKind) (x : Text) : (noteNoticeDone t k x s).terminals = s.terminals :=
  by unfold noteNoticeDone; split <;> simp
@[simp] theorem noteNoticeDone_pending (t : AB) (k : ItemKind) (x : Text) : (noteNoticeDone t k x s).pending = s.pending :=
  by unfold noteNoticeDone; split <;> simp

@[simp] theorem enter_time (t : AB) (x : RibbonState) (k : ItemKind) (c : Byte) (y : Text) : (enter t x k c y s).time = s.time :=
  by unfold enter; simp
@[simp] theorem enter_por (t : AB) (x : RibbonState) (k : ItemKind) (c : Byte) (y : Text) : (enter t x k c y s).por = s.por :=
  by unfold enter; simp
@[simp] theorem enter_phase (t : AB) (x : RibbonState) (k : ItemKind) (c : Byte) (y : Text) : (enter t x k c y s).phase = s.phase :=
  by unfold enter; simp
@[simp] theorem enter_records (t : AB) (x : RibbonState) (k : ItemKind) (c : Byte) (y : Text) : (enter t x k c y s).records = s.records :=
  by unfold enter; simp
@[simp] theorem enter_directory (t : AB) (x : RibbonState) (k : ItemKind) (c : Byte) (y : Text) : (enter t x k c y s).directory = s.directory :=
  by unfold enter; simp
@[simp] theorem enter_params (t : AB) (x : RibbonState) (k : ItemKind) (c : Byte) (y : Text) : (enter t x k c y s).params = s.params :=
  by unfold enter; simp
@[simp] theorem enter_entries (t : AB) (x : RibbonState) (k : ItemKind) (c : Byte) (y : Text) : (enter t x k c y s).entries = s.entries :=
  by unfold enter; simp
@[simp] theorem enter_pages (t : AB) (x : RibbonState) (k : ItemKind) (c : Byte) (y : Text) : (enter t x k c y s).pages = s.pages :=
  by unfold enter; simp
@[simp] theorem enter_panels (t : AB) (x : RibbonState) (k : ItemKind) (c : Byte) (y : Text) : (enter t x k c y s).panels = s.panels :=
  by unfold enter; simp
@[simp] theorem enter_boards (t : AB) (x : RibbonState) (k : ItemKind) (c : Byte) (y : Text) : (enter t x k c y s).boards = s.boards :=
  by unfold enter; simp
@[simp] theorem enter_rails (t : AB) (x : RibbonState) (k : ItemKind) (c : Byte) (y : Text) : (enter t x k c y s).rails = s.rails :=
  by unfold enter; simp
@[simp] theorem enter_verifier (t : AB) (x : RibbonState) (k : ItemKind) (c : Byte) (y : Text) : (enter t x k c y s).verifier = s.verifier :=
  by unfold enter; simp
@[simp] theorem enter_tapes (t : AB) (x : RibbonState) (k : ItemKind) (c : Byte) (y : Text) : (enter t x k c y s).tapes = s.tapes :=
  by unfold enter; simp
@[simp] theorem enter_lines (t : AB) (x : RibbonState) (k : ItemKind) (c : Byte) (y : Text) : (enter t x k c y s).lines = s.lines :=
  by unfold enter; simp
@[simp] theorem enter_terminals (t : AB) (x : RibbonState) (k : ItemKind) (c : Byte) (y : Text) : (enter t x k c y s).terminals = s.terminals :=
  by unfold enter; simp
@[simp] theorem enter_pending (t : AB) (x : RibbonState) (k : ItemKind) (c : Byte) (y : Text) : (enter t x k c y s).pending = s.pending :=
  by unfold enter; simp

@[simp] theorem stepSelect_time (t : AB) (x : RibbonState) : (stepSelect t x s).time = s.time := by
  have h := select_time s t
  unfold stepSelect; split <;> simp_all
@[simp] theorem stepSelect_por (t : AB) (x : RibbonState) : (stepSelect t x s).por = s.por := by
  have h := select_por s t
  unfold stepSelect; split <;> simp_all
@[simp] theorem stepSelect_phase (t : AB) (x : RibbonState) : (stepSelect t x s).phase = s.phase := by
  have h := select_phase s t
  unfold stepSelect; split <;> simp_all
@[simp] theorem stepSelect_params (t : AB) (x : RibbonState) : (stepSelect t x s).params = s.params := by
  have h := select_params s t
  unfold stepSelect; split <;> simp_all
@[simp] theorem stepSelect_entries (t : AB) (x : RibbonState) : (stepSelect t x s).entries = s.entries := by
  have h := select_entries s t
  unfold stepSelect; split <;> simp_all
@[simp] theorem stepSelect_pages (t : AB) (x : RibbonState) : (stepSelect t x s).pages = s.pages := by
  have h := select_pages s t
  unfold stepSelect; split <;> simp_all
@[simp] theorem stepSelect_panels (t : AB) (x : RibbonState) : (stepSelect t x s).panels = s.panels := by
  have h := select_panels s t
  unfold stepSelect; split <;> simp_all
@[simp] theorem stepSelect_boards (t : AB) (x : RibbonState) : (stepSelect t x s).boards = s.boards := by
  have h := select_boards s t
  unfold stepSelect; split <;> simp_all
@[simp] theorem stepSelect_rails (t : AB) (x : RibbonState) : (stepSelect t x s).rails = s.rails := by
  have h := select_rails s t
  unfold stepSelect; split <;> simp_all
@[simp] theorem stepSelect_verifier (t : AB) (x : RibbonState) : (stepSelect t x s).verifier = s.verifier := by
  have h := select_verifier s t
  unfold stepSelect; split <;> simp_all
@[simp] theorem stepSelect_lines (t : AB) (x : RibbonState) : (stepSelect t x s).lines = s.lines := by
  have h := select_lines s t
  unfold stepSelect; split <;> simp_all
@[simp] theorem stepSelect_terminals (t : AB) (x : RibbonState) : (stepSelect t x s).terminals = s.terminals := by
  have h := select_terminals s t
  unfold stepSelect; split <;> simp_all
@[simp] theorem stepSelect_pending (t : AB) (x : RibbonState) : (stepSelect t x s).pending = s.pending := by
  have h := select_pending s t
  unfold stepSelect; split <;> simp_all

@[simp] theorem noteIntact_time : (noteIntact s).time = s.time := by unfold noteIntact; dsimp only; split <;> simp
@[simp] theorem noteIntact_por : (noteIntact s).por = s.por := by unfold noteIntact; dsimp only; split <;> simp
@[simp] theorem noteIntact_phase : (noteIntact s).phase = s.phase := by unfold noteIntact; dsimp only; split <;> simp
@[simp] theorem noteIntact_records : (noteIntact s).records = s.records :=
  by unfold noteIntact; dsimp only; split <;> simp
@[simp] theorem noteIntact_directory : (noteIntact s).directory = s.directory :=
  by unfold noteIntact; dsimp only; split <;> simp
@[simp] theorem noteIntact_params : (noteIntact s).params = s.params :=
  by unfold noteIntact; dsimp only; split <;> simp
@[simp] theorem noteIntact_entries : (noteIntact s).entries = s.entries :=
  by unfold noteIntact; dsimp only; split <;> simp
@[simp] theorem noteIntact_pages : (noteIntact s).pages = s.pages := by unfold noteIntact; dsimp only; split <;> simp
@[simp] theorem noteIntact_panels : (noteIntact s).panels = s.panels :=
  by unfold noteIntact; dsimp only; split <;> simp
@[simp] theorem noteIntact_rails : (noteIntact s).rails = s.rails := by unfold noteIntact; dsimp only; split <;> simp
@[simp] theorem noteIntact_ribbons : (noteIntact s).ribbons = s.ribbons :=
  by unfold noteIntact; dsimp only; split <;> simp
@[simp] theorem noteIntact_lines : (noteIntact s).lines = s.lines := by unfold noteIntact; dsimp only; split <;> simp
@[simp] theorem noteIntact_terminals : (noteIntact s).terminals = s.terminals :=
  by unfold noteIntact; dsimp only; split <;> simp
@[simp] theorem noteIntact_pending : (noteIntact s).pending = s.pending :=
  by unfold noteIntact; dsimp only; split <;> simp

@[simp] theorem queueFrame_time (f : Frame) : (queueFrame f s).time = s.time :=
  by unfold queueFrame; dsimp only; split <;> simp
@[simp] theorem queueFrame_por (f : Frame) : (queueFrame f s).por = s.por :=
  by unfold queueFrame; dsimp only; split <;> simp
@[simp] theorem queueFrame_phase (f : Frame) : (queueFrame f s).phase = s.phase :=
  by unfold queueFrame; dsimp only; split <;> simp
@[simp] theorem queueFrame_records (f : Frame) : (queueFrame f s).records = s.records :=
  by unfold queueFrame; dsimp only; split <;> simp
@[simp] theorem queueFrame_directory (f : Frame) : (queueFrame f s).directory = s.directory :=
  by unfold queueFrame; dsimp only; split <;> simp
@[simp] theorem queueFrame_params (f : Frame) : (queueFrame f s).params = s.params :=
  by unfold queueFrame; dsimp only; split <;> simp
@[simp] theorem queueFrame_entries (f : Frame) : (queueFrame f s).entries = s.entries :=
  by unfold queueFrame; dsimp only; split <;> simp
@[simp] theorem queueFrame_pages (f : Frame) : (queueFrame f s).pages = s.pages :=
  by unfold queueFrame; dsimp only; split <;> simp
@[simp] theorem queueFrame_panels (f : Frame) : (queueFrame f s).panels = s.panels :=
  by unfold queueFrame; dsimp only; split <;> simp
@[simp] theorem queueFrame_boards (f : Frame) : (queueFrame f s).boards = s.boards :=
  by unfold queueFrame; dsimp only; split <;> simp
@[simp] theorem queueFrame_rails (f : Frame) : (queueFrame f s).rails = s.rails :=
  by unfold queueFrame; dsimp only; split <;> simp
@[simp] theorem queueFrame_verifier (f : Frame) : (queueFrame f s).verifier = s.verifier :=
  by unfold queueFrame; dsimp only; split <;> simp
@[simp] theorem queueFrame_tapes (f : Frame) : (queueFrame f s).tapes = s.tapes :=
  by unfold queueFrame; dsimp only; split <;> simp
@[simp] theorem queueFrame_ribbons (f : Frame) : (queueFrame f s).ribbons = s.ribbons :=
  by unfold queueFrame; dsimp only; split <;> simp
@[simp] theorem queueFrame_lines (f : Frame) : (queueFrame f s).lines = s.lines :=
  by unfold queueFrame; dsimp only; split <;> simp
@[simp] theorem queueFrame_terminals (f : Frame) : (queueFrame f s).terminals = s.terminals :=
  by unfold queueFrame; dsimp only; split <;> simp
@[simp] theorem queueFrame_pending (f : Frame) : (queueFrame f s).pending = s.pending :=
  by unfold queueFrame; dsimp only; split <;> simp

@[simp] theorem restartFeed_time : (restartFeed s).time = s.time := rfl
@[simp] theorem restartFeed_por : (restartFeed s).por = s.por := rfl
@[simp] theorem restartFeed_phase : (restartFeed s).phase = s.phase := rfl
@[simp] theorem restartFeed_records : (restartFeed s).records = s.records := rfl
@[simp] theorem restartFeed_directory : (restartFeed s).directory = s.directory := rfl
@[simp] theorem restartFeed_params : (restartFeed s).params = s.params := rfl
@[simp] theorem restartFeed_entries : (restartFeed s).entries = s.entries := rfl
@[simp] theorem restartFeed_pages : (restartFeed s).pages = s.pages := rfl
@[simp] theorem restartFeed_panels : (restartFeed s).panels = s.panels := rfl
@[simp] theorem restartFeed_boards : (restartFeed s).boards = s.boards := rfl
@[simp] theorem restartFeed_rails : (restartFeed s).rails = s.rails := rfl
@[simp] theorem restartFeed_verifier : (restartFeed s).verifier = s.verifier := rfl
@[simp] theorem restartFeed_tapes : (restartFeed s).tapes = s.tapes := rfl
@[simp] theorem restartFeed_ribbons : (restartFeed s).ribbons = s.ribbons := rfl
@[simp] theorem restartFeed_lines : (restartFeed s).lines = s.lines := rfl
@[simp] theorem restartFeed_terminals : (restartFeed s).terminals = s.terminals := rfl
@[simp] theorem restartFeed_pending : (restartFeed s).pending = s.pending := rfl

@[simp] theorem restartTapes_time : (restartTapes s).time = s.time := by unfold restartTapes; simp
@[simp] theorem restartTapes_por : (restartTapes s).por = s.por := by unfold restartTapes; simp
@[simp] theorem restartTapes_phase : (restartTapes s).phase = s.phase := by unfold restartTapes; simp
@[simp] theorem restartTapes_feed : (restartTapes s).feed = s.feed := by unfold restartTapes; simp
@[simp] theorem restartTapes_params : (restartTapes s).params = s.params := by unfold restartTapes; simp
@[simp] theorem restartTapes_entries : (restartTapes s).entries = s.entries := by unfold restartTapes; simp
@[simp] theorem restartTapes_pages : (restartTapes s).pages = s.pages := by unfold restartTapes; simp
@[simp] theorem restartTapes_panels : (restartTapes s).panels = s.panels := by unfold restartTapes; simp
@[simp] theorem restartTapes_boards : (restartTapes s).boards = s.boards := by unfold restartTapes; simp
@[simp] theorem restartTapes_rails : (restartTapes s).rails = s.rails := by unfold restartTapes; simp
@[simp] theorem restartTapes_verifier : (restartTapes s).verifier = s.verifier := by unfold restartTapes; simp
@[simp] theorem restartTapes_lines : (restartTapes s).lines = s.lines := by unfold restartTapes; simp
@[simp] theorem restartTapes_terminals : (restartTapes s).terminals = s.terminals := by unfold restartTapes; simp
@[simp] theorem restartTapes_pending : (restartTapes s).pending = s.pending := by unfold restartTapes; simp

@[simp] theorem abandonWrite_time : (abandonWrite s).time = s.time := by unfold abandonWrite; split <;> simp
@[simp] theorem abandonWrite_por : (abandonWrite s).por = s.por := by unfold abandonWrite; split <;> simp
@[simp] theorem abandonWrite_phase : (abandonWrite s).phase = s.phase := by unfold abandonWrite; split <;> simp
@[simp] theorem abandonWrite_records : (abandonWrite s).records = s.records := by unfold abandonWrite; split <;> simp
@[simp] theorem abandonWrite_directory : (abandonWrite s).directory = s.directory :=
  by unfold abandonWrite; split <;> simp
@[simp] theorem abandonWrite_feed : (abandonWrite s).feed = s.feed := by unfold abandonWrite; split <;> simp
@[simp] theorem abandonWrite_params : (abandonWrite s).params = s.params := by unfold abandonWrite; split <;> simp
@[simp] theorem abandonWrite_entries : (abandonWrite s).entries = s.entries := by unfold abandonWrite; split <;> simp
@[simp] theorem abandonWrite_pages : (abandonWrite s).pages = s.pages := by unfold abandonWrite; split <;> simp
@[simp] theorem abandonWrite_panels : (abandonWrite s).panels = s.panels := by unfold abandonWrite; split <;> simp
@[simp] theorem abandonWrite_rails : (abandonWrite s).rails = s.rails := by unfold abandonWrite; split <;> simp
@[simp] theorem abandonWrite_verifier : (abandonWrite s).verifier = s.verifier :=
  by unfold abandonWrite; split <;> simp
@[simp] theorem abandonWrite_tapes : (abandonWrite s).tapes = s.tapes := by unfold abandonWrite; split <;> simp
@[simp] theorem abandonWrite_ribbons : (abandonWrite s).ribbons = s.ribbons := by unfold abandonWrite; split <;> simp
@[simp] theorem abandonWrite_lines : (abandonWrite s).lines = s.lines := by unfold abandonWrite; split <;> simp
@[simp] theorem abandonWrite_terminals : (abandonWrite s).terminals = s.terminals :=
  by unfold abandonWrite; split <;> simp
@[simp] theorem abandonWrite_pending : (abandonWrite s).pending = s.pending := by unfold abandonWrite; split <;> simp

@[simp] theorem restartBoards_time : (restartBoards s).time = s.time := by unfold restartBoards; simp
@[simp] theorem restartBoards_por : (restartBoards s).por = s.por := by unfold restartBoards; simp
@[simp] theorem restartBoards_phase : (restartBoards s).phase = s.phase := by unfold restartBoards; simp
@[simp] theorem restartBoards_records : (restartBoards s).records = s.records := by unfold restartBoards; simp
@[simp] theorem restartBoards_directory : (restartBoards s).directory = s.directory := by unfold restartBoards; simp
@[simp] theorem restartBoards_feed : (restartBoards s).feed = s.feed := by unfold restartBoards; simp
@[simp] theorem restartBoards_params : (restartBoards s).params = s.params := by unfold restartBoards; simp
@[simp] theorem restartBoards_entries : (restartBoards s).entries = s.entries := by unfold restartBoards; simp
@[simp] theorem restartBoards_pages : (restartBoards s).pages = s.pages := by unfold restartBoards; simp
@[simp] theorem restartBoards_panels : (restartBoards s).panels = s.panels := by unfold restartBoards; simp
@[simp] theorem restartBoards_rails : (restartBoards s).rails = s.rails := by unfold restartBoards; simp
@[simp] theorem restartBoards_verifier : (restartBoards s).verifier = s.verifier := by unfold restartBoards; simp
@[simp] theorem restartBoards_tapes : (restartBoards s).tapes = s.tapes := by unfold restartBoards; simp
@[simp] theorem restartBoards_ribbons : (restartBoards s).ribbons = s.ribbons := by unfold restartBoards; simp
@[simp] theorem restartBoards_lines : (restartBoards s).lines = s.lines := by unfold restartBoards; simp
@[simp] theorem restartBoards_terminals : (restartBoards s).terminals = s.terminals := by unfold restartBoards; simp
@[simp] theorem restartBoards_pending : (restartBoards s).pending = s.pending := by unfold restartBoards; simp

@[simp] theorem restartVerifier_time : (restartVerifier s).time = s.time := by
  unfold restartVerifier
  dsimp only
  (repeat' split) <;> simp
@[simp] theorem restartVerifier_por : (restartVerifier s).por = s.por := by
  unfold restartVerifier
  dsimp only
  (repeat' split) <;> simp
@[simp] theorem restartVerifier_phase : (restartVerifier s).phase = s.phase := by
  unfold restartVerifier
  dsimp only
  (repeat' split) <;> simp
@[simp] theorem restartVerifier_records : (restartVerifier s).records = s.records := by
  unfold restartVerifier
  dsimp only
  (repeat' split) <;> simp
@[simp] theorem restartVerifier_directory : (restartVerifier s).directory = s.directory := by
  unfold restartVerifier
  dsimp only
  (repeat' split) <;> simp
@[simp] theorem restartVerifier_feed : (restartVerifier s).feed = s.feed := by
  unfold restartVerifier
  dsimp only
  (repeat' split) <;> simp
@[simp] theorem restartVerifier_params : (restartVerifier s).params = s.params := by
  unfold restartVerifier
  dsimp only
  (repeat' split) <;> simp
@[simp] theorem restartVerifier_entries : (restartVerifier s).entries = s.entries := by
  unfold restartVerifier
  dsimp only
  (repeat' split) <;> simp
@[simp] theorem restartVerifier_pages : (restartVerifier s).pages = s.pages := by
  unfold restartVerifier
  dsimp only
  (repeat' split) <;> simp
@[simp] theorem restartVerifier_panels : (restartVerifier s).panels = s.panels := by
  unfold restartVerifier
  dsimp only
  (repeat' split) <;> simp
@[simp] theorem restartVerifier_rails : (restartVerifier s).rails = s.rails := by
  unfold restartVerifier
  dsimp only
  (repeat' split) <;> simp
@[simp] theorem restartVerifier_tapes : (restartVerifier s).tapes = s.tapes := by
  unfold restartVerifier
  dsimp only
  (repeat' split) <;> simp
@[simp] theorem restartVerifier_ribbons : (restartVerifier s).ribbons = s.ribbons := by
  unfold restartVerifier
  dsimp only
  (repeat' split) <;> simp
@[simp] theorem restartVerifier_lines : (restartVerifier s).lines = s.lines := by
  unfold restartVerifier
  dsimp only
  (repeat' split) <;> simp
@[simp] theorem restartVerifier_terminals : (restartVerifier s).terminals = s.terminals := by
  unfold restartVerifier
  dsimp only
  (repeat' split) <;> simp
@[simp] theorem restartVerifier_pending : (restartVerifier s).pending = s.pending := by
  unfold restartVerifier
  dsimp only
  (repeat' split) <;> simp

@[simp] theorem reshowAll_time : (reshowAll s).time = s.time := rfl
@[simp] theorem reshowAll_por : (reshowAll s).por = s.por := rfl
@[simp] theorem reshowAll_phase : (reshowAll s).phase = s.phase := rfl
@[simp] theorem reshowAll_records : (reshowAll s).records = s.records := rfl
@[simp] theorem reshowAll_directory : (reshowAll s).directory = s.directory := rfl
@[simp] theorem reshowAll_feed : (reshowAll s).feed = s.feed := rfl
@[simp] theorem reshowAll_params : (reshowAll s).params = s.params := rfl
@[simp] theorem reshowAll_entries : (reshowAll s).entries = s.entries := rfl
@[simp] theorem reshowAll_pages : (reshowAll s).pages = s.pages := rfl
@[simp] theorem reshowAll_panels : (reshowAll s).panels = s.panels := rfl
@[simp] theorem reshowAll_rails : (reshowAll s).rails = s.rails := rfl
@[simp] theorem reshowAll_tapes : (reshowAll s).tapes = s.tapes := rfl
@[simp] theorem reshowAll_ribbons : (reshowAll s).ribbons = s.ribbons := rfl
@[simp] theorem reshowAll_lines : (reshowAll s).lines = s.lines := rfl
@[simp] theorem reshowAll_terminals : (reshowAll s).terminals = s.terminals := rfl
@[simp] theorem reshowAll_pending : (reshowAll s).pending = s.pending := rfl

@[simp] theorem restartLines_time : (restartLines s).time = s.time := rfl
@[simp] theorem restartLines_por : (restartLines s).por = s.por := rfl
@[simp] theorem restartLines_phase : (restartLines s).phase = s.phase := rfl
@[simp] theorem restartLines_records : (restartLines s).records = s.records := rfl
@[simp] theorem restartLines_directory : (restartLines s).directory = s.directory := rfl
@[simp] theorem restartLines_feed : (restartLines s).feed = s.feed := rfl
@[simp] theorem restartLines_params : (restartLines s).params = s.params := rfl
@[simp] theorem restartLines_entries : (restartLines s).entries = s.entries := rfl
@[simp] theorem restartLines_pages : (restartLines s).pages = s.pages := rfl
@[simp] theorem restartLines_panels : (restartLines s).panels = s.panels := rfl
@[simp] theorem restartLines_boards : (restartLines s).boards = s.boards := rfl
@[simp] theorem restartLines_rails : (restartLines s).rails = s.rails := rfl
@[simp] theorem restartLines_verifier : (restartLines s).verifier = s.verifier := rfl
@[simp] theorem restartLines_tapes : (restartLines s).tapes = s.tapes := rfl
@[simp] theorem restartLines_ribbons : (restartLines s).ribbons = s.ribbons := rfl
@[simp] theorem restartLines_pending : (restartLines s).pending = s.pending := rfl

@[simp] theorem restartAll_time : (restartAll s).time = s.time := by unfold restartAll; simp
@[simp] theorem restartAll_por : (restartAll s).por = s.por := by unfold restartAll; simp
@[simp] theorem restartAll_phase : (restartAll s).phase = s.phase := by unfold restartAll; simp
@[simp] theorem restartAll_params : (restartAll s).params = s.params := by unfold restartAll; simp
@[simp] theorem restartAll_entries : (restartAll s).entries = s.entries := by unfold restartAll; simp
@[simp] theorem restartAll_pages : (restartAll s).pages = s.pages := by unfold restartAll; simp
@[simp] theorem restartAll_panels : (restartAll s).panels = s.panels := by unfold restartAll; simp
@[simp] theorem restartAll_rails : (restartAll s).rails = s.rails := by unfold restartAll; simp
@[simp] theorem restartAll_pending : (restartAll s).pending = s.pending := by unfold restartAll; simp

end Sys2Proof.Machine
end

