-- ==== Sys2Proof/Laws/Commands.lean ====
section
/-! SUPPORT. What each command can change: its whole effect is written as an update of the fields that it may touch. A
field that the update does not name is left alone. -/

namespace Sys2Proof.Machine

set_option linter.all false

/-- Two states with the same fields are one. -/
theorem State.same {x y : State} (h1 : x.time = y.time) (h2 : x.por = y.por) (h3 : x.phase = y.phase)
    (h4 : x.records = y.records) (h5 : x.directory = y.directory) (h6 : x.feed = y.feed) (h7 : x.params = y.params)
    (h8 : x.entries = y.entries) (h9 : x.pages = y.pages) (h10 : x.panels = y.panels) (h11 : x.boards = y.boards)
    (h12 : x.rails = y.rails) (h13 : x.verifier = y.verifier) (h14 : x.tapes = y.tapes)
    (h15 : x.ribbons = y.ribbons) (h16 : x.lines = y.lines) (h17 : x.terminals = y.terminals)
    (h18 : x.pending = y.pending) : x = y := by
  cases x; cases y
  simp_all

variable (s : State)

theorem applyList_frame (b : List Byte) :
    (applyList b s).1 = { s with
        records := (applyList b s).1.records,
        directory := (applyList b s).1.directory,
        entries := (applyList b s).1.entries,
        boards := (applyList b s).1.boards,
        verifier := (applyList b s).1.verifier,
        terminals := (applyList b s).1.terminals } := by
  apply State.same <;> first
    | rfl
    | (unfold applyList listAt; (try dsimp only); (repeat' split) <;> simp [refuse])

theorem applyDelist_frame (b : List Byte) :
    (applyDelist b s).1 = { s with
        records := (applyDelist b s).1.records,
        directory := (applyDelist b s).1.directory,
        entries := (applyDelist b s).1.entries,
        boards := (applyDelist b s).1.boards,
        verifier := (applyDelist b s).1.verifier,
        terminals := (applyDelist b s).1.terminals } := by
  apply State.same <;> first
    | rfl
    | (unfold applyDelist delistAt; (try dsimp only); (repeat' split) <;> simp [refuse])

theorem applyQueryRecord_frame (b : List Byte) :
    (applyQueryRecord b s).1 = s := by
  apply State.same <;> first
    | rfl
    | (unfold applyQueryRecord; (try dsimp only); (repeat' split) <;> simp [refuse])

theorem applySessionOpen_frame (b : List Byte) :
    (applySessionOpen b s).1 = { s with phase := (applySessionOpen b s).1.phase } := by
  apply State.same <;> first
    | rfl
    | (unfold applySessionOpen; (try dsimp only); (repeat' split) <;> simp [refuse])

theorem applySessionClose_frame (b : List Byte) :
    (applySessionClose b s).1 = { s with
        phase := (applySessionClose b s).1.phase,
        records := (applySessionClose b s).1.records,
        boards := (applySessionClose b s).1.boards,
        verifier := (applySessionClose b s).1.verifier,
        terminals := (applySessionClose b s).1.terminals } := by
  apply State.same <;> first
    | rfl
    | (unfold applySessionClose closeSession; (try dsimp only); (repeat' split) <;> simp [refuse])

theorem applyDayRoll_frame (b : List Byte) :
    (applyDayRoll b s).1 = { s with
        phase := (applyDayRoll b s).1.phase,
        records := (applyDayRoll b s).1.records,
        boards := (applyDayRoll b s).1.boards,
        verifier := (applyDayRoll b s).1.verifier,
        terminals := (applyDayRoll b s).1.terminals } := by
  apply State.same <;> first
    | rfl
    | (unfold applyDayRoll rollDay; (try dsimp only); (repeat' split) <;> simp [refuse])

theorem applyTableClear_frame (b : List Byte) :
    (applyTableClear b s).1 = { s with
        records := (applyTableClear b s).1.records,
        directory := (applyTableClear b s).1.directory,
        tapes := (applyTableClear b s).1.tapes,
        entries := (applyTableClear b s).1.entries,
        boards := (applyTableClear b s).1.boards,
        verifier := (applyTableClear b s).1.verifier,
        terminals := (applyTableClear b s).1.terminals } := by
  apply State.same <;> first
    | rfl
    | (unfold applyTableClear clearTable freeAll; (try dsimp only); (repeat' split) <;> simp [refuse])

theorem applyTrade_frame (b : List Byte) :
    (applyTrade b s).1 = { s with
        records := (applyTrade b s).1.records,
        tapes := (applyTrade b s).1.tapes,
        boards := (applyTrade b s).1.boards,
        verifier := (applyTrade b s).1.verifier,
        terminals := (applyTrade b s).1.terminals } := by
  apply State.same <;> first
    | rfl
    | (unfold applyTrade postTrade; (try dsimp only); (repeat' split) <;> simp [refuse])

theorem applyQuote_frame (b : List Byte) :
    (applyQuote b s).1 = { s with
        records := (applyQuote b s).1.records,
        boards := (applyQuote b s).1.boards,
        verifier := (applyQuote b s).1.verifier,
        terminals := (applyQuote b s).1.terminals } := by
  apply State.same <;> first
    | rfl
    | (unfold applyQuote postQuote; (try dsimp only); (repeat' split) <;> simp [refuse])

theorem applyHalt_frame (b : List Byte) :
    (applyHalt b s).1 = { s with
        records := (applyHalt b s).1.records,
        boards := (applyHalt b s).1.boards,
        verifier := (applyHalt b s).1.verifier,
        terminals := (applyHalt b s).1.terminals } := by
  apply State.same <;> first
    | rfl
    | (unfold applyHalt postState; (try dsimp only); (repeat' split) <;> simp [refuse])

theorem applyResume_frame (b : List Byte) :
    (applyResume b s).1 = { s with
        records := (applyResume b s).1.records,
        boards := (applyResume b s).1.boards,
        verifier := (applyResume b s).1.verifier,
        terminals := (applyResume b s).1.terminals } := by
  apply State.same <;> first
    | rfl
    | (unfold applyResume postState; (try dsimp only); (repeat' split) <;> simp [refuse])

theorem applyLoadEntry_frame (b : List Byte) :
    (applyLoadEntry b s).1 = { s with
        entries := (applyLoadEntry b s).1.entries,
        boards := (applyLoadEntry b s).1.boards,
        verifier := (applyLoadEntry b s).1.verifier } := by
  apply State.same <;> first
    | rfl
    | (unfold applyLoadEntry loadAt; (try dsimp only); (repeat' split) <;> simp [refuse])

theorem applyUnloadEntry_frame (b : List Byte) :
    (applyUnloadEntry b s).1 = { s with entries := (applyUnloadEntry b s).1.entries } := by
  apply State.same <;> first
    | rfl
    | (unfold applyUnloadEntry; (try dsimp only); (repeat' split) <;> simp [refuse])

theorem applyDefinePage_frame (b : List Byte) :
    (applyDefinePage b s).1 = { s with pages := (applyDefinePage b s).1.pages } := by
  apply State.same <;> first
    | rfl
    | (unfold applyDefinePage; (try dsimp only); (repeat' split) <;> simp [refuse])

theorem applyUndefinePage_frame (b : List Byte) :
    (applyUndefinePage b s).1 = { s with pages := (applyUndefinePage b s).1.pages } := by
  apply State.same <;> first
    | rfl
    | (unfold applyUndefinePage; (try dsimp only); (repeat' split) <;> simp [refuse])

theorem applyShowPage_frame (b : List Byte) :
    (applyShowPage b s).1 = { s with
        panels := (applyShowPage b s).1.panels,
        boards := (applyShowPage b s).1.boards,
        verifier := (applyShowPage b s).1.verifier } := by
  apply State.same <;> first
    | rfl
    | (unfold applyShowPage panelAnswer showPage; (try dsimp only); (repeat' split) <;> simp [refuse])

theorem applyRestorePanel_frame (b : List Byte) :
    (applyRestorePanel b s).1 = { s with
        panels := (applyRestorePanel b s).1.panels,
        boards := (applyRestorePanel b s).1.boards,
        verifier := (applyRestorePanel b s).1.verifier } := by
  apply State.same <;> first
    | rfl
    | (unfold applyRestorePanel panelAnswer restorePanel; (try dsimp only); (repeat' split) <;> simp [refuse])

theorem applyClearFaults_frame (b : List Byte) :
    (applyClearFaults b s).1 = { s with boards := (applyClearFaults b s).1.boards, verifier := (applyClearFaults b s).1.verifier } := by
  apply State.same <;> first
    | rfl
    | (unfold applyClearFaults clearFaults; (try dsimp only); (repeat' split) <;> simp [refuse])

theorem applyTapeStart_frame (b : List Byte) :
    (applyTapeStart b s).1 = { s with ribbons := (applyTapeStart b s).1.ribbons } := by
  apply State.same <;> first
    | rfl
    | (unfold applyTapeStart ribbonAnswer startTape; (try dsimp only); (repeat' split) <;> simp [refuse])

theorem applyTapeStop_frame (b : List Byte) :
    (applyTapeStop b s).1 = { s with ribbons := (applyTapeStop b s).1.ribbons } := by
  apply State.same <;> first
    | rfl
    | (unfold applyTapeStop ribbonAnswer stopTape; (try dsimp only); (repeat' split) <;> simp [refuse])

theorem applyTapeClear_frame (b : List Byte) :
    (applyTapeClear b s).1 = { s with
        records := (applyTapeClear b s).1.records,
        directory := (applyTapeClear b s).1.directory,
        tapes := (applyTapeClear b s).1.tapes } := by
  apply State.same <;> first
    | rfl
    | (unfold applyTapeClear; (try dsimp only); (repeat' split) <;> simp [refuse])

theorem applyNotice_frame (b : List Byte) :
    (applyNotice b s).1 = { s with tapes := (applyNotice b s).1.tapes } := by
  apply State.same <;> first
    | rfl
    | (unfold applyNotice stageNotice; (try dsimp only); (repeat' split) <;> simp [refuse])

theorem applyTerminalEnable_frame (b : List Byte) :
    (applyTerminalEnable b s).1 = { s with
        terminals := (applyTerminalEnable b s).1.terminals,
        lines := (applyTerminalEnable b s).1.lines } := by
  apply State.same <;> first
    | rfl
    | (unfold applyTerminalEnable; (try dsimp only); (repeat' split) <;> simp [refuse])

theorem applySetParameter_frame (b : List Byte) :
    (applySetParameter b s).1 = { s with
        params := (applySetParameter b s).1.params,
        boards := (applySetParameter b s).1.boards,
        verifier := (applySetParameter b s).1.verifier,
        panels := (applySetParameter b s).1.panels } := by
  apply State.same <;> first
    | rfl
    | (unfold applySetParameter; (try dsimp only); (repeat' split) <;> simp [refuse])

theorem applyReadParameter_frame (b : List Byte) :
    (applyReadParameter b s).1 = s := by
  apply State.same <;> first
    | rfl
    | (unfold applyReadParameter; (try dsimp only); (repeat' split) <;> simp [refuse])

theorem applyReadStatus_frame (b : List Byte) :
    (applyReadStatus b s).1 = { s with feed := (applyReadStatus b s).1.feed, tapes := (applyReadStatus b s).1.tapes } := by
  apply State.same <;> first
    | rfl
    | (unfold applyReadStatus clearCounters clearBacklogMaxima; (try dsimp only); (repeat' split) <;> simp [refuse])

theorem applyClearConditions_frame (b : List Byte) :
    (applyClearConditions b s).1 = { s with feed := (applyClearConditions b s).1.feed } := by
  apply State.same <;> first
    | rfl
    | (unfold applyClearConditions clearConditions; (try dsimp only); (repeat' split) <;> simp [refuse])

theorem applyRestart_frame (b : List Byte) :
    (applyRestart b s).1 = { s with
        records := (applyRestart b s).1.records,
        directory := (applyRestart b s).1.directory,
        feed := (applyRestart b s).1.feed,
        tapes := (applyRestart b s).1.tapes,
        ribbons := (applyRestart b s).1.ribbons,
        lines := (applyRestart b s).1.lines,
        terminals := (applyRestart b s).1.terminals,
        boards := (applyRestart b s).1.boards,
        verifier := (applyRestart b s).1.verifier } := by
  apply State.same <;> first
    | rfl
    | (unfold applyRestart; (try dsimp only); (repeat' split) <;> simp [refuse])

theorem takeUnknown_frame :
    takeUnknown s = { s with feed := (takeUnknown s).feed } := by
  apply State.same <;> first
    | rfl
    | (unfold takeUnknown; (try dsimp only); (repeat' split) <;> simp [refuse])

theorem takeFeedChar_frame (c : Byte) :
    takeFeedChar c s = { s with feed := (takeFeedChar c s).feed } := by
  apply State.same <;> first
    | rfl
    | (unfold takeFeedChar setReceiver; (try dsimp only); (repeat' split) <;> simp [refuse])

theorem takeFeedFailure_frame (x : FeedFailure) :
    takeFeedFailure x s = { s with feed := (takeFeedFailure x s).feed } := by
  apply State.same <;> first
    | rfl
    | (unfold takeFeedFailure countFraming; (try dsimp only); (repeat' split) <;> simp [refuse])

theorem expireFrameGap_frame :
    expireFrameGap s = { s with feed := (expireFrameGap s).feed } := by
  apply State.same <;> first
    | rfl
    | (unfold expireFrameGap countFraming; (try dsimp only); (repeat' split) <;> simp [refuse])

theorem sendReply_frame :
    sendReply s = { s with feed := (sendReply s).feed } := by
  apply State.same <;> first
    | rfl
    | (unfold sendReply; (try dsimp only); (repeat' split) <;> simp [refuse])

theorem completeFrame_frame (c : Byte) :
    completeFrame c s = { s with
        feed := (completeFrame c s).feed,
        tapes := (completeFrame c s).tapes,
        boards := (completeFrame c s).boards,
        verifier := (completeFrame c s).verifier } := by
  apply State.same <;> first
    | rfl
    | (unfold completeFrame countCheck; (try dsimp only); (repeat' split) <;> simp [refuse])

theorem expireQuietLimit_frame :
    expireQuietLimit s = { s with
        feed := (expireQuietLimit s).feed,
        tapes := (expireQuietLimit s).tapes,
        boards := (expireQuietLimit s).boards,
        verifier := (expireQuietLimit s).verifier } := by
  apply State.same <;> first
    | rfl
    | (unfold expireQuietLimit; (try dsimp only); (repeat' split) <;> simp [refuse])

theorem startWrite_frame :
    startWrite s = { s with boards := (startWrite s).boards } := by
  apply State.same <;> first
    | rfl
    | (unfold startWrite; (try dsimp only); (repeat' split) <;> simp [refuse])

theorem completeWrite_frame :
    completeWrite s = { s with
        boards := (completeWrite s).boards,
        panels := (completeWrite s).panels,
        feed := (completeWrite s).feed } := by
  apply State.same <;> first
    | rfl
    | (unfold completeWrite; (try dsimp only); (repeat' split) <;> simp [refuse])

theorem startPeriod_frame (x : AB) :
    startPeriod x s = { s with boards := (startPeriod x s).boards, verifier := (startPeriod x s).verifier } := by
  apply State.same <;> first
    | rfl
    | (unfold startPeriod; (try dsimp only); (repeat' split) <;> simp [refuse])

theorem sampleRail_frame (i : RailIx) (w f : Bool) :
    sampleRail i w f s = { s with time := (sampleRail i w f s).time, rails := (sampleRail i w f s).rails } := by
  apply State.same <;> first
    | rfl
    | (unfold sampleRail; (try dsimp only); (repeat' split) <;> simp [refuse])

theorem changeRail_frame (i : RailIx) :
    changeRail i s = { s with
        rails := (changeRail i s).rails,
        feed := (changeRail i s).feed,
        panels := (changeRail i s).panels,
        boards := (changeRail i s).boards,
        verifier := (changeRail i s).verifier } := by
  apply State.same <;> first
    | rfl
    | simp

theorem endGap_frame :
    endGap s = { s with verifier := (endGap s).verifier } := by
  apply State.same <;> first
    | rfl
    | (unfold endGap; (try dsimp only); (repeat' split) <;> simp [refuse])

theorem startRead_frame :
    startRead s = { s with verifier := (startRead s).verifier } := by
  apply State.same <;> first
    | rfl
    | (unfold startRead; (try dsimp only); (repeat' split) <;> simp [refuse])

theorem takeEcho_frame (e : List Byte) :
    takeEcho e s = { s with
        boards := (takeEcho e s).boards,
        verifier := (takeEcho e s).verifier,
        feed := (takeEcho e s).feed } := by
  apply State.same <;> first
    | rfl
    | (unfold takeEcho; (try dsimp only); (repeat' split) <;> simp [refuse])

theorem endEchoLimit_frame :
    endEchoLimit s = { s with
        boards := (endEchoLimit s).boards,
        verifier := (endEchoLimit s).verifier,
        feed := (endEchoLimit s).feed } := by
  apply State.same <;> first
    | rfl
    | (unfold endEchoLimit; (try dsimp only); (repeat' split) <;> simp [refuse])

theorem stepRibbon_frame (t : AB) :
    stepRibbon t s = { s with
        ribbons := (stepRibbon t s).ribbons,
        tapes := (stepRibbon t s).tapes,
        records := (stepRibbon t s).records,
        directory := (stepRibbon t s).directory,
        feed := (stepRibbon t s).feed } := by
  apply State.same <;> first
    | rfl
    | (unfold stepRibbon; (try dsimp only); (repeat' split) <;> simp [refuse])

theorem visitLine_frame (l : LineIx) :
    visitLine l s = { s with lines := (visitLine l s).lines, terminals := (visitLine l s).terminals } := by
  apply State.same <;> first
    | rfl
    | (unfold visitLine; (try dsimp only); (repeat' split) <;> simp [refuse])

theorem openWindow_frame (l : LineIx) :
    openWindow l s = { s with lines := (openWindow l s).lines } := by
  apply State.same <;> first
    | rfl
    | (unfold openWindow; (try dsimp only); (repeat' split) <;> simp [refuse])

theorem expireWindow_frame (l : LineIx) :
    expireWindow l s = { s with
        lines := (expireWindow l s).lines,
        terminals := (expireWindow l s).terminals,
        feed := (expireWindow l s).feed } := by
  apply State.same <;> first
    | rfl
    | (unfold expireWindow; (try dsimp only); (repeat' split) <;> simp [refuse])

theorem expireReplyGap_frame (l : LineIx) :
    expireReplyGap l s = { s with
        lines := (expireReplyGap l s).lines,
        terminals := (expireReplyGap l s).terminals,
        feed := (expireReplyGap l s).feed } := by
  apply State.same <;> first
    | rfl
    | (unfold expireReplyGap; (try dsimp only); (repeat' split) <;> simp [refuse])

theorem expireSettling_frame (l : LineIx) :
    expireSettling l s = { s with lines := (expireSettling l s).lines } := by
  apply State.same <;> first
    | rfl
    | (unfold expireSettling; (try dsimp only); (repeat' split) <;> simp [refuse])

theorem takeReplyChar_frame (l : LineIx) (c : Byte) :
    takeReplyChar l c s = { s with lines := (takeReplyChar l c s).lines } := by
  apply State.same <;> first
    | rfl
    | (unfold takeReplyChar; (try dsimp only); (repeat' split) <;> simp [refuse])

theorem takeLineFailure_frame (l : LineIx) (x : LineFailure) :
    takeLineFailure l x s = { s with
        lines := (takeLineFailure l x s).lines,
        terminals := (takeLineFailure l x s).terminals,
        feed := (takeLineFailure l x s).feed } := by
  apply State.same <;> first
    | rfl
    | (unfold takeLineFailure; (try dsimp only); (repeat' split) <;> simp [refuse])

theorem completeReply_frame (l : LineIx) (c : Byte) :
    completeReply l c s = { s with
        lines := (completeReply l c s).lines,
        terminals := (completeReply l c s).terminals,
        feed := (completeReply l c s).feed } := by
  apply State.same <;> first
    | rfl
    | (unfold completeReply; (try dsimp only); (repeat' split) <;> simp [refuse])

theorem endEmptyRound_frame (l : LineIx) :
    endEmptyRound l s = { s with lines := (endEmptyRound l s).lines } := by
  apply State.same <;> first
    | rfl
    | (unfold endEmptyRound; (try dsimp only); (repeat' split) <;> simp [refuse])

theorem nextInterval_frame :
    nextInterval s = { s with time := (nextInterval s).time, rails := (nextInterval s).rails } := by
  apply State.same <;> first
    | rfl
    | simp

end Sys2Proof.Machine
end

