-- ==== Sys2Proof/Laws/Taking.lean ====
section
/-! SUPPORT. How the meaning of a command reduces to its effect: the taking of a message, the guard of the POR input,
and the frame of a proof that every step keeps a law. -/

namespace Sys2Proof.Machine

/-- What a powered effect answers. -/
theorem powered_eq {f : State → State} {s : State} (h : s.por = false) : powered f s = .next (f s) := by
  simp [powered, h]

/-- Under POR nothing happens. -/
theorem powered_por {f : State → State} {s : State} (h : s.por = true) : powered f s = .next s := by
  simp [powered, h]

/-- R164: when the reply queue has a free place. -/
theorem canTake_iff {s : State} : canTake s = true ↔ s.feed.replies.length < 8 :=
  decide_eq_true_iff



/-- R164: a message whose length suits its kind is applied and answered. -/
theorem takeMessage_eq {k : Kind} {f : Frame} {s : State} (apply : List Byte → State → State × Answer)
    (h : CanTakeHead k f s) (hl : k.lengthFits f.body.length = true) :
    takeMessage k apply s
      = placeReply f.kind f.tag (apply f.body (removeHead s)).2 (apply f.body (removeHead s)).1 := by
  obtain ⟨_, hh, hk, hp⟩ := h
  unfold takeMessage
  split
  · next he => simp [he] at hh
  · next g q he =>
    have hg : g = f := by simpa [he] using hh
    subst hg
    rw [if_pos ⟨hk, canTake_iff.mpr hp⟩]
    simp [answerFrame, hl]

/-- R164: a message whose length does not suit its kind is answered MALFORMED. -/
theorem takeMessage_malformed {k : Kind} {f : Frame} {s : State} (apply : List Byte → State → State × Answer)
    (h : CanTakeHead k f s) (hl : k.lengthFits f.body.length = false) :
    takeMessage k apply s = placeReply f.kind f.tag ⟨.malformed, []⟩ (removeHead s) := by
  obtain ⟨_, hh, hk, hp⟩ := h
  unfold takeMessage
  split
  · next he => simp [he] at hh
  · next g q he =>
    have hg : g = f := by simpa [he] using hh
    subst hg
    rw [if_pos ⟨hk, canTake_iff.mpr hp⟩]
    simp [answerFrame, hl]

/-- A law kept by the removal of the head, by the application of a message and by the placing of its reply is kept by
the taking of the message. -/
theorem takeMessage_keeps {P Q : State → Prop} {k : Kind} {apply : List Byte → State → State × Answer}
    (hr : ∀ s, P s → s.feed.replies.length < 8 → Q (removeHead s))
    (hp : ∀ g t a s, Q s → P (placeReply g t a s))
    (ha : ∀ b s, Q s → Q (apply b s).1) {s : State} (h : P s) : P (takeMessage k apply s) := by
  unfold takeMessage
  split
  · exact h
  · split
    · next hc =>
      have hq := hr s h (canTake_iff.mp hc.2)
      unfold answerFrame
      split
      · exact hp _ _ _ _ (ha _ _ hq)
      · exact hp _ _ _ _ hq
    · exact h

/-- The same for a message of an unknown kind. -/
theorem takeUnknown_keeps {P Q : State → Prop}
    (hr : ∀ s, P s → s.feed.replies.length < 8 → Q (removeHead s))
    (hp : ∀ g t a s, Q s → P (placeReply g t a s)) {s : State} (h : P s) : P (takeUnknown s) := by
  unfold takeUnknown
  split
  · exact h
  · split
    · next hc => exact hp _ _ _ _ (hr s h (canTake_iff.mp hc.2))
    · exact h

/-- A law kept by an effect is kept by the command that has it. -/
theorem powered_keeps {P : State → Prop} {f : State → State} (hf : ∀ s, P s → P (f s)) {s t : State} (h : P s)
    (he : powered f s = .next t) : P t := by
  unfold powered at he
  cases he
  split
  · exact h
  · exact hf s h

/-- What has to be shown of a law `P` for every command to keep it; `Q` is what holds of a message's frame removed from
the inbound queue and its reply not yet placed. -/
structure KeptByCommands (P Q : State → Prop) : Prop where
  remove : ∀ s, P s → s.feed.replies.length < 8 → Q (removeHead s)
  place : ∀ g t a s, Q s → P (placeReply g t a s)
  list : ∀ b s, Q s → Q (applyList b s).1
  delist : ∀ b s, Q s → Q (applyDelist b s).1
  queryRecord : ∀ b s, Q s → Q (applyQueryRecord b s).1
  sessionOpen : ∀ b s, Q s → Q (applySessionOpen b s).1
  sessionClose : ∀ b s, Q s → Q (applySessionClose b s).1
  dayRoll : ∀ b s, Q s → Q (applyDayRoll b s).1
  tableClear : ∀ b s, Q s → Q (applyTableClear b s).1
  trade : ∀ b s, Q s → Q (applyTrade b s).1
  quote : ∀ b s, Q s → Q (applyQuote b s).1
  halt : ∀ b s, Q s → Q (applyHalt b s).1
  resume : ∀ b s, Q s → Q (applyResume b s).1
  loadEntry : ∀ b s, Q s → Q (applyLoadEntry b s).1
  unloadEntry : ∀ b s, Q s → Q (applyUnloadEntry b s).1
  definePage : ∀ b s, Q s → Q (applyDefinePage b s).1
  undefinePage : ∀ b s, Q s → Q (applyUndefinePage b s).1
  showPage : ∀ b s, Q s → Q (applyShowPage b s).1
  restorePanel : ∀ b s, Q s → Q (applyRestorePanel b s).1
  clearFaults : ∀ b s, Q s → Q (applyClearFaults b s).1
  tapeStart : ∀ b s, Q s → Q (applyTapeStart b s).1
  tapeStop : ∀ b s, Q s → Q (applyTapeStop b s).1
  tapeClear : ∀ b s, Q s → Q (applyTapeClear b s).1
  notice : ∀ b s, Q s → Q (applyNotice b s).1
  terminalEnable : ∀ b s, Q s → Q (applyTerminalEnable b s).1
  setParameter : ∀ b s, Q s → Q (applySetParameter b s).1
  readParameter : ∀ b s, Q s → Q (applyReadParameter b s).1
  readStatus : ∀ b s, Q s → Q (applyReadStatus b s).1
  clearConditions : ∀ b s, Q s → Q (applyClearConditions b s).1
  restart : ∀ b s, Q s → Q (applyRestart b s).1
  takeFeedChar : ∀ (c : Byte) s, P s → P (takeFeedChar c s)
  takeFeedFailure : ∀ (x : FeedFailure) s, P s → P (takeFeedFailure x s)
  expireFrameGap : ∀ s, P s → P (expireFrameGap s)
  sendReply : ∀ s, P s → P (sendReply s)
  completeFrame : ∀ (c : Byte) s, P s → P (completeFrame c s)
  expireQuietLimit : ∀ s, P s → P (expireQuietLimit s)
  startWrite : ∀ s, P s → P (startWrite s)
  completeWrite : ∀ s, P s → P (completeWrite s)
  startPeriod : ∀ (x : AB) s, P s → P (startPeriod x s)
  sampleRail : ∀ (i : RailIx) (w f : Bool) s, P s → P (sampleRail i w f s)
  changeRail : ∀ (i : RailIx) s, P s → P (changeRail i s)
  endGap : ∀ s, P s → P (endGap s)
  startRead : ∀ s, P s → P (startRead s)
  takeEcho : ∀ (e : List Byte) s, P s → P (takeEcho e s)
  endEchoLimit : ∀ s, P s → P (endEchoLimit s)
  stepRibbon : ∀ (t : AB) s, P s → P (stepRibbon t s)
  visitLine : ∀ (l : LineIx) s, P s → P (visitLine l s)
  openWindow : ∀ (l : LineIx) s, P s → P (openWindow l s)
  expireWindow : ∀ (l : LineIx) s, P s → P (expireWindow l s)
  expireReplyGap : ∀ (l : LineIx) s, P s → P (expireReplyGap l s)
  expireSettling : ∀ (l : LineIx) s, P s → P (expireSettling l s)
  takeReplyChar : ∀ (l : LineIx) (c : Byte) s, P s → P (takeReplyChar l c s)
  takeLineFailure : ∀ (l : LineIx) (x : LineFailure) s, P s → P (takeLineFailure l x s)
  completeReply : ∀ (l : LineIx) (c : Byte) s, P s → P (completeReply l c s)
  endEmptyRound : ∀ (l : LineIx) s, P s → P (endEmptyRound l s)
  restartAll : ∀ s, P s → P (restartAll s)
  powerOn : ∀ b s, P (powerOn b s)
  withPending : ∀ q s, P s → P (s.withPending q)
  nextInterval : ∀ s, P s → P (nextInterval s)

/-- Every command keeps such a law. -/
theorem KeptByCommands.exec {P Q : State → Prop} (k : KeptByCommands P Q) (c : Instr) {s t : State} (h : P s)
    (he : exec c s = .next t) : P t := by
  cases c
  case list => exact powered_keeps (fun _ hs => takeMessage_keeps k.remove k.place k.list hs) h he
  case delist => exact powered_keeps (fun _ hs => takeMessage_keeps k.remove k.place k.delist hs) h he
  case queryRecord => exact powered_keeps (fun _ hs => takeMessage_keeps k.remove k.place k.queryRecord hs) h he
  case sessionOpen => exact powered_keeps (fun _ hs => takeMessage_keeps k.remove k.place k.sessionOpen hs) h he
  case sessionClose => exact powered_keeps (fun _ hs => takeMessage_keeps k.remove k.place k.sessionClose hs) h he
  case dayRoll => exact powered_keeps (fun _ hs => takeMessage_keeps k.remove k.place k.dayRoll hs) h he
  case tableClear => exact powered_keeps (fun _ hs => takeMessage_keeps k.remove k.place k.tableClear hs) h he
  case trade => exact powered_keeps (fun _ hs => takeMessage_keeps k.remove k.place k.trade hs) h he
  case quote => exact powered_keeps (fun _ hs => takeMessage_keeps k.remove k.place k.quote hs) h he
  case halt => exact powered_keeps (fun _ hs => takeMessage_keeps k.remove k.place k.halt hs) h he
  case resume => exact powered_keeps (fun _ hs => takeMessage_keeps k.remove k.place k.resume hs) h he
  case loadEntry => exact powered_keeps (fun _ hs => takeMessage_keeps k.remove k.place k.loadEntry hs) h he
  case unloadEntry => exact powered_keeps (fun _ hs => takeMessage_keeps k.remove k.place k.unloadEntry hs) h he
  case definePage => exact powered_keeps (fun _ hs => takeMessage_keeps k.remove k.place k.definePage hs) h he
  case undefinePage => exact powered_keeps (fun _ hs => takeMessage_keeps k.remove k.place k.undefinePage hs) h he
  case showPage => exact powered_keeps (fun _ hs => takeMessage_keeps k.remove k.place k.showPage hs) h he
  case restorePanel => exact powered_keeps (fun _ hs => takeMessage_keeps k.remove k.place k.restorePanel hs) h he
  case clearFaults => exact powered_keeps (fun _ hs => takeMessage_keeps k.remove k.place k.clearFaults hs) h he
  case tapeStart => exact powered_keeps (fun _ hs => takeMessage_keeps k.remove k.place k.tapeStart hs) h he
  case tapeStop => exact powered_keeps (fun _ hs => takeMessage_keeps k.remove k.place k.tapeStop hs) h he
  case tapeClear => exact powered_keeps (fun _ hs => takeMessage_keeps k.remove k.place k.tapeClear hs) h he
  case notice => exact powered_keeps (fun _ hs => takeMessage_keeps k.remove k.place k.notice hs) h he
  case terminalEnable => exact powered_keeps (fun _ hs => takeMessage_keeps k.remove k.place k.terminalEnable hs) h he
  case setParameter => exact powered_keeps (fun _ hs => takeMessage_keeps k.remove k.place k.setParameter hs) h he
  case readParameter => exact powered_keeps (fun _ hs => takeMessage_keeps k.remove k.place k.readParameter hs) h he
  case readStatus => exact powered_keeps (fun _ hs => takeMessage_keeps k.remove k.place k.readStatus hs) h he
  case clearConditions => exact powered_keeps (fun _ hs => takeMessage_keeps k.remove k.place k.clearConditions hs) h he
  case restart => exact powered_keeps (fun _ hs => takeMessage_keeps k.remove k.place k.restart hs) h he
  case unknownKindTaken => exact powered_keeps (fun _ hs => takeUnknown_keeps k.remove k.place hs) h he
  case restartInput => exact powered_keeps k.restartAll h he
  case porAssert => cases he; exact k.powerOn true s
  case porRelease => 
    cases he
    split
    · exact k.powerOn false s
    · exact h
  case frameComplete x => exact powered_keeps (k.completeFrame x) h he
  case framingFailure x => exact powered_keeps (k.takeFeedFailure x) h he
  case frameGapExpiry => exact powered_keeps k.expireFrameGap h he
  case replySent => exact powered_keeps k.sendReply h he
  case quietLimitExpiry => exact powered_keeps k.expireQuietLimit h he
  case positionWriteStart => exact powered_keeps k.startWrite h he
  case positionWriteComplete => exact powered_keeps k.completeWrite h he
  case periodStart x => exact powered_keeps (k.startPeriod x) h he
  case railSample x y z => exact powered_keeps (k.sampleRail x y z) h he
  case railStateChange x => exact powered_keeps (k.changeRail x) h he
  case verifyGapExpiry => exact powered_keeps k.endGap h he
  case readStart => exact powered_keeps k.startRead h he
  case echoArrival x => exact powered_keeps (k.takeEcho x) h he
  case echoLimitExpiry => exact powered_keeps k.endEchoLimit h he
  case stepEvent x => exact powered_keeps (k.stepRibbon x) h he
  case visit x => exact powered_keeps (k.visitLine x) h he
  case emptyRoundExpiry x => exact powered_keeps (k.endEmptyRound x) h he
  case replyWindowExpiry x => exact powered_keeps (k.expireWindow x) h he
  case replyComplete x y => exact powered_keeps (k.completeReply x y) h he
  case terminalFramingError x y => exact powered_keeps (k.takeLineFailure x y) h he
  case replyGapExpiry x => exact powered_keeps (k.expireReplyGap x) h he
  case settlingExpiry x => exact powered_keeps (k.expireSettling x) h he
  case feedCharacterArrival x => exact powered_keeps (k.takeFeedChar x) h he
  case replyCharacterArrival x y => exact powered_keeps (k.takeReplyChar x y) h he
  case replyWindowOpen x => exact powered_keeps (k.openWindow x) h he

/-- Every step keeps such a law. -/
theorem KeptByCommands.step {P Q : State → Prop} (k : KeptByCommands P Q) {s t : State} (h : P s)
    (he : step s = .next t) : P t := by
  unfold Machine.step at he
  split at he
  · cases he
    exact k.nextInterval s h
  · next c rest _ => exact k.exec c (k.withPending rest s h) he

end Sys2Proof.Machine
end

