-- ==== Sys2Proof/Laws/RecordsLaw.lean ====
section
/-! SUPPORT. The law of R2 for the records, operation by operation. -/

namespace Sys2Proof.Machine

theorem RecordsLaw.of_same {s t : State} (h : RecordsLaw s) (hr : t.records = s.records) : RecordsLaw t := by
  intro i r hi
  rw [hr] at hi
  exact h i r hi

theorem RecordsLaw.setTape {s : State} (h : RecordsLaw s) (t : AB) (u : TapeUnit) : RecordsLaw (setTape t u s) :=
  h.of_same rfl

theorem RecordsLaw.setRecord {s : State} (h : RecordsLaw s) (i : SlotIx) {r : Record} (hr : RecordLaw r) :
    RecordsLaw (setRecord i r s) := by
  intro j x hx
  rw [setRecord_records, Vec.set_get] at hx
  split at hx
  · cases hx; exact hr
  · exact h j x hx

theorem RecordsLaw.freeSlot {s : State} (h : RecordsLaw s) (i : SlotIx) : RecordsLaw (freeSlot i s) := by
  intro j x hx
  rw [freeSlot_records, Vec.set_get] at hx
  split at hx
  · cases hx
  · exact h j x hx

/-- A change of every record that keeps the law of each keeps the law of all. -/
theorem RecordsLaw.mapAll {s t : State} (h : RecordsLaw s) {f : SlotIx → Option Record → Option Record}
    (hf : ∀ i r, (∀ x, r = some x → RecordLaw x) → ∀ x, f i r = some x → RecordLaw x)
    (ht : t.records = Vec.mapIx f s.records) : RecordsLaw t := by
  intro i r hi
  rw [ht, Vec.mapIx_get] at hi
  exact hf i _ (fun x hx => h i x hx) r hi

/-- R3: the pending print is no part of the law but for its folded count. -/
theorem RecordLaw.withPending {r : Record} (h : RecordLaw r) {p : Option PendingPrint}
    (hp : ∀ x, p = some x → 1 ≤ x.folded ∧ x.folded ≤ 65535) : RecordLaw { r with pending := p } :=
  { h with folded := hp }

theorem RecordsLaw.setPendingPrint {s : State} (h : RecordsLaw s) (i : SlotIx) {p : Option PendingPrint}
    (hp : ∀ x, p = some x → 1 ≤ x.folded ∧ x.folded ≤ 65535) : RecordsLaw (setPendingPrint i p s) := by
  intro j x hx
  rw [setPendingPrint_records, Vec.update_get] at hx
  split at hx
  · obtain ⟨r, hr, rfl⟩ := Option.map_eq_some_iff.mp hx
    exact (h j r hr).withPending hp
  · exact h j x hx

theorem RecordsLaw.reportGone {s : State} (h : RecordsLaw s) (i : SlotIx) : RecordsLaw (reportGone i s) := by
  unfold Machine.reportGone
  split
  · exact h
  · split
    · exact h.freeSlot i
    · exact h

theorem RecordsLaw.withdraw {s : State} (h : RecordsLaw s) (t : AB) (i : SlotIx) :
    RecordsLaw (withdraw t i s) := by
  unfold Machine.withdraw
  dsimp only
  exact RecordsLaw.reportGone ((h.setTape t _).setPendingPrint i (p := none) (fun _ e => nomatch e)) i

theorem RecordsLaw.withdrawAll {s : State} (h : RecordsLaw s) (t : AB) : RecordsLaw (withdrawAll t s) :=
  foldl_keeps (P := RecordsLaw) (fun _ i hs => RecordsLaw.withdraw hs t i) _ _ h

/-! ### Postings -/

theorem RecordLaw.stateOnly {r : Record} (h : RecordLaw r) (x : RecState) : RecordLaw { r with state := x } := { h with }

/-- R28: the statistics keep the law of R2. -/
theorem DayLaw.after {d : Denominator} {x : Option DayPrices} {p : Nat} (h : ∀ y, x = some y → DayLaw d y)
    (hp : OnGrid d p) : DayLaw d (dayAfter x p) := by
  unfold dayAfter
  split
  · exact ⟨hp, hp, hp, hp, by simp, by simp⟩
  · next y =>
    have hy := h y rfl
    refine ⟨hp, hy.opened, ?_, ?_, ?_, ?_⟩
    · rcases max_choice y.high p with e | e <;> simp only [e]
      · exact hy.high
      · exact hp
    · rcases min_choice y.low p with e | e <;> simp only [e]
      · exact hy.low
      · exact hp
    · have := hy.openRange; dsimp only; omega
    · dsimp only; omega

theorem RecordLaw.trade {r : Record} (h : RecordLaw r) {p n : Nat} (hp : OnGrid r.denominator p) :
    RecordLaw (tradeRecord r p n) where
  symbol := h.symbol
  close := h.close
  day := by
    intro d hd
    simp only [tradeRecord, Option.some.injEq] at hd
    subst hd
    exact DayLaw.after h.day hp
  bid := h.bid
  ask := h.ask
  notCrossed := h.notCrossed
  volume := Nat.min_le_right _ _
  trades := Nat.min_le_right _ _
  folded := h.folded

theorem raise16_folded {n : Nat} (h : 1 ≤ n) : 1 ≤ raise16 n ∧ raise16 n ≤ 65535 := by
  unfold raise16 Config.maxCount16
  omega

theorem RecordsLaw.tradeNotice {s : State} (h : RecordsLaw s) (i : SlotIx) {r : Record} (hr : RecordLaw r)
    (n : Nat) : RecordsLaw (tradeNotice i r n s) := by
  unfold Machine.tradeNotice
  dsimp only
  split
  · refine RecordsLaw.setPendingPrint (h.of_same rfl) i ?_
    intro x hx
    cases hx
    exact ⟨le_rfl, (by decide : 1 ≤ 65535)⟩
  · next p hp =>
    refine RecordsLaw.setPendingPrint (h.of_same rfl) i ?_
    intro x hx
    cases hx
    exact raise16_folded (hr.folded p hp).1

theorem fullLookup_record {sym : Symbol} {s : State} {i : SlotIx} {r : Record}
    (h : fullLookup sym s = some (i, r)) : s.records[i] = some r := by
  unfold fullLookup at h
  split at h
  · cases h
  · next e _ =>
    obtain ⟨x, hx, hy⟩ := Option.map_eq_some_iff.mp h
    cases hy
    exact hx

theorem liveLookup_record {sym : Symbol} {s : State} {i : SlotIx} {r : Record}
    (h : liveLookup sym s = some (i, r)) : s.records[i] = some r ∧ r.state.isLive = true := by
  unfold liveLookup at h
  split at h
  · cases h
  · next j x hf =>
    split at h
    · next hl => cases h; exact ⟨fullLookup_record hf, hl⟩
    · cases h

theorem RecordsLaw.applyTrade {s : State} (h : RecordsLaw s) (b : List Byte) : RecordsLaw (applyTrade b s).1 := by
  unfold Machine.applyTrade
  dsimp only
  split
  · exact h
  · split
    · exact h
    · next i r hl =>
      split
      · exact h
      · split
        · exact h
        · split
          · exact h
          · split
            · exact h
            · next p hp =>
              have hr := h i r (liveLookup_record hl).1
              exact RecordsLaw.tradeNotice
                ((h.setRecord i (hr.trade (n := field b 7 3) (roundToGrid_onGrid hp))).of_same (by simp)) i hr _

theorem roundSide_law {d : Denominator} {x y : Option Side} (hs : sizeFits x = true)
    (h : roundSide d.step x = some y) : ∀ z, y = some z → SideLaw d z := by
  intro z hz
  subst hz
  unfold roundSide at h
  split at h
  · cases h
  · next w =>
    obtain ⟨p, hp, hz⟩ := Option.map_eq_some_iff.mp h
    cases hz
    unfold sizeFits at hs
    rw [Bool.and_eq_true, decide_eq_true_iff, decide_eq_true_iff] at hs
    exact ⟨roundToGrid_onGrid hp, hs.1, hs.2⟩

theorem RecordsLaw.applyQuote {s : State} (h : RecordsLaw s) (b : List Byte) : RecordsLaw (applyQuote b s).1 := by
  unfold Machine.applyQuote
  dsimp only
  split
  · exact h
  · split
    · exact h
    · next i r hl =>
      split
      · exact h
      · next hsz =>
        split
        · next bid ask hb ha =>
          split
          · exact h
          · next hx =>
            have hr := h i r (liveLookup_record hl).1
            rw [not_or] at hsz
            have sb := roundSide_law (Bool.eq_true_of_not_eq_false hsz.1) hb
            have sa := roundSide_law (Bool.eq_true_of_not_eq_false hsz.2) ha
            have hq : RecordLaw { r with bid := bid, ask := ask } :=
              { hr with
                bid := sb
                ask := sa
                notCrossed := by
                  intro x y ex ey
                  dsimp only at ex ey
                  subst ex ey
                  simpa [crossed] using hx }
            exact RecordsLaw.of_same (h.setRecord i hq) (by simp [postQuote])
        · exact h

theorem RecordsLaw.postState {s : State} (h : RecordsLaw s) (i : SlotIx) {r : Record} (hr : RecordLaw r)
    (x : RecState) : RecordsLaw (postState i r x s) :=
  RecordsLaw.of_same (h.setRecord i (hr.stateOnly x)) (by simp [Machine.postState])

theorem RecordsLaw.applyHalt {s : State} (h : RecordsLaw s) (b : List Byte) : RecordsLaw (applyHalt b s).1 := by
  unfold Machine.applyHalt
  split
  · exact h
  · split
    · exact h
    · next i r hl =>
      split
      · exact h
      · exact h.postState i (h i r (liveLookup_record hl).1) _

theorem RecordsLaw.applyResume {s : State} (h : RecordsLaw s) (b : List Byte) : RecordsLaw (applyResume b s).1 := by
  unfold Machine.applyResume
  dsimp only
  split
  · exact h
  · split
    · exact h
    · next i r hl =>
      split
      · exact h.postState i (h i r (liveLookup_record hl).1) _
      · exact h

/-! ### Listing and removal -/

theorem newRecord_law {sym : Symbol} {t : AB} {d : Denominator} {c : Option Nat}
    (hs : sym ≠ [] ∧ sym.length ≤ 4 ∧ ∀ g ∈ sym, isLetter g = true) (hc : closeFits d c = true) :
    RecordLaw (newRecord sym t d c) where
  symbol := hs
  close := by
    intro x hx
    simp only [newRecord] at hx
    subst hx
    simp only [closeFits, Bool.and_eq_true, decide_eq_true_eq] at hc
    have := validPrice_iff.mp hc.1
    exact ⟨this.1, this.2, hc.2⟩
  day := by simp [newRecord]
  bid := by simp [newRecord]
  ask := by simp [newRecord]
  notCrossed := by simp [newRecord]
  volume := Nat.zero_le _
  trades := Nat.zero_le _
  folded := by simp [newRecord]

theorem RecordsLaw.applyList {s : State} (h : RecordsLaw s) (b : List Byte) : RecordsLaw (applyList b s).1 := by
  unfold Machine.applyList
  dsimp only
  generalize (if flagAt b 6 0 = true then some (field b 7 3) else none) = close
  split
  · exact h
  · next sym hs =>
    split
    · next t d _ hd =>
      split
      · next hc =>
        split
        · split <;> exact h
        · split
          · exact h
          · next i hi => exact (h.setRecord i (newRecord_law (t := t) (symbolAt_law hs) hc)).of_same (by simp [listAt])
      · exact h
    · exact h

theorem RecordsLaw.applyDelist {s : State} (h : RecordsLaw s) (b : List Byte) : RecordsLaw (applyDelist b s).1 := by
  unfold Machine.applyDelist
  split
  · exact h
  · split
    · exact h
    · next i r hl =>
      split
      · unfold delistAt retire
        have hr := h i r (fullLookup_record hl)
        split
        · exact RecordsLaw.freeSlot (h.of_same (by simp)) i
        · exact RecordsLaw.setRecord (h.of_same (by simp)) i (hr.stateOnly _)
      · exact h

theorem RecordsLaw.applySessionClose {s : State} (h : RecordsLaw s) (b : List Byte) :
    RecordsLaw (applySessionClose b s).1 := by
  unfold Machine.applySessionClose
  split
  · refine h.mapAll (f := fun _ r => r.map closeRecord) ?_ (by simp [closeSession])
    intro i r hr x hx
    obtain ⟨y, hy, rfl⟩ := Option.map_eq_some_iff.mp hx
    unfold closeRecord
    split
    · exact (hr y hy).stateOnly _
    · exact hr y hy
  · exact h

/-- R21: "the close a DAY ROLL sets from last is already on the record's grid, so the law of R2 holds". -/
theorem RecordLaw.roll {r : Record} (h : RecordLaw r) : RecordLaw (rollRecord r) where
  symbol := h.symbol
  close := by
    intro c hc
    simp only [rollRecord] at hc
    split at hc
    · next d hd => cases hc; exact (h.day d hd).last
    · exact h.close c hc
  day := by simp [rollRecord]
  bid := by simp [rollRecord]
  ask := by simp [rollRecord]
  notCrossed := by simp [rollRecord]
  volume := Nat.zero_le _
  trades := Nat.zero_le _
  folded := h.folded

theorem RecordsLaw.applyDayRoll {s : State} (h : RecordsLaw s) (b : List Byte) :
    RecordsLaw (applyDayRoll b s).1 := by
  unfold Machine.applyDayRoll
  split
  · exact h
  · split
    · exact h
    · refine h.mapAll (f := fun _ r => r.map rollRecord) ?_ (by simp [rollDay])
      intro i r hr x hx
      obtain ⟨y, hy, rfl⟩ := Option.map_eq_some_iff.mp hx
      exact (hr y hy).roll

theorem RecordsLaw.applyTableClear {s : State} (h : RecordsLaw s) (b : List Byte) :
    RecordsLaw (applyTableClear b s).1 := by
  unfold Machine.applyTableClear
  split
  · exact h
  · intro i r hr
    have : (clearTable s).records[i] = none := by
      unfold clearTable freeAll
      exact Vec.mapIx_get _ _ _
    rw [this] at hr
    cases hr

theorem RecordsLaw.applyTapeClear {s : State} (h : RecordsLaw s) (b : List Byte) :
    RecordsLaw (applyTapeClear b s).1 := by
  unfold Machine.applyTapeClear
  split
  · exact h
  · exact h.withdrawAll _

theorem restartAll_records (s : State) :
    (restartAll s).records = (withdrawAll .b (withdrawAll .a (restartFeed s))).records := by
  unfold restartAll
  simp [restartTapes]

theorem RecordsLaw.restartAll {s : State} (h : RecordsLaw s) : RecordsLaw (restartAll s) :=
  RecordsLaw.of_same (((h.of_same (t := restartFeed s) rfl).withdrawAll .a).withdrawAll .b) (restartAll_records s)

/-! ### Steps of a ribbon -/

theorem RecordsLaw.chooseItem {s : State} (h : RecordsLaw s) (t : AB) : RecordsLaw (chooseItem t s).1 := by
  unfold Machine.chooseItem choosePrint
  dsimp only
  (repeat' split) <;> first
    | exact h
    | exact h.of_same rfl
    | (unfold composeHead; dsimp only
       exact RecordsLaw.reportGone ((h.setTape t _).setPendingPrint _ (p := none) (fun _ e => nomatch e)) _)

theorem RecordsLaw.select {s : State} (h : RecordsLaw s) (t : AB) : RecordsLaw (select t s).1 :=
  RecordsLaw.chooseItem (h.of_same (by simp)) t

theorem stepRibbon_records (t : AB) (s : State) :
    (stepRibbon t s).records = s.records ∨ (stepRibbon t s).records = (select t s).1.records := by
  unfold stepRibbon
  dsimp only
  (repeat' split) <;> first
    | exact .inl rfl
    | exact .inl (by simp)
    | (right; unfold stepSelect; split <;> simp_all)

theorem RecordsLaw.stepRibbon {s : State} (h : RecordsLaw s) (t : AB) : RecordsLaw (stepRibbon t s) := by
  rcases stepRibbon_records t s with e | e
  · exact h.of_same e
  · exact (h.select t).of_same e

theorem State.reset_free (i : SlotIx) : State.reset.records[i] = none := by
  unfold State.reset
  simp

theorem State.reset_records : RecordsLaw State.reset := by
  intro i r hr
  rw [State.reset_free] at hr
  cases hr

/-! ### Every command -/

/-- Every command keeps the law. -/
theorem records_kept : KeptByCommands RecordsLaw RecordsLaw where
  remove _ h _ := h.of_same rfl
  place _ _ _ s h := h.of_same rfl
  list b s h := h.applyList b
  delist b s h := h.applyDelist b
  queryRecord b s h := by rw [applyQueryRecord_frame]; exact h
  sessionOpen b s h := by rw [applySessionOpen_frame]; exact h.of_same rfl
  sessionClose b s h := h.applySessionClose b
  dayRoll b s h := h.applyDayRoll b
  tableClear b s h := h.applyTableClear b
  trade b s h := h.applyTrade b
  quote b s h := h.applyQuote b
  halt b s h := h.applyHalt b
  resume b s h := h.applyResume b
  loadEntry b s h := by rw [applyLoadEntry_frame]; exact h.of_same rfl
  unloadEntry b s h := by rw [applyUnloadEntry_frame]; exact h.of_same rfl
  definePage b s h := by rw [applyDefinePage_frame]; exact h.of_same rfl
  undefinePage b s h := by rw [applyUndefinePage_frame]; exact h.of_same rfl
  showPage b s h := by rw [applyShowPage_frame]; exact h.of_same rfl
  restorePanel b s h := by rw [applyRestorePanel_frame]; exact h.of_same rfl
  clearFaults b s h := by rw [applyClearFaults_frame]; exact h.of_same rfl
  tapeStart b s h := by rw [applyTapeStart_frame]; exact h.of_same rfl
  tapeStop b s h := by rw [applyTapeStop_frame]; exact h.of_same rfl
  tapeClear b s h := h.applyTapeClear b
  notice b s h := by rw [applyNotice_frame]; exact h.of_same rfl
  terminalEnable b s h := by rw [applyTerminalEnable_frame]; exact h.of_same rfl
  setParameter b s h := by rw [applySetParameter_frame]; exact h.of_same rfl
  readParameter b s h := by rw [applyReadParameter_frame]; exact h
  readStatus b s h := by rw [applyReadStatus_frame]; exact h.of_same rfl
  clearConditions b s h := by rw [applyClearConditions_frame]; exact h.of_same rfl
  restart _ s h := h.restartAll
  takeFeedChar c s h := by rw [takeFeedChar_frame]; exact h.of_same rfl
  takeFeedFailure x s h := by rw [takeFeedFailure_frame]; exact h.of_same rfl
  expireFrameGap s h := by rw [expireFrameGap_frame]; exact h.of_same rfl
  sendReply s h := by rw [sendReply_frame]; exact h.of_same rfl
  completeFrame c s h := by rw [completeFrame_frame]; exact h.of_same rfl
  expireQuietLimit s h := by rw [expireQuietLimit_frame]; exact h.of_same rfl
  startWrite s h := by rw [startWrite_frame]; exact h.of_same rfl
  completeWrite s h := by rw [completeWrite_frame]; exact h.of_same rfl
  startPeriod x s h := by rw [startPeriod_frame]; exact h.of_same rfl
  sampleRail i w f s h := by rw [sampleRail_frame]; exact h.of_same rfl
  changeRail i s h := by rw [changeRail_frame]; exact h.of_same rfl
  endGap s h := by rw [endGap_frame]; exact h.of_same rfl
  startRead s h := by rw [startRead_frame]; exact h.of_same rfl
  takeEcho e s h := by rw [takeEcho_frame]; exact h.of_same rfl
  endEchoLimit s h := by rw [endEchoLimit_frame]; exact h.of_same rfl
  stepRibbon t s h := h.stepRibbon t
  visitLine l s h := by rw [visitLine_frame]; exact h.of_same rfl
  openWindow l s h := by rw [openWindow_frame]; exact h.of_same rfl
  expireWindow l s h := by rw [expireWindow_frame]; exact h.of_same rfl
  expireReplyGap l s h := by rw [expireReplyGap_frame]; exact h.of_same rfl
  expireSettling l s h := by rw [expireSettling_frame]; exact h.of_same rfl
  takeReplyChar l c s h := by rw [takeReplyChar_frame]; exact h.of_same rfl
  takeLineFailure l x s h := by rw [takeLineFailure_frame]; exact h.of_same rfl
  completeReply l c s h := by rw [completeReply_frame]; exact h.of_same rfl
  endEmptyRound l s h := by rw [endEmptyRound_frame]; exact h.of_same rfl
  restartAll s h := h.restartAll
  powerOn b s := State.reset_records.of_same rfl
  withPending _ s h := h.of_same rfl
  nextInterval s h := h.of_same (by simp)

end Sys2Proof.Machine
end

