-- ==== Sys2Proof/Laws/DirectoryLaw.lean ====
section
/-! SUPPORT. The law of R8 for the symbol directory, operation by operation. -/

namespace Sys2Proof.Machine

theorem DirectoryLaw.of_symbols {s t : State} (h : DirectoryLaw s) (hd : t.directory = s.directory)
    (hr : ∀ i : SlotIx, (t.records[i]).map (·.symbol) = (s.records[i]).map (·.symbol)) : DirectoryLaw t := by
  refine ⟨hd ▸ h.oncePerSymbol, ?_, ?_⟩
  · intro e he
    rw [hd] at he
    obtain ⟨r, hr1, hr2⟩ := h.names e he
    have := hr e.2
    rw [hr1] at this
    obtain ⟨x, hx, hy⟩ := Option.map_eq_some_iff.mp this
    exact ⟨x, hx, hy.trans hr2⟩
  · intro i r hi
    have := hr i
    rw [hi] at this
    obtain ⟨x, hx, hy⟩ := Option.map_eq_some_iff.mp this.symm
    have hy' : x.symbol = r.symbol := hy
    rw [hd, ← hy']
    exact h.complete i x hx

theorem DirectoryLaw.of_same {s t : State} (h : DirectoryLaw s) (hd : t.directory = s.directory)
    (hr : t.records = s.records) : DirectoryLaw t := h.of_symbols hd (fun i => by rw [hr])

/-- R4: "the slot's entry is removed from the symbol directory", and the slot becomes FREE. -/
theorem DirectoryLaw.freeSlot {s : State} (h : DirectoryLaw s) (i : SlotIx) : DirectoryLaw (freeSlot i s) := by
  refine ⟨?_, ?_, ?_⟩
  · exact h.oncePerSymbol.sublist (List.filter_sublist.map _)
  · intro e he
    simp only [freeSlot_directory, List.mem_filter, bne_iff_ne, ne_eq] at he
    obtain ⟨r, h1, h2⟩ := h.names e he.1
    refine ⟨r, ?_, h2⟩
    rw [freeSlot_records, Vec.set_get, if_neg (fun c => he.2 c.symm)]
    exact h1
  · intro j r hj
    rw [freeSlot_records, Vec.set_get] at hj
    split at hj
    · cases hj
    · next hne =>
      simp only [freeSlot_directory, List.mem_filter, bne_iff_ne, ne_eq]
      exact ⟨h.complete j r hj, fun c => hne c.symm⟩

theorem setPendingPrint_symbol (i : SlotIx) (p : Option PendingPrint) (s : State) (j : SlotIx) :
    ((setPendingPrint i p s).records[j]).map (·.symbol) = (s.records[j]).map (·.symbol) := by
  rw [setPendingPrint_records, Vec.update_get]
  split
  · rw [Option.map_map]; rfl
  · rfl

theorem DirectoryLaw.setPendingPrint {s : State} (h : DirectoryLaw s) (i : SlotIx) (p : Option PendingPrint) :
    DirectoryLaw (setPendingPrint i p s) := h.of_symbols rfl (setPendingPrint_symbol i p s)

/-- A record replaced by one of the same symbol. -/
theorem DirectoryLaw.setRecord {s : State} (h : DirectoryLaw s) {i : SlotIx} {r r' : Record}
    (hr : s.records[i] = some r) (hs : r'.symbol = r.symbol) : DirectoryLaw (setRecord i r' s) := by
  refine h.of_symbols rfl (fun j => ?_)
  rw [setRecord_records, Vec.set_get]
  split
  · next e => subst e; rw [hr]; simp [hs]
  · rfl

theorem DirectoryLaw.setTape {s : State} (h : DirectoryLaw s) (t : AB) (u : TapeUnit) :
    DirectoryLaw (setTape t u s) := h.of_same rfl rfl

theorem DirectoryLaw.reportGone {s : State} (h : DirectoryLaw s) (i : SlotIx) : DirectoryLaw (reportGone i s) := by
  unfold Machine.reportGone
  split
  · exact h
  · split
    · exact h.freeSlot i
    · exact h

theorem DirectoryLaw.withdraw {s : State} (h : DirectoryLaw s) (t : AB) (i : SlotIx) :
    DirectoryLaw (withdraw t i s) := by
  unfold Machine.withdraw
  dsimp only
  exact DirectoryLaw.reportGone ((h.setTape t _).setPendingPrint i _) i

theorem DirectoryLaw.withdrawAll {s : State} (h : DirectoryLaw s) (t : AB) : DirectoryLaw (withdrawAll t s) :=
  foldl_keeps (P := DirectoryLaw) (fun _ i hs => DirectoryLaw.withdraw hs t i) _ _ h

theorem DirectoryLaw.tradeNotice {s : State} (h : DirectoryLaw s) (i : SlotIx) (r : Record) (n : Nat) :
    DirectoryLaw (tradeNotice i r n s) := by
  unfold Machine.tradeNotice
  dsimp only
  split
  · exact (h.setTape _ _).setPendingPrint i _
  · exact (h.setTape _ _).setPendingPrint i _

/-! ### Lookups (R9) -/

/-- R9: a full lookup finds the slot of a symbol exactly where a record of the symbol stands. -/
theorem DirectoryLaw.fullLookup_iff {s : State} (h : DirectoryLaw s) {sym : Symbol} {i : SlotIx} {r : Record} :
    fullLookup sym s = some (i, r) ↔ s.records[i] = some r ∧ r.symbol = sym := by
  constructor
  · intro hl
    have hr := fullLookup_record hl
    unfold fullLookup at hl
    split at hl
    · cases hl
    · next e he =>
      obtain ⟨x, _, hy⟩ := Option.map_eq_some_iff.mp hl
      cases hy
      have hm := List.mem_of_find?_eq_some he
      have hs := List.find?_some he
      obtain ⟨y, h1, h2⟩ := h.names e hm
      rw [hr] at h1
      cases h1
      exact ⟨hr, h2.trans (by simpa using hs)⟩
  · rintro ⟨hr, rfl⟩
    have hm := h.complete i r hr
    unfold fullLookup
    split
    · next hn =>
      have := List.find?_eq_none.mp hn _ hm
      simp at this
    · next e he =>
      have hme := List.mem_of_find?_eq_some he
      have hs : e.1 = r.symbol := by simpa using List.find?_some he
      have : e = (r.symbol, i) := List.inj_on_of_nodup_map h.oncePerSymbol hme hm hs
      subst this
      simp [hr]

/-- R9: a live lookup finds the slot of a symbol exactly where a live record of the symbol stands. -/
theorem DirectoryLaw.liveLookup_iff {s : State} (h : DirectoryLaw s) {sym : Symbol} {i : SlotIx} {r : Record} :
    liveLookup sym s = some (i, r) ↔ s.records[i] = some r ∧ r.symbol = sym ∧ r.state.isLive = true := by
  unfold liveLookup
  constructor
  · intro hl
    split at hl
    · cases hl
    · next j x hf =>
      split at hl
      · next hv =>
        cases hl
        have := h.fullLookup_iff.mp hf
        exact ⟨this.1, this.2, hv⟩
      · cases hl
  · rintro ⟨h1, h2, h3⟩
    rw [h.fullLookup_iff.mpr ⟨h1, h2⟩]
    simp [h3]

theorem DirectoryLaw.fullLookup_none {s : State} (h : DirectoryLaw s) {sym : Symbol}
    (hn : fullLookup sym s = none) (i : SlotIx) (r : Record) (hr : s.records[i] = some r) : r.symbol ≠ sym := by
  intro e
  rw [h.fullLookup_iff.mpr ⟨hr, e⟩] at hn
  cases hn

/-! ### Listing -/

theorem addDirectory_perm (sym : Symbol) (i : SlotIx) (l : List (Symbol × SlotIx)) :
    (addDirectory sym i l).Perm ((sym, i) :: l) := by
  induction l with
  | nil => exact List.Perm.refl _
  | cons e rest ih =>
    unfold addDirectory
    split
    · exact (ih.cons e).trans (List.Perm.swap _ _ _)
    · exact List.Perm.refl _

theorem lowestFree_free {s : State} {i : SlotIx} (h : lowestFree s = some i) : s.records[i] = none := by
  unfold lowestFree at h
  have := List.mem_of_head? h
  rw [Vec.mem_select] at this
  simpa using this

theorem listAt_records (i : SlotIx) (r : Record) (s : State) : (listAt i r s).records = s.records.set i (some r) := by
  simp [listAt]

theorem listAt_directory (i : SlotIx) (r : Record) (s : State) :
    (listAt i r s).directory = addDirectory r.symbol i s.directory := by
  simp [listAt]

theorem DirectoryLaw.listAt {s : State} (h : DirectoryLaw s) {i : SlotIx} {r : Record} (hf : s.records[i] = none)
    (hn : fullLookup r.symbol s = none) : DirectoryLaw (listAt i r s) := by
  have hp := addDirectory_perm r.symbol i s.directory
  have fresh := h.fullLookup_none hn
  refine ⟨?_, ?_, ?_⟩
  · rw [listAt_directory, (hp.map _).nodup_iff, List.map_cons, List.nodup_cons]
    refine ⟨?_, h.oncePerSymbol⟩
    intro hm
    obtain ⟨e, he, hs⟩ := List.mem_map.mp hm
    obtain ⟨x, h1, h2⟩ := h.names e he
    exact fresh e.2 x h1 (h2.trans hs)
  · intro e he
    rw [listAt_directory, hp.mem_iff, List.mem_cons] at he
    rw [listAt_records, Vec.set_get]
    rcases he with rfl | he
    · exact ⟨r, if_pos rfl, rfl⟩
    · obtain ⟨x, h1, h2⟩ := h.names e he
      refine ⟨x, ?_, h2⟩
      rw [if_neg]
      · exact h1
      · intro c
        have h1' : s.records[i] = some x := c ▸ h1
        rw [hf] at h1'
        cases h1'
  · intro j x hj
    rw [listAt_records, Vec.set_get] at hj
    rw [listAt_directory, hp.mem_iff, List.mem_cons]
    split at hj
    · next e => cases hj; subst e; exact .inl rfl
    · exact .inr (h.complete j x hj)

theorem DirectoryLaw.applyList {s : State} (h : DirectoryLaw s) (b : List Byte) :
    DirectoryLaw (applyList b s).1 := by
  unfold Machine.applyList
  dsimp only
  generalize (if flagAt b 6 0 = true then some (field b 7 3) else none) = close
  split
  · exact h
  · split
    · split
      · split
        · split <;> exact h
        · next hn =>
          split
          · exact h
          · next i hi => exact h.listAt (lowestFree_free hi) hn
      · exact h
    · exact h

theorem DirectoryLaw.applyDelist {s : State} (h : DirectoryLaw s) (b : List Byte) :
    DirectoryLaw (applyDelist b s).1 := by
  unfold Machine.applyDelist
  split
  · exact h
  · split
    · exact h
    · next i r hl =>
      split
      · unfold delistAt retire
        have hr := fullLookup_record hl
        have h1 : DirectoryLaw (onTerminals (Terminal.dropEntries (· == i)) (unbindEntries (· == i) s)) :=
          h.of_same (by simp) (by simp)
        split
        · exact h1.freeSlot i
        · exact h1.setRecord (r := r) (by simpa using hr) rfl
      · exact h

/-! ### Records changed in other fields than their symbol -/

theorem DirectoryLaw.mapAll {s t : State} (h : DirectoryLaw s) {f : Record → Record} (hf : ∀ r, (f r).symbol = r.symbol)
    (hd : t.directory = s.directory) (hr : t.records = Vec.mapIx (fun _ r => r.map f) s.records) :
    DirectoryLaw t := by
  refine h.of_symbols hd (fun i => ?_)
  rw [hr, Vec.mapIx_get, Option.map_map]
  congr 1
  funext r
  exact hf r

theorem closeRecord_symbol (r : Record) : (closeRecord r).symbol = r.symbol := by unfold closeRecord; split <;> rfl

theorem DirectoryLaw.applySessionClose {s : State} (h : DirectoryLaw s) (b : List Byte) :
    DirectoryLaw (applySessionClose b s).1 := by
  unfold Machine.applySessionClose
  split
  · exact h.mapAll closeRecord_symbol (by simp [closeSession]) (by simp [closeSession])
  · exact h

theorem DirectoryLaw.applyDayRoll {s : State} (h : DirectoryLaw s) (b : List Byte) :
    DirectoryLaw (applyDayRoll b s).1 := by
  unfold Machine.applyDayRoll
  split
  · exact h
  · split
    · exact h
    · exact h.mapAll (f := rollRecord) (fun _ => rfl) (by simp [rollDay]) (by simp [rollDay])

theorem clearTable_records (s : State) (i : SlotIx) : (clearTable s).records[i] = none := by
  unfold clearTable freeAll
  exact Vec.mapIx_get _ _ _

theorem DirectoryLaw.empty {s : State} (hd : s.directory = []) (hr : ∀ i : SlotIx, s.records[i] = none) :
    DirectoryLaw s := by
  refine ⟨by simp [hd], by simp [hd], ?_⟩
  intro i r h
  rw [hr i] at h
  cases h

theorem DirectoryLaw.applyTableClear {s : State} (h : DirectoryLaw s) (b : List Byte) :
    DirectoryLaw (applyTableClear b s).1 := by
  unfold Machine.applyTableClear
  split
  · exact h
  · exact DirectoryLaw.empty rfl (clearTable_records s)

theorem DirectoryLaw.applyTapeClear {s : State} (h : DirectoryLaw s) (b : List Byte) :
    DirectoryLaw (applyTapeClear b s).1 := by
  unfold Machine.applyTapeClear
  split
  · exact h
  · exact h.withdrawAll _

theorem restartAll_directory (s : State) :
    (restartAll s).directory = (withdrawAll .b (withdrawAll .a (restartFeed s))).directory := by
  unfold restartAll
  simp [restartTapes]

theorem DirectoryLaw.restartAll {s : State} (h : DirectoryLaw s) : DirectoryLaw (restartAll s) :=
  DirectoryLaw.of_same (((h.of_same (t := restartFeed s) rfl rfl).withdrawAll .a).withdrawAll .b)
    (restartAll_directory s) (restartAll_records s)

/-! ### Postings -/

theorem DirectoryLaw.applyTrade {s : State} (h : DirectoryLaw s) (b : List Byte) :
    DirectoryLaw (applyTrade b s).1 := by
  unfold Machine.applyTrade
  dsimp only
  split
  · exact h
  · split
    · exact h
    · next i r hl =>
      split
      · exact h
      · split
        · exact h
        · split
          · exact h
          · split
            · exact h
            · next p hp =>
              have h1 := h.setRecord (r' := tradeRecord r p (field b 7 3)) (liveLookup_record hl).1 rfl
              exact DirectoryLaw.tradeNotice (h1.of_same (by simp) (by simp)) i r _

theorem DirectoryLaw.applyQuote {s : State} (h : DirectoryLaw s) (b : List Byte) :
    DirectoryLaw (applyQuote b s).1 := by
  unfold Machine.applyQuote
  dsimp only
  split
  · exact h
  · split
    · exact h
    · next i r hl =>
      split
      · exact h
      · split
        · next bid ask _ _ =>
          split
          · exact h
          · have h1 := h.setRecord (r' := { r with bid := bid, ask := ask }) (liveLookup_record hl).1 rfl
            exact h1.of_same (by simp [postQuote]) (by simp [postQuote])
        · exact h

theorem DirectoryLaw.postState {s : State} (h : DirectoryLaw s) {i : SlotIx} {r : Record}
    (hr : s.records[i] = some r) (x : RecState) : DirectoryLaw (postState i r x s) :=
  (h.setRecord (r' := { r with state := x }) hr rfl).of_same (by simp [Machine.postState])
    (by simp [Machine.postState])

theorem DirectoryLaw.applyHalt {s : State} (h : DirectoryLaw s) (b : List Byte) :
    DirectoryLaw (applyHalt b s).1 := by
  unfold Machine.applyHalt
  split
  · exact h
  · split
    · exact h
    · next i r hl =>
      split
      · exact h
      · exact h.postState (liveLookup_record hl).1 _

theorem DirectoryLaw.applyResume {s : State} (h : DirectoryLaw s) (b : List Byte) :
    DirectoryLaw (applyResume b s).1 := by
  unfold Machine.applyResume
  dsimp only
  split
  · exact h
  · split
    · exact h
    · next i r hl =>
      split
      · exact h.postState (liveLookup_record hl).1 _
      · exact h

/-! ### Steps of a ribbon -/

theorem DirectoryLaw.chooseItem {s : State} (h : DirectoryLaw s) (t : AB) : DirectoryLaw (chooseItem t s).1 := by
  unfold Machine.chooseItem choosePrint
  dsimp only
  (repeat' split) <;> first
    | exact h
    | exact h.of_same rfl rfl
    | (unfold composeHead; dsimp only
       exact DirectoryLaw.reportGone ((h.setTape t _).setPendingPrint _ _) _)

theorem stepRibbon_table (t : AB) (s : State) :
    ((stepRibbon t s).records = s.records ∧ (stepRibbon t s).directory = s.directory) ∨
      ((stepRibbon t s).records = (select t s).1.records ∧ (stepRibbon t s).directory = (select t s).1.directory) := by
  unfold stepRibbon
  dsimp only
  (repeat' split) <;> first
    | exact .inl ⟨rfl, rfl⟩
    | exact .inl (by simp)
    | (right; unfold stepSelect; split <;> simp_all)

theorem DirectoryLaw.stepRibbon {s : State} (h : DirectoryLaw s) (t : AB) : DirectoryLaw (stepRibbon t s) := by
  rcases stepRibbon_table t s with e | e
  · exact h.of_same e.2 e.1
  · have hs : DirectoryLaw (select t s).1 := DirectoryLaw.chooseItem (h.of_same (by simp) (by simp)) t
    exact hs.of_same e.2 e.1

theorem State.reset_directory : DirectoryLaw State.reset := DirectoryLaw.empty rfl State.reset_free

/-! ### Every command -/

/-- Every command keeps the law. -/
theorem directory_kept : KeptByCommands DirectoryLaw DirectoryLaw where
  remove _ h _ := h.of_same rfl rfl
  place _ _ _ s h := h.of_same rfl rfl
  list b s h := h.applyList b
  delist b s h := h.applyDelist b
  queryRecord b s h := by rw [applyQueryRecord_frame]; exact h
  sessionOpen b s h := by rw [applySessionOpen_frame]; exact h.of_same rfl rfl
  sessionClose b s h := h.applySessionClose b
  dayRoll b s h := h.applyDayRoll b
  tableClear b s h := h.applyTableClear b
  trade b s h := h.applyTrade b
  quote b s h := h.applyQuote b
  halt b s h := h.applyHalt b
  resume b s h := h.applyResume b
  loadEntry b s h := by rw [applyLoadEntry_frame]; exact h.of_same rfl rfl
  unloadEntry b s h := by rw [applyUnloadEntry_frame]; exact h.of_same rfl rfl
  definePage b s h := by rw [applyDefinePage_frame]; exact h.of_same rfl rfl
  undefinePage b s h := by rw [applyUndefinePage_frame]; exact h.of_same rfl rfl
  showPage b s h := by rw [applyShowPage_frame]; exact h.of_same rfl rfl
  restorePanel b s h := by rw [applyRestorePanel_frame]; exact h.of_same rfl rfl
  clearFaults b s h := by rw [applyClearFaults_frame]; exact h.of_same rfl rfl
  tapeStart b s h := by rw [applyTapeStart_frame]; exact h.of_same rfl rfl
  tapeStop b s h := by rw [applyTapeStop_frame]; exact h.of_same rfl rfl
  tapeClear b s h := h.applyTapeClear b
  notice b s h := by rw [applyNotice_frame]; exact h.of_same rfl rfl
  terminalEnable b s h := by rw [applyTerminalEnable_frame]; exact h.of_same rfl rfl
  setParameter b s h := by rw [applySetParameter_frame]; exact h.of_same rfl rfl
  readParameter b s h := by rw [applyReadParameter_frame]; exact h
  readStatus b s h := by rw [applyReadStatus_frame]; exact h.of_same rfl rfl
  clearConditions b s h := by rw [applyClearConditions_frame]; exact h.of_same rfl rfl
  restart _ s h := h.restartAll
  takeFeedChar c s h := by rw [takeFeedChar_frame]; exact h.of_same rfl rfl
  takeFeedFailure x s h := by rw [takeFeedFailure_frame]; exact h.of_same rfl rfl
  expireFrameGap s h := by rw [expireFrameGap_frame]; exact h.of_same rfl rfl
  sendReply s h := by rw [sendReply_frame]; exact h.of_same rfl rfl
  completeFrame c s h := by rw [completeFrame_frame]; exact h.of_same rfl rfl
  expireQuietLimit s h := by rw [expireQuietLimit_frame]; exact h.of_same rfl rfl
  startWrite s h := by rw [startWrite_frame]; exact h.of_same rfl rfl
  completeWrite s h := by rw [completeWrite_frame]; exact h.of_same rfl rfl
  startPeriod x s h := by rw [startPeriod_frame]; exact h.of_same rfl rfl
  sampleRail i w f s h := by rw [sampleRail_frame]; exact h.of_same rfl rfl
  changeRail i s h := by rw [changeRail_frame]; exact h.of_same rfl rfl
  endGap s h := by rw [endGap_frame]; exact h.of_same rfl rfl
  startRead s h := by rw [startRead_frame]; exact h.of_same rfl rfl
  takeEcho e s h := by rw [takeEcho_frame]; exact h.of_same rfl rfl
  endEchoLimit s h := by rw [endEchoLimit_frame]; exact h.of_same rfl rfl
  stepRibbon t s h := h.stepRibbon t
  visitLine l s h := by rw [visitLine_frame]; exact h.of_same rfl rfl
  openWindow l s h := by rw [openWindow_frame]; exact h.of_same rfl rfl
  expireWindow l s h := by rw [expireWindow_frame]; exact h.of_same rfl rfl
  expireReplyGap l s h := by rw [expireReplyGap_frame]; exact h.of_same rfl rfl
  expireSettling l s h := by rw [expireSettling_frame]; exact h.of_same rfl rfl
  takeReplyChar l c s h := by rw [takeReplyChar_frame]; exact h.of_same rfl rfl
  takeLineFailure l x s h := by rw [takeLineFailure_frame]; exact h.of_same rfl rfl
  completeReply l c s h := by rw [completeReply_frame]; exact h.of_same rfl rfl
  endEmptyRound l s h := by rw [endEmptyRound_frame]; exact h.of_same rfl rfl
  restartAll s h := h.restartAll
  powerOn b s := State.reset_directory.of_same rfl rfl
  withPending _ s h := h.of_same rfl rfl
  nextInterval s h := h.of_same (by simp) (by simp)

end Sys2Proof.Machine
end

