-- ==== Sys2Proof/Laws/Watch.lean ====
section
/-! SUPPORT. What the operations on one terminal record do to its watch list, and the law of R138 through each. -/

namespace Sys2Proof.Machine

/-- R149: the terminal has an ACTIVE watch entry of the symbol bound to the slot. -/
def Terminal.Binds (t : Terminal) (sym : Symbol) (i : SlotIx) : Prop := ⟨sym, .active i⟩ ∈ t.watch

/-! ### Marks (R150) -/

section Mark
variable (t : Terminal) (sym : Symbol)

@[simp] theorem Terminal.mark_watch : (t.mark sym).watch = t.watch := by unfold Terminal.mark; split <;> rfl
@[simp] theorem Terminal.mark_enabled : (t.mark sym).enabled = t.enabled := by unfold Terminal.mark; split <;> rfl
@[simp] theorem Terminal.mark_presence : (t.mark sym).presence = t.presence := by unfold Terminal.mark; split <;> rfl
@[simp] theorem Terminal.mark_missRun : (t.mark sym).missRun = t.missRun := by unfold Terminal.mark; split <;> rfl
@[simp] theorem Terminal.mark_answer : (t.mark sym).answer = t.answer := by unfold Terminal.mark; split <;> rfl
@[simp] theorem Terminal.mark_takesMarks : (t.mark sym).takesMarks = t.takesMarks := by simp [Terminal.takesMarks]
@[simp] theorem Terminal.mark_watched : (t.mark sym).watched = t.watched := by simp [Terminal.watched]

variable (syms : List Symbol)

theorem Terminal.markAll_field {α : Type} (g : Terminal → α) (h : ∀ t sym, g (Terminal.mark t sym) = g t) :
    g (t.markAll syms) = g t := by
  unfold Terminal.markAll
  induction syms generalizing t with
  | nil => rfl
  | cons x rest ih => exact (ih _).trans (h t x)

@[simp] theorem Terminal.markAll_watch : (t.markAll syms).watch = t.watch := t.markAll_field syms (·.watch) (by simp)
@[simp] theorem Terminal.markAll_enabled : (t.markAll syms).enabled = t.enabled :=
  t.markAll_field syms (·.enabled) (by simp)
@[simp] theorem Terminal.markAll_presence : (t.markAll syms).presence = t.presence :=
  t.markAll_field syms (·.presence) (by simp)
@[simp] theorem Terminal.markAll_missRun : (t.markAll syms).missRun = t.missRun :=
  t.markAll_field syms (·.missRun) (by simp)
@[simp] theorem Terminal.markAll_answer : (t.markAll syms).answer = t.answer :=
  t.markAll_field syms (·.answer) (by simp)
@[simp] theorem Terminal.markAll_takesMarks : (t.markAll syms).takesMarks = t.takesMarks := by
  simp [Terminal.takesMarks]
@[simp] theorem Terminal.markAll_watched : (t.markAll syms).watched = t.watched := by simp [Terminal.watched]

@[simp] theorem Terminal.notice_watch (i : SlotIx) : (t.notice i).watch = t.watch := by simp [Terminal.notice]
@[simp] theorem Terminal.notice_enabled (i : SlotIx) : (t.notice i).enabled = t.enabled := by simp [Terminal.notice]
@[simp] theorem Terminal.notice_presence (i : SlotIx) : (t.notice i).presence = t.presence := by
  simp [Terminal.notice]
@[simp] theorem Terminal.notice_answer (i : SlotIx) : (t.notice i).answer = t.answer := by simp [Terminal.notice]
@[simp] theorem Terminal.notice_watched (i : SlotIx) : (t.notice i).watched = t.watched := by simp [Terminal.notice]
@[simp] theorem Terminal.notice_takesMarks (i : SlotIx) : (t.notice i).takesMarks = t.takesMarks := by
  simp [Terminal.notice]

end Mark

/-- R150: a mark appends the entry to the dirty queue, unless it stands there or the terminal takes no marks. -/
theorem Terminal.mark_dirty (t : Terminal) (sym : Symbol) :
    (t.mark sym).dirty = if t.takesMarks = true ∧ sym ∉ t.dirty then t.dirty ++ [sym] else t.dirty := by
  unfold Terminal.mark
  by_cases h1 : t.takesMarks = true <;> by_cases h2 : sym ∈ t.dirty <;> simp [h1, h2]

theorem TerminalLaw.mark {t : Terminal} (h : TerminalLaw t) {sym : Symbol} (hs : sym ∈ t.watched) :
    TerminalLaw (t.mark sym) where
  places := by simpa using h.places
  distinct := by simpa using h.distinct
  dirtyOnce := by
    rw [Terminal.mark_dirty]
    split
    · next hc =>
      rw [List.nodup_append]
      refine ⟨h.dirtyOnce, by simp, ?_⟩
      rintro a ha b hb rfl
      exact hc.2 (by simpa [List.mem_singleton.mp hb] using ha)
    · exact h.dirtyOnce
  dirtyWatched := by
    intro x hx
    rw [Terminal.mark_dirty] at hx
    rw [Terminal.mark_watched]
    split at hx
    · rcases List.mem_append.mp hx with hx | hx
      · exact h.dirtyWatched x hx
      · rw [List.mem_singleton.mp hx]; exact hs
    · exact h.dirtyWatched x hx
  away := by
    intro ha
    rw [Terminal.mark_takesMarks] at ha
    rw [Terminal.mark_dirty, if_neg (by simp [ha]), Terminal.mark_answer]
    exact h.away ha
  misses := by simpa using h.misses

theorem TerminalLaw.markAll {t : Terminal} (h : TerminalLaw t) {syms : List Symbol}
    (hs : ∀ sym ∈ syms, sym ∈ t.watched) : TerminalLaw (t.markAll syms) := by
  unfold Terminal.markAll
  induction syms generalizing t with
  | nil => exact h
  | cons x rest ih =>
    exact ih (h.mark (hs x (List.mem_cons_self ..)))
      (fun sym hm => by simpa using hs sym (List.mem_cons_of_mem _ hm))

theorem TerminalLaw.notice {t : Terminal} (h : TerminalLaw t) (i : SlotIx) : TerminalLaw (t.notice i) := by
  refine h.markAll ?_
  intro sym hm
  obtain ⟨w, hw, rfl⟩ := List.mem_map.mp hm
  exact List.mem_map_of_mem (List.mem_of_mem_filter hw)

/-! ### Dropped entries (R157) -/

/-- Is the entry ACTIVE and bound to a slot that is hit? -/
def WatchEntry.hitBy (hit : SlotIx → Bool) (w : WatchEntry) : Bool :=
  match w.state with
  | .active slot => hit slot
  | .dropped => false

theorem Terminal.dropEntries_eq (hit : SlotIx → Bool) (t : Terminal) :
    t.dropEntries hit = if t.takesMarks then
        ({ t with watch := t.watch.map (fun w => if w.hitBy hit then { w with state := .dropped } else w) } :
          Terminal).markAll ((t.watch.filter (WatchEntry.hitBy hit)).map (·.symbol))
      else { t with watch := t.watch.filter (fun w => !w.hitBy hit) } := rfl

@[simp] theorem Terminal.dropEntries_enabled (hit : SlotIx → Bool) (t : Terminal) :
    (t.dropEntries hit).enabled = t.enabled := by
  rw [Terminal.dropEntries_eq]
  split <;> simp

@[simp] theorem Terminal.dropEntries_presence (hit : SlotIx → Bool) (t : Terminal) :
    (t.dropEntries hit).presence = t.presence := by
  rw [Terminal.dropEntries_eq]
  split <;> simp

@[simp] theorem Terminal.dropEntries_answer (hit : SlotIx → Bool) (t : Terminal) :
    (t.dropEntries hit).answer = t.answer := by
  rw [Terminal.dropEntries_eq]
  split <;> simp

@[simp] theorem Terminal.dropEntries_takesMarks (hit : SlotIx → Bool) (t : Terminal) :
    (t.dropEntries hit).takesMarks = t.takesMarks := by
  simp [Terminal.takesMarks]

theorem watched_drop (hit : SlotIx → Bool) (l : List WatchEntry) :
    (l.map (fun w => if w.hitBy hit then { w with state := .dropped } else w)).map (·.symbol) = l.map (·.symbol) := by
  rw [List.map_map]
  apply List.map_congr_left
  intro w _
  dsimp only [Function.comp]
  split <;> rfl

theorem Terminal.dropEntries_watched (hit : SlotIx → Bool) {t : Terminal} (h : t.takesMarks = true) :
    (t.dropEntries hit).watched = t.watched := by
  rw [Terminal.dropEntries_eq, if_pos h, Terminal.markAll_watched]
  exact watched_drop hit t.watch

theorem Terminal.dropEntries_length (hit : SlotIx → Bool) (t : Terminal) :
    (t.dropEntries hit).watch.length ≤ t.watch.length := by
  rw [Terminal.dropEntries_eq]
  split
  · simp
  · exact List.length_filter_le _ _

/-- An entry bound to a slot that is hit is bound no more; no entry is newly bound. -/
theorem Terminal.dropEntries_binds {hit : SlotIx → Bool} {t : Terminal} {sym : Symbol} {i : SlotIx}
    (h : (t.dropEntries hit).Binds sym i) : t.Binds sym i ∧ hit i = false := by
  unfold Terminal.Binds at h
  rw [Terminal.dropEntries_eq] at h
  split at h
  · rw [Terminal.markAll_watch] at h
    obtain ⟨w, hw, he⟩ := List.mem_map.mp h
    split at he
    · cases he
    · next hn =>
      subst he
      exact ⟨hw, by simpa [WatchEntry.hitBy] using hn⟩
  · have := List.mem_filter.mp h
    exact ⟨this.1, by simpa [WatchEntry.hitBy] using this.2⟩

theorem TerminalLaw.dropEntries {t : Terminal} (h : TerminalLaw t) (hit : SlotIx → Bool) :
    TerminalLaw (t.dropEntries hit) := by
  rw [Terminal.dropEntries_eq]
  split
  · next ht =>
    refine TerminalLaw.markAll ?_ ?_
    · exact
        { places := by simpa using h.places
          distinct := by
            have := h.distinct
            unfold Terminal.watched at this ⊢
            rw [watched_drop]
            exact this
          dirtyOnce := h.dirtyOnce
          dirtyWatched := by
            intro sym hm
            unfold Terminal.watched
            rw [watched_drop]
            exact h.dirtyWatched sym hm
          away := by intro hf; exact h.away hf
          misses := h.misses }
    · intro sym hm
      unfold Terminal.watched
      rw [watched_drop]
      obtain ⟨w, hw, rfl⟩ := List.mem_map.mp hm
      exact List.mem_map_of_mem (List.mem_of_mem_filter hw)
  · next ht =>
    have ha := h.away (by simpa using ht)
    exact
      { places := (List.length_filter_le _ _).trans h.places
        distinct := h.distinct.sublist (List.filter_sublist.map _)
        dirtyOnce := h.dirtyOnce
        dirtyWatched := by rw [ha.1]; simp
        away := fun _ => ha
        misses := h.misses }

end Sys2Proof.Machine
end

