-- ==== Sys2Proof/Laws/Visits.lean ====
section
/-! SUPPORT. The law of R138 and the bindings of R149 through the operations that a visit, its outcome, TERMINAL ENABLE
and a restart apply to one terminal record. -/

namespace Sys2Proof.Machine

theorem Terminal.without_sublist (t : Terminal) (sym : Symbol) : (t.without sym).Sublist t.watch :=
  List.filter_sublist

theorem Terminal.entryOf_mem {t : Terminal} {sym : Symbol} {w : WatchEntry} (h : t.entryOf sym = some w) :
    w ∈ t.watch ∧ w.symbol = sym :=
  ⟨List.mem_of_find?_eq_some h, by simpa using List.find?_some h⟩

theorem Terminal.entryOf_none {t : Terminal} {sym : Symbol} (h : t.entryOf sym = none) : sym ∉ t.watched := by
  intro hm
  obtain ⟨w, hw, hs⟩ := List.mem_map.mp hm
  have := List.find?_eq_none.mp h w hw
  simp [hs] at this

/-! ### What a visit sends (R140) -/

/-- Every case of what a visit sends, leaves of the terminal and holds as outstanding. -/
theorem formFrame_cases (s : State) (t : Terminal) :
    formFrame s t = sendPoll t
    ∨ (∃ frame, t.answer = some frame ∧ formFrame s t = ⟨frame, .answer frame, { t with answer := none }⟩)
    ∨ (∃ sym rest w slot r, t.answer = none ∧ t.dirty = sym :: rest ∧ t.entryOf sym = some w
        ∧ w.state = .active slot ∧ s.records[slot] = some r
        ∧ formFrame s t = ⟨updateFrame s.feed.stale slot r, .active w.symbol, { t with dirty := rest }⟩)
    ∨ (∃ sym rest w, t.answer = none ∧ t.dirty = sym :: rest ∧ t.entryOf sym = some w ∧ w.state = .dropped
        ∧ formFrame s t = ⟨droppedFrame s.feed.stale w.symbol, .dropped w.symbol (t.placeOf w.symbol),
            { t with dirty := rest, watch := t.without w.symbol }⟩) := by
  unfold formFrame
  split
  · next frame ha => exact .inr (.inl ⟨frame, ha, rfl⟩)
  · next ha =>
    split
    · exact .inl rfl
    · next sym rest hd =>
      split
      · exact .inl rfl
      · next w hw =>
        unfold sendUpdate
        split
        · next slot hs =>
          split
          · exact .inl rfl
          · next r hr => exact .inr (.inr (.inl ⟨sym, rest, w, slot, r, ha, hd, hw, hs, hr, rfl⟩))
        · next hs => exact .inr (.inr (.inr ⟨sym, rest, w, ha, hd, hw, hs, rfl⟩))

theorem formFrame_enabled (s : State) (t : Terminal) : (formFrame s t).terminal.enabled = t.enabled := by
  rcases formFrame_cases s t with h | ⟨_, _, h⟩ | ⟨_, _, _, _, _, _, _, _, _, _, h⟩ | ⟨_, _, _, _, _, _, _, h⟩ <;>
    first | (rw [h]; rfl) | rw [h]

theorem formFrame_binds {s : State} {t : Terminal} {sym : Symbol} {i : SlotIx}
    (h : (formFrame s t).terminal.Binds sym i) : t.Binds sym i := by
  rcases formFrame_cases s t with e | ⟨_, _, e⟩ | ⟨_, _, _, _, _, _, _, _, _, _, e⟩ | ⟨_, _, w, _, _, _, _, e⟩ <;>
    rw [e] at h
  · exact h
  · exact h
  · exact h
  · exact (t.without_sublist w.symbol).subset h

theorem TerminalLaw.dirty_takes {t : Terminal} (h : TerminalLaw t) {sym : Symbol} {rest : List Symbol}
    (hd : t.dirty = sym :: rest) : t.takesMarks = true := by
  by_contra hc
  have := (h.away (by simpa using hc)).1
  rw [hd] at this
  cases this

theorem TerminalLaw.answer_takes {t : Terminal} (h : TerminalLaw t) {f : TermFrame} (ha : t.answer = some f) :
    t.takesMarks = true := by
  by_contra hc
  have := (h.away (by simpa using hc)).2
  rw [ha] at this
  cases this

theorem TerminalLaw.tailDirty {t : Terminal} (h : TerminalLaw t) {sym : Symbol} {rest : List Symbol}
    (hd : t.dirty = sym :: rest) : sym ∉ rest ∧ rest.Nodup := by
  have := h.dirtyOnce
  rw [hd] at this
  exact List.nodup_cons.mp this

theorem TerminalLaw.formFrame {t : Terminal} (h : TerminalLaw t) (s : State) :
    TerminalLaw (formFrame s t).terminal := by
  rcases formFrame_cases s t with e | ⟨_, _, e⟩ | ⟨_, rest, _, _, _, _, hd, _, _, _, e⟩ | ⟨sym, rest, w, _, hd, hw, _, e⟩ <;>
    rw [e]
  · exact h
  · exact { h with away := fun ha => ⟨(h.away ha).1, rfl⟩ }
  · exact { h with
      dirtyOnce := (h.tailDirty hd).2
      dirtyWatched := fun x hx => h.dirtyWatched x (by rw [hd]; exact List.mem_cons_of_mem _ hx)
      away := fun ha => by
        have := h.dirty_takes hd
        have ha' : t.takesMarks = false := ha
        rw [this] at ha'
        cases ha' }
  · have hs := (Terminal.entryOf_mem hw).2
    exact
      { places := (t.without_sublist _).length_le.trans h.places
        distinct := h.distinct.sublist ((t.without_sublist _).map _)
        dirtyOnce := (h.tailDirty hd).2
        dirtyWatched := by
          intro x hx
          have hne : x ≠ w.symbol := by
            rintro rfl
            exact (h.tailDirty hd).1 (hs ▸ hx)
          obtain ⟨v, hv, rfl⟩ := List.mem_map.mp (h.dirtyWatched x (by rw [hd]; exact List.mem_cons_of_mem _ hx))
          exact List.mem_map_of_mem (List.mem_filter.mpr ⟨hv, by simpa using hne⟩)
        away := fun ha => by
          have := h.dirty_takes hd
          have ha' : t.takesMarks = false := ha
          rw [this] at ha'
          cases ha'
        misses := h.misses }

theorem TerminalLaw.formFrame_held {t : Terminal} (h : TerminalLaw t) (s : State) :
    (Machine.formFrame s t).outstanding.Held (Machine.formFrame s t).terminal := by
  rcases formFrame_cases s t with e | ⟨f, ha, e⟩ | ⟨sym, rest, w, _, _, _, hd, hw, _, _, e⟩ | ⟨sym, rest, w, _, hd, hw, _, e⟩ <;>
    rw [e]
  · trivial
  · exact ⟨h.answer_takes ha, rfl⟩
  · exact ⟨h.dirty_takes hd, List.mem_map_of_mem (Terminal.entryOf_mem hw).1⟩
  · refine ⟨h.dirty_takes hd, ?_, ?_⟩
    · intro hm
      obtain ⟨v, hv, hs⟩ := List.mem_map.mp hm
      have := (List.mem_filter.mp hv).2
      simp [hs] at this
    · have hlt : (t.without w.symbol).length < t.watch.length := by
        refine List.length_filter_lt_length_iff_exists.mpr ⟨w, (Terminal.entryOf_mem hw).1, by simp⟩
      have := h.places
      show (t.without w.symbol).length ≤ 11
      omega

/-! ### Misses (R143) and settled items (R146) -/

theorem Terminal.reinsert_perm (t : Terminal) (sym : Symbol) (n : Nat) :
    (t.reinsert sym n).watch.Perm (⟨sym, .dropped⟩ :: t.watch) := by
  unfold Terminal.reinsert
  have := (List.perm_middle (a := (⟨sym, .dropped⟩ : WatchEntry)) (l₁ := t.watch.take n) (l₂ := t.watch.drop n))
  rwa [List.take_append_drop] at this

theorem Terminal.reinsert_binds {t : Terminal} {sym x : Symbol} {n : Nat} {i : SlotIx}
    (h : (t.reinsert sym n).Binds x i) : t.Binds x i := by
  have := (t.reinsert_perm sym n).mem_iff.mp h
  rcases List.mem_cons.mp this with e | e
  · cases e
  · exact e

theorem TerminalLaw.reinsert {t : Terminal} (h : TerminalLaw t) {sym : Symbol} (hs : sym ∉ t.watched)
    (hl : t.watch.length ≤ 11) (n : Nat) : TerminalLaw (t.reinsert sym n) where
  places := by
    rw [(t.reinsert_perm sym n).length_eq, List.length_cons]
    omega
  distinct := by
    unfold Terminal.watched
    rw [((t.reinsert_perm sym n).map _).nodup_iff, List.map_cons, List.nodup_cons]
    exact ⟨hs, h.distinct⟩
  dirtyOnce := h.dirtyOnce
  dirtyWatched := by
    intro x hx
    unfold Terminal.watched
    rw [((t.reinsert_perm sym n).map _).mem_iff, List.map_cons]
    exact List.mem_cons_of_mem _ (h.dirtyWatched x hx)
  away := h.away
  misses := h.misses

theorem Terminal.reinsert_watched (t : Terminal) (sym : Symbol) (n : Nat) : sym ∈ (t.reinsert sym n).watched := by
  unfold Terminal.watched
  rw [((t.reinsert_perm sym n).map _).mem_iff]
  exact List.mem_cons_self ..

theorem TerminalLaw.putBack {t : Terminal} (h : TerminalLaw t) {o : Outstanding} (ho : o.Held t) :
    TerminalLaw (putBack o t) := by
  cases o with
  | nothing => exact h
  | answer f =>
    exact { h with away := fun ha => absurd (ho.1.symm.trans ha) (by decide) }
  | active sym => exact h.mark ho.2
  | dropped sym n => exact (h.reinsert ho.2.1 ho.2.2 n).mark (t.reinsert_watched sym n)

theorem putBack_binds {t : Terminal} {o : Outstanding} {x : Symbol} {i : SlotIx} (h : (putBack o t).Binds x i) :
    t.Binds x i := by
  cases o with
  | nothing => exact h
  | answer f => exact h
  | active sym => simpa [putBack, Terminal.Binds] using h
  | dropped sym n =>
    refine Terminal.reinsert_binds (sym := sym) (n := n) ?_
    simpa [putBack, Terminal.Binds] using h

@[simp] theorem putBack_enabled (o : Outstanding) (t : Terminal) : (putBack o t).enabled = t.enabled := by
  cases o <;> simp [putBack, Terminal.reinsert]

theorem raiseRun_le (n : Nat) : raiseRun n ≤ 8 := by unfold raiseRun; exact Nat.min_le_right ..

theorem TerminalLaw.missed {t : Terminal} (h : TerminalLaw t) {o : Outstanding} (ho : o.Held t) :
    TerminalLaw (missedTerminal o t) := by
  unfold missedTerminal
  have h' : TerminalLaw { t with missRun := raiseRun t.missRun } := { h with misses := raiseRun_le _ }
  refine h'.putBack ?_
  cases o <;> exact ho

theorem missedTerminal_binds {t : Terminal} {o : Outstanding} {x : Symbol} {i : SlotIx}
    (h : (missedTerminal o t).Binds x i) : t.Binds x i := putBack_binds (t := { t with missRun := raiseRun t.missRun }) h

@[simp] theorem missedTerminal_enabled (o : Outstanding) (t : Terminal) :
    (missedTerminal o t).enabled = t.enabled := by simp [missedTerminal]

theorem TerminalLaw.absent {t : Terminal} (h : TerminalLaw t) : TerminalLaw (makeAbsent t) where
  places := h.places
  distinct := h.distinct
  dirtyOnce := List.nodup_nil
  dirtyWatched := by intro x hx; cases hx
  away := fun _ => ⟨rfl, rfl⟩
  misses := h.misses

/-! ### Replies and requests (R142, R151 to R155) -/

theorem confirmPresent_takes {t : Terminal} (h : t.enabled = true) : (confirmPresent t).takesMarks = true := by
  unfold confirmPresent
  dsimp only
  split <;> simp [Terminal.takesMarks, h]

@[simp] theorem confirmPresent_watch (t : Terminal) : (confirmPresent t).watch = t.watch := by
  unfold confirmPresent
  dsimp only
  split <;> simp

@[simp] theorem confirmPresent_enabled (t : Terminal) : (confirmPresent t).enabled = t.enabled := by
  unfold confirmPresent
  dsimp only
  split <;> simp

theorem TerminalLaw.confirm {t : Terminal} (h : TerminalLaw t) (he : t.enabled = true) :
    TerminalLaw (confirmPresent t) := by
  have h1 : TerminalLaw { t with missRun := 0, presence := .present } :=
    { h with
      away := fun ha => by simp [Terminal.takesMarks, he] at ha
      misses := Nat.zero_le _ }
  unfold confirmPresent
  dsimp only
  split
  · exact h1
  · exact h1.markAll (fun _ hm => hm)

/-- The law through a placing of an answer at a terminal that takes marks. -/
theorem TerminalLaw.answered {t : Terminal} (h : TerminalLaw t) (ht : t.takesMarks = true) (f : Option TermFrame) :
    TerminalLaw { t with answer := f } :=
  { h with away := fun ha => absurd (ht.symm.trans ha) (by decide) }

theorem watched_reactivate (sym : Symbol) (i : SlotIx) (l : List WatchEntry) :
    (l.map (fun w => if w.symbol == sym then { w with state := .active i } else w)).map (·.symbol)
      = l.map (·.symbol) := by
  rw [List.map_map]
  apply List.map_congr_left
  intro w _
  dsimp only [Function.comp]
  split <;> rfl

theorem TerminalLaw.reactivate {t : Terminal} (h : TerminalLaw t) {sym : Symbol} (hs : sym ∈ t.watched) (i : SlotIx) :
    TerminalLaw (t.reactivate sym i) := by
  unfold Terminal.reactivate
  refine TerminalLaw.mark ?_ ?_
  · exact
      { places := by simpa using h.places
        distinct := by
          have := h.distinct
          unfold Terminal.watched at this ⊢
          rw [watched_reactivate]
          exact this
        dirtyOnce := h.dirtyOnce
        dirtyWatched := by
          intro x hm
          unfold Terminal.watched
          rw [watched_reactivate]
          exact h.dirtyWatched x hm
        away := h.away
        misses := h.misses }
  · unfold Terminal.watched
    rw [watched_reactivate]
    exact hs

theorem TerminalLaw.addEntry {t : Terminal} (h : TerminalLaw t) {sym : Symbol} (hs : sym ∉ t.watched)
    (hl : t.watch.length ≤ 11) (i : SlotIx) : TerminalLaw (t.addEntry sym i) := by
  unfold Terminal.addEntry
  refine TerminalLaw.mark ?_ ?_
  · exact
      { places := by
          show (t.watch ++ [_]).length ≤ 12
          rw [List.length_append, List.length_singleton]
          omega
        distinct := by
          unfold Terminal.watched
          rw [List.map_append, List.nodup_append]
          refine ⟨h.distinct, by simp, ?_⟩
          rintro a ha b hb rfl
          rw [List.map_singleton, List.mem_singleton] at hb
          exact hs ((show a = sym from hb) ▸ ha)
        dirtyOnce := h.dirtyOnce
        dirtyWatched := by
          intro x hm
          unfold Terminal.watched
          rw [List.map_append]
          exact List.mem_append_left _ (h.dirtyWatched x hm)
        away := h.away
        misses := h.misses }
  · simp [Terminal.watched]

theorem watchSymbol_takes (sym : Symbol) (o : Option SlotIx) (t : Terminal) :
    (watchSymbol sym o t).2.takesMarks = t.takesMarks := by
  unfold watchSymbol
  (repeat' split) <;> simp [Terminal.reactivate, Terminal.addEntry, Terminal.takesMarks]

theorem watchSymbol_enabled (sym : Symbol) (o : Option SlotIx) (t : Terminal) :
    (watchSymbol sym o t).2.enabled = t.enabled := by
  unfold watchSymbol
  (repeat' split) <;> simp [Terminal.reactivate, Terminal.addEntry]

theorem TerminalLaw.watchSymbol {t : Terminal} (h : TerminalLaw t) (sym : Symbol) (o : Option SlotIx) :
    TerminalLaw (watchSymbol sym o t).2 := by
  unfold Machine.watchSymbol
  split
  · exact h
  · next x hw =>
    split
    · exact h
    · have := Terminal.entryOf_mem hw
      exact h.reactivate (this.2 ▸ List.mem_map_of_mem this.1) _
  · next hn =>
    split
    · exact h
    · split
      · exact h
      · next hl =>
        refine h.addEntry (Terminal.entryOf_none hn) ?_ _
        have : Config.watchPlaces = 12 := rfl
        omega

theorem watchSymbol_binds {t : Terminal} {sym x : Symbol} {o : Option SlotIx} {i : SlotIx}
    (h : (watchSymbol sym o t).2.Binds x i) : t.Binds x i ∨ (x = sym ∧ o = some i) := by
  unfold watchSymbol at h
  split at h
  · exact .inl h
  · split at h
    · exact .inl h
    · unfold Terminal.Binds Terminal.reactivate at h
      rw [Terminal.mark_watch] at h
      obtain ⟨w, hw, he⟩ := List.mem_map.mp h
      split at he
      · next hs =>
        cases he
        exact .inr ⟨by simpa using hs, rfl⟩
      · subst he; exact .inl hw
  · split at h
    · exact .inl h
    · split at h
      · exact .inl h
      · unfold Terminal.Binds Terminal.addEntry at h
        rw [Terminal.mark_watch] at h
        rcases List.mem_append.mp h with h | h
        · exact .inl h
        · rw [List.mem_singleton] at h
          cases h
          exact .inr ⟨rfl, rfl⟩

theorem TerminalLaw.unwatch {t : Terminal} (h : TerminalLaw t) (sym : Symbol) :
    TerminalLaw { t with watch := t.without sym, dirty := t.dirty.filter (· != sym) } where
  places := (t.without_sublist _).length_le.trans h.places
  distinct := h.distinct.sublist ((t.without_sublist _).map _)
  dirtyOnce := h.dirtyOnce.sublist List.filter_sublist
  dirtyWatched := by
    intro x hx
    obtain ⟨h1, h2⟩ := List.mem_filter.mp hx
    obtain ⟨v, hv, rfl⟩ := List.mem_map.mp (h.dirtyWatched x h1)
    exact List.mem_map_of_mem (List.mem_filter.mpr ⟨hv, h2⟩)
  away := by
    intro ha
    have := h.away ha
    rw [this.1]
    exact ⟨rfl, this.2⟩
  misses := h.misses

theorem TerminalLaw.request {t : Terminal} (h : TerminalLaw t) (ht : t.takesMarks = true) (s : State) (tag : Byte)
    (req : Request) : TerminalLaw (applyRequest s tag req t) := by
  unfold applyRequest Machine.answered
  split
  · exact h.answered ht _
  · unfold applyWatch
    split
    · exact h.answered ht _
    · refine TerminalLaw.answered (h.watchSymbol _ _) ?_ _
      rw [watchSymbol_takes]
      exact ht
  · unfold applyUnwatch
    split
    · exact h.answered ht _
    · split
      · exact h.answered ht _
      · exact (h.unwatch _).answered ht _
  · refine TerminalLaw.answered (h.markAll (fun _ hm => hm)) ?_ _
    rw [Terminal.markAll_takesMarks]
    exact ht

theorem applyRequest_enabled (s : State) (tag : Byte) (req : Request) (t : Terminal) :
    (applyRequest s tag req t).enabled = t.enabled := by
  unfold applyRequest Machine.answered applyWatch applyUnwatch applyRefresh
  (repeat' split) <;> simp [watchSymbol_enabled]

theorem applyRequest_binds {s : State} {tag : Byte} {req : Request} {t : Terminal} {x : Symbol} {i : SlotIx}
    (h : (applyRequest s tag req t).Binds x i) : t.Binds x i ∨ (liveLookup x s).map (·.1) = some i := by
  unfold applyRequest Machine.answered applyWatch applyUnwatch applyRefresh at h
  split at h
  · exact .inl h
  · split at h
    · exact .inl h
    · rcases watchSymbol_binds h with h | ⟨rfl, h⟩
      · exact .inl h
      · exact .inr h
  · split at h
    · exact .inl h
    · split at h
      · exact .inl h
      · exact .inl ((t.without_sublist _).subset h)
  · left
    unfold Terminal.Binds at h ⊢
    simpa using h

theorem TerminalLaw.replied {t : Terminal} (h : TerminalLaw t) (he : t.enabled = true) (s : State) (kind tag : Byte)
    (body : List Byte) : TerminalLaw (repliedTerminal s kind tag body t) := by
  unfold repliedTerminal
  split
  · exact h.confirm he
  · exact (h.confirm he).request (confirmPresent_takes he) s tag _

theorem repliedTerminal_enabled (s : State) (kind tag : Byte) (body : List Byte) (t : Terminal) :
    (repliedTerminal s kind tag body t).enabled = t.enabled := by
  unfold repliedTerminal
  split
  · simp
  · rw [applyRequest_enabled]; simp

theorem repliedTerminal_binds {s : State} {kind tag : Byte} {body : List Byte} {t : Terminal} {x : Symbol}
    {i : SlotIx} (h : (repliedTerminal s kind tag body t).Binds x i) :
    t.Binds x i ∨ (liveLookup x s).map (·.1) = some i := by
  unfold repliedTerminal at h
  split at h
  · left
    unfold Terminal.Binds at h ⊢
    simpa using h
  · rcases applyRequest_binds h with h | h
    · left
      unfold Terminal.Binds at h ⊢
      simpa using h
    · exact .inr h

/-! ### TERMINAL ENABLE (R145, R146) and restart (R148) -/

theorem TerminalLaw.enable {t : Terminal} (h : TerminalLaw t) (he : t.enabled = false) :
    TerminalLaw (enableTerminal t) where
  places := h.places
  distinct := h.distinct
  dirtyOnce := h.dirtyOnce
  dirtyWatched := h.dirtyWatched
  away := fun _ => h.away (by simp [Terminal.takesMarks, he])
  misses := Nat.zero_le _

theorem TerminalLaw.settle {t : Terminal} (h : TerminalLaw t) {o : Outstanding}
    (ho : ∀ sym n, o = .dropped sym n → sym ∉ t.watched ∧ t.watch.length ≤ 11) : TerminalLaw (settleItem o t) := by
  cases o with
  | nothing => exact h
  | answer f => exact h
  | active sym => exact h
  | dropped sym n => exact h.reinsert (ho sym n rfl).1 (ho sym n rfl).2 n

theorem settleItem_binds {t : Terminal} {o : Outstanding} {x : Symbol} {i : SlotIx} (h : (settleItem o t).Binds x i) :
    t.Binds x i := by
  cases o with
  | nothing => exact h
  | answer f => exact h
  | active sym => exact h
  | dropped sym n => exact Terminal.reinsert_binds h

@[simp] theorem settleItem_enabled (o : Outstanding) (t : Terminal) : (settleItem o t).enabled = t.enabled := by
  cases o <;> rfl

theorem TerminalLaw.disable {t : Terminal} (h : TerminalLaw t) : TerminalLaw (disableTerminal t) where
  places := h.places
  distinct := h.distinct
  dirtyOnce := List.nodup_nil
  dirtyWatched := by intro x hx; cases hx
  away := fun _ => ⟨rfl, rfl⟩
  misses := h.misses

theorem TerminalLaw.restart {t : Terminal} (h : TerminalLaw t) {o : Outstanding}
    (ho : ∀ sym n, o = .dropped sym n → sym ∉ t.watched ∧ t.watch.length ≤ 11) :
    TerminalLaw (restartTerminal o t) := by
  unfold restartTerminal
  have hs := h.settle ho
  refine TerminalLaw.markAll ?_ (fun _ hm => hm)
  exact
    { places := hs.places
      distinct := hs.distinct
      dirtyOnce := List.nodup_nil
      dirtyWatched := by intro x hx; cases hx
      away := fun _ => ⟨rfl, rfl⟩
      misses := Nat.zero_le _ }

theorem restartTerminal_binds {t : Terminal} {o : Outstanding} {x : Symbol} {i : SlotIx}
    (h : (restartTerminal o t).Binds x i) : t.Binds x i := by
  refine settleItem_binds (o := o) ?_
  unfold Terminal.Binds restartTerminal at h
  rw [Terminal.markAll_watch] at h
  exact h

@[simp] theorem restartTerminal_enabled (o : Outstanding) (t : Terminal) :
    (restartTerminal o t).enabled = t.enabled := by
  simp [restartTerminal]

end Sys2Proof.Machine
end

