-- ==== Sys2Proof/Laws/BindingLaw.lean ====
section
/-! SUPPORT. The law of R62 and R149, that what is bound refers to a live record of its symbol, operation by
operation. -/

namespace Sys2Proof.Machine

/-- A layout entry or a watch entry of the symbol is bound to the slot. -/
def Bound (s : State) (sym : Symbol) (i : SlotIx) : Prop :=
  (∃ (k : EntryIx) (e : Entry), s.entries[k] = some e ∧ e.binding = some i ∧ e.symbol = sym)
    ∨ ∃ t : TermIx, (s.terminals[t]).Binds sym i

theorem bindingLaw_iff {s : State} : BindingLaw s ↔ ∀ sym i, Bound s sym i → RefersTo s sym i := by
  constructor
  · rintro h sym i (⟨k, e, he, hb, rfl⟩ | ⟨t, ht⟩)
    · exact h.entries k e i he hb
    · exact h.watch t _ i ht rfl
  · intro h
    refine ⟨fun k e i he hb => h e.symbol i (.inl ⟨k, e, he, hb, rfl⟩), ?_⟩
    rintro t ⟨sym, st⟩ i hw hs
    have hs' : st = .active i := hs
    subst hs'
    exact h sym i (.inr ⟨t, hw⟩)

/-- Where nothing is newly bound and every live record stays, the law stays. -/
theorem BindingLaw.via {s t : State} (h : BindingLaw s) (hb : ∀ sym i, Bound t sym i → Bound s sym i)
    (hr : ∀ sym i, RefersTo s sym i → RefersTo t sym i) : BindingLaw t :=
  bindingLaw_iff.mpr fun sym i hi => hr sym i (bindingLaw_iff.mp h sym i (hb sym i hi))

theorem Bound.of_same {s t : State} (he : t.entries = s.entries)
    (hw : ∀ (x : TermIx) sym i, (t.terminals[x]).Binds sym i → (s.terminals[x]).Binds sym i) {sym : Symbol}
    {i : SlotIx} (h : Bound t sym i) : Bound s sym i := by
  rcases h with ⟨k, e, hk, hb, hs⟩ | ⟨x, hx⟩
  · exact .inl ⟨k, e, he ▸ hk, hb, hs⟩
  · exact .inr ⟨x, hw x sym i hx⟩

theorem RefersTo.of_records {s t : State} (hr : t.records = s.records) {sym : Symbol} {i : SlotIx}
    (h : RefersTo s sym i) : RefersTo t sym i := by
  unfold RefersTo
  rw [hr]
  exact h

theorem BindingLaw.of_same {s t : State} (h : BindingLaw s) (hr : t.records = s.records)
    (he : t.entries = s.entries) (ht : t.terminals = s.terminals) : BindingLaw t :=
  h.via (fun _ _ => Bound.of_same he (by rw [ht]; exact fun _ _ _ hx => hx)) (fun _ _ => RefersTo.of_records hr)

/-! ### Live records through the operations on the record table -/

theorem RefersTo.setRecord {s : State} {sym : Symbol} {j : SlotIx} (h : RefersTo s sym j) {i : SlotIx} {r r' : Record}
    (hr : s.records[i] = some r) (hs : r'.symbol = r.symbol) (hl : r.state.isLive = true → r'.state.isLive = true) :
    RefersTo (setRecord i r' s) sym j := by
  obtain ⟨x, h1, h2, h3⟩ := h
  unfold RefersTo
  rw [setRecord_records, Vec.set_get]
  split
  · next e =>
    subst e
    rw [hr] at h1
    cases h1
    exact ⟨r', rfl, hl h2, hs.trans h3⟩
  · exact ⟨x, h1, h2, h3⟩

theorem RefersTo.setPendingPrint {s : State} {sym : Symbol} {j : SlotIx} (h : RefersTo s sym j) (i : SlotIx)
    (p : Option PendingPrint) : RefersTo (setPendingPrint i p s) sym j := by
  obtain ⟨x, h1, h2, h3⟩ := h
  unfold RefersTo
  rw [setPendingPrint_records, Vec.update_get, h1]
  split
  · exact ⟨_, rfl, h2, h3⟩
  · exact ⟨x, rfl, h2, h3⟩

theorem RefersTo.reportGone {s : State} {sym : Symbol} {j : SlotIx} (h : RefersTo s sym j) (i : SlotIx) :
    RefersTo (reportGone i s) sym j := by
  obtain ⟨x, h1, h2, h3⟩ := h
  unfold Machine.reportGone
  split
  · exact ⟨x, h1, h2, h3⟩
  · next r hr =>
    split
    · next hret =>
      refine ⟨x, ?_, h2, h3⟩
      rw [freeSlot_records, Vec.set_get, if_neg]
      · exact h1
      · rintro rfl
        rw [hr] at h1
        cases h1
        rw [hret] at h2
        cases h2
    · exact ⟨x, h1, h2, h3⟩

theorem RefersTo.withdraw {s : State} {sym : Symbol} {j : SlotIx} (h : RefersTo s sym j) (t : AB) (i : SlotIx) :
    RefersTo (withdraw t i s) sym j := by
  unfold Machine.withdraw
  dsimp only
  exact RefersTo.reportGone (RefersTo.setPendingPrint (s := Machine.setTape t _ s) (h.of_records rfl) i none) i

theorem RefersTo.withdrawAll {s : State} {sym : Symbol} {j : SlotIx} (h : RefersTo s sym j) (t : AB) :
    RefersTo (withdrawAll t s) sym j :=
  foldl_keeps (P := fun s => RefersTo s sym j) (fun _ i hs => RefersTo.withdraw hs t i) _ _ h

theorem RefersTo.tradeNotice {s : State} {sym : Symbol} {j : SlotIx} (h : RefersTo s sym j) (i : SlotIx) (r : Record)
    (n : Nat) : RefersTo (tradeNotice i r n s) sym j := by
  unfold Machine.tradeNotice
  dsimp only
  split
  · exact RefersTo.setPendingPrint (h.of_records rfl) i _
  · exact RefersTo.setPendingPrint (h.of_records rfl) i _

theorem RefersTo.mapAll {s t : State} {sym : Symbol} {j : SlotIx} (h : RefersTo s sym j) {f : Record → Record}
    (hs : ∀ r, (f r).symbol = r.symbol) (hl : ∀ r, r.state.isLive = true → (f r).state.isLive = true)
    (hr : t.records = Vec.mapIx (fun _ r => r.map f) s.records) : RefersTo t sym j := by
  obtain ⟨x, h1, h2, h3⟩ := h
  refine ⟨f x, ?_, hl x h2, (hs x).trans h3⟩
  rw [hr, Vec.mapIx_get, h1]
  rfl

/-! ### What is bound through the operations on entries and terminals -/

theorem changeNotice_watch (i : SlotIx) (g : List Group) (m : Bool) (s : State) (x : TermIx) :
    ((changeNotice i g m s).terminals[x]).watch = (s.terminals[x]).watch := by
  unfold changeNotice
  rw [onTerminals_terminals, Vec.mapIx_get, Terminal.notice_watch, boardNotice_terminals]

theorem changeNotices_watch (is : List SlotIx) (g : List Group) (s : State) (x : TermIx) :
    ((changeNotices is g s).terminals[x]).watch = (s.terminals[x]).watch :=
  foldl_same (fun s : State => (s.terminals[x]).watch) (fun b i => changeNotice_watch i g false b x) is s

theorem Bound.changeNotice {i : SlotIx} {g : List Group} {m : Bool} {s : State} {sym : Symbol} {j : SlotIx}
    (h : Bound (changeNotice i g m s) sym j) : Bound s sym j :=
  h.of_same (by simp) (fun x _ _ hx => by unfold Terminal.Binds at hx ⊢; rwa [changeNotice_watch] at hx)

theorem Bound.changeNotices {is : List SlotIx} {g : List Group} {s : State} {sym : Symbol} {j : SlotIx}
    (h : Bound (changeNotices is g s) sym j) : Bound s sym j :=
  h.of_same (by simp) (fun x _ _ hx => by unfold Terminal.Binds at hx ⊢; rwa [changeNotices_watch] at hx)

theorem Bound.setRecord {i : SlotIx} {r : Record} {s : State} {sym : Symbol} {j : SlotIx}
    (h : Bound (setRecord i r s) sym j) : Bound s sym j := h

theorem Bound.dropEntries {hit : SlotIx → Bool} {s : State} {sym : Symbol} {j : SlotIx}
    (h : Bound (onTerminals (Terminal.dropEntries hit) (unbindEntries hit s)) sym j) :
    Bound s sym j ∧ hit j = false := by
  rcases h with ⟨k, e, hk, hb, rfl⟩ | ⟨x, hx⟩
  · rw [onTerminals_entries] at hk
    unfold unbindEntries at hk
    rw [mark_entries, Vec.mapIx_get] at hk
    obtain ⟨e', he', rfl⟩ := Option.map_eq_some_iff.mp hk
    cases hc : e'.binding with
    | none => simp [hc] at hb
    | some x =>
      by_cases hx : hit x = true
      · simp [hc, hx] at hb
      · simp only [hc, hx, Bool.false_eq_true, ↓reduceIte, Option.some.injEq] at hb ⊢
        subst hb
        exact ⟨.inl ⟨k, e', he', hc, rfl⟩, by simpa using hx⟩
  · rw [onTerminals_terminals, Vec.mapIx_get] at hx
    have := Terminal.dropEntries_binds hx
    exact ⟨.inr ⟨x, this.1⟩, this.2⟩

theorem RefersTo.of_live {s : State} {sym : Symbol} {i : SlotIx} (h : (liveLookup sym s).map (·.1) = some i) :
    DirectoryLaw s → RefersTo s sym i := by
  intro hd
  obtain ⟨⟨j, r⟩, hl, rfl⟩ := Option.map_eq_some_iff.mp h
  have := hd.liveLookup_iff.mp hl
  exact ⟨r, this.1, this.2.2, this.2.1⟩

/-! ### Commands of the record table -/

variable {s : State}

theorem Bound.listAt {i : SlotIx} {r : Record} {sym : Symbol} {j : SlotIx} (h : Bound (listAt i r s) sym j) :
    Bound s sym j ∨ (sym = r.symbol ∧ j = i) := by
  unfold Machine.listAt at h
  dsimp only at h
  rcases h.changeNotice with ⟨k, e, hk, hb, rfl⟩ | ⟨x, hx⟩
  · unfold bindEntries at hk
    rw [Vec.mapIx_get] at hk
    obtain ⟨e', he', rfl⟩ := Option.map_eq_some_iff.mp hk
    split at hb
    · next hc =>
      rw [if_pos hc]
      simp only [Bool.and_eq_true, beq_iff_eq] at hc
      cases hb
      exact .inr ⟨hc.1, rfl⟩
    · next hn =>
      rw [if_neg hn]
      exact .inl (.inl ⟨k, e', he', hb, rfl⟩)
  · exact .inl (.inr ⟨x, hx⟩)

theorem BindingLaw.listAt (h : BindingLaw s) {i : SlotIx} {r : Record} (hf : s.records[i] = none)
    (hl : r.state.isLive = true) : BindingLaw (listAt i r s) := by
  rw [bindingLaw_iff]
  intro sym j hb
  unfold RefersTo
  rw [listAt_records, Vec.set_get]
  rcases Bound.listAt hb with hb | ⟨rfl, rfl⟩
  · obtain ⟨x, h1, h2, h3⟩ := bindingLaw_iff.mp h sym j hb
    refine ⟨x, ?_, h2, h3⟩
    rw [if_neg]
    · exact h1
    · rintro rfl
      rw [hf] at h1
      cases h1
  · exact ⟨r, if_pos rfl, hl, rfl⟩

theorem TableLaw.applyList (h : TableLaw s) (b : List Byte) : TableLaw (applyList b s).1 := by
  refine ⟨h.directory.applyList b, ?_⟩
  have hb := h.binding
  unfold Machine.applyList
  dsimp only
  generalize (if flagAt b 6 0 = true then some (field b 7 3) else none) = close
  split
  · exact hb
  · split
    · split
      · split
        · split <;> exact hb
        · split
          · exact hb
          · next i hi => exact hb.listAt (lowestFree_free hi) rfl
      · exact hb
    · exact hb

theorem TableLaw.applyDelist (h : TableLaw s) (b : List Byte) : TableLaw (applyDelist b s).1 := by
  refine ⟨h.directory.applyDelist b, ?_⟩
  unfold Machine.applyDelist
  split
  · exact h.binding
  · split
    · exact h.binding
    · next i r hl =>
      split
      · rw [bindingLaw_iff]
        intro sym j hb
        have hrec : ∀ (j : SlotIx), j ≠ i → (delistAt i r s).records[j] = s.records[j] := by
          intro j hj
          unfold delistAt retire
          split
          · rw [freeSlot_records, Vec.set_get, if_neg (Ne.symm hj)]; simp
          · rw [setRecord_records, Vec.set_get, if_neg (Ne.symm hj)]; simp
        have hb' : Bound (onTerminals (Terminal.dropEntries (· == i)) (unbindEntries (· == i) s)) sym j := by
          refine Bound.of_same ?_ ?_ hb
          · unfold delistAt retire
            split <;> rfl
          · intro x y z
            unfold delistAt retire
            split <;> exact fun h => h
        obtain ⟨h1, h2⟩ := Bound.dropEntries hb'
        obtain ⟨x, hx⟩ := bindingLaw_iff.mp h.binding sym j h1
        exact ⟨x, (hrec j (by simpa using h2)).trans hx.1, hx.2⟩
      · exact h.binding

theorem closeRecord_live {r : Record} (h : r.state.isLive = true) : (closeRecord r).state.isLive = true := by
  unfold closeRecord
  split
  · rfl
  · exact h

theorem TableLaw.applySessionClose (h : TableLaw s) (b : List Byte) : TableLaw (applySessionClose b s).1 := by
  refine ⟨h.directory.applySessionClose b, ?_⟩
  unfold Machine.applySessionClose
  split
  · refine h.binding.via (fun sym i hb => ?_) (fun sym i hr => ?_)
    · exact Bound.of_same (s := s) (t := { s with phase := .post, records := _ }) rfl (fun _ _ _ hx => hx)
        (Bound.changeNotices hb)
    · exact hr.mapAll closeRecord_symbol (fun _ => closeRecord_live) (by simp [closeSession])
  · exact h.binding

theorem rollRecord_live {r : Record} (h : r.state.isLive = true) : (rollRecord r).state.isLive = true := by
  unfold rollRecord
  dsimp only
  split
  · rfl
  · exact h

theorem TableLaw.applyDayRoll (h : TableLaw s) (b : List Byte) : TableLaw (applyDayRoll b s).1 := by
  refine ⟨h.directory.applyDayRoll b, ?_⟩
  unfold Machine.applyDayRoll
  split
  · exact h.binding
  · split
    · exact h.binding
    · refine h.binding.via (fun sym i hb => ?_) (fun sym i hr => ?_)
      · exact Bound.of_same (s := s) (t := { s with phase := .pre, records := _ }) rfl (fun _ _ _ hx => hx)
          (Bound.changeNotices hb)
      · exact hr.mapAll (f := rollRecord) (fun _ => rfl) (fun _ => rollRecord_live) (by simp [rollDay])

theorem TableLaw.applyTableClear (h : TableLaw s) (b : List Byte) : TableLaw (applyTableClear b s).1 := by
  refine ⟨h.directory.applyTableClear b, ?_⟩
  unfold Machine.applyTableClear
  split
  · exact h.binding
  · rw [bindingLaw_iff]
    intro sym i hb
    have hb' : Bound (onTerminals (Terminal.dropEntries fun _ => true)
        (unbindEntries (fun _ => true) (withdrawAll .b (withdrawAll .a s)))) sym i :=
      Bound.of_same rfl (fun _ _ _ hx => hx) hb
    have := (Bound.dropEntries hb').2
    cases this

theorem BindingLaw.withdrawAll (h : BindingLaw s) (t : AB) : BindingLaw (withdrawAll t s) :=
  h.via (fun _ _ hb => hb.of_same (by simp) (fun _ _ _ hx => by simpa using hx)) (fun _ _ hr => hr.withdrawAll t)

theorem TableLaw.applyTapeClear (h : TableLaw s) (b : List Byte) : TableLaw (applyTapeClear b s).1 := by
  refine ⟨h.directory.applyTapeClear b, ?_⟩
  unfold Machine.applyTapeClear
  split
  · exact h.binding
  · exact h.binding.withdrawAll _

/-! ### Postings -/

theorem TableLaw.applyTrade (h : TableLaw s) (b : List Byte) : TableLaw (applyTrade b s).1 := by
  refine ⟨h.directory.applyTrade b, ?_⟩
  have hb := h.binding
  unfold Machine.applyTrade
  dsimp only
  split
  · exact hb
  · split
    · exact hb
    · next i r hl =>
      split
      · exact hb
      · split
        · exact hb
        · split
          · exact hb
          · split
            · exact hb
            · next p hp =>
              refine hb.via (fun sym j hj => ?_) (fun sym j hj => ?_)
              · have : Bound (changeNotice i (tradeGroups r) (movedMark r p)
                    (Machine.setRecord i (tradeRecord r p (field b 7 3)) s)) sym j :=
                  Bound.of_same (by simp [postTrade]) (fun _ _ _ hx => by simpa only [postTrade, tradeNotice_terminals] using hx) hj
                exact (Bound.changeNotice this).setRecord
              · have h1 : RefersTo (Machine.setRecord i (tradeRecord r p (field b 7 3)) s) sym j :=
                  hj.setRecord (liveLookup_record hl).1 rfl (fun _ => rfl)
                exact RefersTo.tradeNotice (h1.of_records (changeNotice_records ..)) i r _

theorem BindingLaw.postRecord (h : BindingLaw s) {i : SlotIx} {r r' : Record} {g : List Group} {m : Bool}
    (hr : s.records[i] = some r) (hs : r'.symbol = r.symbol) (hl : r.state.isLive = true → r'.state.isLive = true) :
    BindingLaw (changeNotice i g m (setRecord i r' s)) := by
  refine h.via (fun sym j hj => ?_) (fun sym j hj => ?_)
  · exact (Bound.changeNotice hj).setRecord
  · exact (hj.setRecord hr hs hl).of_records (changeNotice_records ..)

theorem TableLaw.applyQuote (h : TableLaw s) (b : List Byte) : TableLaw (applyQuote b s).1 := by
  refine ⟨h.directory.applyQuote b, ?_⟩
  have hb := h.binding
  unfold Machine.applyQuote
  dsimp only
  split
  · exact hb
  · split
    · exact hb
    · next i r hl =>
      split
      · exact hb
      · split
        · next bid ask _ _ =>
          split
          · exact hb
          · exact hb.postRecord (r' := { r with bid := bid, ask := ask }) (liveLookup_record hl).1 rfl (fun h => h)
        · exact hb

theorem TableLaw.applyHalt (h : TableLaw s) (b : List Byte) : TableLaw (applyHalt b s).1 := by
  refine ⟨h.directory.applyHalt b, ?_⟩
  have hb := h.binding
  unfold Machine.applyHalt
  split
  · exact hb
  · split
    · exact hb
    · next i r hl =>
      split
      · exact hb
      · next q _ =>
        exact hb.postRecord (r' := { r with state := .halted q }) (liveLookup_record hl).1 rfl (fun _ => rfl)

theorem resumeState_live (x : SessionPhase) (y : Bool) : (resumeState x y).isLive = true := by
  cases x <;> cases y <;> rfl

theorem TableLaw.applyResume (h : TableLaw s) (b : List Byte) : TableLaw (applyResume b s).1 := by
  refine ⟨h.directory.applyResume b, ?_⟩
  have hb := h.binding
  unfold Machine.applyResume
  dsimp only
  split
  · exact hb
  · split
    · exact hb
    · next i r hl =>
      split
      · exact hb.postRecord (r' := { r with state := resumeState s.phase r.day.isSome }) (liveLookup_record hl).1 rfl
          (fun _ => resumeState_live _ _)
      · exact hb

/-! ### The layout store -/

theorem BindingLaw.setEntry (h : BindingLaw s) {t : State} {k : EntryIx} {o : Option Entry}
    (he : t.entries = s.entries.set k o) (hr : t.records = s.records) (ht : t.terminals = s.terminals)
    (ho : ∀ e i, o = some e → e.binding = some i → RefersTo s e.symbol i) : BindingLaw t := by
  rw [bindingLaw_iff]
  rintro sym i (⟨j, e, hj, hb, rfl⟩ | ⟨x, hx⟩)
  · refine RefersTo.of_records hr ?_
    rw [he, Vec.set_get] at hj
    split at hj
    · exact ho e i hj hb
    · exact h.entries j e i hj hb
  · rw [ht] at hx
    exact RefersTo.of_records hr (bindingLaw_iff.mp h sym i (.inr ⟨x, hx⟩))

theorem TableLaw.of_same {s t : State} (h : TableLaw s) (hr : t.records = s.records) (hd : t.directory = s.directory)
    (he : t.entries = s.entries) (ht : t.terminals = s.terminals) : TableLaw t :=
  ⟨h.directory.of_same hd hr, h.binding.of_same hr he ht⟩

theorem TableLaw.applyLoadEntry (h : TableLaw s) (b : List Byte) : TableLaw (applyLoadEntry b s).1 := by
  unfold Machine.applyLoadEntry
  dsimp only
  split
  · exact h
  · split
    · split
      · exact h
      · split
        · refine ⟨h.directory.of_same (by simp [loadAt]) (by simp [loadAt]), ?_⟩
          refine h.binding.setEntry (by simp [loadAt]; rfl) (by simp [loadAt]) (by simp [loadAt]) ?_
          rintro e i he hb
          cases he
          exact RefersTo.of_live hb h.directory
        · exact h
    · exact h

theorem TableLaw.applyUnloadEntry (h : TableLaw s) (b : List Byte) : TableLaw (applyUnloadEntry b s).1 := by
  unfold Machine.applyUnloadEntry
  split
  · exact h
  · next k _ =>
    split
    · exact h
    · refine ⟨h.directory.of_same rfl rfl, h.binding.setEntry (k := k) (o := none) rfl rfl rfl ?_⟩
      rintro e i he _
      cases he

/-! ### Terminals -/

theorem TableLaw.rewatch (h : TableLaw s) {t : State} (hr : t.records = s.records) (hd : t.directory = s.directory)
    (he : t.entries = s.entries)
    (ht : ∀ (x : TermIx) sym i, (t.terminals[x]).Binds sym i →
      (s.terminals[x]).Binds sym i ∨ (liveLookup sym s).map (·.1) = some i) : TableLaw t := by
  refine ⟨h.directory.of_same hd hr, ?_⟩
  rw [bindingLaw_iff]
  rintro sym i (⟨k, e, hk, hb, hs⟩ | ⟨x, hx⟩) <;> apply RefersTo.of_records hr
  · exact bindingLaw_iff.mp h.binding sym i (.inl ⟨k, e, he ▸ hk, hb, hs⟩)
  · rcases ht x sym i hx with hx | hx
    · exact bindingLaw_iff.mp h.binding sym i (.inr ⟨x, hx⟩)
    · exact RefersTo.of_live hx h.directory

theorem TableLaw.setTerminal (h : TableLaw s) {t : State} {x : TermIx} {f : Terminal → Terminal}
    (hr : t.records = s.records) (hd : t.directory = s.directory) (he : t.entries = s.entries)
    (ht : t.terminals = Vec.update s.terminals x f)
    (hf : ∀ sym i, (f s.terminals[x]).Binds sym i →
      (s.terminals[x]).Binds sym i ∨ (liveLookup sym s).map (·.1) = some i) : TableLaw t := by
  refine h.rewatch hr hd he ?_
  intro y sym i hy
  rw [ht, Vec.update_get] at hy
  split at hy
  · next e => subst e; exact hf sym i hy
  · exact .inl hy

theorem TableLaw.beginVisit (h : TableLaw s) (l : LineIx) (d : DropIx) : TableLaw (beginVisit l d s) := by
  refine h.setTerminal (x := terminalAt l d) (by simp [Machine.beginVisit]) (by simp [Machine.beginVisit])
    (by simp [Machine.beginVisit]) (by simp [Machine.beginVisit]; rfl) ?_
  intro sym i hb
  exact .inl (formFrame_binds hb)

theorem TableLaw.visitNext (h : TableLaw s) (l : LineIx) (n : Nat) : TableLaw (visitNext l n s) := by
  unfold Machine.visitNext
  split
  · exact h
  · exact h.beginVisit l _

theorem TableLaw.visitLine (h : TableLaw s) (l : LineIx) : TableLaw (visitLine l s) := by
  unfold Machine.visitLine
  split
  · exact h
  · split
    · exact h
    · exact h
    · exact h.visitNext l _
    · split
      · exact TableLaw.visitNext (s := setLine l _ s) (h.of_same rfl rfl rfl rfl) l 0
      · exact h

theorem TableLaw.applyMiss (h : TableLaw s) (l : LineIx) (v : Visit) (c : MissCause) :
    TableLaw (applyMiss l v c s) := by
  unfold Machine.applyMiss
  dsimp only
  split
  · exact h.of_same rfl rfl rfl rfl
  · split
    · refine h.setTerminal (x := terminalAt l v.drop)
        (f := fun t => makeAbsent (missedTerminal v.outstanding s.terminals[terminalAt l v.drop])) rfl rfl rfl rfl ?_
      exact fun sym i hb => .inl (missedTerminal_binds (show (missedTerminal _ _).Binds sym i from hb))
    · refine h.setTerminal (x := terminalAt l v.drop) rfl rfl rfl rfl ?_
      exact fun sym i hb => .inl (missedTerminal_binds hb)

theorem TableLaw.missAndSettle (h : TableLaw s) (l : LineIx) (v : Visit) (c : MissCause) :
    TableLaw (missAndSettle l v c s) := (h.applyMiss l v c).of_same rfl rfl rfl rfl

theorem TableLaw.endVisit (h : TableLaw s) (l : LineIx) : TableLaw (endVisit l s) :=
  h.of_same (by simp) (by simp) (by simp) (by simp)

theorem TableLaw.expireWindow (h : TableLaw s) (l : LineIx) : TableLaw (expireWindow l s) := by
  unfold Machine.expireWindow
  (repeat' split) <;> first | exact h | exact h.missAndSettle _ _ _

theorem TableLaw.expireReplyGap (h : TableLaw s) (l : LineIx) : TableLaw (expireReplyGap l s) := by
  unfold Machine.expireReplyGap missAndEnd
  (repeat' split) <;> first | exact h | exact (h.applyMiss _ _ _).endVisit _

theorem TableLaw.takeLineFailure (h : TableLaw s) (l : LineIx) (x : LineFailure) :
    TableLaw (takeLineFailure l x s) := by
  unfold Machine.takeLineFailure disturbQuiet
  (repeat' split) <;> first | exact h | exact h.missAndSettle _ _ _ | exact h.of_same rfl rfl rfl rfl

theorem TableLaw.applyReply (h : TableLaw s) (l : LineIx) (v : Visit) (cs : List Byte) :
    TableLaw (applyReply l v cs s) := by
  unfold Machine.applyReply
  split
  · exact h
  · dsimp only
    have h1 : TableLaw (Machine.setTerminal (terminalAt l v.drop)
        (repliedTerminal s (byteAt cs 0) (byteAt cs 1) (cs.drop 3)) s) :=
      h.setTerminal (x := terminalAt l v.drop) rfl rfl rfl rfl (fun _ _ hb => repliedTerminal_binds hb)
    unfold notePresence
    split
    · exact h1
    · exact h1.of_same rfl rfl rfl rfl

theorem TableLaw.completeReply (h : TableLaw s) (l : LineIx) (c : Byte) : TableLaw (completeReply l c s) := by
  unfold Machine.completeReply
  (repeat' split) <;> first | exact h | exact h.missAndSettle _ _ _ | exact (h.applyReply _ _ _).endVisit _

theorem TableLaw.setEnabled (h : TableLaw s) (l : LineIx) (d : DropIx) (x : Bool) : TableLaw (setEnabled l d x s) := by
  unfold Machine.setEnabled
  dsimp only
  (repeat' split) <;> first
    | exact h
    | exact h.setTerminal (x := terminalAt l d)
        (f := fun r => settleItem (outstandingOf s l d) (disableTerminal r)) rfl rfl rfl rfl
        (fun _ _ hb => .inl (settleItem_binds (t := disableTerminal s.terminals[terminalAt l d]) hb))
    | exact h.setTerminal (x := terminalAt l d) (f := enableTerminal) rfl rfl rfl rfl (fun _ _ hb => .inl hb)

theorem TableLaw.applyTerminalEnable (h : TableLaw s) (b : List Byte) : TableLaw (applyTerminalEnable b s).1 := by
  unfold Machine.applyTerminalEnable
  split
  · exact h
  · next line _ =>
    have h1 := foldl_keeps (P := TableLaw)
      (fun s d hs => TableLaw.setEnabled (s := s) hs line d ((byteAt b 1).getLsbD d.val)) (List.finRange 8) s h
    dsimp only [enableDrops]
    unfold settleRounds
    split
    · exact h1.of_same (by simp) (by simp) (by simp) (by simp)
    · exact h1

/-! ### Steps, restart and reset -/

theorem BindingLaw.chooseItem (h : BindingLaw s) (t : AB) : BindingLaw (chooseItem t s).1 := by
  refine h.via (fun sym i hb => hb.of_same (by simp) (by simp)) (fun sym i hr => ?_)
  unfold Machine.chooseItem choosePrint
  dsimp only
  (repeat' split) <;> first
    | exact hr
    | exact hr.of_records rfl
    | (unfold composeHead; dsimp only
       exact RefersTo.reportGone (RefersTo.setPendingPrint (s := Machine.setTape t _ s) (hr.of_records rfl) _ _) _)

theorem TableLaw.stepRibbon (h : TableLaw s) (t : AB) : TableLaw (stepRibbon t s) := by
  refine ⟨h.directory.stepRibbon t, ?_⟩
  rcases stepRibbon_table t s with e | e
  · exact h.binding.of_same e.1 (by rw [stepRibbon_frame]) (by rw [stepRibbon_frame])
  · have hs : BindingLaw (select t s).1 :=
      BindingLaw.chooseItem (h.binding.of_same (by simp) (by simp) (by simp)) t
    exact hs.of_same e.1 (by rw [stepRibbon_frame]; simp) (by rw [stepRibbon_frame]; simp)

theorem TableLaw.restartAll (h : TableLaw s) : TableLaw (restartAll s) := by
  refine ⟨h.directory.restartAll, ?_⟩
  have h1 : BindingLaw (Machine.withdrawAll .b (Machine.withdrawAll .a (restartFeed s))) :=
    BindingLaw.withdrawAll (BindingLaw.withdrawAll (s := restartFeed s) (h.binding.of_same rfl rfl rfl) .a) .b
  refine h1.via (fun sym i hb => hb.of_same ?_ ?_) (fun sym i hr => hr.of_records (restartAll_records s))
  · simp
  · intro x sym i hx
    have : (Machine.restartAll s).terminals = (restartLines (restartTapes (restartFeed s))).terminals := by
      unfold Machine.restartAll; simp
    rw [this] at hx
    unfold restartLines at hx
    dsimp only at hx
    rw [Vec.mapIx_get] at hx
    have := restartTerminal_binds hx
    simpa [restartTapes] using this

theorem State.reset_terminal (x : TermIx) : State.reset.terminals[x] = Terminal.reset := by
  unfold State.reset
  simp [Fin.getElem_fin]

theorem State.reset_entries (k : EntryIx) : State.reset.entries[k] = none := by
  unfold State.reset
  simp [Fin.getElem_fin]

theorem State.reset_table : TableLaw State.reset := by
  refine ⟨State.reset_directory, ?_⟩
  rw [bindingLaw_iff]
  rintro sym i (⟨k, e, hk, _⟩ | ⟨x, hx⟩)
  · rw [State.reset_entries] at hk
    cases hk
  · rw [State.reset_terminal] at hx
    cases hx

/-! ### Every command -/

/-- Every command keeps the law. -/
theorem table_kept : KeptByCommands TableLaw TableLaw where
  remove _ h _ := h.of_same rfl rfl rfl rfl
  place _ _ _ s h := h.of_same rfl rfl rfl rfl
  list b s h := h.applyList b
  delist b s h := h.applyDelist b
  queryRecord b s h := by rw [applyQueryRecord_frame]; exact h
  sessionOpen b s h := by rw [applySessionOpen_frame]; exact h.of_same rfl rfl rfl rfl
  sessionClose b s h := h.applySessionClose b
  dayRoll b s h := h.applyDayRoll b
  tableClear b s h := h.applyTableClear b
  trade b s h := h.applyTrade b
  quote b s h := h.applyQuote b
  halt b s h := h.applyHalt b
  resume b s h := h.applyResume b
  loadEntry b s h := h.applyLoadEntry b
  unloadEntry b s h := h.applyUnloadEntry b
  definePage b s h := by rw [applyDefinePage_frame]; exact h.of_same rfl rfl rfl rfl
  undefinePage b s h := by rw [applyUndefinePage_frame]; exact h.of_same rfl rfl rfl rfl
  showPage b s h := by rw [applyShowPage_frame]; exact h.of_same rfl rfl rfl rfl
  restorePanel b s h := by rw [applyRestorePanel_frame]; exact h.of_same rfl rfl rfl rfl
  clearFaults b s h := by rw [applyClearFaults_frame]; exact h.of_same rfl rfl rfl rfl
  tapeStart b s h := by rw [applyTapeStart_frame]; exact h.of_same rfl rfl rfl rfl
  tapeStop b s h := by rw [applyTapeStop_frame]; exact h.of_same rfl rfl rfl rfl
  tapeClear b s h := h.applyTapeClear b
  notice b s h := by rw [applyNotice_frame]; exact h.of_same rfl rfl rfl rfl
  terminalEnable b s h := h.applyTerminalEnable b
  setParameter b s h := by rw [applySetParameter_frame]; exact h.of_same rfl rfl rfl rfl
  readParameter b s h := by rw [applyReadParameter_frame]; exact h
  readStatus b s h := by rw [applyReadStatus_frame]; exact h.of_same rfl rfl rfl rfl
  clearConditions b s h := by rw [applyClearConditions_frame]; exact h.of_same rfl rfl rfl rfl
  restart _ s h := h.restartAll
  takeFeedChar c s h := by rw [takeFeedChar_frame]; exact h.of_same rfl rfl rfl rfl
  takeFeedFailure x s h := by rw [takeFeedFailure_frame]; exact h.of_same rfl rfl rfl rfl
  expireFrameGap s h := by rw [expireFrameGap_frame]; exact h.of_same rfl rfl rfl rfl
  sendReply s h := by rw [sendReply_frame]; exact h.of_same rfl rfl rfl rfl
  completeFrame c s h := by rw [completeFrame_frame]; exact h.of_same rfl rfl rfl rfl
  expireQuietLimit s h := by rw [expireQuietLimit_frame]; exact h.of_same rfl rfl rfl rfl
  startWrite s h := by rw [startWrite_frame]; exact h.of_same rfl rfl rfl rfl
  completeWrite s h := by rw [completeWrite_frame]; exact h.of_same rfl rfl rfl rfl
  startPeriod x s h := by rw [startPeriod_frame]; exact h.of_same rfl rfl rfl rfl
  sampleRail i w f s h := by rw [sampleRail_frame]; exact h.of_same rfl rfl rfl rfl
  changeRail i s h := by rw [changeRail_frame]; exact h.of_same rfl rfl rfl rfl
  endGap s h := by rw [endGap_frame]; exact h.of_same rfl rfl rfl rfl
  startRead s h := by rw [startRead_frame]; exact h.of_same rfl rfl rfl rfl
  takeEcho e s h := by rw [takeEcho_frame]; exact h.of_same rfl rfl rfl rfl
  endEchoLimit s h := by rw [endEchoLimit_frame]; exact h.of_same rfl rfl rfl rfl
  stepRibbon t s h := h.stepRibbon t
  visitLine l s h := h.visitLine l
  openWindow l s h := by rw [openWindow_frame]; exact h.of_same rfl rfl rfl rfl
  expireWindow l s h := h.expireWindow l
  expireReplyGap l s h := h.expireReplyGap l
  expireSettling l s h := by rw [expireSettling_frame]; exact h.of_same rfl rfl rfl rfl
  takeReplyChar l c s h := by rw [takeReplyChar_frame]; exact h.of_same rfl rfl rfl rfl
  takeLineFailure l x s h := h.takeLineFailure l x
  completeReply l c s h := h.completeReply l c
  endEmptyRound l s h := by rw [endEmptyRound_frame]; exact h.of_same rfl rfl rfl rfl
  restartAll s h := h.restartAll
  powerOn b s := State.reset_table.of_same rfl rfl rfl rfl
  withPending _ s h := h.of_same rfl rfl rfl rfl
  nextInterval s h := h.of_same (by simp) (by simp) (by simp) (by simp)

end Sys2Proof.Machine
end

