-- ==== Sys2Proof/Laws/BoardLaw.lean ====
section
/-! SUPPORT. The laws of the repaint queue, the panel bus, the panel states and the verifier (R75, R77, R92, R93, R97),
operation by operation. -/

namespace Sys2Proof.Machine

/-! ### Marks (R75, R101) -/

/-- R75: what stands in the queue after marks: what stood there, and what was marked on a LIVE panel. -/
theorem mem_appendMarks (live : PosIx → Bool) (ps queue : List PosIx) (p : PosIx) :
    p ∈ appendMarks live queue ps ↔ p ∈ queue ∨ (p ∈ ps ∧ live p = true) := by
  induction ps generalizing queue with
  | nil => simp [appendMarks]
  | cons x rest ih =>
    rw [appendMarks, ih]
    split
    · next hc =>
      simp only [Bool.and_eq_true] at hc
      rw [List.mem_append, List.mem_singleton, List.mem_cons]
      constructor
      · rintro ((h | rfl) | h)
        · exact .inl h
        · exact .inr ⟨.inl rfl, hc.1⟩
        · exact .inr ⟨.inr h.1, h.2⟩
      · rintro (h | ⟨rfl | h, hl⟩)
        · exact .inl (.inl h)
        · exact .inl (.inr rfl)
        · exact .inr ⟨h, hl⟩
    · next hc =>
      rw [List.mem_cons]
      constructor
      · rintro (h | h)
        · exact .inl h
        · exact .inr ⟨.inr h.1, h.2⟩
      · rintro (h | ⟨rfl | h, hl⟩)
        · exact .inl h
        · refine .inl ?_
          by_contra hq
          exact hc (by simp [hl, hq])
        · exact .inr ⟨h, hl⟩

theorem appendMarks_nodup (live : PosIx → Bool) (ps : List PosIx) {queue : List PosIx} (h : queue.Nodup) :
    (appendMarks live queue ps).Nodup := by
  induction ps generalizing queue with
  | nil => exact h
  | cons x rest ih =>
    rw [appendMarks]
    refine ih ?_
    split
    · next hc =>
      simp only [Bool.and_eq_true, Bool.not_eq_true', List.contains_eq_mem, decide_eq_false_iff_not] at hc
      rw [List.nodup_append]
      refine ⟨h, by simp, ?_⟩
      rintro a ha b hb rfl
      exact hc.2 (by rwa [List.mem_singleton.mp hb] at ha)
    · exact h

theorem panelLive_iff {s : State} {p : PanelIx} : panelLive s p = true ↔ (s.panels[p]).state = .live := by
  unfold panelLive
  exact beq_iff_eq

variable {s : State}

theorem RefreshLaw.mark (h : RefreshLaw s) (ps : List PosIx) : RefreshLaw (mark ps s) where
  queueOnce := appendMarks_nodup _ ps h.queueOnce
  queueLive := by
    intro p hp
    rcases (mem_appendMarks _ _ _ _).mp hp with hp | ⟨_, hl⟩
    · exact h.queueLive p hp
    · exact panelLive_iff.mp hl
  oneOperation := h.oneOperation
  readingTarget := h.readingTarget
  read := by
    intro t ht ho
    have ho' : (s.verifier.overtaken || marksOvertake s ps) = false := ho
    rw [Bool.or_eq_false_iff] at ho'
    have ht' : s.verifier.target = some t := ht
    have hr := h.read t ht' ho'.1
    refine ⟨hr.live, hr.image, hr.verify, ?_⟩
    intro hm
    rcases (mem_appendMarks _ _ _ _).mp hm with hm | ⟨hm, hl⟩
    · exact hr.unqueued hm
    · have := ho'.2
      unfold marksOvertake at this
      rw [ht'] at this
      simp [hm, hl, hr.unqueued] at this
  dark := h.dark

/-! ### States that agree in what the law reads -/

/-- A position record changed in ways that the law allows; `live` says that its panel is LIVE. -/
structure PosKept (live : Prop) (x y : Position) : Prop where
  dark : ¬live → x.image = none → y.image = none
  flash : ¬live → x.flash = 0 → y.flash = 0
  image : x.image ≠ none → y.image ≠ none
  verify : x.verify ≠ .failed → y.verify ≠ .failed

theorem PosKept.refl (live : Prop) (x : Position) : PosKept live x x :=
  ⟨fun _ h => h, fun _ h => h, fun h => h, fun h => h⟩

theorem RefreshLaw.of_parts {t : State} (h : RefreshLaw s)
    (hp : ∀ p : PanelIx, (t.panels[p]).state = (s.panels[p]).state)
    (hpos : ∀ p : PosIx,
      PosKept ((s.panels[panelOf p]).state = .live) s.boards.positions[p] t.boards.positions[p])
    (hq : t.boards.repaint = s.boards.repaint) (hw : t.boards.write = s.boards.write)
    (ht : t.verifier.target = s.verifier.target) (ho : t.verifier.overtaken = s.verifier.overtaken)
    (hph : t.verifier.phase = .reading ↔ t.verifier.target ≠ none) : RefreshLaw t where
  queueOnce := by rw [hq]; exact h.queueOnce
  queueLive := by intro p; rw [hq, hp]; exact h.queueLive p
  oneOperation := by rw [hw, ht]; exact h.oneOperation
  readingTarget := hph
  read := by
    intro x hx hov
    rw [ht] at hx
    rw [ho] at hov
    have hr := h.read x hx hov
    refine ⟨by rw [hp]; exact hr.live, (hpos x).image hr.image, (hpos x).verify hr.verify, ?_⟩
    rw [hq]
    exact hr.unqueued
  dark := by
    intro p hn
    rw [hp] at hn
    have := h.dark p hn
    exact ⟨(hpos p).dark hn this.1, (hpos p).flash hn this.2⟩

theorem RefreshLaw.of_same {t : State} (h : RefreshLaw s) (hp : t.panels = s.panels) (hb : t.boards = s.boards)
    (hv : t.verifier = s.verifier) : RefreshLaw t :=
  h.of_parts (by rw [hp]; exact fun _ => rfl) (fun p => by rw [hb]; exact PosKept.refl _ _) (by rw [hb]) (by rw [hb])
    (by rw [hv]) (by rw [hv]) (by rw [hv]; exact h.readingTarget)

theorem RefreshLaw.onPositions (h : RefreshLaw s) {f : PosIx → Position → Position}
    (hf : ∀ p, PosKept ((s.panels[panelOf p]).state = .live) s.boards.positions[p] (f p s.boards.positions[p])) :
    RefreshLaw (onPositions f s) := by
  refine h.of_parts (fun _ => rfl) (fun p => ?_) rfl rfl rfl rfl h.readingTarget
  have : (Machine.onPositions f s).boards.positions[p] = f p s.boards.positions[p] := Vec.mapIx_get _ _ _
  rw [this]
  exact hf p

theorem RefreshLaw.setPosition (h : RefreshLaw s) {p : PosIx} {f : Position → Position}
    (hf : PosKept ((s.panels[panelOf p]).state = .live) s.boards.positions[p] (f s.boards.positions[p])) :
    RefreshLaw (setPosition p f s) := by
  refine h.of_parts (fun _ => rfl) (fun q => ?_) rfl rfl rfl rfl h.readingTarget
  have : (Machine.setPosition p f s).boards.positions[q]
      = if p = q then f s.boards.positions[q] else s.boards.positions[q] := Vec.update_get _ _ _ _
  rw [this]
  split
  · next e => subst e; exact hf
  · exact PosKept.refl _ _

theorem feedState_congr {s t : State} (hl : t.rails = s.rails) (hq : t.params = s.params) (p : PanelIx) :
    feedState t p = feedState s p := by
  unfold feedState
  simp only [hl, hq]

theorem BoardLaw.of_refresh {t : State} (h : BoardLaw s) (hr : RefreshLaw t) (hp : t.panels = s.panels)
    (hl : t.rails = s.rails) (hq : t.params = s.params) : BoardLaw t :=
  ⟨fun p => by rw [hp, feedState_congr hl hq]; exact h.shedIffFail p, hr⟩

theorem BoardLaw.of_same {t : State} (h : BoardLaw s) (hp : t.panels = s.panels) (hb : t.boards = s.boards)
    (hv : t.verifier = s.verifier) (hl : t.rails = s.rails) (hq : t.params = s.params) : BoardLaw t :=
  h.of_refresh (h.refresh.of_same hp hb hv) hp hl hq

/-- The law reads neither the phase nor the record table nor the layout entries. -/
theorem BoardLaw.of_table (h : BoardLaw s) (w : SessionPhase) (x : Vector (Option Record) 2048)
    (y : List (Symbol × SlotIx)) (z : Vector (Option Entry) 2048) :
    BoardLaw { s with phase := w, records := x, directory := y, entries := z } := h.of_same rfl rfl rfl rfl rfl

theorem BoardLaw.mark (h : BoardLaw s) (ps : List PosIx) : BoardLaw (mark ps s) :=
  h.of_refresh (h.refresh.mark ps) rfl rfl rfl

/-! ### Notices -/

theorem RefreshLaw.startFlash (h : RefreshLaw s) (i : SlotIx) : RefreshLaw (startFlash i s) := by
  refine h.onPositions (fun p => ?_)
  split
  · exact PosKept.refl _ _
  · split
    · next hc =>
      simp only [Bool.and_eq_true] at hc
      have hl := panelLive_iff.mp hc.1.1
      exact ⟨fun hn => absurd hl hn, fun hn => absurd hl hn, fun hi => hi, fun hv => hv⟩
    · exact PosKept.refl _ _

theorem RefreshLaw.boardNotice (h : RefreshLaw s) (i : SlotIx) (g : List Group) (m : Bool) :
    RefreshLaw (boardNotice i g m s) := by
  unfold Machine.boardNotice
  dsimp only
  cases m
  · exact h.mark _
  · exact (h.startFlash i).mark _

theorem BoardLaw.changeNotice (h : BoardLaw s) (i : SlotIx) (g : List Group) (m : Bool) :
    BoardLaw (changeNotice i g m s) :=
  h.of_refresh ((h.refresh.boardNotice i g m).of_same rfl rfl rfl) (by simp) (by simp) (by simp)

theorem BoardLaw.changeNotices (h : BoardLaw s) (is : List SlotIx) (g : List Group) :
    BoardLaw (changeNotices is g s) :=
  foldl_keeps (P := BoardLaw) (fun _ i hs => BoardLaw.changeNotice hs i g false) is s h

theorem BoardLaw.unbindEntries (h : BoardLaw s) (hit : SlotIx → Bool) : BoardLaw (unbindEntries hit s) :=
  BoardLaw.mark (h.of_table _ _ _ _) _

theorem BoardLaw.dropAll (h : BoardLaw s) (hit : SlotIx → Bool) :
    BoardLaw (onTerminals (Terminal.dropEntries hit) (Machine.unbindEntries hit s)) :=
  (h.unbindEntries hit).of_same rfl rfl rfl rfl rfl

/-! ### Commands of the record table and the layout store -/

theorem BoardLaw.applyList (h : BoardLaw s) (b : List Byte) : BoardLaw (applyList b s).1 := by
  unfold Machine.applyList Machine.listAt
  dsimp only
  (repeat' split) <;> first
    | exact h
    | exact BoardLaw.changeNotice (h.of_table _ _ _ _) _ _ _

theorem BoardLaw.applyDelist (h : BoardLaw s) (b : List Byte) : BoardLaw (applyDelist b s).1 := by
  unfold Machine.applyDelist Machine.delistAt Machine.retire
  (repeat' split) <;> first
    | exact h
    | exact (h.dropAll _).of_same rfl rfl rfl rfl rfl

theorem BoardLaw.applySessionClose (h : BoardLaw s) (b : List Byte) : BoardLaw (applySessionClose b s).1 := by
  unfold Machine.applySessionClose Machine.closeSession
  split
  · exact BoardLaw.changeNotices (h.of_table _ _ _ _) _ _
  · exact h

theorem BoardLaw.applyDayRoll (h : BoardLaw s) (b : List Byte) : BoardLaw (applyDayRoll b s).1 := by
  unfold Machine.applyDayRoll Machine.rollDay
  (repeat' split) <;> first
    | exact h
    | exact BoardLaw.changeNotices (h.of_table _ _ _ _) _ _

theorem BoardLaw.applyTableClear (h : BoardLaw s) (b : List Byte) : BoardLaw (applyTableClear b s).1 := by
  unfold Machine.applyTableClear Machine.clearTable Machine.freeAll
  split
  · exact h
  · have h1 : BoardLaw (Machine.withdrawAll .b (Machine.withdrawAll .a s)) :=
      h.of_same (by simp) (by simp) (by simp) (by simp) (by simp)
    exact (h1.dropAll (fun _ => true)).of_same rfl rfl rfl rfl rfl

theorem BoardLaw.applyTrade (h : BoardLaw s) (b : List Byte) : BoardLaw (applyTrade b s).1 := by
  unfold Machine.applyTrade Machine.postTrade
  dsimp only
  (repeat' split) <;> first
    | exact h
    | exact BoardLaw.of_same (BoardLaw.changeNotice (h.of_table _ _ _ _) _ _ _) (tradeNotice_panels ..)
        (tradeNotice_boards ..) (tradeNotice_verifier ..) (tradeNotice_rails ..) (tradeNotice_params ..)

theorem BoardLaw.applyQuote (h : BoardLaw s) (b : List Byte) : BoardLaw (applyQuote b s).1 := by
  unfold Machine.applyQuote Machine.postQuote
  dsimp only
  (repeat' split) <;> first
    | exact h
    | exact BoardLaw.changeNotice (h.of_table _ _ _ _) _ _ _

theorem BoardLaw.applyHalt (h : BoardLaw s) (b : List Byte) : BoardLaw (applyHalt b s).1 := by
  unfold Machine.applyHalt Machine.postState
  (repeat' split) <;> first
    | exact h
    | exact BoardLaw.changeNotice (h.of_table _ _ _ _) _ _ _

theorem BoardLaw.applyResume (h : BoardLaw s) (b : List Byte) : BoardLaw (applyResume b s).1 := by
  unfold Machine.applyResume Machine.postState
  dsimp only
  (repeat' split) <;> first
    | exact h
    | exact BoardLaw.changeNotice (h.of_table _ _ _ _) _ _ _

theorem BoardLaw.applyLoadEntry (h : BoardLaw s) (b : List Byte) : BoardLaw (applyLoadEntry b s).1 := by
  unfold Machine.applyLoadEntry Machine.loadAt
  dsimp only
  (repeat' split) <;> first
    | exact h
    | exact BoardLaw.mark (h.of_table _ _ _ _) _

/-! ### Panels -/

theorem RefreshLaw.reshow (h : RefreshLaw s) (c : PanelIx → Bool) : RefreshLaw (reshow c s) := by
  refine h.onPositions (fun p => ?_)
  split
  · exact ⟨fun _ hi => hi, fun _ _ => rfl, fun hi => hi, fun hv => hv⟩
  · exact PosKept.refl _ _

/-- A panel made LIVE. -/
theorem RefreshLaw.raise (h : RefreshLaw s) {panel : PanelIx} {f : Panel → Panel}
    (hf : (f s.panels[panel]).state = .live) : RefreshLaw (setPanel panel f s) where
  queueOnce := h.queueOnce
  queueLive := by
    intro p hp
    rw [setPanel_panels, Vec.update_get]
    split
    · next e => rw [← e]; exact hf
    · exact h.queueLive p hp
  oneOperation := h.oneOperation
  readingTarget := h.readingTarget
  read := by
    intro t ht ho
    have hr := h.read t ht ho
    refine ⟨?_, hr.image, hr.verify, hr.unqueued⟩
    rw [setPanel_panels, Vec.update_get]
    split
    · next e => rw [← e]; exact hf
    · exact hr.live
  dark := by
    intro p hn
    rw [setPanel_panels, Vec.update_get] at hn
    split at hn
    · next e => rw [← e] at hn; exact absurd hf hn
    · exact h.dark p hn

/-- A panel changed in other items than its state. -/
theorem RefreshLaw.setPanelKept (h : RefreshLaw s) {panel : PanelIx} {f : Panel → Panel}
    (hf : ∀ p, (f p).state = p.state) : RefreshLaw (setPanel panel f s) := by
  refine h.of_parts (fun p => ?_) (fun p => PosKept.refl _ _) rfl rfl rfl rfl h.readingTarget
  rw [setPanel_panels, Vec.update_get]
  split
  · exact hf _
  · rfl

theorem RefreshLaw.beginSwitch (h : RefreshLaw s) (panel : PanelIx) : RefreshLaw (beginSwitch panel s) := by
  unfold Machine.beginSwitch
  dsimp only
  split
  · exact (h.reshow _).mark _
  · exact ((h.reshow _).raise (panel := panel) rfl).mark _
  · exact h.reshow _

theorem beginSwitch_state (panel p : PanelIx) (s : State) :
    ((beginSwitch panel s).panels[p]).state = (s.panels[p]).state
      ∨ ((s.panels[p]).state = .heldDark ∧ ((beginSwitch panel s).panels[p]).state = .live) := by
  unfold beginSwitch
  dsimp only
  split
  · exact .inl rfl
  · next hd =>
    rw [mark_panels, setPanel_panels, Vec.update_get]
    split
    · next e => subst e; exact .inr ⟨hd, rfl⟩
    · exact .inl rfl
  · exact .inl rfl

/-- Panel states changed only from HELD-DARK to LIVE. -/
theorem BoardLaw.of_raised {t : State} (h : BoardLaw s) (hr : RefreshLaw t)
    (hp : ∀ p : PanelIx, (t.panels[p]).state = (s.panels[p]).state
      ∨ ((s.panels[p]).state = .heldDark ∧ (t.panels[p]).state = .live))
    (hl : t.rails = s.rails) (hq : t.params = s.params) : BoardLaw t := by
  refine ⟨fun p => ?_, hr⟩
  rw [feedState_congr hl hq, ← h.shedIffFail]
  rcases hp p with e | ⟨e1, e2⟩
  · rw [e]
  · rw [e1, e2]; simp

theorem BoardLaw.showPage (h : BoardLaw s) (panel : PanelIx) (n : Option PageIx) :
    BoardLaw (showPage panel n s) := by
  unfold Machine.showPage
  have h1 : RefreshLaw (setPanel panel (fun p => { p with current := n }) s) :=
    h.refresh.setPanelKept (fun _ => rfl)
  refine h.of_raised (h1.beginSwitch panel) (fun p => ?_) (by simp) (by simp)
  have hs : ((setPanel panel (fun p => { p with current := n }) s).panels[p]).state = (s.panels[p]).state := by
    rw [setPanel_panels, Vec.update_get]
    split <;> rfl
  rw [← hs]
  exact beginSwitch_state _ _ _

theorem BoardLaw.applyShowPage (h : BoardLaw s) (b : List Byte) : BoardLaw (applyShowPage b s).1 := by
  unfold Machine.applyShowPage panelAnswer
  (repeat' split) <;> first | exact h | exact h.showPage _ _

theorem BoardLaw.applyRestorePanel (h : BoardLaw s) (b : List Byte) : BoardLaw (applyRestorePanel b s).1 := by
  unfold Machine.applyRestorePanel panelAnswer Machine.restorePanel
  (repeat' split) <;> first
    | exact h
    | exact h.of_raised (h.refresh.beginSwitch _) (fun p => beginSwitch_state _ _ _) (by simp) (by simp)

theorem RefreshLaw.shed (h : RefreshLaw s) (panel : PanelIx) : RefreshLaw (shed panel s) := by
  have hst : ∀ p, ((Machine.shed panel s).panels[p]).state = if panel = p then .shed else (s.panels[p]).state := by
    intro p
    have : (Machine.shed panel s).panels[p]
        = if panel = p then { s.panels[p] with state := .shed } else s.panels[p] := Vec.update_get _ _ _ _
    rw [this]
    split <;> rfl
  have hpos : ∀ p, (Machine.shed panel s).boards.positions[p] = if panelOf p = panel then
      { s.boards.positions[p] with image := none, flash := 0, mismatchRun := 0, matchRun := 0 }
      else s.boards.positions[p] := fun p => Vec.mapIx_get _ _ _
  have hq : (Machine.shed panel s).boards.repaint = s.boards.repaint.filter (fun p => panelOf p != panel) := rfl
  refine ⟨?_, ?_, h.oneOperation, h.readingTarget, ?_, ?_⟩
  · rw [hq]; exact h.queueOnce.sublist List.filter_sublist
  · intro p hp
    rw [hq, List.mem_filter, bne_iff_ne] at hp
    rw [hst, if_neg hp.2.symm]
    exact h.queueLive p hp.1
  · intro t ht ho
    have ht' : s.verifier.target = some t := ht
    have ho' : (s.verifier.overtaken || (match s.verifier.target with | none => false | some t => panelOf t == panel))
        = false := ho
    rw [ht', Bool.or_eq_false_iff] at ho'
    have hr := h.read t ht' ho'.1
    have hne : panelOf t ≠ panel := by simpa using ho'.2
    refine ⟨?_, ?_, ?_, ?_⟩
    · rw [hst, if_neg hne.symm]; exact hr.live
    · rw [hpos, if_neg hne]; exact hr.image
    · rw [hpos, if_neg hne]; exact hr.verify
    · rw [hq]; exact fun hm => hr.unqueued (List.mem_of_mem_filter hm)
  · intro p hn
    rw [hpos]
    split
    · exact ⟨rfl, rfl⟩
    · next hne =>
      rw [hst, if_neg (fun c => hne c.symm)] at hn
      exact h.dark p hn

theorem shed_state (panel p : PanelIx) (s : State) :
    ((shed panel s).panels[p]).state = if panel = p then .shed else (s.panels[p]).state := by
  have : (shed panel s).panels[p] = if panel = p then { s.panels[p] with state := .shed } else s.panels[p] :=
    Vec.update_get _ _ _ _
  rw [this]
  split <;> rfl

/-- R94: what a recovered panel becomes. -/
def Policy.recovered : Policy → PanelState
  | .restore => .live
  | .hold => .heldDark

theorem recover_state (x : Policy) (panel p : PanelIx) (s : State) :
    ((recover x panel s).panels[p]).state = if panel = p then x.recovered else (s.panels[p]).state := by
  have : (recover x panel s).panels[p]
      = if panel = p then { s.panels[p] with state := x.recovered } else s.panels[p] := by
    cases x <;> exact Vec.update_get _ _ _ _
  rw [this]
  split <;> rfl

theorem RefreshLaw.recover (h : RefreshLaw s) {panel : PanelIx} (hn : (s.panels[panel]).state ≠ .live) (x : Policy) :
    RefreshLaw (recover x panel s) := by
  cases x
  · exact (h.raise (panel := panel) rfl).mark _
  · have hst := fun p => recover_state .hold panel p s
    have hpos : ∀ p, (Machine.recover .hold panel s).boards.positions[p] = if panelOf p = panel then
        { s.boards.positions[p] with flash := 0 } else s.boards.positions[p] := fun p => Vec.mapIx_get _ _ _
    refine ⟨h.queueOnce, ?_, h.oneOperation, h.readingTarget, ?_, ?_⟩
    · intro p hp
      have hl := h.queueLive p hp
      have hne : panel ≠ panelOf p := by rintro rfl; exact hn hl
      rw [hst, if_neg hne]
      exact hl
    · intro t ht ho
      have hr := h.read t ht ho
      have hne : panel ≠ panelOf t := by rintro rfl; exact hn hr.live
      refine ⟨?_, ?_, ?_, hr.unqueued⟩
      · rw [hst, if_neg hne]; exact hr.live
      · rw [hpos, if_neg hne.symm]; exact hr.image
      · rw [hpos, if_neg hne.symm]; exact hr.verify
    · intro p hd
      rw [hpos]
      split
      · next e => subst e; exact ⟨(h.dark p hn).1, rfl⟩
      · next hne =>
        rw [hst, if_neg (fun c => hne c.symm)] at hd
        exact h.dark p hd

/-! ### Writes, periods and rails -/

theorem RefreshLaw.startWrite (h : RefreshLaw s) : RefreshLaw (startWrite s) := by
  unfold Machine.startWrite
  split
  · exact h
  · next p rest hq =>
    split
    · next hb =>
      have hsub : ∀ x, x ∈ rest → x ∈ s.boards.repaint := fun x hx => by rw [hq]; exact List.mem_cons_of_mem _ hx
      have hfree : s.verifier.target = none := by
        unfold busFree at hb
        simpa using (Bool.and_eq_true_iff.mp hb).2
      refine ⟨?_, fun x hx => h.queueLive x (hsub x hx), .inr hfree, h.readingTarget, ?_, h.dark⟩
      · have := h.queueOnce
        rw [hq] at this
        exact (List.nodup_cons.mp this).2
      · intro t ht ho
        have hr := h.read t ht ho
        exact ⟨hr.live, hr.image, hr.verify, fun hm => hr.unqueued (hsub t hm)⟩
    · exact h

theorem BoardLaw.startWrite (h : BoardLaw s) : BoardLaw (startWrite s) :=
  h.of_refresh h.refresh.startWrite (by rw [startWrite_frame]) (by rw [startWrite_frame]) (by rw [startWrite_frame])

theorem RefreshLaw.clearSwitch (h : RefreshLaw s) (p : PosIx) : RefreshLaw (clearSwitch p s) := by
  unfold Machine.clearSwitch completeSwitch
  dsimp only
  have h1 : RefreshLaw (Machine.setPosition p (fun pos => { pos with switchPending := false }) s) :=
    h.setPosition ⟨fun _ hi => hi, fun _ hi => hi, fun hi => hi, fun hi => hi⟩
  split
  · split
    · exact (h1.setPanelKept (panel := panelOf p) (f := fun p => { p with lastShown := p.current })
        (fun _ => rfl)).of_same rfl rfl rfl
    · exact h1
  · exact h

theorem clearSwitch_state (p : PosIx) (q : PanelIx) (s : State) :
    ((clearSwitch p s).panels[q]).state = (s.panels[q]).state := by
  unfold clearSwitch completeSwitch
  dsimp only
  split
  · split
    · refine (congrArg Panel.state (Vec.update_get s.panels (panelOf p) q _)).trans ?_
      split <;> rfl
    · rfl
  · rfl

theorem RefreshLaw.completeWrite (h : RefreshLaw s) : RefreshLaw (completeWrite s) := by
  unfold Machine.completeWrite
  split
  · exact h
  · next w hw =>
    have h1 : RefreshLaw { s with boards := { s.boards with write := none } } :=
      ⟨h.queueOnce, h.queueLive, .inl rfl, h.readingTarget,
        fun t ht ho => ⟨(h.read t ht ho).live, (h.read t ht ho).image, (h.read t ht ho).verify, (h.read t ht ho).unqueued⟩,
        h.dark⟩
    unfold recordWrite
    split
    · next hl =>
      refine RefreshLaw.clearSwitch (h1.setPosition ?_) _
      have hl' := panelLive_iff.mp hl
      exact ⟨fun hn => absurd hl' hn, fun hn => absurd hl' hn, fun _ => by simp, fun hv => hv⟩
    · exact h1

theorem completeWrite_state (q : PanelIx) (s : State) :
    ((completeWrite s).panels[q]).state = (s.panels[q]).state := by
  unfold completeWrite recordWrite
  split
  · rfl
  · split
    · rw [clearSwitch_state]; rfl
    · rfl

theorem BoardLaw.completeWrite (h : BoardLaw s) : BoardLaw (completeWrite s) :=
  h.of_raised h.refresh.completeWrite (fun p => .inl (completeWrite_state p s))
    (by rw [completeWrite_frame]) (by rw [completeWrite_frame])

theorem RefreshLaw.periodStarted (h : RefreshLaw s) (x : AB) : RefreshLaw (periodStarted x s) := by
  cases x
  · refine RefreshLaw.mark (RefreshLaw.onPositions h (fun p => ?_)) _
    refine ⟨fun _ hi => hi, fun _ hf => ?_, fun hi => hi, fun hv => hv⟩
    dsimp only
    rw [hf]
  · exact h

theorem RefreshLaw.setTimerStart (h : RefreshLaw s) (x : AB) (t : Time) : RefreshLaw (setTimerStart x t s) :=
  h.of_parts (fun _ => rfl) (fun _ => PosKept.refl _ _) rfl rfl rfl rfl h.readingTarget

theorem BoardLaw.startPeriod (h : BoardLaw s) (x : AB) : BoardLaw (startPeriod x s) := by
  refine h.of_refresh ?_ (by rw [startPeriod_frame]) (by rw [startPeriod_frame]) (by rw [startPeriod_frame])
  unfold Machine.startPeriod
  split
  · exact RefreshLaw.periodStarted (h.refresh.setTimerStart _ _) x
  · exact h.refresh

theorem BoardLaw.of_railStates {t : State} (h : BoardLaw s) (hp : t.panels = s.panels) (hb : t.boards = s.boards)
    (hv : t.verifier = s.verifier) (hl : ∀ i : RailIx, (t.rails[i]).state = (s.rails[i]).state)
    (hq : t.params = s.params) : BoardLaw t :=
  ⟨by
    intro p
    have : feedState t p = feedState s p := by
      unfold feedState
      simp only [hq]
      exact hl _
    rw [hp, this]
    exact h.shedIffFail p, h.refresh.of_same hp hb hv⟩

theorem nextInterval_railState (i : RailIx) (s : State) : ((nextInterval s).rails[i]).state = (s.rails[i]).state := by
  unfold nextInterval
  split
  · rfl
  · dsimp only
    rw [Vec.mapIx_get]

theorem BoardLaw.nextInterval (h : BoardLaw s) : BoardLaw (nextInterval s) :=
  h.of_railStates (by simp) (by simp) (by simp) (fun i => nextInterval_railState i s) (by simp)

theorem BoardLaw.sampleRail (h : BoardLaw s) (i : RailIx) (w f : Bool) : BoardLaw (sampleRail i w f s) := by
  unfold Machine.sampleRail
  dsimp only
  have key : ∀ s : State, BoardLaw s →
      BoardLaw (setRail i (sampledRail s.params.settleTime (readingOf w f)) s) := by
    intro s h
    refine h.of_railStates rfl rfl rfl (fun j => ?_) rfl
    have : (setRail i (sampledRail s.params.settleTime (readingOf w f)) s).rails[j]
        = if i = j then sampledRail s.params.settleTime (readingOf w f) s.rails[j] else s.rails[j] :=
      Vec.update_get _ _ _ _
    rw [this]
    split <;> rfl
  split
  · exact key _ h.nextInterval
  · exact key _ h

/-- R91: the panels of a rail follow its change of state, one after the other; those met are shed before a recovery. -/
theorem railChanged_fold (before after : RailState) (x : Policy) (l : List PanelIx) (hl : l.Nodup) {s : State}
    (h : RefreshLaw s) (hb : before = .fail → ∀ p ∈ l, (s.panels[p]).state = .shed) :
    RefreshLaw (l.foldl (fun s p => railChanged before after x p s) s) ∧
      ∀ p : PanelIx, ((l.foldl (fun s p => railChanged before after x p s) s).panels[p]).state =
        if p ∈ l ∧ before ≠ .fail ∧ after = .fail then .shed
        else if p ∈ l ∧ before = .fail ∧ after ≠ .fail then x.recovered
        else (s.panels[p]).state := by
  induction l generalizing s with
  | nil => exact ⟨h, fun p => by simp⟩
  | cons a rest ih =>
    obtain ⟨ha, hrest⟩ := List.nodup_cons.mp hl
    have hstep : RefreshLaw (railChanged before after x a s) := by
      unfold railChanged
      split
      · exact h.shed a
      · split
        · next hc =>
          exact h.recover (by rw [hb hc.1 a (List.mem_cons_self ..)]; simp) x
        · exact h
    have hst : ∀ p : PanelIx, ((railChanged before after x a s).panels[p]).state =
        if a = p ∧ before ≠ .fail ∧ after = .fail then .shed
        else if a = p ∧ before = .fail ∧ after ≠ .fail then x.recovered
        else (s.panels[p]).state := by
      intro p
      unfold railChanged
      by_cases h1 : before ≠ .fail ∧ after = .fail
      · rw [if_pos h1, shed_state]
        have h2 : ¬(before = .fail ∧ after ≠ .fail) := fun c => h1.1 c.1
        by_cases hp : a = p <;> simp [hp, h1]
      · rw [if_neg h1]
        by_cases h2 : before = .fail ∧ after ≠ .fail
        · rw [if_pos h2, recover_state]
          by_cases hp : a = p <;> simp [hp, h2]
        · rw [if_neg h2]
          simp [h1, h2]
    have := ih hrest hstep (fun hc p hp => by
      rw [hst]
      have hne : a ≠ p := fun e => ha (e ▸ hp)
      simp only [hne, false_and, if_false]
      exact hb hc p (List.mem_cons_of_mem _ hp))
    refine ⟨this.1, fun p => ?_⟩
    rw [List.foldl_cons, this.2, hst]
    by_cases hp : a = p
    · subst hp
      by_cases h1 : before ≠ .fail ∧ after = .fail
      · simp [ha, h1]
      · by_cases h2 : before = .fail ∧ after ≠ .fail
        · simp [ha, h2]
        · simp [ha, h1, h2]
    · have hp' : p ≠ a := Ne.symm hp
      simp [hp, hp', List.mem_cons]

theorem Policy.recovered_notShed (x : Policy) : x.recovered ≠ .shed := by cases x <;> decide

theorem BoardLaw.changeRail (h : BoardLaw s) (i : RailIx) : BoardLaw (changeRail i s) := by
  by_cases hc : (s.rails[i]).changeDue = true
  · -- the state before the panels follow
    have hmid : RefreshLaw
        (latch (.railChange i) (setRail i (fun r => { r with state := r.candidate, changeDue := false }) s)) :=
      h.refresh.of_same rfl rfl rfl
    have hsh : (s.rails[i]).state = .fail → ∀ p ∈ railPanels s i,
        ((latch (.railChange i)
          (setRail i (fun r => { r with state := r.candidate, changeDue := false }) s)).panels[p]).state = .shed := by
      intro hf p hp
      unfold railPanels at hp
      rw [Vec.mem_select] at hp
      have hp' : s.params.panelRail[p] = i := by simpa using hp
      have := (h.shedIffFail p).mpr (by unfold feedState; simp only [hp']; exact hf)
      simpa using this
    have key := railChanged_fold (s.rails[i]).state (s.rails[i]).candidate s.params.policy[i] (railPanels s i)
      (Vec.select_nodup _ _) hmid hsh
    have he : Machine.changeRail i s = (railPanels s i).foldl
        (fun z panel => railChanged (s.rails[i]).state (s.rails[i]).candidate s.params.policy[i] panel z)
        (latch (.railChange i) (setRail i (fun r => { r with state := r.candidate, changeDue := false }) s)) := by
      unfold Machine.changeRail
      dsimp only
      rw [if_pos hc]
    rw [← he] at key
    refine ⟨fun p => ?_, key.1⟩
    have hfeed : feedState (Machine.changeRail i s) p
        = if i = s.params.panelRail[p] then (s.rails[i]).candidate else feedState s p := by
      have hr : (Machine.changeRail i s).rails
          = Vec.update s.rails i (fun r => { r with state := r.candidate, changeDue := false }) := by
        rw [he]
        exact foldl_same (fun z : State => z.rails) (fun z a => railChanged_rails ..) _ _
      unfold feedState
      have hq : (Machine.changeRail i s).params = s.params := by rw [changeRail_frame]
      simp only [hr, hq]
      have := Vec.update_get s.rails i s.params.panelRail[p] (fun r => { r with state := r.candidate, changeDue := false })
      rw [this]
      split
      · next e => subst e; rfl
      · rfl
    have hmem : p ∈ railPanels s i ↔ s.params.panelRail[p] = i := by
      unfold railPanels
      rw [Vec.mem_select]
      simp
    have hold := h.shedIffFail p
    have hst := key.2 p
    rw [show ((latch (.railChange i)
      (setRail i (fun r => { r with state := r.candidate, changeDue := false }) s)).panels[p]).state
        = (s.panels[p]).state from rfl] at hst
    rw [hst, hfeed]
    simp only [hmem]
    by_cases hp : s.params.panelRail[p] = i
    · have hf : feedState s p = (s.rails[i]).state := by unfold feedState; simp only [hp]
      rw [hf] at hold
      generalize (s.rails[i]).state = before at *
      generalize (s.rails[i]).candidate = after at *
      generalize ((s.panels[p]).state) = st at *
      generalize s.params.policy[i] = x at *
      have hx := x.recovered_notShed
      by_cases h1 : before = .fail <;> by_cases h2 : after = .fail <;> simp_all
    · rw [if_neg (fun c => hp c.1), if_neg (fun c => hp c.1), if_neg (fun c => hp c.symm)]
      exact hold
  · have : Machine.changeRail i s = s := by
      unfold Machine.changeRail
      dsimp only
      rw [if_neg hc]
    rw [this]
    exact h

/-! ### Parameters -/

theorem BoardLaw.reassigned (h : RefreshLaw s) {panel : PanelIx}
    (hs : ∀ p, p ≠ panel → ((s.panels[p]).state = .shed ↔ feedState s p = .fail)) :
    BoardLaw (reassignPanel panel s) := by
  have hfeed : ∀ t : State, t.rails = s.rails → t.params = s.params → ∀ p, feedState t p = feedState s p :=
    fun t hl hq => feedState_congr hl hq
  unfold reassignPanel
  dsimp only
  have hf : feedState s panel = (s.rails[s.params.panelRail[panel]]).state := rfl
  split
  · next hfail =>
    have hshed : BoardLaw (shed panel s) := by
      refine ⟨fun p => ?_, h.shed panel⟩
      rw [hfeed _ (by simp) (by simp), shed_state]
      by_cases hp : panel = p
      · subst hp
        rw [if_pos rfl, hf, hfail]
        simp
      · rw [if_neg hp]; exact hs p (Ne.symm hp)
    split
    · exact hshed
    · next hst =>
      refine ⟨fun p => ?_, h⟩
      by_cases hp : p = panel
      · subst hp
        rw [hf, hfail, hst]
        simp
      · exact hs p hp
    · exact hshed
  · next hok =>
    have hsame : (s.panels[panel]).state ≠ .shed → BoardLaw s := by
      intro hn
      refine ⟨fun p => ?_, h⟩
      by_cases hp : p = panel
      · subst hp
        exact iff_of_false hn (by rw [hf]; exact hok)
      · exact hs p hp
    split
    · next hst => exact hsame (by rw [hst]; decide)
    · next hst =>
      refine ⟨fun p => ?_, h.recover (by rw [hst]; decide) _⟩
      rw [hfeed _ (by simp) (by simp), recover_state]
      by_cases hp : panel = p
      · subst hp
        rw [if_pos rfl]
        exact iff_of_false (Policy.recovered_notShed _) (by rw [hf]; exact hok)
      · rw [if_neg hp]; exact hs p (Ne.symm hp)
    · next hst => exact hsame (by rw [hst]; decide)

/-- Only a write of a panel's rail changes the rails of the panels. -/
theorem Params.write_panelRail {p p' : Params} {q : Parameter} {v : Nat} (h : p.write q v = some p') (panel : PanelIx) :
    p'.panelRail[panel] = p.panelRail[panel] ∨ q = .panelRail panel := by
  unfold Params.write at h
  cases q <;> dsimp only at h <;>
    first
      | (unfold inRange at h; split at h <;> cases h; exact .inl rfl)
      | (unfold setThresholds at h; split at h <;> cases h; exact .inl rfl)
      | (split at h <;> cases h; exact .inl rfl)
      | (cases h; exact .inl rfl)
      | skip
  · split at h
    · cases h; exact .inl rfl
    · split at h <;> cases h; exact .inl rfl
  · next x =>
    obtain ⟨r, hr, rfl⟩ := Option.map_eq_some_iff.mp h
    dsimp only
    rw [Vec.set_get]
    split
    · next e => subst e; exact .inr rfl
    · exact .inl rfl

theorem RefreshLaw.beginGap (h : RefreshLaw s) (ht : s.verifier.target = none) : RefreshLaw (beginGap s) := by
  refine h.of_parts (fun _ => rfl) (fun _ => PosKept.refl _ _) rfl rfl rfl rfl ?_
  have : (Machine.beginGap s).verifier.target = none := ht
  rw [this]
  unfold Machine.beginGap
  dsimp only
  split <;> simp

theorem RefreshLaw.idle_target (h : RefreshLaw s) (hp : s.verifier.phase ≠ .reading) : s.verifier.target = none := by
  by_contra hc
  exact hp (h.readingTarget.mpr hc)

theorem RefreshLaw.setPhase (h : RefreshLaw s) {x : VerifierPhase} (hp : s.verifier.phase ≠ .reading)
    (hx : x ≠ .reading) : RefreshLaw { s with verifier := { s.verifier with phase := x } } := by
  refine h.of_parts (fun _ => rfl) (fun _ => PosKept.refl _ _) rfl rfl rfl rfl ?_
  have := h.idle_target hp
  exact iff_of_false hx (by simp [this])

theorem RefreshLaw.verifyEnableChanged (h : RefreshLaw s) : RefreshLaw (verifyEnableChanged s) := by
  unfold Machine.verifyEnableChanged
  split
  · split
    · next hp => exact h.beginGap (h.idle_target (by rw [hp]; simp))
    · exact h
    · exact h
    · exact h
  · split
    · exact h
    · next hp => exact h.setPhase (by rw [hp]; simp) (by simp)
    · next hp => exact h.setPhase (by rw [hp]; simp) (by simp)
    · exact h

theorem BoardLaw.applySetParameter (h : BoardLaw s) (b : List Byte) : BoardLaw (applySetParameter b s).1 := by
  unfold Machine.applySetParameter
  split
  · exact h
  · next q _ =>
    split
    · exact h
    · next p' hw =>
      have hr : RefreshLaw { s with params := p' } := h.refresh.of_same rfl rfl rfl
      have hrail : ∀ panel, p'.panelRail[panel] = s.params.panelRail[panel] →
          feedState { s with params := p' } panel = feedState s panel := by
        intro panel he
        unfold feedState
        simp only [he]
      have hkeep : (∀ panel, q ≠ .panelRail panel) → ∀ t : State, RefreshLaw t → t.panels = s.panels →
          t.rails = s.rails → t.params = p' → BoardLaw t := by
        intro hq t ht hp hl hpar
        refine ⟨fun p => ?_, ht⟩
        rw [hp, feedState_congr (s := { s with params := p' }) hl hpar,
          hrail p ((Params.write_panelRail hw p).resolve_right (hq p))]
        exact h.shedIffFail p
      dsimp only
      unfold parameterWritten
      split
      · refine hkeep (fun _ => by simp) _ ?_ (by simp [restartTimer]) (by simp [restartTimer]) (by simp [restartTimer])
        exact RefreshLaw.periodStarted (hr.setTimerStart _ _) _
      · refine hkeep (fun _ => by simp) _ ?_ (by simp [restartTimer]) (by simp [restartTimer]) (by simp [restartTimer])
        exact RefreshLaw.periodStarted (hr.setTimerStart _ _) _
      · next panel _ =>
        have hoth : ∀ p : PanelIx, p ≠ panel → p'.panelRail[p] = s.params.panelRail[p] := by
          intro p hp
          refine (Params.write_panelRail hw p).resolve_right ?_
          intro c
          cases c
          exact hp rfl
        split
        · next he =>
          refine ⟨fun p => ?_, hr⟩
          rw [hrail p]
          · exact h.shedIffFail p
          · by_cases hp : p = panel
            · subst hp; exact he.symm
            · exact hoth p hp
        · refine BoardLaw.reassigned hr (fun p hp => ?_)
          rw [hrail p (hoth p hp)]
          exact h.shedIffFail p
      · split
        · exact hkeep (fun _ => by simp) _ hr rfl rfl rfl
        · exact hkeep (fun _ => by simp) _ hr.verifyEnableChanged (by simp) (by simp) (by simp)
      all_goals exact hkeep (fun _ => by simp) _ hr rfl rfl rfl

/-! ### The verifier -/

theorem RefreshLaw.endGap (h : RefreshLaw s) : RefreshLaw (endGap s) := by
  unfold Machine.endGap
  split
  · exact h
  · next hp =>
    split
    · exact h.setPhase (by rw [hp]; simp) (by simp)
    · exact h
  · exact h
  · exact h

theorem BoardLaw.endGap (h : BoardLaw s) : BoardLaw (endGap s) :=
  h.of_refresh h.refresh.endGap (by rw [endGap_frame]) (by rw [endGap_frame]) (by rw [endGap_frame])

theorem nextToVerify_eligible {p : PosIx} (h : nextToVerify s = some p) : p ∈ eligiblePositions s := by
  unfold nextToVerify at h
  dsimp only at h
  split at h
  · next q hq =>
    cases h
    exact List.mem_of_find?_eq_some hq
  · exact List.mem_of_head? h

theorem RefreshLaw.startRead (h : RefreshLaw s) : RefreshLaw (startRead s) := by
  unfold Machine.startRead
  split
  · next hc =>
    split
    · exact h
    · next p hp =>
      have he := nextToVerify_eligible hp
      unfold eligiblePositions at he
      rw [Vec.mem_select] at he
      simp only [Bool.and_eq_true, Bool.not_eq_true', List.contains_eq_mem, decide_eq_false_iff_not] at he
      have hv := he.1.2
      unfold Position.canVerify at hv
      simp only [Bool.and_eq_true, Bool.or_eq_true, beq_iff_eq, Bool.not_eq_true'] at hv
      have hw : s.boards.write = none := by
        have := hc.2.1
        unfold busFree at this
        simpa using (Bool.and_eq_true_iff.mp this).1
      refine ⟨h.queueOnce, h.queueLive, .inl hw, by simp, ?_, h.dark⟩
      rintro t ht -
      cases ht
      refine ⟨panelLive_iff.mp he.1.1, ?_, ?_, he.2⟩
      · intro hn
        have := hv.1.1
        rw [hn] at this
        cases this
      · intro hn
        rcases hv.2 with hg | hg <;> rw [hn] at hg <;> cases hg
  · exact h

theorem BoardLaw.startRead (h : BoardLaw s) : BoardLaw (startRead s) :=
  h.of_refresh h.refresh.startRead (by rw [startRead_frame]) (by rw [startRead_frame]) (by rw [startRead_frame])

/-- What the end of a read needs of the state in which the outcome has been applied. -/
theorem RefreshLaw.endRead (h : RefreshLaw s) : RefreshLaw (endRead s) := by
  unfold Machine.endRead
  dsimp only
  have h1 : ∀ x : VerifierPhase, x ≠ .reading →
      RefreshLaw { s with verifier := { s.verifier with phase := x, target := none, overtaken := false } } :=
    fun x hx => ⟨h.queueOnce, h.queueLive, .inr rfl, by simp [hx], fun t ht => (by cases ht), h.dark⟩
  split
  · unfold Machine.beginGap
    dsimp only
    refine h1 _ ?_
    split <;> simp
  · exact h1 .idle (by simp)

theorem PosKept.matched (live : Prop) (n : Nat) (x : Position) : PosKept live x (matchedPosition n x) := by
  refine ⟨fun _ h => h, fun _ h => h, fun h => h, fun h => ?_⟩
  unfold matchedPosition
  dsimp only
  split
  · decide
  · exact h

theorem RefreshLaw.applyMatch (h : RefreshLaw s) (p : PosIx) : RefreshLaw (applyMatch p s) :=
  h.setPosition (PosKept.matched _ _ _)

/-- A mismatch of the target of a read: the read is over after it, so that the target's law is no longer needed. -/
theorem RefreshLaw.mismatch_end (h : RefreshLaw s) (p : PosIx) : RefreshLaw (Machine.endRead (applyMismatch p s)) := by
  -- the state without the read satisfies the law, and the mark and the changed position keep it
  have key : ∀ t : State, t.panels = s.panels → t.boards.repaint = s.boards.repaint →
      (∀ q : PosIx, (t.boards.positions[q]).image = (s.boards.positions[q]).image
        ∧ (t.boards.positions[q]).flash = (s.boards.positions[q]).flash) →
      RefreshLaw (Machine.endRead (Machine.mark [p] t)) := by
    intro t hp hq hpos
    have hb : ∀ x : VerifierPhase, x ≠ .reading → RefreshLaw { Machine.mark [p] t with
        verifier := { (Machine.mark [p] t).verifier with phase := x, target := none, overtaken := false } } := by
      intro x hx
      refine ⟨?_, ?_, .inr rfl, by simp [hx], fun t ht => (by cases ht), ?_⟩
      · refine appendMarks_nodup _ _ ?_
        rw [hq]; exact h.queueOnce
      · intro q hm
        rcases (mem_appendMarks _ _ _ _).mp hm with hm | ⟨_, hl⟩
        · rw [hq] at hm
          have := h.queueLive q hm
          simpa [hp] using this
        · exact panelLive_iff.mp hl
      · intro q hn
        have hn' : (s.panels[panelOf q]).state ≠ .live := by simpa [hp] using hn
        have := h.dark q hn'
        exact ⟨(hpos q).1.trans this.1, (hpos q).2.trans this.2⟩
    unfold Machine.endRead
    dsimp only
    split
    · unfold Machine.beginGap
      dsimp only
      refine hb _ ?_
      split <;> simp
    · exact hb .idle (by simp)
  unfold applyMismatch
  dsimp only
  have hp : ∀ q : PosIx, ((Vec.update s.boards.positions p (mismatchedPosition s.params.failThreshold))[q]).image
        = (s.boards.positions[q]).image
      ∧ ((Vec.update s.boards.positions p (mismatchedPosition s.params.failThreshold))[q]).flash
        = (s.boards.positions[q]).flash := by
    intro q
    rw [Vec.update_get]
    split <;> exact ⟨rfl, rfl⟩
  split
  · exact key _ rfl rfl hp
  · exact key _ rfl rfl hp

theorem RefreshLaw.takeEcho (h : RefreshLaw s) (e : List Byte) : RefreshLaw (takeEcho e s) := by
  unfold Machine.takeEcho
  split
  · exact h
  · split
    · split
      · exact h.endRead
      · split
        · exact (h.applyMatch _).endRead
        · exact h.mismatch_end _
    · exact h

theorem BoardLaw.takeEcho (h : BoardLaw s) (e : List Byte) : BoardLaw (takeEcho e s) :=
  h.of_refresh (h.refresh.takeEcho e) (by rw [takeEcho_frame]) (by rw [takeEcho_frame]) (by rw [takeEcho_frame])

theorem BoardLaw.endEchoLimit (h : BoardLaw s) : BoardLaw (endEchoLimit s) := by
  refine h.of_refresh ?_ (by rw [endEchoLimit_frame]) (by rw [endEchoLimit_frame]) (by rw [endEchoLimit_frame])
  unfold Machine.endEchoLimit
  split
  · exact h.refresh
  · split
    · exact h.refresh.endRead
    · exact h.refresh.mismatch_end _

theorem BoardLaw.applyClearFaults (h : BoardLaw s) (b : List Byte) : BoardLaw (applyClearFaults b s).1 := by
  have h1 : RefreshLaw (onPositions
      (fun _ pos => { pos with verify := .good, mismatchRun := 0, matchRun := 0 }) s) :=
    h.refresh.onPositions (fun p => ⟨fun _ hi => hi, fun _ hi => hi, fun hi => hi, fun _ => by simp⟩)
  refine h.of_refresh (h1.of_parts (fun _ => rfl) (fun _ => PosKept.refl _ _) rfl rfl rfl rfl ?_) rfl rfl rfl
  exact h1.readingTarget

/-! ### STALE, restart and reset -/

theorem BoardLaw.setStale (h : BoardLaw s) (x : Bool) : BoardLaw (setStale x s) := by
  unfold Machine.setStale
  dsimp only
  refine BoardLaw.mark ?_ _
  exact h.of_same rfl rfl rfl rfl rfl

theorem BoardLaw.completeFrame (h : BoardLaw s) (c : Byte) : BoardLaw (completeFrame c s) := by
  unfold Machine.completeFrame queueFrame noteIntact
  dsimp only
  have key : ∀ f : Feed, BoardLaw (Machine.setStale false { s with feed := f }) :=
    fun f => BoardLaw.setStale (s := { s with feed := f }) (h.of_same rfl rfl rfl rfl rfl) false
  (repeat' split) <;> first
    | exact h
    | exact h.of_same rfl rfl rfl rfl rfl
    | exact (key _).of_same rfl rfl rfl rfl rfl

theorem BoardLaw.expireQuietLimit (h : BoardLaw s) : BoardLaw (expireQuietLimit s) := by
  unfold Machine.expireQuietLimit
  split
  · exact h.setStale true
  · exact h

/-- A restart empties the queue and the bus and ends a read; then every position of a LIVE panel is marked. -/
theorem BoardLaw.restartAll (h : BoardLaw s) : BoardLaw (restartAll s) := by
  refine h.of_refresh ?_ (by simp) (by simp) (by simp)
  unfold Machine.restartAll reshowAll
  refine RefreshLaw.mark (RefreshLaw.reshow ?_ _) _
  generalize hz : restartLines (restartTapes (restartFeed s)) = z
  have hzp : z.panels = s.panels := by rw [← hz]; simp
  have hzb : z.boards = s.boards := by rw [← hz]; simp
  have hpos : ∀ q : PosIx, ((restartVerifier (restartBoards z)).boards.positions[q]).flash = 0
      ∧ ((s.boards.positions[q]).image = none → ((restartVerifier (restartBoards z)).boards.positions[q]).image = none) := by
    intro q
    have ha : ((abandonWrite z).boards.positions[q]).image = none ∨
        ((abandonWrite z).boards.positions[q]).image = (s.boards.positions[q]).image := by
      unfold abandonWrite
      split
      · right; simp only [hzb]
      · next w _ =>
        have : (Machine.setPosition w.position (fun pos => { pos with image := none }) z).boards.positions[q]
            = if w.position = q then { z.boards.positions[q] with image := none } else z.boards.positions[q] :=
          Vec.update_get _ _ _ _
        rw [this]
        split
        · exact .inl rfl
        · right; simp only [hzb]
    have hb : (restartBoards z).boards.positions[q] = { (abandonWrite z).boards.positions[q] with flash := 0 } :=
      Vec.mapIx_get _ _ _
    have hv : (restartVerifier (restartBoards z)).boards.positions[q]
        = { (restartBoards z).boards.positions[q] with verify := .good, mismatchRun := 0, matchRun := 0 } := by
      unfold restartVerifier
      dsimp only
      split <;> exact Vec.mapIx_get _ _ _
    rw [hv, hb]
    refine ⟨rfl, fun hi => ?_⟩
    rcases ha with e | e
    · exact e
    · exact e.trans hi
  have hq : (restartVerifier (restartBoards z)).boards.repaint = []
      ∧ (restartVerifier (restartBoards z)).boards.write = none
      ∧ (restartVerifier (restartBoards z)).verifier.target = none
      ∧ (restartVerifier (restartBoards z)).verifier.phase ≠ .reading
      ∧ (restartVerifier (restartBoards z)).panels = s.panels := by
    refine ⟨?_, ?_, ?_, ?_, by simp [hzp]⟩ <;>
      (unfold restartVerifier Machine.beginGap restartBoards; dsimp only; (repeat' split) <;> simp [Verifier.reset])
  obtain ⟨h1, h2, h3, h4, h5⟩ := hq
  refine ⟨by rw [h1]; exact List.nodup_nil, by rw [h1]; intro p hp; (cases hp), .inl h2, ?_, ?_, ?_⟩
  · rw [h3]; exact iff_of_false h4 (by simp)
  · intro t ht
    rw [h3] at ht
    cases ht
  · intro q hn
    have hn' : (s.panels[panelOf q]).state ≠ .live := by
      rw [h5] at hn
      exact hn
    exact ⟨(hpos q).2 (h.refresh.dark q hn').1, (hpos q).1⟩

theorem State.reset_panel (p : PanelIx) : State.reset.panels[p] = Panel.reset := by
  unfold State.reset
  simp [Fin.getElem_fin]

theorem State.reset_position (p : PosIx) : State.reset.boards.positions[p] = Position.reset := by
  unfold State.reset
  simp [Fin.getElem_fin]

theorem State.reset_rail (i : RailIx) : State.reset.rails[i] = Rail.reset := by
  unfold State.reset
  simp [Fin.getElem_fin]

theorem State.reset_boards : BoardLaw State.reset := by
  refine ⟨fun p => ?_, ⟨List.nodup_nil, fun p hp => (by cases hp), .inl rfl, ?_, fun t ht => (by cases ht), fun p _ => ?_⟩⟩
  · unfold feedState
    rw [State.reset_panel, State.reset_rail]
    exact iff_of_true rfl rfl
  · exact iff_of_false (by simp [State.reset, Verifier.reset]) (by simp [State.reset, Verifier.reset])
  · rw [State.reset_position]; exact ⟨rfl, rfl⟩

/-! ### Every command -/

/-- Every command keeps the law. -/
theorem boards_kept : KeptByCommands BoardLaw BoardLaw where
  remove _ h _ := h.of_same rfl rfl rfl rfl rfl
  place _ _ _ s h := h.of_same rfl rfl rfl rfl rfl
  list b s h := h.applyList b
  delist b s h := h.applyDelist b
  queryRecord b s h := by rw [applyQueryRecord_frame]; exact h
  sessionOpen b s h := by rw [applySessionOpen_frame]; exact h.of_same rfl rfl rfl rfl rfl
  sessionClose b s h := h.applySessionClose b
  dayRoll b s h := h.applyDayRoll b
  tableClear b s h := h.applyTableClear b
  trade b s h := h.applyTrade b
  quote b s h := h.applyQuote b
  halt b s h := h.applyHalt b
  resume b s h := h.applyResume b
  loadEntry b s h := h.applyLoadEntry b
  unloadEntry b s h := by rw [applyUnloadEntry_frame]; exact h.of_same rfl rfl rfl rfl rfl
  definePage b s h := by rw [applyDefinePage_frame]; exact h.of_same rfl rfl rfl rfl rfl
  undefinePage b s h := by rw [applyUndefinePage_frame]; exact h.of_same rfl rfl rfl rfl rfl
  showPage b s h := h.applyShowPage b
  restorePanel b s h := h.applyRestorePanel b
  clearFaults b s h := h.applyClearFaults b
  tapeStart b s h := by rw [applyTapeStart_frame]; exact h.of_same rfl rfl rfl rfl rfl
  tapeStop b s h := by rw [applyTapeStop_frame]; exact h.of_same rfl rfl rfl rfl rfl
  tapeClear b s h := by rw [applyTapeClear_frame]; exact h.of_same rfl rfl rfl rfl rfl
  notice b s h := by rw [applyNotice_frame]; exact h.of_same rfl rfl rfl rfl rfl
  terminalEnable b s h := by rw [applyTerminalEnable_frame]; exact h.of_same rfl rfl rfl rfl rfl
  setParameter b s h := h.applySetParameter b
  readParameter b s h := by rw [applyReadParameter_frame]; exact h
  readStatus b s h := by rw [applyReadStatus_frame]; exact h.of_same rfl rfl rfl rfl rfl
  clearConditions b s h := by rw [applyClearConditions_frame]; exact h.of_same rfl rfl rfl rfl rfl
  restart _ s h := h.restartAll
  takeFeedChar c s h := by rw [takeFeedChar_frame]; exact h.of_same rfl rfl rfl rfl rfl
  takeFeedFailure x s h := by rw [takeFeedFailure_frame]; exact h.of_same rfl rfl rfl rfl rfl
  expireFrameGap s h := by rw [expireFrameGap_frame]; exact h.of_same rfl rfl rfl rfl rfl
  sendReply s h := by rw [sendReply_frame]; exact h.of_same rfl rfl rfl rfl rfl
  completeFrame c s h := h.completeFrame c
  expireQuietLimit s h := h.expireQuietLimit
  startWrite s h := h.startWrite
  completeWrite s h := h.completeWrite
  startPeriod x s h := h.startPeriod x
  sampleRail i w f s h := h.sampleRail i w f
  changeRail i s h := h.changeRail i
  endGap s h := h.endGap
  startRead s h := h.startRead
  takeEcho e s h := h.takeEcho e
  endEchoLimit s h := h.endEchoLimit
  stepRibbon t s h := by rw [stepRibbon_frame]; exact h.of_same rfl rfl rfl rfl rfl
  visitLine l s h := by rw [visitLine_frame]; exact h.of_same rfl rfl rfl rfl rfl
  openWindow l s h := by rw [openWindow_frame]; exact h.of_same rfl rfl rfl rfl rfl
  expireWindow l s h := by rw [expireWindow_frame]; exact h.of_same rfl rfl rfl rfl rfl
  expireReplyGap l s h := by rw [expireReplyGap_frame]; exact h.of_same rfl rfl rfl rfl rfl
  expireSettling l s h := by rw [expireSettling_frame]; exact h.of_same rfl rfl rfl rfl rfl
  takeReplyChar l c s h := by rw [takeReplyChar_frame]; exact h.of_same rfl rfl rfl rfl rfl
  takeLineFailure l x s h := by rw [takeLineFailure_frame]; exact h.of_same rfl rfl rfl rfl rfl
  completeReply l c s h := by rw [completeReply_frame]; exact h.of_same rfl rfl rfl rfl rfl
  endEmptyRound l s h := by rw [endEmptyRound_frame]; exact h.of_same rfl rfl rfl rfl rfl
  restartAll s h := h.restartAll
  powerOn b s := State.reset_boards.of_same rfl rfl rfl rfl rfl
  withPending _ s h := h.of_same rfl rfl rfl rfl rfl
  nextInterval s h := h.nextInterval

end Sys2Proof.Machine
end

