-- ==== Sys2Proof/Laws/Bytes.lean ====
section
/-! SUPPORT. What the encoding of numbers in bytes gives (R175): lengths, and reading a run of bytes in two parts. -/

namespace Sys2Proof.Machine

/-- A number takes the places it is given. -/
@[simp] theorem beBytes_length (w n : Nat) : (beBytes w n).length = w := by
  induction w with
  | zero => rfl
  | succ w ih => rw [beBytes, List.length_cons, ih]

/-- A run of bytes read as one number, most significant part first. -/
theorem ofBeBytes_append (a b : List Byte) : ofBeBytes (a ++ b) = ofBeBytes a * 256 ^ b.length + ofBeBytes b := by
  unfold ofBeBytes
  rw [List.foldl_append]
  generalize List.foldl _ 0 a = n
  induction b using List.reverseRecOn with
  | nil => simp
  | append_singleton b x ih => simp [ih, pow_succ]; ring

/-- R7, R175: a symbol takes four places. -/
@[simp] theorem symbolBytes_length (sym : Symbol) : (symbolBytes sym).length = 4 := by simp [symbolBytes]

/-- R175: an optional field takes its places, present or absent. -/
theorem orZero_length (w : Nat) (n : Option Nat) : (orZero w n).length = w := beBytes_length w _

end Sys2Proof.Machine
end

