-- ==== Sys2Proof/Laws/Latching.lean ====
section
/-! SUPPORT. The events of the boards, the ribbons and the terminal lines change nothing of the feed link interface but
the latched conditions (R169). -/

namespace Sys2Proof.Machine

/-- From `s` to `t` the feed link interface has changed in its latched conditions at most. -/
def OnlyLatched (s t : State) : Prop := t.feed = { s.feed with latched := t.feed.latched }

theorem OnlyLatched.of_same {s t : State} (h : t.feed = s.feed) : OnlyLatched s t := by
  unfold OnlyLatched
  rw [h]

theorem OnlyLatched.trans {s t u : State} (h : OnlyLatched s t) (k : OnlyLatched t u) : OnlyLatched s u := by
  unfold OnlyLatched at *
  rw [k, h]

theorem OnlyLatched.after {s t u : State} (h : OnlyLatched s t) (k : u.feed = t.feed) : OnlyLatched s u :=
  h.trans (.of_same k)

theorem latch_only (c : Condition) (s : State) : OnlyLatched s (latch c s) := rfl

theorem clearSwitch_only (p : PosIx) (s : State) : OnlyLatched s (clearSwitch p s) := by
  unfold clearSwitch completeSwitch
  dsimp only
  split
  · split
    · exact (OnlyLatched.of_same (by simp)).trans (latch_only _ _)
    · exact .of_same (by simp)
  · exact .of_same rfl

theorem completeWrite_only (s : State) : OnlyLatched s (completeWrite s) := by
  unfold completeWrite recordWrite
  split
  · exact .of_same rfl
  · dsimp only
    split
    · exact (OnlyLatched.of_same (by simp)).trans (clearSwitch_only _ _)
    · exact .of_same rfl

theorem changeRail_only (i : RailIx) (s : State) : OnlyLatched s (changeRail i s) := by
  unfold changeRail
  dsimp only
  split
  · have h := (OnlyLatched.of_same (s := s) (t := setRail i (fun r =>
      { r with state := r.candidate, changeDue := false }) s) (by simp)).trans (latch_only (.railChange i) _)
    exact h.after (foldl_same State.feed (fun s i => railChanged_feed s _ _ _ i) _ _)
  · exact .of_same rfl

theorem applyMismatch_only (p : PosIx) (s : State) : OnlyLatched s (applyMismatch p s) := by
  unfold applyMismatch noteFailed
  dsimp only
  split
  · unfold OnlyLatched; simp
  · exact .of_same (by simp)

theorem takeEcho_only (e : List Byte) (s : State) : OnlyLatched s (takeEcho e s) := by
  unfold takeEcho
  split
  · exact .of_same rfl
  · split
    · refine OnlyLatched.after ?_ (endRead_feed _)
      split
      · exact .of_same rfl
      · split
        · exact .of_same (by simp)
        · exact applyMismatch_only _ _
    · exact .of_same rfl

theorem endEchoLimit_only (s : State) : OnlyLatched s (endEchoLimit s) := by
  unfold endEchoLimit
  split
  · exact .of_same rfl
  · refine OnlyLatched.after ?_ (endRead_feed _)
    split
    · exact .of_same rfl
    · exact applyMismatch_only _ _

theorem select_only (t : AB) (s : State) : OnlyLatched s (select t s).1 := by
  unfold select evaluateTape
  dsimp only
  split
  · exact .of_same (by simp)
  · unfold OnlyLatched; simp

theorem enter_only (t : AB) (x : RibbonState) (k : ItemKind) (c : Byte) (y : Text) (s : State) :
    OnlyLatched s (enter t x k c y s) := by
  unfold enter noteNoticeDone
  split
  · exact (OnlyLatched.of_same (by simp)).trans (latch_only _ _)
  · exact .of_same (by simp)

theorem stepRibbon_only (t : AB) (s : State) : OnlyLatched s (stepRibbon t s) := by
  unfold stepRibbon
  dsimp only
  split
  · exact .of_same rfl
  · split
    · split
      · unfold stepSelect
        have h := select_only t s
        split <;> simp_all only
        · exact h.after (by simp)
        · exact h.trans (enter_only _ _ _ _ _ _)
      · exact enter_only _ _ _ _ _ _
    · exact .of_same rfl
  · split
    · split
      · exact .of_same rfl
      · exact enter_only _ _ _ _ _ _
    · exact .of_same rfl

theorem applyMiss_only (l : LineIx) (v : Visit) (x : MissCause) (s : State) : OnlyLatched s (applyMiss l v x s) := by
  unfold applyMiss
  dsimp only
  split
  · exact .of_same (by simp)
  · split
    · exact (OnlyLatched.of_same (by simp)).trans (latch_only _ _)
    · exact .of_same (by simp)

theorem missAndSettle_only (l : LineIx) (v : Visit) (x : MissCause) (s : State) :
    OnlyLatched s (missAndSettle l v x s) := (applyMiss_only l v x s).after (by simp [missAndSettle])

theorem missAndEnd_only (l : LineIx) (v : Visit) (x : MissCause) (s : State) :
    OnlyLatched s (missAndEnd l v x s) := (applyMiss_only l v x s).after (by simp [missAndEnd])

theorem expireWindow_only (l : LineIx) (s : State) : OnlyLatched s (expireWindow l s) := by
  unfold expireWindow
  (repeat' split) <;> first
    | exact .of_same rfl
    | exact missAndSettle_only _ _ _ _

theorem expireReplyGap_only (l : LineIx) (s : State) : OnlyLatched s (expireReplyGap l s) := by
  unfold expireReplyGap
  (repeat' split) <;> first
    | exact .of_same rfl
    | exact missAndEnd_only _ _ _ _

theorem takeLineFailure_only (l : LineIx) (x : LineFailure) (s : State) :
    OnlyLatched s (takeLineFailure l x s) := by
  unfold takeLineFailure
  (repeat' split) <;> first
    | exact .of_same rfl
    | exact missAndSettle_only _ _ _ _
    | exact .of_same (by simp)

theorem applyReply_only (l : LineIx) (v : Visit) (cs : List Byte) (s : State) :
    OnlyLatched s (applyReply l v cs s) := by
  unfold applyReply notePresence
  dsimp only
  split
  · exact .of_same rfl
  · split
    · exact .of_same (by simp)
    · exact (OnlyLatched.of_same (by simp)).trans (latch_only _ _)

theorem completeReply_only (l : LineIx) (c : Byte) (s : State) : OnlyLatched s (completeReply l c s) := by
  unfold completeReply
  (repeat' split) <;> first
    | exact .of_same rfl
    | exact missAndSettle_only _ _ _ _
    | exact (applyReply_only _ _ _ _).after (endVisit_feed _ _)

end Sys2Proof.Machine
end

