-- ==== Sys2Proof/Laws/InterfaceLaw.lean ====
section
/-! SUPPORT. The law of the feed link interface, operation by operation: the queues within their places (R162, R165),
the counters within 16 bits (R161), the parameters within their ranges (R167). -/

namespace Sys2Proof.Machine

theorem InterfaceLaw.of_same {s t : State} (h : InterfaceLaw s) (hf : t.feed = s.feed)
    (hp : t.params = s.params) : InterfaceLaw t := by
  obtain ⟨⟨a, b, c, d, e⟩, p⟩ := h
  exact ⟨⟨hf ▸ a, hf ▸ b, hf ▸ c, hf ▸ d, hf ▸ e⟩, hp ▸ p⟩

/-- The law looks at no more of the feed link than its two queues and its counters. -/
theorem InterfaceLaw.of_counts {s t : State} (h : InterfaceLaw s) (hp : t.params = s.params)
    (hi : t.feed.inbound.length ≤ s.feed.inbound.length) (hr : t.feed.replies.length ≤ s.feed.replies.length)
    (hc : t.feed.checkCount = s.feed.checkCount) (hg : t.feed.framingCount = s.feed.framingCount)
    (ho : t.feed.overrunCount = s.feed.overrunCount) : InterfaceLaw t := by
  obtain ⟨⟨a, b, c, d, e⟩, p⟩ := h
  exact ⟨⟨hi.trans a, hr.trans b, hc ▸ c, hg ▸ d, ho ▸ e⟩, hp ▸ p⟩

theorem InterfaceLaw.of_latched {s t : State} (h : InterfaceLaw s) (ho : OnlyLatched s t)
    (hp : t.params = s.params) : InterfaceLaw t := by
  unfold OnlyLatched at ho
  refine h.of_counts hp ?_ ?_ ?_ ?_ ?_ <;> rw [ho]

theorem raise16_le (n : Nat) : raise16 n ≤ 65535 := Nat.min_le_right _ _

theorem InterfaceLaw.latch {s : State} (h : InterfaceLaw s) (c : Condition) : InterfaceLaw (latch c s) :=
  h.of_counts rfl le_rfl le_rfl rfl rfl rfl

theorem InterfaceLaw.setReceiver {s : State} (h : InterfaceLaw s) (r : Receiver) :
    InterfaceLaw (setReceiver r s) := h.of_counts rfl le_rfl le_rfl rfl rfl rfl

theorem InterfaceLaw.countFraming {s : State} (h : InterfaceLaw s) : InterfaceLaw (countFraming s) :=
  ⟨⟨h.feed.inbound, h.feed.replies, h.feed.check, raise16_le _, h.feed.overrun⟩, h.params⟩

theorem InterfaceLaw.countCheck {s : State} (h : InterfaceLaw s) : InterfaceLaw (countCheck s) :=
  ⟨⟨h.feed.inbound, h.feed.replies, raise16_le _, h.feed.framing, h.feed.overrun⟩, h.params⟩

theorem InterfaceLaw.setStale {s : State} (h : InterfaceLaw s) (b : Bool) : InterfaceLaw (setStale b s) :=
  h.of_counts (by simp) le_rfl le_rfl rfl rfl rfl

theorem InterfaceLaw.noteIntact {s : State} (h : InterfaceLaw s) : InterfaceLaw (noteIntact s) := by
  have h1 : InterfaceLaw { s with feed := { s.feed with lastIntact := s.time } } :=
    h.of_counts rfl le_rfl le_rfl rfl rfl rfl
  unfold Machine.noteIntact
  dsimp only
  split
  · exact h1.setStale false
  · exact h1

theorem InterfaceLaw.queueFrame {s : State} (h : InterfaceLaw s) (f : Frame) : InterfaceLaw (queueFrame f s) := by
  unfold Machine.queueFrame
  split
  · next hl =>
    refine ⟨⟨?_, h.feed.replies, h.feed.check, h.feed.framing, h.feed.overrun⟩, h.params⟩
    simp only [Config.inboundPlaces] at hl
    simpa using hl
  · exact ⟨⟨h.feed.inbound, h.feed.replies, h.feed.check, h.feed.framing, raise16_le _⟩, h.params⟩

theorem InterfaceLaw.removeHead {s : State} (h : InterfaceLaw s) : InterfaceLaw (removeHead s) :=
  h.of_counts rfl (by simp) le_rfl rfl rfl rfl

theorem InterfaceLaw.restartAll {s : State} (h : InterfaceLaw s) : InterfaceLaw (restartAll s) := by
  have e : (Machine.restartAll s).feed = (restartFeed s).feed := by
    unfold Machine.restartAll
    simp
  exact h.of_counts (by simp) (by rw [e]; simp [restartFeed]) (by rw [e]; simp [restartFeed]) (by rw [e]; rfl)
    (by rw [e]; rfl) (by rw [e]; rfl)

/-! ### A parameter written (R130, R167) -/

/-- R167: the defaults. -/
theorem Params.default_law : ParamsLaw Params.default := by
  constructor
  case blinkPeriod => intro x; cases x <;> decide
  case litPart => intro x; cases x <;> decide
  case stepPeriod => intro x; cases x <;> decide
  case thresholds => intro x; cases x <;> constructor <;> decide
  all_goals decide

theorem inRange_some {lo hi v : Nat} {p q : Params} (h : inRange lo hi v p = some q) : lo ≤ v ∧ v ≤ hi ∧ q = p := by
  unfold inRange at h
  split at h
  · next hv => cases h; exact ⟨hv.1, hv.2, rfl⟩
  · cases h

theorem setThresholds_law {p q : Params} (h : ParamsLaw p) {x : AB} {t : Thresholds}
    (he : setThresholds p x t = some q) : ParamsLaw q := by
  unfold setThresholds at he
  split at he
  · next hf =>
    cases he
    refine { h with thresholds := fun y => ?_ }
    simp only [Pair.get_put]
    split
    · unfold Thresholds.fit at hf
      simp only [Bool.and_eq_true, decide_eq_true_eq] at hf
      obtain ⟨⟨⟨⟨⟨⟨⟨a, b⟩, c⟩, d⟩, e⟩, f⟩, g⟩, i⟩ := hf
      exact ⟨a, b, c, d, e, f, g, i⟩
    · exact h.thresholds y
  · cases he

/-- R167: "it is also refused with RANGE if the value lies outside the parameter's range". -/
theorem Params.write_law {p q : Params} (h : ParamsLaw p) {x : Parameter} {v : Nat}
    (he : p.write x v = some q) : ParamsLaw q := by
  cases x <;> simp only [Params.write] at he
  case quietLimit => obtain ⟨_, hv, rfl⟩ := inRange_some he; exact { h with quietLimit := hv }
  case flashCount => obtain ⟨_, hv, rfl⟩ := inRange_some he; exact { h with flashCount := hv }
  case blinkPeriod y =>
    split at he
    · next hf =>
      cases he
      refine { h with blinkPeriod := fun z => ?_ }
      simp only [Pair.get_put]
      split
      · simp only [blinkPeriodFits, Bool.or_eq_true, beq_iff_eq] at hf
        omega
      · exact h.blinkPeriod z
    · cases he
  case litPart y =>
    obtain ⟨_, hv, rfl⟩ := inRange_some he
    refine { h with litPart := fun z => ?_ }
    simp only [Pair.get_put]
    split
    · exact hv
    · exact h.litPart z
  case settleTime => obtain ⟨hl, hv, rfl⟩ := inRange_some he; exact { h with settleTime := ⟨hl, hv⟩ }
  case sagCeiling => obtain ⟨hl, hv, rfl⟩ := inRange_some he; exact { h with sagCeiling := ⟨hl, hv⟩ }
  case brightness y =>
    obtain ⟨_, hv, rfl⟩ := inRange_some he
    refine { h with brightness := fun z => ?_ }
    have := h.brightness z
    simp only [Vec.set_get]
    split
    · exact hv
    · exact this
  case policy y =>
    split at he
    · cases he; exact { h with }
    · split at he
      · cases he; exact { h with }
      · cases he
  case panelRail y =>
    cases hp : placeOf v 4 <;> simp [hp] at he
    cases he
    exact { h with }
  case verifyEnable => obtain ⟨_, _, rfl⟩ := inRange_some he; exact { h with }
  case verifyGap => obtain ⟨_, hv, rfl⟩ := inRange_some he; exact { h with verifyGap := hv }
  case failThreshold => obtain ⟨hl, hv, rfl⟩ := inRange_some he; exact { h with failThreshold := ⟨hl, hv⟩ }
  case clearThreshold => obtain ⟨hl, hv, rfl⟩ := inRange_some he; exact { h with clearThreshold := ⟨hl, hv⟩ }
  case stepPeriod y =>
    obtain ⟨hl, hv, rfl⟩ := inRange_some he
    refine { h with stepPeriod := fun z => ?_ }
    simp only [Pair.get_put]
    split
    · exact ⟨hl, hv⟩
    · exact h.stepPeriod z
  case ec => exact setThresholds_law h he
  case eb => exact setThresholds_law h he
  case lc => exact setThresholds_law h he
  case lb => exact setThresholds_law h he
  case k => exact setThresholds_law h he
  case replyWindow => obtain ⟨hl, hv, rfl⟩ := inRange_some he; exact { h with replyWindow := ⟨hl, hv⟩ }
  case absentThreshold => obtain ⟨hl, hv, rfl⟩ := inRange_some he; exact { h with absentThreshold := ⟨hl, hv⟩ }
  case probeSpacing => obtain ⟨hl, hv, rfl⟩ := inRange_some he; exact { h with probeSpacing := ⟨hl, hv⟩ }
  case mask => cases he; exact { h with }

theorem InterfaceLaw.applySetParameter {s : State} (h : InterfaceLaw s) (b : List Byte) :
    InterfaceLaw (applySetParameter b s).1 := by
  unfold Machine.applySetParameter
  split
  · exact h
  · split
    · exact h
    · next p hw =>
      have hp := Params.write_law h.params hw
      have h1 : InterfaceLaw { s with params := p } := ⟨⟨h.feed.1, h.feed.2, h.feed.3, h.feed.4, h.feed.5⟩, hp⟩
      exact h1.of_same (by simp) (by simp)

/-! ### Every command -/

/-- The law while a message is being taken: its reply has a free place. -/
def InterfaceLaw.Taking (s : State) : Prop := InterfaceLaw s ∧ s.feed.replies.length < 8

theorem InterfaceLaw.Taking.of_same {s t : State} (h : InterfaceLaw.Taking s) (hf : t.feed = s.feed)
    (hp : t.params = s.params) : InterfaceLaw.Taking t := ⟨h.1.of_same hf hp, hf ▸ h.2⟩

theorem InterfaceLaw.Taking.restart {s : State} (h : InterfaceLaw.Taking s) (b : List Byte) :
    InterfaceLaw.Taking (applyRestart b s).1 := by
  refine ⟨h.1.restartAll, ?_⟩
  simp [applyRestart, Machine.restartAll, restartFeed]

theorem InterfaceLaw.Taking.readStatus {s : State} (h : InterfaceLaw.Taking s) (b : List Byte) :
    InterfaceLaw.Taking (applyReadStatus b s).1 := by
  have hc : InterfaceLaw.Taking (clearCounters s) :=
    ⟨⟨⟨h.1.feed.inbound, h.1.feed.replies, Nat.zero_le _, Nat.zero_le _, Nat.zero_le _⟩, h.1.params⟩, h.2⟩
  unfold applyReadStatus
  (repeat' split) <;> first
    | exact h
    | exact hc
    | (dsimp only; split; exacts [hc, h])
    | exact h.of_same (by dsimp only; split <;> rfl) (by dsimp only; split <;> rfl)

theorem InterfaceLaw.Taking.setParameter {s : State} (h : InterfaceLaw.Taking s) (b : List Byte) :
    InterfaceLaw.Taking (Machine.applySetParameter b s).1 :=
  ⟨h.1.applySetParameter b, by rw [applySetParameter_frame]; exact h.2⟩

/-- Every command keeps the law. -/
theorem interface_kept : KeptByCommands InterfaceLaw InterfaceLaw.Taking where
  remove _ h hl := ⟨h.removeHead, hl⟩
  place _ _ _ s h := ⟨⟨h.1.feed.inbound, by simpa using h.2, h.1.feed.check, h.1.feed.framing,
    h.1.feed.overrun⟩, h.1.params⟩
  list b s h := by rw [applyList_frame]; exact h.of_same rfl rfl
  delist b s h := by rw [applyDelist_frame]; exact h.of_same rfl rfl
  queryRecord b s h := by rw [applyQueryRecord_frame]; exact h
  sessionOpen b s h := by rw [applySessionOpen_frame]; exact h.of_same rfl rfl
  sessionClose b s h := by rw [applySessionClose_frame]; exact h.of_same rfl rfl
  dayRoll b s h := by rw [applyDayRoll_frame]; exact h.of_same rfl rfl
  tableClear b s h := by rw [applyTableClear_frame]; exact h.of_same rfl rfl
  trade b s h := by rw [applyTrade_frame]; exact h.of_same rfl rfl
  quote b s h := by rw [applyQuote_frame]; exact h.of_same rfl rfl
  halt b s h := by rw [applyHalt_frame]; exact h.of_same rfl rfl
  resume b s h := by rw [applyResume_frame]; exact h.of_same rfl rfl
  loadEntry b s h := by rw [applyLoadEntry_frame]; exact h.of_same rfl rfl
  unloadEntry b s h := by rw [applyUnloadEntry_frame]; exact h.of_same rfl rfl
  definePage b s h := by rw [applyDefinePage_frame]; exact h.of_same rfl rfl
  undefinePage b s h := by rw [applyUndefinePage_frame]; exact h.of_same rfl rfl
  showPage b s h := by rw [applyShowPage_frame]; exact h.of_same rfl rfl
  restorePanel b s h := by rw [applyRestorePanel_frame]; exact h.of_same rfl rfl
  clearFaults b s h := by rw [applyClearFaults_frame]; exact h.of_same rfl rfl
  tapeStart b s h := by rw [applyTapeStart_frame]; exact h.of_same rfl rfl
  tapeStop b s h := by rw [applyTapeStop_frame]; exact h.of_same rfl rfl
  tapeClear b s h := by rw [applyTapeClear_frame]; exact h.of_same rfl rfl
  notice b s h := by rw [applyNotice_frame]; exact h.of_same rfl rfl
  terminalEnable b s h := by rw [applyTerminalEnable_frame]; exact h.of_same rfl rfl
  setParameter b s h := h.setParameter b
  readParameter b s h := by rw [applyReadParameter_frame]; exact h
  readStatus b s h := h.readStatus b
  clearConditions b s h := ⟨h.1.of_counts rfl le_rfl le_rfl rfl rfl rfl, h.2⟩
  restart b s h := h.restart b
  takeFeedChar c s h := by
    unfold Machine.takeFeedChar; (repeat' split) <;> first | exact h | exact h.setReceiver _
  takeFeedFailure x s h := by
    unfold Machine.takeFeedFailure; (repeat' split) <;> first | exact h | exact h.countFraming
  expireFrameGap s h := by
    unfold Machine.expireFrameGap; (repeat' split) <;> first | exact h | exact h.countFraming
  sendReply s h := h.of_counts rfl le_rfl (by simp [Machine.sendReply]) rfl rfl rfl
  completeFrame c s h := by
    unfold Machine.completeFrame; (repeat' split) <;> first
      | exact h
      | exact ((h.setReceiver _).noteIntact).queueFrame _
      | exact (h.setReceiver _).countCheck
  expireQuietLimit s h := by unfold Machine.expireQuietLimit; split; exacts [h.setStale true, h]
  startWrite s h := by rw [startWrite_frame]; exact h.of_same rfl rfl
  completeWrite s h := h.of_latched (completeWrite_only s) (by rw [completeWrite_frame])
  startPeriod x s h := by rw [startPeriod_frame]; exact h.of_same rfl rfl
  sampleRail i w f s h := by rw [sampleRail_frame]; exact h.of_same rfl rfl
  changeRail i s h := h.of_latched (changeRail_only _ s) (by rw [changeRail_frame])
  endGap s h := by rw [endGap_frame]; exact h.of_same rfl rfl
  startRead s h := by rw [startRead_frame]; exact h.of_same rfl rfl
  takeEcho e s h := h.of_latched (takeEcho_only _ s) (by rw [takeEcho_frame])
  endEchoLimit s h := h.of_latched (endEchoLimit_only s) (by rw [endEchoLimit_frame])
  stepRibbon t s h := h.of_latched (stepRibbon_only _ s) (by rw [stepRibbon_frame])
  visitLine l s h := by rw [visitLine_frame]; exact h.of_same rfl rfl
  openWindow l s h := by rw [openWindow_frame]; exact h.of_same rfl rfl
  expireWindow l s h := h.of_latched (expireWindow_only _ s) (by rw [expireWindow_frame])
  expireReplyGap l s h := h.of_latched (expireReplyGap_only _ s) (by rw [expireReplyGap_frame])
  expireSettling l s h := by rw [expireSettling_frame]; exact h.of_same rfl rfl
  takeReplyChar l c s h := by rw [takeReplyChar_frame]; exact h.of_same rfl rfl
  takeLineFailure l x s h := h.of_latched (takeLineFailure_only _ _ s) (by rw [takeLineFailure_frame])
  completeReply l c s h := h.of_latched (completeReply_only _ _ s) (by rw [completeReply_frame])
  endEmptyRound l s h := by rw [endEmptyRound_frame]; exact h.of_same rfl rfl
  restartAll s h := h.restartAll
  powerOn b s := ⟨⟨Nat.zero_le _, Nat.zero_le _, Nat.zero_le _, Nat.zero_le _, Nat.zero_le _⟩, Params.default_law⟩
  withPending _ s h := h.of_same rfl rfl
  nextInterval s h := h.of_same (by simp) (by simp)

/-- The law of the feed link interface holds at reset. -/
theorem State.reset_interface : InterfaceLaw State.reset := by
  have ht : ThresholdsLaw ⟨40, 120, 20, 80, 8⟩ := by constructor <;> decide
  refine ⟨by constructor <;> decide, ⟨by decide, by decide, fun x => ?_, fun x => ?_, by decide, by decide, by decide,
    by decide, by decide, by decide, fun x => ?_, fun x => ?_, by decide, by decide, by decide⟩⟩ <;> cases x
  · decide
  · decide
  · decide
  · decide
  · decide
  · decide
  · exact ht
  · exact ht

end Sys2Proof.Machine
end

