-- ==== Sys2Proof/Laws/Ops.lean ====
section
/-! SUPPORT. What the shared operations do, once each: the taking of a message and its refusal, the marks of positions
and of watch entries. -/

namespace Sys2Proof.Machine

/-! ### Messages -/

/-- R164: what a command that takes a message answers, the message being of its kind and of a length that suits it. -/
theorem message_next {k : Kind} {f : Frame} {s : State} (apply : List Byte → State → State × Answer)
    (h : CanTakeHead k f s) (hl : k.lengthFits f.body.length = true) :
    powered (takeMessage k apply) s
      = .next (placeReply f.kind f.tag (apply f.body (removeHead s)).2 (apply f.body (removeHead s)).1) := by
  rw [powered_eq h.powered, takeMessage_eq apply h hl]

/-- R41, R164: what it answers where the owner refuses the message. -/
theorem message_refused {k : Kind} {f : Frame} {s : State} (apply : List Byte → State → State × Answer)
    (h : CanTakeHead k f s) (hl : k.lengthFits f.body.length = true) {status : Status}
    (ha : apply f.body (removeHead s) = refuse status (removeHead s)) :
    powered (takeMessage k apply) s = .next (turnedAway f status s) := by
  rw [message_next apply h hl, ha]
  rfl

/-- R164: what it answers where the owner accepts the message. -/
theorem message_accepted {k : Kind} {f : Frame} {s : State} (apply : List Byte → State → State × Answer)
    (h : CanTakeHead k f s) (hl : k.lengthFits f.body.length = true) {z : State} {a : Answer}
    (ha : apply f.body (removeHead s) = (z, a)) :
    powered (takeMessage k apply) s = .next (placeReply f.kind f.tag a z) := by
  rw [message_next apply h hl, ha]

/-! ### Marks of positions -/

/-- R75: the queue after marks of distinct positions. -/
theorem appendMarks_eq (live : PosIx → Bool) (ps queue : List PosIx) (h : ps.Nodup) :
    appendMarks live queue ps = queue ++ ps.filter (fun p => live p && !queue.contains p) := by
  induction ps generalizing queue with
  | nil => simp [appendMarks]
  | cons x rest ih =>
    rw [List.nodup_cons] at h
    rw [appendMarks, ih _ h.2]
    by_cases hx : (live x && !queue.contains x) = true
    · rw [if_pos hx, List.filter_cons_of_pos (by simpa using hx), List.append_assoc, List.singleton_append]
      congr 2
      apply List.filter_congr
      intro p hp
      have hne : p ≠ x := fun he => h.1 (he ▸ hp)
      simp [hne]
    · rw [if_neg hx, List.filter_cons_of_neg (by simpa using hx)]

/-- R75, R101: what a run of marks does. -/
theorem mark_marked (ps : List PosIx) (s : State) (h : ps.Pairwise (· < ·)) :
    Marked s (fun p => p ∈ ps) (mark ps s) where
  queue := by
    refine ⟨_, appendMarks_eq _ ps _ (h.imp (fun hlt => Fin.ne_of_lt hlt)), h.filter _, fun p => ?_⟩
    simp [List.mem_filter, panelLive_iff]
  overtaken := by
    show (s.verifier.overtaken || marksOvertake s ps) = true ↔ _
    rw [Bool.or_eq_true]
    apply or_congr Iff.rfl
    unfold marksOvertake
    split
    · next ht => simp [ht]
    · next t ht => simp [ht, panelLive_iff, and_assoc]

/-- The positions may be picked out in other words. -/
theorem Marked.congr {s u : State} {P Q : PosIx → Prop} (h : Marked s P u) (hpq : ∀ p, P p ↔ Q p) : Marked s Q u := by
  have he : P = Q := funext (fun p => propext (hpq p))
  exact he ▸ h

/-- What the marks find is the panel states, the repaint queue, the target and the overtaken indication. -/
theorem Marked.base {s z u : State} {P : PosIx → Prop} (h : Marked s P u) (hp : z.panels = s.panels)
    (hq : z.boards.repaint = s.boards.repaint) (ht : z.verifier.target = s.verifier.target)
    (ho : z.verifier.overtaken = s.verifier.overtaken) : Marked z P u where
  queue := by rw [hq, hp]; exact h.queue
  overtaken := by rw [hq, hp, ht, ho]; exact h.overtaken

/-- The marks give the repaint queue and the overtaken indication. -/
theorem Marked.result {s u w : State} {P : PosIx → Prop} (h : Marked s P u) (hq : w.boards.repaint = u.boards.repaint)
    (ho : w.verifier.overtaken = u.verifier.overtaken) : Marked s P w where
  queue := by rw [hq]; exact h.queue
  overtaken := by rw [ho]; exact h.overtaken

/-! ### Marks of watch entries -/

/-- R150: the marks of distinct entries on a terminal that takes marks. -/
theorem Terminal.markAll_eq {t : Terminal} (ht : t.takesMarks = true) (syms : List Symbol) (h : syms.Nodup) :
    t.markAll syms = { t with dirty := t.dirty ++ syms.filter (fun sym => sym ∉ t.dirty) } := by
  induction syms generalizing t with
  | nil => simp [Terminal.markAll]
  | cons x rest ih =>
    rw [List.nodup_cons] at h
    have hm : t.mark x = { t with dirty := if x ∈ t.dirty then t.dirty else t.dirty ++ [x] } := by
      unfold Terminal.mark
      by_cases hx : x ∈ t.dirty <;> simp [ht, hx]
    show (t.mark x).markAll rest = _
    rw [ih (by rw [hm]; exact ht) h.2, hm]
    by_cases hx : x ∈ t.dirty
    · simp [hx]
    · simp only [hx, if_false, not_false_eq_true, decide_true, List.filter_cons_of_pos, List.append_assoc,
        List.singleton_append]
      congr 3
      apply List.filter_congr
      intro p hp
      have hne : p ≠ x := fun he => h.1 (he ▸ hp)
      simp [hne]

/-- R150: the marks of any entries on a terminal that takes marks: what is appended, each once. -/
theorem Terminal.markAll_added {t : Terminal} (ht : t.takesMarks = true) (syms : List Symbol) :
    ∃ added, t.markAll syms = { t with dirty := t.dirty ++ added } ∧ added.Sublist syms ∧
      ∀ sym, sym ∈ added ↔ sym ∈ syms ∧ sym ∉ t.dirty := by
  induction syms generalizing t with
  | nil => exact ⟨[], by simp [Terminal.markAll], List.Sublist.refl _, by simp⟩
  | cons x rest ih =>
    have hm : t.mark x = { t with dirty := if x ∈ t.dirty then t.dirty else t.dirty ++ [x] } := by
      unfold Terminal.mark
      by_cases hx : x ∈ t.dirty <;> simp [ht, hx]
    obtain ⟨added, he, hs, hi⟩ := ih (t := t.mark x) (by rw [hm]; exact ht)
    have hd : t.markAll (x :: rest) = (t.mark x).markAll rest := rfl
    rw [hm] at he hi
    by_cases hx : x ∈ t.dirty
    · simp only [hx, if_true] at he hi
      refine ⟨added, by rw [hd, hm]; simpa [hx] using he, hs.cons _, fun sym => ?_⟩
      rw [hi]
      constructor
      · exact fun h => ⟨List.mem_cons_of_mem _ h.1, h.2⟩
      · rintro ⟨h, hn⟩
        rcases List.mem_cons.mp h with rfl | h
        · exact absurd hx hn
        · exact ⟨h, hn⟩
    · simp only [hx, if_false] at he hi
      refine ⟨x :: added, by rw [hd, hm]; simpa [hx] using he, hs.cons_cons _, fun sym => ?_⟩
      rw [List.mem_cons, hi, List.mem_cons]
      by_cases hsx : sym = x
      · subst hsx; simp [hx]
      · simp [hsx]

/-- R150: the marks of a terminal that takes none. -/
theorem Terminal.markAll_away {t : Terminal} (ht : t.takesMarks = false) (syms : List Symbol) :
    t.markAll syms = t := by
  induction syms with
  | nil => rfl
  | cons x rest ih =>
    have hm : t.mark x = t := by simp [Terminal.mark, ht]
    show (t.mark x).markAll rest = t
    rw [hm, ih]

end Sys2Proof.Machine
end

