-- ==== Sys2Proof/Laws/PagesLaw.lean ====
section
/-! SUPPORT. The laws of the pages and of what each position shows (R65, R68), operation by operation. -/

namespace Sys2Proof.Machine

/-! ### What the law reads of a layout entry -/

/-- The panel and the position that an entry names, where it is LOADED. -/
def placeView (o : Option Entry) : Option (PanelIx × Fin 64) := o.map (fun e => (e.panel, e.position))

theorem findSome_congr {α β : Type} {f g : α → Option β} {l : List α} (h : ∀ k ∈ l, f k = g k) :
    l.findSome? f = l.findSome? g := by
  induction l with
  | nil => rfl
  | cons k rest ih =>
    rw [List.findSome?_cons, List.findSome?_cons, ih (fun k hk => h k (List.mem_cons_of_mem _ hk)),
      h k (List.mem_cons_self ..)]

theorem entryShownBy_congr {s t : State} {page : Page} {position : Fin 64}
    (h : ∀ k i, k < page.count → placeOf (page.first + k) 2048 = some i →
      placeView t.entries[i] = placeView s.entries[i]) :
    entryShownBy t page position = entryShownBy s page position := by
  unfold entryShownBy
  refine findSome_congr (fun k hk => ?_)
  cases hi : placeOf (page.first + k) 2048 with
  | none => rfl
  | some i =>
    have := h k i (List.mem_range.mp hk) hi
    unfold placeView at this
    dsimp only
    cases ht : t.entries[i] with
    | none =>
      cases hs : s.entries[i] with
      | none => rfl
      | some y => rw [ht, hs] at this; cases this
    | some x =>
      cases hs : s.entries[i] with
      | none => rw [ht, hs] at this; cases this
      | some y =>
        rw [ht, hs] at this
        have hp : x.position = y.position := congrArg (fun o => (o.map (·.2)).getD 0) this
        dsimp only
        rw [hp]

/-- `namesPanel` on what the law reads. -/
def viewOn (panel : PanelIx) : Option (PanelIx × Fin 64) → Bool
  | none => false
  | some v => v.1 == panel

theorem pageQualifies_congr {s t : State} {panel : PanelIx} {first count : Nat}
    (h : ∀ k i, k < count → placeOf (first + k) 2048 = some i → placeView t.entries[i] = placeView s.entries[i]) :
    pageQualifies t panel first count = pageQualifies s panel first count := by
  have hv : (rangeEntries t first count).map placeView = (rangeEntries s first count).map placeView := by
    unfold rangeEntries
    rw [List.map_map, List.map_map]
    apply List.map_congr_left
    intro k hk
    dsimp only [Function.comp]
    cases hi : placeOf (first + k) 2048 with
    | none => rfl
    | some i => exact h k i (List.mem_range.mp hk) hi
  have ha : ∀ l : List (Option Entry), l.all (namesPanel panel) = (l.map placeView).all (viewOn panel) := by
    intro l
    rw [List.all_map]
    congr 1
    funext e
    cases e <;> rfl
  have hf : ∀ l : List (Option Entry), l.filterMap (fun e => e.map (·.position))
      = (l.map placeView).filterMap (fun v => v.map (·.2)) := by
    intro l
    rw [List.filterMap_map]
    congr 1
    funext e
    cases e <;> rfl
  unfold pageQualifies
  dsimp only
  rw [ha, ha, hf, hf, hv]

/-- What a position shows, from the current page of its panel and the pages. -/
theorem shownBy_congr {s t : State} {p : PosIx}
    (hc : (t.panels[panelOf p]).current = (s.panels[panelOf p]).current)
    (hp : ∀ n, (s.panels[panelOf p]).current = some n → t.pages[n] = s.pages[n])
    (he : ∀ (n : PageIx) page, (s.panels[panelOf p]).current = some n → s.pages[n] = some page →
      entryShownBy t page (positionIn p) = entryShownBy s page (positionIn p)) : shownBy t p = shownBy s p := by
  unfold shownBy
  rw [hc]
  cases hn : (s.panels[panelOf p]).current with
  | none => rfl
  | some n =>
    dsimp only
    rw [hp n hn]
    cases hg : s.pages[n] with
    | none => rfl
    | some page => exact he n page hn hg

variable {s : State}

/-- The entries in the ranges of the defined pages name what they named; the shown entries are kept or follow the
current page. -/
theorem PagesLaw.of_ranges {t : State} (h : PagesLaw s)
    (he : ∀ (n : PageIx) page, s.pages[n] = some page → ∀ k i, k < page.count →
      placeOf (page.first + k) 2048 = some i → placeView t.entries[i] = placeView s.entries[i])
    (hp : t.pages = s.pages) (hc : ∀ p : PanelIx, (t.panels[p]).current = (s.panels[p]).current)
    (hs : ∀ p : PosIx, (t.boards.positions[p]).shown = (s.boards.positions[p]).shown
      ∨ (t.boards.positions[p]).shown = shownBy t p) : PagesLaw t := by
  have hshown : ∀ p, shownBy t p = shownBy s p := by
    intro p
    exact shownBy_congr (hc _) (by rw [hp]; exact fun _ _ => rfl)
      (fun n page _ hn => entryShownBy_congr (he n page hn))
  refine ⟨?_, ?_, ?_⟩
  · intro n page hn
    rw [hp] at hn
    obtain ⟨h1, h2, h3⟩ := h.defined n page hn
    refine ⟨h1, h2, ?_⟩
    rw [pageQualifies_congr (he n page hn)]
    exact h3
  · intro p n hn
    rw [hc] at hn
    rw [hp]
    exact h.current p n hn
  · intro p
    rcases hs p with e | e
    · rw [e, hshown]; exact h.shown p
    · exact e

theorem PagesLaw.of_views {t : State} (h : PagesLaw s)
    (he : ∀ k : EntryIx, placeView t.entries[k] = placeView s.entries[k])
    (hp : t.pages = s.pages) (hc : ∀ p : PanelIx, (t.panels[p]).current = (s.panels[p]).current)
    (hs : ∀ p : PosIx, (t.boards.positions[p]).shown = (s.boards.positions[p]).shown
      ∨ (t.boards.positions[p]).shown = shownBy t p) : PagesLaw t :=
  h.of_ranges (fun _ _ _ _ i _ _ => he i) hp hc hs

theorem PagesLaw.of_positions {t : State} (h : PagesLaw s) (he : t.entries = s.entries) (hp : t.pages = s.pages)
    (hc : ∀ p : PanelIx, (t.panels[p]).current = (s.panels[p]).current)
    (hs : ∀ p : PosIx, (t.boards.positions[p]).shown = (s.boards.positions[p]).shown) : PagesLaw t :=
  h.of_views (by rw [he]; exact fun _ => rfl) hp hc (fun p => .inl (hs p))

theorem PagesLaw.of_same {t : State} (h : PagesLaw s) (he : t.entries = s.entries) (hp : t.pages = s.pages)
    (hc : t.panels = s.panels) (hb : t.boards = s.boards) : PagesLaw t :=
  h.of_positions he hp (by rw [hc]; exact fun _ => rfl) (by rw [hb]; exact fun _ => rfl)

theorem PagesLaw.mark (h : PagesLaw s) (ps : List PosIx) : PagesLaw (mark ps s) :=
  h.of_positions rfl rfl (fun _ => rfl) (fun _ => rfl)

theorem PagesLaw.onPositions (h : PagesLaw s) {f : PosIx → Position → Position} (hf : ∀ p x, (f p x).shown = x.shown) :
    PagesLaw (onPositions f s) :=
  h.of_positions rfl rfl (fun _ => rfl)
    (fun p => (congrArg Position.shown (Vec.mapIx_get f s.boards.positions p)).trans (hf p _))

theorem PagesLaw.setPosition (h : PagesLaw s) {p : PosIx} {f : Position → Position} (hf : ∀ x, (f x).shown = x.shown) :
    PagesLaw (setPosition p f s) := by
  refine h.of_positions rfl rfl (fun _ => rfl) (fun q => ?_)
  refine (congrArg Position.shown (Vec.update_get s.boards.positions p q f)).trans ?_
  split
  · exact hf _
  · rfl

theorem PagesLaw.setPanel (h : PagesLaw s) {p : PanelIx} {f : Panel → Panel} (hf : ∀ x, (f x).current = x.current) :
    PagesLaw (setPanel p f s) := by
  refine h.of_positions rfl rfl (fun q => ?_) (fun _ => rfl)
  refine (congrArg Panel.current (Vec.update_get s.panels p q f)).trans ?_
  split
  · exact hf _
  · rfl

/-! ### Notices -/

theorem PagesLaw.of_table (h : PagesLaw s) (w : SessionPhase) (x : Vector (Option Record) 2048)
    (y : List (Symbol × SlotIx)) : PagesLaw { s with phase := w, records := x, directory := y } :=
  h.of_same rfl rfl rfl rfl

theorem PagesLaw.boardNotice (h : PagesLaw s) (i : SlotIx) (g : List Group) (m : Bool) :
    PagesLaw (boardNotice i g m s) := by
  unfold Machine.boardNotice startFlash
  dsimp only
  cases m
  · exact h.mark _
  · refine PagesLaw.mark (h.onPositions (fun p x => ?_)) _
    split
    · rfl
    · split <;> rfl

theorem PagesLaw.changeNotice (h : PagesLaw s) (i : SlotIx) (g : List Group) (m : Bool) :
    PagesLaw (changeNotice i g m s) := (h.boardNotice i g m).of_same rfl rfl rfl rfl

theorem PagesLaw.changeNotices (h : PagesLaw s) (is : List SlotIx) (g : List Group) :
    PagesLaw (changeNotices is g s) :=
  foldl_keeps (P := PagesLaw) (fun _ i hs => PagesLaw.changeNotice hs i g false) is s h

/-- The entries changed in their bindings alone. -/
theorem PagesLaw.mapEntries (h : PagesLaw s) {f : Entry → Entry}
    (hf : ∀ e, (f e).panel = e.panel ∧ (f e).position = e.position) :
    PagesLaw { s with entries := Vec.mapIx (fun _ e => e.map f) s.entries } := by
  refine h.of_views (fun k => ?_) rfl (fun _ => rfl) (fun _ => .inl rfl)
  dsimp only
  rw [Vec.mapIx_get]
  unfold placeView
  rw [Option.map_map]
  congr 1
  funext e
  exact Prod.ext (hf e).1 (hf e).2

theorem PagesLaw.dropAll (h : PagesLaw s) (hit : SlotIx → Bool) :
    PagesLaw (onTerminals (Terminal.dropEntries hit) (unbindEntries hit s)) := by
  refine PagesLaw.of_same (s := unbindEntries hit s) ?_ rfl rfl rfl rfl
  unfold unbindEntries
  refine PagesLaw.mark (h.mapEntries (fun e => ?_)) _
  have key : ∀ c : Prop, ∀ _ : Decidable c, (if c then { e with binding := none } else e).panel = e.panel
      ∧ (if c then { e with binding := none } else e).position = e.position := by
    intro c _
    by_cases hc : c
    · rw [if_pos hc]; exact ⟨rfl, rfl⟩
    · rw [if_neg hc]; exact ⟨rfl, rfl⟩
  exact key _ _

theorem PagesLaw.bindEntries (h : PagesLaw s) (sym : Symbol) (i : SlotIx) : PagesLaw (bindEntries sym i s) := by
  refine h.mapEntries (fun e => ?_)
  split <;> exact ⟨rfl, rfl⟩

/-! ### Commands of the record table -/

theorem PagesLaw.applyList (h : PagesLaw s) (b : List Byte) : PagesLaw (applyList b s).1 := by
  unfold Machine.applyList Machine.listAt
  dsimp only
  (repeat' split) <;> first
    | exact h
    | exact PagesLaw.changeNotice (PagesLaw.bindEntries (h.of_table _ _ _) _ _) _ _ _

theorem PagesLaw.applyDelist (h : PagesLaw s) (b : List Byte) : PagesLaw (applyDelist b s).1 := by
  unfold Machine.applyDelist Machine.delistAt Machine.retire
  (repeat' split) <;> first
    | exact h
    | exact (h.dropAll _).of_same rfl rfl rfl rfl

theorem PagesLaw.applySessionClose (h : PagesLaw s) (b : List Byte) : PagesLaw (applySessionClose b s).1 := by
  unfold Machine.applySessionClose Machine.closeSession
  split
  · exact PagesLaw.changeNotices (h.of_table _ _ _) _ _
  · exact h

theorem PagesLaw.applyDayRoll (h : PagesLaw s) (b : List Byte) : PagesLaw (applyDayRoll b s).1 := by
  unfold Machine.applyDayRoll Machine.rollDay
  (repeat' split) <;> first
    | exact h
    | exact PagesLaw.changeNotices (h.of_table _ _ _) _ _

theorem PagesLaw.applyTableClear (h : PagesLaw s) (b : List Byte) : PagesLaw (applyTableClear b s).1 := by
  unfold Machine.applyTableClear Machine.clearTable Machine.freeAll
  split
  · exact h
  · have h1 : PagesLaw (Machine.withdrawAll .b (Machine.withdrawAll .a s)) :=
      h.of_same (by simp) (by simp) (by simp) (by simp)
    exact (h1.dropAll (fun _ => true)).of_same rfl rfl rfl rfl

theorem PagesLaw.applyTrade (h : PagesLaw s) (b : List Byte) : PagesLaw (applyTrade b s).1 := by
  unfold Machine.applyTrade Machine.postTrade
  dsimp only
  (repeat' split) <;> first
    | exact h
    | exact PagesLaw.of_same (PagesLaw.changeNotice (h.of_table _ _ _) _ _ _) (tradeNotice_entries ..)
        (tradeNotice_pages ..) (tradeNotice_panels ..) (tradeNotice_boards ..)

theorem PagesLaw.applyQuote (h : PagesLaw s) (b : List Byte) : PagesLaw (applyQuote b s).1 := by
  unfold Machine.applyQuote Machine.postQuote
  dsimp only
  (repeat' split) <;> first
    | exact h
    | exact PagesLaw.changeNotice (h.of_table _ _ _) _ _ _

theorem PagesLaw.applyHalt (h : PagesLaw s) (b : List Byte) : PagesLaw (applyHalt b s).1 := by
  unfold Machine.applyHalt Machine.postState
  (repeat' split) <;> first
    | exact h
    | exact PagesLaw.changeNotice (h.of_table _ _ _) _ _ _

theorem PagesLaw.applyResume (h : PagesLaw s) (b : List Byte) : PagesLaw (applyResume b s).1 := by
  unfold Machine.applyResume Machine.postState
  dsimp only
  (repeat' split) <;> first
    | exact h
    | exact PagesLaw.changeNotice (h.of_table _ _ _) _ _ _

/-! ### The layout store -/

/-- R65: an index in the range of a defined page. -/
theorem inDefinedPage_of {n : PageIx} {page : Page} (hn : s.pages[n] = some page) {k : Nat} (hk : k < page.count) :
    inDefinedPage s (page.first + k) = true := by
  unfold inDefinedPage
  rw [List.any_eq_true]
  refine ⟨some page, ?_, ?_⟩
  · rw [← hn]
    exact Vector.mem_toList_iff.mpr (Vector.getElem_mem ..)
  · unfold Page.holds
    simp only [Bool.and_eq_true, decide_eq_true_eq]
    omega

/-- One entry replaced, at an index in no defined page or by one that names the same panel and position. -/
theorem PagesLaw.setEntry (h : PagesLaw s) {index : EntryIx} {o : Option Entry}
    (ho : inDefinedPage s index.val = false ∨ placeView o = placeView s.entries[index]) :
    PagesLaw { s with entries := s.entries.set index o } := by
  refine h.of_ranges (fun n page hn k i hk hi => ?_) rfl (fun _ => rfl) (fun _ => .inl rfl)
  dsimp only
  rw [Vec.set_get]
  split
  · next e =>
    subst e
    rcases ho with ho | ho
    · have := inDefinedPage_of hn hk
      rw [← placeOf_eq_some hi, ho] at this
      cases this
    · exact ho
  · rfl

theorem PagesLaw.applyLoadEntry (h : PagesLaw s) (b : List Byte) : PagesLaw (applyLoadEntry b s).1 := by
  unfold Machine.applyLoadEntry Machine.loadAt
  dsimp only
  split
  · exact h
  · split
    · split
      · exact h
      · split
        · next hfit =>
          refine PagesLaw.mark (h.setEntry ?_) _
          unfold loadFits at hfit
          rw [Bool.or_eq_true] at hfit
          rcases hfit with hf | hf
          · exact .inl (by simpa using hf)
          · right
            split at hf
            · cases hf
            · next e he =>
              rw [he]
              simp only [Bool.and_eq_true, beq_iff_eq] at hf
              simp [placeView, hf.1, hf.2]
        · exact h
    · exact h

theorem PagesLaw.applyUnloadEntry (h : PagesLaw s) (b : List Byte) : PagesLaw (applyUnloadEntry b s).1 := by
  unfold Machine.applyUnloadEntry
  split
  · exact h
  · split
    · exact h
    · next hn => exact h.setEntry (.inl (by simpa using hn))

/-- R66, R67: a page that is shown on no panel replaced. -/
theorem PagesLaw.setPage (h : PagesLaw s) {n : PageIx} {o : Option Page} (hn : pageShown s n = false)
    (ho : ∀ page, o = some page →
      1 ≤ page.count ∧ page.count ≤ 64 ∧ pageQualifies s page.panel page.first page.count = true) :
    PagesLaw { s with pages := s.pages.set n o } := by
  have hcur : ∀ p : PanelIx, (s.panels[p]).current ≠ some n := by
    intro p hp
    unfold pageShown at hn
    rw [List.any_eq_false] at hn
    have := hn (s.panels[p]) (Vector.mem_toList_iff.mpr (Vector.getElem_mem ..))
    rw [hp] at this
    simp at this
  have hpg : ∀ p : PanelIx, ∀ m, (s.panels[p]).current = some m → (s.pages.set n o)[m] = s.pages[m] := by
    intro p m hm
    rw [Vec.set_get, if_neg]
    rintro rfl
    exact hcur p hm
  refine ⟨?_, ?_, ?_⟩
  · intro m page hm
    dsimp only at hm
    rw [Vec.set_get] at hm
    split at hm
    · exact ho page hm
    · exact h.defined m page hm
  · intro p m hm
    obtain ⟨page, h1, h2⟩ := h.current p m hm
    exact ⟨page, (hpg p m hm).trans h1, h2⟩
  · intro p
    exact (h.shown p).trans (shownBy_congr (s := s) (t := { s with pages := s.pages.set n o }) rfl (fun m hm => hpg _ m hm)
      (fun _ _ _ _ => rfl)).symm

theorem PagesLaw.applyDefinePage (h : PagesLaw s) (b : List Byte) : PagesLaw (applyDefinePage b s).1 := by
  unfold Machine.applyDefinePage
  dsimp only
  split
  · split
    · exact h
    · next hr =>
      split
      · exact h
      · next hn =>
        split
        · next hq =>
          refine h.setPage (by simpa using hn) ?_
          rintro page hp
          cases hp
          simp only [not_or, Nat.not_lt] at hr
          exact ⟨hr.2.1, hr.2.2, hq⟩
        · exact h
  · exact h

theorem PagesLaw.applyUndefinePage (h : PagesLaw s) (b : List Byte) : PagesLaw (applyUndefinePage b s).1 := by
  unfold Machine.applyUndefinePage
  split
  · exact h
  · split
    · exact h
    · next hn => exact h.setPage (by simpa using hn) (fun page hp => by cases hp)

/-- R68: the panels chosen show what their current pages give, the others what they showed. -/
theorem PagesLaw.reshown {s : State} {c : PanelIx → Bool}
    (hd : ∀ (n : PageIx) page, s.pages[n] = some page →
      1 ≤ page.count ∧ page.count ≤ 64 ∧ pageQualifies s page.panel page.first page.count = true)
    (hc : ∀ (panel : PanelIx) n, (s.panels[panel]).current = some n → ∃ page, s.pages[n] = some page ∧ page.panel = panel)
    (hs : ∀ p : PosIx, c (panelOf p) = false → (s.boards.positions[p]).shown = shownBy s p) :
    PagesLaw (reshow c s) := by
  refine ⟨hd, hc, fun p => ?_⟩
  have : (reshow c s).boards.positions[p] = if c (panelOf p) then
      { s.boards.positions[p] with shown := shownBy s p, switchPending := true, flash := 0 }
      else s.boards.positions[p] := Vec.mapIx_get _ _ _
  rw [this]
  split
  · rfl
  · next hn => exact hs p (by simpa using hn)

theorem PagesLaw.reshow (h : PagesLaw s) (c : PanelIx → Bool) : PagesLaw (reshow c s) :=
  PagesLaw.reshown h.defined h.current (fun p _ => h.shown p)

theorem PagesLaw.beginSwitchAfter {s : State} {panel : PanelIx} (h : PagesLaw (Machine.reshow (· == panel) s)) :
    PagesLaw (beginSwitch panel s) := by
  unfold Machine.beginSwitch
  dsimp only
  split
  · exact h.mark _
  · exact PagesLaw.mark (h.setPanel (f := fun p => { p with state := .live }) (fun _ => rfl)) _
  · exact h

theorem PagesLaw.showPage (h : PagesLaw s) {panel : PanelIx} {o : Option PageIx}
    (ho : ∀ n, o = some n → pageOfPanel s panel n = true) : PagesLaw (showPage panel o s) := by
  unfold Machine.showPage
  have hcur : ∀ p, ((Machine.setPanel panel (fun p => { p with current := o }) s).panels[p]).current
      = if panel = p then o else (s.panels[p]).current := by
    intro p
    refine (congrArg Panel.current (Vec.update_get s.panels panel p _)).trans ?_
    split <;> rfl
  refine PagesLaw.beginSwitchAfter (PagesLaw.reshown h.defined ?_ ?_)
  · intro p n hn
    rw [hcur] at hn
    split at hn
    · next e =>
      subst e
      have := ho n hn
      unfold pageOfPanel at this
      split at this
      · cases this
      · next page hp => exact ⟨page, hp, by simpa using this⟩
    · exact h.current p n hn
  · intro p hp
    have hne : panel ≠ panelOf p := by
      rintro e
      rw [← e] at hp
      simp at hp
    exact (h.shown p).trans (shownBy_congr ((hcur _).trans (if_neg hne)) (fun _ _ => rfl) (fun _ _ _ _ => rfl)).symm

theorem PagesLaw.applyShowPage (h : PagesLaw s) (b : List Byte) : PagesLaw (applyShowPage b s).1 := by
  unfold Machine.applyShowPage panelAnswer
  split
  · exact h
  · split
    · exact h.showPage (fun n hn => by cases hn)
    · split
      · exact h
      · split
        · next hp => exact h.showPage (fun n hn => by cases hn; exact hp)
        · exact h

theorem PagesLaw.applyRestorePanel (h : PagesLaw s) (b : List Byte) : PagesLaw (applyRestorePanel b s).1 := by
  unfold Machine.applyRestorePanel panelAnswer restorePanel
  (repeat' split) <;> first | exact h | exact PagesLaw.beginSwitchAfter (h.reshow _)

/-! ### The boards -/

theorem PagesLaw.applyClearFaults (h : PagesLaw s) (b : List Byte) : PagesLaw (applyClearFaults b s).1 :=
  PagesLaw.of_same (h.onPositions (f := fun _ pos => { pos with verify := .good, mismatchRun := 0, matchRun := 0 })
    (fun _ _ => rfl)) rfl rfl rfl rfl

theorem PagesLaw.startWrite (h : PagesLaw s) : PagesLaw (startWrite s) := by
  unfold Machine.startWrite
  (repeat' split) <;> first | exact h | exact h.of_positions rfl rfl (fun _ => rfl) (fun _ => rfl)

theorem PagesLaw.completeWrite (h : PagesLaw s) : PagesLaw (completeWrite s) := by
  unfold Machine.completeWrite recordWrite clearSwitch completeSwitch
  dsimp only
  split
  · exact h
  · have h1 : PagesLaw { s with boards := { s.boards with write := none } } :=
      h.of_positions rfl rfl (fun _ => rfl) (fun _ => rfl)
    split
    · next w _ _ =>
      have h2 := h1.setPosition (p := w.position) (f := fun pos => { pos with image := some w.content }) (fun _ => rfl)
      split
      · have h3 := h2.setPosition (p := w.position) (f := fun pos => { pos with switchPending := false }) (fun _ => rfl)
        split
        · exact (h3.setPanel (p := panelOf w.position) (f := fun p => { p with lastShown := p.current })
            (fun _ => rfl)).of_same rfl rfl rfl rfl
        · exact h3
      · exact h2
    · exact h1

theorem PagesLaw.periodStarted (h : PagesLaw s) (x : AB) : PagesLaw (periodStarted x s) := by
  cases x
  · exact PagesLaw.mark (PagesLaw.onPositions h (f := fun _ pos => { pos with flash := pos.flash - 1 })
      (fun _ _ => rfl)) _
  · exact h

theorem PagesLaw.setTimerStart (h : PagesLaw s) (x : AB) (t : Time) : PagesLaw (setTimerStart x t s) :=
  h.of_positions rfl rfl (fun _ => rfl) (fun _ => rfl)

theorem PagesLaw.startPeriod (h : PagesLaw s) (x : AB) : PagesLaw (startPeriod x s) := by
  unfold Machine.startPeriod
  split
  · exact PagesLaw.periodStarted (h.setTimerStart _ _) x
  · exact h

theorem PagesLaw.shed (h : PagesLaw s) (panel : PanelIx) : PagesLaw (shed panel s) := by
  have h1 := (h.setPanel (p := panel) (f := fun p => { p with state := .shed }) (fun _ => rfl)).onPositions
    (f := fun p pos =>
      if panelOf p = panel then { pos with image := none, flash := 0, mismatchRun := 0, matchRun := 0 } else pos)
    (fun p x => by split <;> rfl)
  exact h1.of_positions rfl rfl (fun _ => rfl) (fun _ => rfl)

theorem PagesLaw.recover (h : PagesLaw s) (x : Policy) (panel : PanelIx) : PagesLaw (recover x panel s) := by
  cases x
  · exact PagesLaw.mark (h.setPanel (f := fun p => { p with state := .live }) (fun _ => rfl)) _
  · exact PagesLaw.onPositions (h.setPanel (f := fun p => { p with state := .heldDark }) (fun _ => rfl))
      (fun p x => by split <;> rfl)

theorem PagesLaw.changeRail (h : PagesLaw s) (i : RailIx) : PagesLaw (changeRail i s) := by
  unfold Machine.changeRail
  dsimp only
  split
  · refine foldl_keeps (P := PagesLaw) (fun z p hz => ?_) _ _ ?_
    · unfold railChanged
      (repeat' split) <;> first | exact PagesLaw.shed hz p | exact PagesLaw.recover hz _ p | exact hz
    · exact h.of_same rfl rfl rfl rfl
  · exact h

theorem PagesLaw.applySetParameter (h : PagesLaw s) (b : List Byte) : PagesLaw (applySetParameter b s).1 := by
  unfold Machine.applySetParameter
  split
  · exact h
  · split
    · exact h
    · next p' _ =>
      have h1 : PagesLaw { s with params := p' } := h.of_same rfl rfl rfl rfl
      dsimp only
      unfold parameterWritten restartTimer reassignPanel
      dsimp only
      (repeat' split) <;> first
        | exact h1
        | exact PagesLaw.periodStarted (h1.setTimerStart _ _) _
        | exact h1.shed _
        | exact h1.recover _ _
        | exact h1.of_same (by simp) (by simp) (by simp) (by simp)

theorem PagesLaw.applyMismatch (h : PagesLaw s) (p : PosIx) : PagesLaw (applyMismatch p s) := by
  unfold Machine.applyMismatch
  dsimp only
  refine PagesLaw.mark ?_ _
  have h1 := PagesLaw.setPosition (s := { s with verifier := _ }) (h.of_same rfl rfl rfl rfl) (p := p)
    (f := mismatchedPosition s.params.failThreshold) (fun _ => rfl)
  split
  · exact h1.of_same rfl rfl rfl rfl
  · exact h1.of_same rfl rfl rfl rfl

theorem PagesLaw.endRead (h : PagesLaw s) : PagesLaw (endRead s) := h.of_same (by simp) (by simp) (by simp) (by simp)

theorem PagesLaw.applyMatch (h : PagesLaw s) (p : PosIx) : PagesLaw (applyMatch p s) := h.setPosition (fun _ => rfl)

theorem PagesLaw.takeEcho (h : PagesLaw s) (e : List Byte) : PagesLaw (takeEcho e s) := by
  unfold Machine.takeEcho
  (repeat' split) <;> first
    | exact h
    | exact h.endRead
    | exact (h.applyMatch _).endRead
    | exact (h.applyMismatch _).endRead

theorem PagesLaw.endEchoLimit (h : PagesLaw s) : PagesLaw (endEchoLimit s) := by
  unfold Machine.endEchoLimit
  (repeat' split) <;> first
    | exact h
    | exact h.endRead
    | exact (h.applyMismatch _).endRead

theorem PagesLaw.setStale (h : PagesLaw s) (x : Bool) : PagesLaw (setStale x s) := by
  unfold Machine.setStale
  dsimp only
  refine PagesLaw.mark ?_ _
  exact h.of_same rfl rfl rfl rfl

theorem PagesLaw.completeFrame (h : PagesLaw s) (c : Byte) : PagesLaw (completeFrame c s) := by
  unfold Machine.completeFrame queueFrame noteIntact
  dsimp only
  have key : ∀ f : Feed, PagesLaw (Machine.setStale false { s with feed := f }) :=
    fun f => PagesLaw.setStale (s := { s with feed := f }) (h.of_same rfl rfl rfl rfl) false
  (repeat' split) <;> first
    | exact h
    | exact h.of_same rfl rfl rfl rfl
    | exact (key _).of_same rfl rfl rfl rfl

theorem PagesLaw.expireQuietLimit (h : PagesLaw s) : PagesLaw (expireQuietLimit s) := by
  unfold Machine.expireQuietLimit
  split
  · exact h.setStale true
  · exact h

/-! ### Restart and reset -/

theorem PagesLaw.restartAll (h : PagesLaw s) : PagesLaw (restartAll s) := by
  unfold Machine.restartAll reshowAll
  refine PagesLaw.mark (PagesLaw.reshow ?_ _) _
  generalize hz : restartLines (restartTapes (restartFeed s)) = z
  have hzl : PagesLaw z := h.of_same (by rw [← hz]; simp) (by rw [← hz]; simp) (by rw [← hz]; simp) (by rw [← hz]; simp)
  have h1 : PagesLaw (abandonWrite z) := by
    unfold abandonWrite
    split
    · exact hzl
    · exact hzl.setPosition (fun _ => rfl)
  have h2 : PagesLaw (restartBoards z) :=
    (h1.onPositions (f := fun _ pos => { pos with flash := 0 }) (fun _ _ => rfl)).of_positions rfl rfl (fun _ => rfl)
      (fun _ => rfl)
  have h3 : PagesLaw (Machine.onPositions (fun _ pos => { pos with verify := .good, mismatchRun := 0, matchRun := 0 })
      (restartBoards z)) := h2.onPositions (fun _ _ => rfl)
  unfold restartVerifier
  dsimp only
  split
  · exact h3.of_same rfl rfl rfl rfl
  · exact h3.of_same rfl rfl rfl rfl

theorem State.reset_page (n : PageIx) : State.reset.pages[n] = none := by
  unfold State.reset
  simp [Fin.getElem_fin]

theorem State.reset_pages : PagesLaw State.reset := by
  refine ⟨fun n page hn => ?_, fun p n hn => ?_, fun p => ?_⟩
  · rw [State.reset_page] at hn
    cases hn
  · rw [State.reset_panel] at hn
    cases hn
  · rw [State.reset_position]
    unfold shownBy
    rw [State.reset_panel]
    rfl

/-! ### Every command -/

/-- Every command keeps the law. -/
theorem pages_kept : KeptByCommands PagesLaw PagesLaw where
  remove _ h _ := h.of_same rfl rfl rfl rfl
  place _ _ _ s h := h.of_same rfl rfl rfl rfl
  list b s h := h.applyList b
  delist b s h := h.applyDelist b
  queryRecord b s h := by rw [applyQueryRecord_frame]; exact h
  sessionOpen b s h := by rw [applySessionOpen_frame]; exact h.of_same rfl rfl rfl rfl
  sessionClose b s h := h.applySessionClose b
  dayRoll b s h := h.applyDayRoll b
  tableClear b s h := h.applyTableClear b
  trade b s h := h.applyTrade b
  quote b s h := h.applyQuote b
  halt b s h := h.applyHalt b
  resume b s h := h.applyResume b
  loadEntry b s h := h.applyLoadEntry b
  unloadEntry b s h := h.applyUnloadEntry b
  definePage b s h := h.applyDefinePage b
  undefinePage b s h := h.applyUndefinePage b
  showPage b s h := h.applyShowPage b
  restorePanel b s h := h.applyRestorePanel b
  clearFaults b s h := h.applyClearFaults b
  tapeStart b s h := by rw [applyTapeStart_frame]; exact h.of_same rfl rfl rfl rfl
  tapeStop b s h := by rw [applyTapeStop_frame]; exact h.of_same rfl rfl rfl rfl
  tapeClear b s h := by rw [applyTapeClear_frame]; exact h.of_same rfl rfl rfl rfl
  notice b s h := by rw [applyNotice_frame]; exact h.of_same rfl rfl rfl rfl
  terminalEnable b s h := by rw [applyTerminalEnable_frame]; exact h.of_same rfl rfl rfl rfl
  setParameter b s h := h.applySetParameter b
  readParameter b s h := by rw [applyReadParameter_frame]; exact h
  readStatus b s h := by rw [applyReadStatus_frame]; exact h.of_same rfl rfl rfl rfl
  clearConditions b s h := by rw [applyClearConditions_frame]; exact h.of_same rfl rfl rfl rfl
  restart _ s h := h.restartAll
  takeFeedChar c s h := by rw [takeFeedChar_frame]; exact h.of_same rfl rfl rfl rfl
  takeFeedFailure x s h := by rw [takeFeedFailure_frame]; exact h.of_same rfl rfl rfl rfl
  expireFrameGap s h := by rw [expireFrameGap_frame]; exact h.of_same rfl rfl rfl rfl
  sendReply s h := by rw [sendReply_frame]; exact h.of_same rfl rfl rfl rfl
  completeFrame c s h := h.completeFrame c
  expireQuietLimit s h := h.expireQuietLimit
  startWrite s h := h.startWrite
  completeWrite s h := h.completeWrite
  startPeriod x s h := h.startPeriod x
  sampleRail i w f s h := by rw [sampleRail_frame]; exact h.of_same rfl rfl rfl rfl
  changeRail i s h := h.changeRail i
  endGap s h := by rw [endGap_frame]; exact h.of_same rfl rfl rfl rfl
  startRead s h := by rw [startRead_frame]; exact h.of_same rfl rfl rfl rfl
  takeEcho e s h := h.takeEcho e
  endEchoLimit s h := h.endEchoLimit
  stepRibbon t s h := by rw [stepRibbon_frame]; exact h.of_same rfl rfl rfl rfl
  visitLine l s h := by rw [visitLine_frame]; exact h.of_same rfl rfl rfl rfl
  openWindow l s h := by rw [openWindow_frame]; exact h.of_same rfl rfl rfl rfl
  expireWindow l s h := by rw [expireWindow_frame]; exact h.of_same rfl rfl rfl rfl
  expireReplyGap l s h := by rw [expireReplyGap_frame]; exact h.of_same rfl rfl rfl rfl
  expireSettling l s h := by rw [expireSettling_frame]; exact h.of_same rfl rfl rfl rfl
  takeReplyChar l c s h := by rw [takeReplyChar_frame]; exact h.of_same rfl rfl rfl rfl
  takeLineFailure l x s h := by rw [takeLineFailure_frame]; exact h.of_same rfl rfl rfl rfl
  completeReply l c s h := by rw [completeReply_frame]; exact h.of_same rfl rfl rfl rfl
  endEmptyRound l s h := by rw [endEmptyRound_frame]; exact h.of_same rfl rfl rfl rfl
  restartAll s h := h.restartAll
  powerOn b s := State.reset_pages.of_same rfl rfl rfl rfl
  withPending _ s h := h.of_same rfl rfl rfl rfl
  nextInterval s h := h.of_same (by simp) (by simp) (by simp) (by simp)

end Sys2Proof.Machine
end

