-- ==== Sys2Proof/Laws/RibbonsLaw.lean ====
section
/-! SUPPORT. The law of R125, that a STOPPING ribbon has characters left in its feeder, operation by operation; what the entry
of a character and a restart make of the ribbons (R122). -/

namespace Sys2Proof.Machine

variable {s : State}

theorem RibbonsLaw.of_same {t : State} (h : RibbonsLaw s) (hr : t.ribbons = s.ribbons) : RibbonsLaw t := by
  intro x next
  rw [hr]
  exact h x next

theorem RibbonsLaw.setRibbon (h : RibbonsLaw s) {t : AB} {r : Ribbon}
    (hr : ∀ next, r.state = .stopping next → r.feeder ≠ []) : RibbonsLaw (setRibbon t r s) := by
  intro x next
  rw [setRibbon_ribbons, Pair.get_put]
  split
  · exact hr next
  · exact h x next

theorem RibbonsLaw.applyTapeStart (h : RibbonsLaw s) (b : List Byte) : RibbonsLaw (applyTapeStart b s).1 := by
  unfold Machine.applyTapeStart startTape ribbonAnswer
  dsimp only
  split
  · exact h
  · next t _ =>
    refine h.setRibbon (fun next hc => ?_)
    dsimp only at hc
    unfold startedState at hc
    split at hc <;> cases hc

theorem RibbonsLaw.applyTapeStop (h : RibbonsLaw s) (b : List Byte) : RibbonsLaw (applyTapeStop b s).1 := by
  unfold Machine.applyTapeStop stopTape ribbonAnswer
  dsimp only
  split
  · exact h
  · next t _ =>
    refine h.setRibbon (fun next hc => ?_)
    dsimp only at hc ⊢
    unfold stoppedState at hc
    split at hc
    · cases hc
    · split at hc
      · cases hc
      · next hn => exact hn
    · next n hs => exact h t n hs

/-- R122, R125: what the entry of a character makes of the ribbons: one character presented with one strobe. -/
theorem enter_ribbons (t : AB) (x : RibbonState) (k : ItemKind) (c : Byte) (y : Text) (s : State) :
    (enter t x k c y s).ribbons
      = s.ribbons.put t ⟨x, if y = [] then .blank else k, y, c, (s.ribbons.get t).strobes + 1⟩ := by
  simp [Machine.enter]

theorem RibbonsLaw.enter (h : RibbonsLaw s) {t : AB} {x : RibbonState} {k : ItemKind} {c : Byte} {y : Text}
    (hx : ∀ next, x = .stopping next → y ≠ []) : RibbonsLaw (enter t x k c y s) :=
  (h.setRibbon hx).of_same (enter_ribbons t x k c y s)

theorem RibbonsLaw.stepRibbon (h : RibbonsLaw s) (t : AB) : RibbonsLaw (stepRibbon t s) := by
  unfold Machine.stepRibbon
  dsimp only
  split
  · exact h
  · split
    · split
      · have hs : RibbonsLaw (select t s).1 := h.of_same (by simp)
        unfold stepSelect
        split
        · next s1 k heq =>
          rw [heq] at hs
          exact hs.setRibbon (fun _ hc => by cases hc)
        · next s1 k c rest heq =>
          rw [heq] at hs
          exact hs.enter (fun _ hc => by cases hc)
      · exact h.enter (fun _ hc => by cases hc)
    · exact h
  · split
    · split
      · exact h
      · refine h.enter (fun next hc => ?_)
        split at hc
        · cases hc
        · next hn => exact hn
    · exact h

/-- R122: what a restart makes of the ribbons; their outputs stay. -/
theorem restartAll_ribbons (s : State) : (restartAll s).ribbons = s.ribbons.map restartRibbon := by
  unfold restartAll
  simp [restartTapes]

theorem RibbonsLaw.restartAll (s : State) : RibbonsLaw (restartAll s) := by
  intro x next
  rw [restartAll_ribbons, Pair.get_map]
  intro hc
  cases hc

theorem State.reset_ribbons : RibbonsLaw State.reset := by
  intro x next hc
  cases x <;> cases hc

/-! ### Every command -/

/-- Every command keeps the law. -/
theorem ribbons_kept : KeptByCommands RibbonsLaw RibbonsLaw where
  remove _ h _ := h.of_same rfl
  place _ _ _ s h := h.of_same rfl
  list b s h := by rw [applyList_frame]; exact h.of_same rfl
  delist b s h := by rw [applyDelist_frame]; exact h.of_same rfl
  queryRecord b s h := by rw [applyQueryRecord_frame]; exact h
  sessionOpen b s h := by rw [applySessionOpen_frame]; exact h.of_same rfl
  sessionClose b s h := by rw [applySessionClose_frame]; exact h.of_same rfl
  dayRoll b s h := by rw [applyDayRoll_frame]; exact h.of_same rfl
  tableClear b s h := by rw [applyTableClear_frame]; exact h.of_same rfl
  trade b s h := by rw [applyTrade_frame]; exact h.of_same rfl
  quote b s h := by rw [applyQuote_frame]; exact h.of_same rfl
  halt b s h := by rw [applyHalt_frame]; exact h.of_same rfl
  resume b s h := by rw [applyResume_frame]; exact h.of_same rfl
  loadEntry b s h := by rw [applyLoadEntry_frame]; exact h.of_same rfl
  unloadEntry b s h := by rw [applyUnloadEntry_frame]; exact h.of_same rfl
  definePage b s h := by rw [applyDefinePage_frame]; exact h.of_same rfl
  undefinePage b s h := by rw [applyUndefinePage_frame]; exact h.of_same rfl
  showPage b s h := by rw [applyShowPage_frame]; exact h.of_same rfl
  restorePanel b s h := by rw [applyRestorePanel_frame]; exact h.of_same rfl
  clearFaults b s h := by rw [applyClearFaults_frame]; exact h.of_same rfl
  tapeStart b s h := h.applyTapeStart b
  tapeStop b s h := h.applyTapeStop b
  tapeClear b s h := by rw [applyTapeClear_frame]; exact h.of_same rfl
  notice b s h := by rw [applyNotice_frame]; exact h.of_same rfl
  terminalEnable b s h := by rw [applyTerminalEnable_frame]; exact h.of_same rfl
  setParameter b s h := by rw [applySetParameter_frame]; exact h.of_same rfl
  readParameter b s h := by rw [applyReadParameter_frame]; exact h
  readStatus b s h := by rw [applyReadStatus_frame]; exact h.of_same rfl
  clearConditions b s h := by rw [applyClearConditions_frame]; exact h.of_same rfl
  restart _ s h := RibbonsLaw.restartAll s
  takeFeedChar c s h := by rw [takeFeedChar_frame]; exact h.of_same rfl
  takeFeedFailure x s h := by rw [takeFeedFailure_frame]; exact h.of_same rfl
  expireFrameGap s h := by rw [expireFrameGap_frame]; exact h.of_same rfl
  sendReply s h := by rw [sendReply_frame]; exact h.of_same rfl
  completeFrame c s h := by rw [completeFrame_frame]; exact h.of_same rfl
  expireQuietLimit s h := by rw [expireQuietLimit_frame]; exact h.of_same rfl
  startWrite s h := by rw [startWrite_frame]; exact h.of_same rfl
  completeWrite s h := by rw [completeWrite_frame]; exact h.of_same rfl
  startPeriod x s h := by rw [startPeriod_frame]; exact h.of_same rfl
  sampleRail i w f s h := by rw [sampleRail_frame]; exact h.of_same rfl
  changeRail i s h := by rw [changeRail_frame]; exact h.of_same rfl
  endGap s h := by rw [endGap_frame]; exact h.of_same rfl
  startRead s h := by rw [startRead_frame]; exact h.of_same rfl
  takeEcho e s h := by rw [takeEcho_frame]; exact h.of_same rfl
  endEchoLimit s h := by rw [endEchoLimit_frame]; exact h.of_same rfl
  stepRibbon t s h := h.stepRibbon t
  visitLine l s h := by rw [visitLine_frame]; exact h.of_same rfl
  openWindow l s h := by rw [openWindow_frame]; exact h.of_same rfl
  expireWindow l s h := by rw [expireWindow_frame]; exact h.of_same rfl
  expireReplyGap l s h := by rw [expireReplyGap_frame]; exact h.of_same rfl
  expireSettling l s h := by rw [expireSettling_frame]; exact h.of_same rfl
  takeReplyChar l c s h := by rw [takeReplyChar_frame]; exact h.of_same rfl
  takeLineFailure l x s h := by rw [takeLineFailure_frame]; exact h.of_same rfl
  completeReply l c s h := by rw [completeReply_frame]; exact h.of_same rfl
  endEmptyRound l s h := by rw [endEmptyRound_frame]; exact h.of_same rfl
  restartAll s h := RibbonsLaw.restartAll s
  powerOn b s := State.reset_ribbons.of_same rfl
  withPending _ s h := h.of_same rfl
  nextInterval s h := h.of_same (by simp)

end Sys2Proof.Machine
end

