-- ==== Sys2Proof/Laws/TapesLaw.lean ====
section
/-! SUPPORT. The laws of the tape lists and share accounts (R13, R108, R112, R113) and of the ribbons (R125), operation
by operation. -/

namespace Sys2Proof.Machine

/-! ### Sums of shares -/

/-- The sum of a measure over a list of slots, modulo 2^32. -/
def sumShares (f : SlotIx → Word32) (l : List SlotIx) : Word32 := (l.map f).foldl (· + ·) 0

theorem tapePendingShares_eq (t : AB) (s : State) :
    tapePendingShares t s = sumShares (pendingShares s) (s.tapes.get t).prints := rfl

@[simp] theorem sumShares_nil (f : SlotIx → Word32) : sumShares f [] = 0 := rfl

theorem sumShares_cons (f : SlotIx → Word32) (i : SlotIx) (l : List SlotIx) :
    sumShares f (i :: l) = f i + sumShares f l := by
  unfold sumShares
  rw [List.map_cons, List.foldl_cons, BitVec.add_comm 0 (f i), List.foldl_assoc]

theorem sumShares_append (f : SlotIx → Word32) (l : List SlotIx) (i : SlotIx) :
    sumShares f (l ++ [i]) = sumShares f l + f i := by
  unfold sumShares
  rw [List.map_append, List.foldl_append]
  rfl

theorem sumShares_congr {f g : SlotIx → Word32} {l : List SlotIx} (h : ∀ i ∈ l, f i = g i) :
    sumShares f l = sumShares g l := by
  unfold sumShares
  rw [List.map_congr_left h]

theorem sumShares_erase (f : SlotIx → Word32) {i : SlotIx} {l : List SlotIx} (h : i ∈ l) :
    sumShares f l = f i + sumShares f (l.erase i) := by
  induction l with
  | nil => cases h
  | cons x rest ih =>
    by_cases hx : x = i
    · subst hx
      rw [List.erase_cons_head, sumShares_cons]
    · have hm : i ∈ rest := by
        rcases List.mem_cons.mp h with e | e
        · exact absurd e.symm hx
        · exact e
      rw [List.erase_cons_tail (by simpa using hx), sumShares_cons, sumShares_cons, ih hm]
      ac_rfl

/-! ### States that agree in what the law reads -/

theorem TapesLaw.of_same {s t : State} (h : TapesLaw s) (hr : t.records = s.records) (ht : t.tapes = s.tapes) :
    TapesLaw t := by
  have hp : pendingShares t = pendingShares s := by funext i; unfold pendingShares; rw [hr]
  refine ⟨fun x => ?_, ?_⟩
  · have hx := h.tape x
    refine ⟨?_, ?_, ?_, ?_⟩
    · rw [ht]; exact hx.once
    · rw [ht, hr]; exact hx.listed
    · rw [tapePendingShares_eq, hp, ht]; exact hx.balanced
    · rw [ht]; exact hx.backlog
  · refine ⟨?_, ?_, ?_⟩
    · rw [ht, hr]; exact h.pending.onList
    · rw [hr]; exact h.pending.priced
    · rw [hr]; exact h.pending.retiring

/-- Tape units changed in other items than the list and the accounts; the maximum stays at the backlog or above it. -/
theorem TapesLaw.of_units {s t : State} (h : TapesLaw s) (hr : t.records = s.records)
    (ht : ∀ x, (t.tapes.get x).prints = (s.tapes.get x).prints ∧ (t.tapes.get x).accepted = (s.tapes.get x).accepted
      ∧ (t.tapes.get x).printed = (s.tapes.get x).printed ∧ (t.tapes.get x).withdrawn = (s.tapes.get x).withdrawn
      ∧ (s.tapes.get x).prints.length ≤ (t.tapes.get x).backlogMax) : TapesLaw t := by
  have hp : pendingShares t = pendingShares s := by funext i; unfold pendingShares; rw [hr]
  refine ⟨fun x => ?_, ?_⟩
  · have hx := h.tape x
    obtain ⟨h1, h2, h3, h4, h5⟩ := ht x
    refine ⟨?_, ?_, ?_, ?_⟩
    · rw [h1]; exact hx.once
    · rw [h1, hr]; exact hx.listed
    · rw [tapePendingShares_eq, hp, h1, h2, h3, h4]; exact hx.balanced
    · rw [h1]; exact h5
  · refine ⟨?_, ?_, ?_⟩
    · intro i r hi hn
      rw [(ht _).1]
      rw [hr] at hi
      exact h.pending.onList i r hi hn
    · rw [hr]; exact h.pending.priced
    · rw [hr]; exact h.pending.retiring

/-- A record replaced by one that the law reads alike. -/
structure SamePrint (r r' : Record) : Prop where
  tape : r'.tape = r.tape
  print : r'.pending = r.pending
  day : r.pending ≠ none → r.day ≠ none → r'.day ≠ none
  retiring : r'.state = .retiring → r'.pending ≠ none

/-- A slot without a pending print, before and after. -/
def NoPrint (o : Option Record) : Prop := ∀ r, o = some r → r.pending = none ∧ r.state ≠ .retiring

/-- The slot is read alike in both states. -/
def SameSlot (s t : State) (i : SlotIx) : Prop :=
  (∃ r r', s.records[i] = some r ∧ t.records[i] = some r' ∧ SamePrint r r')
    ∨ ((∀ r, s.records[i] = some r → r.pending = none) ∧ NoPrint t.records[i])

theorem SameSlot.shares {s t : State} {i : SlotIx} (h : SameSlot s t i) : pendingShares t i = pendingShares s i := by
  unfold pendingShares
  rcases h with ⟨r, r', h1, h2, h3⟩ | ⟨h1, h2⟩
  · rw [h1, h2]
    simp only [h3.print]
  · cases hs : s.records[i] with
    | none =>
      cases ht : t.records[i] with
      | none => rfl
      | some r' => simp only [(h2 r' ht).1]
    | some r =>
      simp only [h1 r hs]
      cases ht : t.records[i] with
      | none => rfl
      | some r' => simp only [(h2 r' ht).1]

theorem TapesLaw.of_slots {s t : State} (h : TapesLaw s) (ht : t.tapes = s.tapes) (hs : ∀ i, SameSlot s t i) :
    TapesLaw t := by
  have hp : pendingShares t = pendingShares s := by funext i; exact (hs i).shares
  refine ⟨fun x => ?_, ?_⟩
  · have hx := h.tape x
    refine ⟨?_, ?_, ?_, ?_⟩
    · rw [ht]; exact hx.once
    · rw [ht]
      intro i hi
      obtain ⟨r, h1, h2, h3⟩ := hx.listed i hi
      rcases hs i with ⟨q, q', k1, k2, k3⟩ | ⟨k1, _⟩
      · rw [h1] at k1
        cases k1
        exact ⟨q', k2, k3.tape.trans h2, by rw [k3.print]; exact h3⟩
      · exact absurd (k1 r h1) h3
    · rw [tapePendingShares_eq, hp, ht]; exact hx.balanced
    · rw [ht]; exact hx.backlog
  · refine ⟨?_, ?_, ?_⟩
    · intro i r hi hn
      rw [ht]
      rcases hs i with ⟨q, q', k1, k2, k3⟩ | ⟨_, k2⟩
      · rw [hi] at k2
        cases k2
        rw [k3.tape]
        exact h.pending.onList i q k1 (by rw [← k3.print]; exact hn)
      · exact absurd (k2 r hi).1 hn
    · intro i r hi hn
      rcases hs i with ⟨q, q', k1, k2, k3⟩ | ⟨_, k2⟩
      · rw [hi] at k2
        cases k2
        have hq : q.pending ≠ none := by rw [← k3.print]; exact hn
        exact k3.day hq (h.pending.priced i q k1 hq)
      · exact absurd (k2 r hi).1 hn
    · intro i r hi hn
      rcases hs i with ⟨q, q', k1, k2, k3⟩ | ⟨_, k2⟩
      · rw [hi] at k2
        cases k2
        exact k3.retiring hn
      · exact absurd hn (k2 r hi).2

theorem SamePrint.refl {s : State} (h : TapesLaw s) {i : SlotIx} {r : Record} (hr : s.records[i] = some r) :
    SamePrint r r :=
  ⟨rfl, rfl, fun _ hd => hd, h.pending.retiring i r hr⟩

/-- A slot whose record did not change is read alike. -/
theorem SameSlot.refl {s t : State} (h : TapesLaw s) {i : SlotIx} (hr : t.records[i] = s.records[i]) :
    SameSlot s t i := by
  cases hs : s.records[i] with
  | none =>
    refine .inr ⟨fun r h1 => ?_, fun r h2 => ?_⟩
    · rw [hs] at h1; cases h1
    · rw [hr, hs] at h2; cases h2
  | some r => exact .inl ⟨r, r, hs, hr.trans hs, SamePrint.refl h hs⟩

theorem TapesLaw.setRecord {s : State} (h : TapesLaw s) {i : SlotIx} {r r' : Record} (hr : s.records[i] = some r)
    (hs : SamePrint r r') : TapesLaw (setRecord i r' s) := by
  refine h.of_slots rfl (fun j => ?_)
  by_cases hj : i = j
  · subst hj
    exact .inl ⟨r, r', hr, by rw [setRecord_records, Vec.set_get, if_pos rfl], hs⟩
  · exact SameSlot.refl h (by rw [setRecord_records, Vec.set_get, if_neg hj])

theorem TapesLaw.freeSlot {s : State} (h : TapesLaw s) {i : SlotIx}
    (hi : ∀ r, s.records[i] = some r → r.pending = none) : TapesLaw (freeSlot i s) := by
  refine h.of_slots rfl (fun j => ?_)
  by_cases hj : i = j
  · subst hj
    refine .inr ⟨hi, fun r hr => ?_⟩
    rw [freeSlot_records, Vec.set_get, if_pos rfl] at hr
    cases hr
  · exact SameSlot.refl h (by rw [freeSlot_records, Vec.set_get, if_neg hj])

theorem TapesLaw.mapAll {s t : State} (h : TapesLaw s) {f : Record → Record}
    (hf : ∀ (i : SlotIx) r, s.records[i] = some r → SamePrint r (f r)) (ht : t.tapes = s.tapes)
    (hr : t.records = Vec.mapIx (fun _ r => r.map f) s.records) : TapesLaw t := by
  refine h.of_slots ht (fun i => ?_)
  have hi : t.records[i] = (s.records[i]).map f := by rw [hr, Vec.mapIx_get]
  cases hs : s.records[i] with
  | none =>
    refine .inr ⟨fun r h1 => ?_, fun r h2 => ?_⟩
    · rw [hs] at h1; cases h1
    · rw [hi, hs] at h2; cases h2
  | some r => exact .inl ⟨r, f r, hs, by rw [hi, hs]; rfl, hf i r hs⟩

/-! ### An entry taken off its list (R114, R115) -/

/-- The entry's place is on one list alone. -/
theorem TapesLaw.elsewhere {s : State} (h : TapesLaw s) {t x : AB} {i : SlotIx} (hi : i ∈ (s.tapes.get t).prints)
    (hx : i ∈ (s.tapes.get x).prints) : x = t := by
  obtain ⟨r, h1, h2, _⟩ := (h.tape t).listed i hi
  obtain ⟨q, k1, k2, _⟩ := (h.tape x).listed i hx
  rw [h1] at k1
  cases k1
  exact k2.symm.trans h2

/-- The state after an entry has been taken off: the record has no pending print, and a RETIRING one is freed. -/
theorem takenOff_records (i j : SlotIx) (s : State) :
    (reportGone i (setPendingPrint i none s)).records[j] =
      if i = j then (s.records[j]).bind (fun r => if r.state = .retiring then none else some { r with pending := none })
      else s.records[j] := by
  have hj : ∀ j, (setPendingPrint i none s).records[j]
      = if i = j then (s.records[j]).map (fun r => { r with pending := none }) else s.records[j] := by
    intro j
    rw [setPendingPrint_records, Vec.update_get]
  unfold reportGone
  split
  · next hn =>
    rw [hj]
    split
    · next e =>
      subst e
      rw [hj, if_pos rfl] at hn
      rw [Option.map_eq_none_iff.mp hn]
      rfl
    · rfl
  · next r hr =>
    rw [hj, if_pos rfl] at hr
    obtain ⟨q, hq, rfl⟩ := Option.map_eq_some_iff.mp hr
    split
    · next hret =>
      refine (Vec.set_get (setPendingPrint i none s).records i j none).trans ?_
      split
      · next e =>
        subst e
        rw [hq]
        simp only [Option.bind_some]
        rw [if_pos hret]
      · next e => rw [hj, if_neg e]
    · next hret =>
      refine (hj j).trans ?_
      split
      · next e =>
        subst e
        rw [hq]
        simp only [Option.bind_some, Option.map_some]
        rw [if_neg hret]
      · rfl

theorem TapesLaw.takeOff {s : State} (h : TapesLaw s) {t : AB} {i : SlotIx} (hi : i ∈ (s.tapes.get t).prints)
    {u : TapeUnit} (hp : u.prints = (s.tapes.get t).prints.erase i) (ha : u.accepted = (s.tapes.get t).accepted)
    (hw : u.printed + u.withdrawn
      = (s.tapes.get t).printed + (s.tapes.get t).withdrawn + pendingShares s i)
    (hb : u.backlogMax = (s.tapes.get t).backlogMax) :
    TapesLaw (reportGone i (setPendingPrint i none (setTape t u s))) := by
  obtain ⟨r, hr, hrt, hrp⟩ := (h.tape t).listed i hi
  have hrec := fun j => takenOff_records i j (Machine.setTape t u s)
  have htap : (reportGone i (setPendingPrint i none (Machine.setTape t u s))).tapes = s.tapes.put t u := by simp
  have hne : ∀ j, i ≠ j → (reportGone i (setPendingPrint i none (Machine.setTape t u s))).records[j] = s.records[j] :=
    fun j hj => (hrec j).trans (if_neg hj)
  have hsh : ∀ j, i ≠ j →
      pendingShares (reportGone i (setPendingPrint i none (Machine.setTape t u s))) j = pendingShares s j := by
    intro j hj
    unfold pendingShares
    rw [hne j hj]
  have hgone : ∀ q, (reportGone i (setPendingPrint i none (Machine.setTape t u s))).records[i] = some q →
      q.pending = none ∧ q.state ≠ .retiring := by
    intro q hq
    rw [hrec, if_pos rfl] at hq
    have : (Machine.setTape t u s).records[i] = some r := hr
    rw [this, Option.bind_some] at hq
    split at hq
    · cases hq
    · next hret => cases hq; exact ⟨rfl, hret⟩
  generalize reportGone i (setPendingPrint i none (Machine.setTape t u s)) = z at *
  have hmem : ∀ x j, j ∈ (z.tapes.get x).prints → i ≠ j ∧ j ∈ (s.tapes.get x).prints := by
    intro x j hj
    rw [htap, Pair.get_put] at hj
    split at hj
    · next e =>
      subst e
      rw [hp] at hj
      have := ((h.tape t).once.mem_erase_iff).mp hj
      exact ⟨this.1.symm, this.2⟩
    · next e =>
      refine ⟨?_, hj⟩
      rintro rfl
      exact e (h.elsewhere hi hj).symm
  refine ⟨fun x => ⟨?_, ?_, ?_, ?_⟩, ?_, ?_, ?_⟩
  · rw [htap, Pair.get_put]
    split
    · rw [hp]; exact (h.tape t).once.erase i
    · exact (h.tape x).once
  · intro j hj
    obtain ⟨h1, h2⟩ := hmem x j hj
    rw [hne j h1]
    exact (h.tape x).listed j h2
  · rw [tapePendingShares_eq]
    have hc : sumShares (pendingShares z) (z.tapes.get x).prints = sumShares (pendingShares s) (z.tapes.get x).prints :=
      sumShares_congr (fun j hj => hsh j (hmem x j hj).1)
    rw [hc, htap, Pair.get_put]
    have hbal := (h.tape x).balanced
    rw [tapePendingShares_eq] at hbal
    split
    · next e =>
      subst e
      rw [hp, ha, hbal, hw, sumShares_erase _ hi]
      ac_rfl
    · exact hbal
  · rw [htap, Pair.get_put]
    split
    · rw [hp, hb]
      exact (List.length_erase_le ..).trans (h.tape t).backlog
    · exact (h.tape x).backlog
  · intro j q hq hn
    by_cases hj : i = j
    · subst hj
      exact absurd (hgone q hq).1 hn
    · rw [hne j hj] at hq
      have := h.pending.onList j q hq hn
      rw [htap, Pair.get_put]
      split
      · next e =>
        subst e
        rw [hp]
        exact ((h.tape _).once.mem_erase_iff).mpr ⟨Ne.symm hj, this⟩
      · exact this
  · intro j q hq hn
    by_cases hj : i = j
    · subst hj
      exact absurd (hgone q hq).1 hn
    · rw [hne j hj] at hq
      exact h.pending.priced j q hq hn
  · intro j q hq hn
    by_cases hj : i = j
    · subst hj
      exact absurd hn (hgone q hq).2
    · rw [hne j hj] at hq
      exact h.pending.retiring j q hq hn

theorem TapesLaw.withdraw {s : State} (h : TapesLaw s) {t : AB} {i : SlotIx} (hi : i ∈ (s.tapes.get t).prints) :
    TapesLaw (withdraw t i s) := by
  unfold Machine.withdraw
  dsimp only
  refine h.takeOff hi rfl rfl ?_ rfl
  dsimp only
  ac_rfl

theorem withdraw_prints (t : AB) (i : SlotIx) (s : State) :
    ((withdraw t i s).tapes.get t).prints = (s.tapes.get t).prints.erase i := by
  unfold withdraw
  simp

theorem withdraw_other {t x : AB} (hx : t ≠ x) (i : SlotIx) (s : State) :
    (withdraw t i s).tapes.get x = s.tapes.get x := by
  unfold withdraw
  simp [hx]

/-- R116: every entry is withdrawn, and the list is empty after it. -/
theorem TapesLaw.withdrawAll {s : State} (h : TapesLaw s) (t : AB) :
    TapesLaw (withdrawAll t s) ∧ ((withdrawAll t s).tapes.get t).prints = [] := by
  unfold Machine.withdrawAll
  generalize hl : (s.tapes.get t).prints = l
  induction l generalizing s with
  | nil => exact ⟨h, hl⟩
  | cons i rest ih =>
    have hi : i ∈ (s.tapes.get t).prints := by rw [hl]; exact List.mem_cons_self ..
    refine ih (h.withdraw hi) ?_
    rw [withdraw_prints, hl, List.erase_cons_head]

theorem withdrawAll_other {t x : AB} (hx : t ≠ x) (s : State) :
    (withdrawAll t s).tapes.get x = s.tapes.get x :=
  foldl_same (fun s : State => s.tapes.get x) (fun b i => withdraw_other hx i b) _ _

theorem TapesLaw.withdrawBoth {s : State} (h : TapesLaw s) :
    TapesLaw (Machine.withdrawAll .b (Machine.withdrawAll .a s))
      ∧ ∀ x, ((Machine.withdrawAll .b (Machine.withdrawAll .a s)).tapes.get x).prints = [] := by
  have h1 := h.withdrawAll .a
  have h2 := h1.1.withdrawAll .b
  refine ⟨h2.1, fun x => ?_⟩
  cases x
  · rw [withdrawAll_other (by decide)]; exact h1.2
  · exact h2.2

/-- With both lists empty no record has a pending print and none is RETIRING. -/
theorem TapesLaw.noPrint {s : State} (h : TapesLaw s) (he : ∀ x, (s.tapes.get x).prints = []) (i : SlotIx) :
    NoPrint s.records[i] := by
  intro r hr
  have hp : r.pending = none := by
    by_contra hc
    have := h.pending.onList i r hr hc
    rw [he] at this
    cases this
  exact ⟨hp, fun hc => h.pending.retiring i r hr hc hp⟩

/-! ### A trade notice (R110) -/

theorem TapesLaw.tradeNotice {s : State} (h : TapesLaw s) {i : SlotIx} {r q : Record} (hq : s.records[i] = some q)
    (ht : r.tape = q.tape) (hp : r.pending = q.pending) (hd : q.day ≠ none) (n : Nat) :
    TapesLaw (tradeNotice i r n s) := by
  have htape := h.tape r.tape
  -- what both cases share: the slot's record has the pending print `p`, the tape's unit is `u`
  have key : ∀ (p : PendingPrint) (u : TapeUnit),
      (u.prints = (s.tapes.get r.tape).prints ∧ r.pending ≠ none
        ∨ u.prints = (s.tapes.get r.tape).prints ++ [i] ∧ r.pending = none) →
      u.accepted = (s.tapes.get r.tape).accepted + BitVec.ofNat 32 n →
      u.printed = (s.tapes.get r.tape).printed → u.withdrawn = (s.tapes.get r.tape).withdrawn →
      u.prints.length ≤ u.backlogMax → p.shares = pendingShares s i + BitVec.ofNat 32 n →
      TapesLaw (setPendingPrint i (some p) (Machine.setTape r.tape u s)) := by
    intro p u hu ha hpr hw hb hsh
    have hrec : ∀ j, (setPendingPrint i (some p) (Machine.setTape r.tape u s)).records[j]
        = if i = j then (s.records[j]).map (fun r => { r with pending := some p }) else s.records[j] := by
      intro j
      rw [setPendingPrint_records, Vec.update_get]
      rfl
    have htap : (setPendingPrint i (some p) (Machine.setTape r.tape u s)).tapes = s.tapes.put r.tape u := by simp
    generalize setPendingPrint i (some p) (Machine.setTape r.tape u s) = z at *
    have hzi : z.records[i] = some { q with pending := some p } := by rw [hrec, if_pos rfl, hq]; rfl
    have hne : ∀ j, i ≠ j → z.records[j] = s.records[j] := fun j hj => (hrec j).trans (if_neg hj)
    have hshare : ∀ j, i ≠ j → pendingShares z j = pendingShares s j := by
      intro j hj
      unfold pendingShares
      rw [hne j hj]
    have hsi : pendingShares z i = pendingShares s i + BitVec.ofNat 32 n := by
      rw [← hsh]
      unfold pendingShares
      rw [hzi]
    have hmem : i ∈ (s.tapes.get r.tape).prints ↔ r.pending ≠ none := by
      constructor
      · intro hm
        obtain ⟨x, h1, _, h3⟩ := htape.listed i hm
        rw [hq] at h1
        cases h1
        rw [hp]; exact h3
      · intro hn
        rw [ht]
        exact h.pending.onList i q hq (by rw [← hp]; exact hn)
    have hiu : i ∈ u.prints := by
      rcases hu with ⟨h1, h2⟩ | ⟨h1, _⟩
      · rw [h1]; exact hmem.mpr h2
      · rw [h1]; simp
    refine ⟨fun x => ⟨?_, ?_, ?_, ?_⟩, ?_, ?_, ?_⟩
    · rw [htap, Pair.get_put]
      split
      · rcases hu with ⟨h1, _⟩ | ⟨h1, h2⟩
        · rw [h1]; exact htape.once
        · rw [h1, List.nodup_append]
          refine ⟨htape.once, by simp, ?_⟩
          rintro a hm b hb rfl
          rw [List.mem_singleton] at hb
          exact (hmem.mp (hb ▸ hm)) h2
      · exact (h.tape x).once
    · intro j hj
      rw [htap, Pair.get_put] at hj
      split at hj
      · next e =>
        subst e
        by_cases hji : i = j
        · subst hji
          exact ⟨_, hzi, ht.symm, by simp⟩
        · rw [hne j hji]
          refine htape.listed j ?_
          rcases hu with ⟨h1, _⟩ | ⟨h1, _⟩
          · rw [h1] at hj; exact hj
          · rw [h1] at hj
            rcases List.mem_append.mp hj with hj | hj
            · exact hj
            · exact absurd (List.mem_singleton.mp hj).symm hji
      · next e =>
        have hji : i ≠ j := by
          rintro rfl
          obtain ⟨y, h1, h2, h3⟩ := (h.tape x).listed i hj
          rw [hq] at h1
          cases h1
          exact e (ht.trans h2)
        rw [hne j hji]
        exact (h.tape x).listed j hj
    · rw [tapePendingShares_eq, htap, Pair.get_put]
      split
      · next e =>
        subst e
        have hbal := htape.balanced
        rw [tapePendingShares_eq] at hbal
        rw [ha, hpr, hw, hbal]
        rcases hu with ⟨h1, h2⟩ | ⟨h1, h2⟩
        · have hm := hmem.mpr h2
          rw [h1, sumShares_erase (pendingShares z) hm, sumShares_erase (pendingShares s) hm, hsi,
            sumShares_congr (f := pendingShares z) (g := pendingShares s)
              (fun j hj => hshare j (fun c => (htape.once.mem_erase_iff.mp hj).1 c.symm))]
          ac_rfl
        · have h0 : pendingShares s i = 0 := by
            unfold pendingShares
            rw [hq]
            simp only [← hp, h2]
          have hnm : i ∉ (s.tapes.get r.tape).prints := fun hm => hmem.mp hm h2
          rw [h1, sumShares_append, hsi, h0,
            sumShares_congr (f := pendingShares z) (g := pendingShares s)
              (fun j hj => hshare j (fun c => hnm (c ▸ hj))),
            show (0 : Word32) + BitVec.ofNat 32 n = BitVec.ofNat 32 n from BitVec.zero_add _]
          ac_rfl
      · next e =>
        have hbal := (h.tape x).balanced
        rw [tapePendingShares_eq] at hbal
        rw [hbal, sumShares_congr (f := pendingShares z) (g := pendingShares s)]
        intro j hj
        refine hshare j ?_
        rintro rfl
        obtain ⟨y, h1, h2, h3⟩ := (h.tape x).listed i hj
        rw [hq] at h1
        cases h1
        exact e (ht.trans h2)
    · rw [htap, Pair.get_put]
      split
      · exact hb
      · exact (h.tape x).backlog
    · intro j y hy hn
      by_cases hj : i = j
      · subst hj
        rw [hzi] at hy
        cases hy
        rw [htap, ← ht, Pair.get_put_same]
        exact hiu
      · rw [hne j hj] at hy
        have := h.pending.onList j y hy hn
        rw [htap, Pair.get_put]
        split
        · next e =>
          rw [← e] at this
          rcases hu with ⟨h1, _⟩ | ⟨h1, _⟩
          · rw [h1]; exact this
          · rw [h1]; exact List.mem_append_left _ this
        · exact this
    · intro j y hy hn
      by_cases hj : i = j
      · subst hj
        rw [hzi] at hy
        cases hy
        exact hd
      · rw [hne j hj] at hy
        exact h.pending.priced j y hy hn
    · intro j y hy hn
      by_cases hj : i = j
      · subst hj
        rw [hzi] at hy
        cases hy
        simp
      · rw [hne j hj] at hy
        exact h.pending.retiring j y hy hn
  unfold Machine.tradeNotice
  dsimp only
  split
  · next hnone =>
    refine key _ _ (.inr ⟨rfl, hnone⟩) rfl rfl rfl (Nat.le_max_right ..) ?_
    dsimp only
    unfold pendingShares
    rw [hq]
    simp only [← hp, hnone]
    exact (BitVec.zero_add _).symm
  · next p hsome =>
    refine key _ _ (.inl ⟨rfl, by rw [hsome]; simp⟩) rfl rfl rfl htape.backlog ?_
    dsimp only
    unfold pendingShares
    rw [hq]
    simp only [← hp, hsome]

/-! ### Commands -/

variable {s : State}

theorem TapesLaw.applyList (h : TapesLaw s) (b : List Byte) : TapesLaw (applyList b s).1 := by
  unfold Machine.applyList
  dsimp only
  generalize (if flagAt b 6 0 = true then some (field b 7 3) else none) = close
  split
  · exact h
  · split
    · split
      · split
        · split <;> exact h
        · split
          · exact h
          · next i hi =>
            refine h.of_slots (by simp [listAt]) (fun j => ?_)
            by_cases hj : i = j
            · subst hj
              refine .inr ⟨fun r hr => ?_, fun r hr => ?_⟩
              · rw [lowestFree_free hi] at hr
                cases hr
              · rw [listAt_records, Vec.set_get, if_pos rfl] at hr
                cases hr
                exact ⟨rfl, by simp [newRecord]⟩
            · exact SameSlot.refl h (by rw [listAt_records, Vec.set_get, if_neg hj])
      · exact h
    · exact h

theorem TapesLaw.applyDelist (h : TapesLaw s) (b : List Byte) : TapesLaw (applyDelist b s).1 := by
  unfold Machine.applyDelist
  split
  · exact h
  · split
    · exact h
    · next i r hl =>
      split
      · have hr := fullLookup_record hl
        have h1 : TapesLaw (onTerminals (Terminal.dropEntries (· == i)) (unbindEntries (· == i) s)) :=
          h.of_same (by simp) (by simp)
        have hr1 : (onTerminals (Terminal.dropEntries (· == i)) (unbindEntries (· == i) s)).records[i] = some r := by
          simpa using hr
        unfold delistAt retire
        split
        · next hp =>
          refine h1.freeSlot (fun q hq => ?_)
          rw [hr1] at hq
          cases hq
          exact hp
        · next p hp => exact h1.setRecord hr1 ⟨rfl, rfl, fun _ hd => hd, fun _ => by simp [hp]⟩
      · exact h

theorem closeRecord_print (h : TapesLaw s) (i : SlotIx) (r : Record) (hr : s.records[i] = some r) :
    SamePrint r (closeRecord r) := by
  unfold closeRecord
  split
  · exact ⟨rfl, rfl, fun _ hd => hd, fun hc => by cases hc⟩
  · exact SamePrint.refl h hr

theorem TapesLaw.applySessionClose (h : TapesLaw s) (b : List Byte) : TapesLaw (applySessionClose b s).1 := by
  unfold Machine.applySessionClose
  split
  · exact h.mapAll (closeRecord_print h) (by simp [closeSession]) (by simp [closeSession])
  · exact h

theorem TapesLaw.applyDayRoll (h : TapesLaw s) (b : List Byte) : TapesLaw (applyDayRoll b s).1 := by
  unfold Machine.applyDayRoll
  split
  · exact h
  · split
    · exact h
    · next he =>
      simp only [not_or, not_not] at he
      have hn := h.noPrint (fun x => by cases x; exact he.1; exact he.2)
      refine h.mapAll (f := rollRecord) (fun i r hr => ?_) (by simp [rollDay]) (by simp [rollDay])
      obtain ⟨h1, h2⟩ := hn i r hr
      refine ⟨rfl, rfl, fun hp => absurd h1 hp, ?_⟩
      unfold rollRecord
      dsimp only
      split
      · intro hc; cases hc
      · intro hc; exact absurd hc h2

theorem TapesLaw.applyTableClear (h : TapesLaw s) (b : List Byte) : TapesLaw (applyTableClear b s).1 := by
  unfold Machine.applyTableClear
  split
  · exact h
  · have h1 := h.withdrawBoth
    have hn := h1.1.noPrint h1.2
    refine h1.1.of_slots (by simp [clearTable, freeAll]) (fun i => .inr ⟨fun r hr => (hn i r hr).1, fun r hr => ?_⟩)
    rw [clearTable_records] at hr
    cases hr

theorem TapesLaw.applyTrade (h : TapesLaw s) (b : List Byte) : TapesLaw (applyTrade b s).1 := by
  unfold Machine.applyTrade
  dsimp only
  split
  · exact h
  · split
    · exact h
    · next i r hl =>
      split
      · exact h
      · split
        · exact h
        · split
          · exact h
          · split
            · exact h
            · next p hp =>
              have hr := (liveLookup_record hl).1
              have h1 : TapesLaw (Machine.setRecord i (tradeRecord r p (field b 7 3)) s) :=
                h.setRecord hr ⟨rfl, rfl, fun _ _ => by simp [tradeRecord], fun hc => by cases hc⟩
              have h2 := h1.of_same
                (t := changeNotice i (tradeGroups r) (movedMark r p)
                  (Machine.setRecord i (tradeRecord r p (field b 7 3)) s)) (changeNotice_records ..) (changeNotice_tapes ..)
              refine h2.tradeNotice (q := tradeRecord r p (field b 7 3)) ?_ rfl rfl (by simp [tradeRecord]) _
              have := congrArg (fun v : Vector (Option Record) 2048 => v[i])
                (changeNotice_records (Machine.setRecord i (tradeRecord r p (field b 7 3)) s) i (tradeGroups r)
                  (movedMark r p))
              refine this.trans ?_
              exact (Vec.set_get _ i i _).trans (if_pos rfl)

theorem TapesLaw.postRecord (h : TapesLaw s) {i : SlotIx} {r r' : Record} {g : List Group} {m : Bool}
    (hr : s.records[i] = some r) (hs : SamePrint r r') : TapesLaw (changeNotice i g m (Machine.setRecord i r' s)) :=
  (h.setRecord hr hs).of_same (changeNotice_records ..) (changeNotice_tapes ..)

theorem live_notRetiring {r : Record} (h : r.state.isLive = true) : r.state ≠ .retiring := by
  intro c
  rw [c] at h
  cases h

theorem TapesLaw.applyQuote (h : TapesLaw s) (b : List Byte) : TapesLaw (applyQuote b s).1 := by
  unfold Machine.applyQuote
  dsimp only
  split
  · exact h
  · split
    · exact h
    · next i r hl =>
      split
      · exact h
      · split
        · next bid ask _ _ =>
          split
          · exact h
          · have hr := (liveLookup_record hl).1
            exact h.postRecord (r' := { r with bid := bid, ask := ask }) hr
              ⟨rfl, rfl, fun _ hd => hd, h.pending.retiring i r hr⟩
        · exact h

theorem TapesLaw.applyHalt (h : TapesLaw s) (b : List Byte) : TapesLaw (applyHalt b s).1 := by
  unfold Machine.applyHalt
  split
  · exact h
  · split
    · exact h
    · next i r hl =>
      split
      · exact h
      · next q _ =>
        exact h.postRecord (r' := { r with state := .halted q }) (liveLookup_record hl).1
          ⟨rfl, rfl, fun _ hd => hd, fun hc => by cases hc⟩

theorem resumeState_notRetiring (x : SessionPhase) (y : Bool) : resumeState x y ≠ .retiring := by
  cases x <;> cases y <;> decide

theorem TapesLaw.applyResume (h : TapesLaw s) (b : List Byte) : TapesLaw (applyResume b s).1 := by
  unfold Machine.applyResume
  dsimp only
  split
  · exact h
  · split
    · exact h
    · next i r hl =>
      split
      · exact h.postRecord (r' := { r with state := resumeState s.phase r.day.isSome }) (liveLookup_record hl).1
          ⟨rfl, rfl, fun _ hd => hd, fun hc => absurd hc (resumeState_notRetiring _ _)⟩
      · exact h

theorem TapesLaw.applyTapeClear (h : TapesLaw s) (b : List Byte) : TapesLaw (applyTapeClear b s).1 := by
  unfold Machine.applyTapeClear
  split
  · exact h
  · exact (h.withdrawAll _).1

/-- A tape unit replaced by one with the same list and accounts. -/
theorem TapesLaw.setUnit (h : TapesLaw s) {t : AB} {u : TapeUnit} (hp : u.prints = (s.tapes.get t).prints)
    (ha : u.accepted = (s.tapes.get t).accepted) (hpr : u.printed = (s.tapes.get t).printed)
    (hw : u.withdrawn = (s.tapes.get t).withdrawn) (hb : u.backlogMax = (s.tapes.get t).backlogMax) :
    TapesLaw (setTape t u s) := by
  refine h.of_units rfl (fun x => ?_)
  rw [setTape_tapes, Pair.get_put]
  split
  · next e =>
    subst e
    exact ⟨hp, ha, hpr, hw, by rw [hb]; exact (h.tape _).backlog⟩
  · exact ⟨rfl, rfl, rfl, rfl, (h.tape x).backlog⟩

theorem TapesLaw.applyNotice (h : TapesLaw s) (b : List Byte) : TapesLaw (applyNotice b s).1 := by
  unfold Machine.applyNotice stageNotice
  dsimp only
  (repeat' split) <;> first | exact h | exact h.setUnit rfl rfl rfl rfl rfl

theorem TapesLaw.applyReadStatus (h : TapesLaw s) (b : List Byte) : TapesLaw (applyReadStatus b s).1 := by
  unfold Machine.applyReadStatus
  dsimp only
  (repeat' split) <;> first
    | exact h
    | exact h.of_same rfl rfl
    | (refine h.of_units rfl (fun x => ?_)
       unfold clearBacklogMaxima
       rw [Pair.get_map]
       exact ⟨rfl, rfl, rfl, rfl, Nat.le_refl _⟩)

theorem TapesLaw.setStale (h : TapesLaw s) (x : Bool) : TapesLaw (setStale x s) := by
  refine h.of_units rfl (fun y => ?_)
  have : (Machine.setStale x s).tapes
      = s.tapes.map (fun u => { u with feedSlot := some (if x then quotesDelayed else quotesResumed) }) := rfl
  rw [this, Pair.get_map]
  exact ⟨rfl, rfl, rfl, rfl, (h.tape y).backlog⟩

theorem TapesLaw.completeFrame (h : TapesLaw s) (c : Byte) : TapesLaw (completeFrame c s) := by
  unfold Machine.completeFrame queueFrame noteIntact
  dsimp only
  (repeat' split) <;> first
    | exact h
    | exact h.of_same rfl rfl
    | exact TapesLaw.of_same (s := Machine.setStale false _)
        (TapesLaw.setStale (h.of_same (t := { setReceiver .hunting s with feed := _ }) rfl rfl) false) rfl rfl

theorem TapesLaw.expireQuietLimit (h : TapesLaw s) : TapesLaw (expireQuietLimit s) := by
  unfold Machine.expireQuietLimit
  split
  · exact h.setStale true
  · exact h

theorem TapesLaw.evaluateTape (h : TapesLaw s) (t : AB) : TapesLaw (evaluateTape t s) := by
  unfold Machine.evaluateTape
  dsimp only
  have key : ∀ (m : Nat) (th : Thresholds) (n : Nat),
      TapesLaw (setTape t (evaluateMode th n (evaluateLateness m (s.tapes.get t))) s) := by
    intro m th n
    refine h.setUnit ?_ ?_ ?_ ?_ ?_ <;>
      (unfold evaluateMode evaluateLateness; (repeat' split) <;> rfl)
  split
  · exact key _ _ _
  · exact (key _ _ _).of_same rfl rfl

theorem TapesLaw.chooseItem (h : TapesLaw s) (t : AB) : TapesLaw (chooseItem t s).1 := by
  unfold Machine.chooseItem choosePrint
  dsimp only
  split
  · exact h.setUnit rfl rfl rfl rfl rfl
  · split
    · exact h.setUnit rfl rfl rfl rfl rfl
    · split
      · exact h.setUnit rfl rfl rfl rfl rfl
      · split
        · exact h.setUnit rfl rfl rfl rfl rfl
        · split
          · exact h
          · next i rest hl =>
            split
            · exact h
            · split
              · exact h
              · unfold composeHead
                dsimp only
                refine h.takeOff (by rw [hl]; exact List.mem_cons_self ..) ?_ rfl ?_ rfl
                · rw [hl, List.erase_cons_head]
                  rfl
                · dsimp only
                  ac_rfl



theorem stepRibbon_tapes (t : AB) (s : State) :
    ((stepRibbon t s).records = s.records ∧ (stepRibbon t s).tapes = s.tapes) ∨
      ((stepRibbon t s).records = (select t s).1.records ∧ (stepRibbon t s).tapes = (select t s).1.tapes) := by
  unfold stepRibbon
  dsimp only
  (repeat' split) <;> first
    | exact .inl ⟨rfl, rfl⟩
    | exact .inl (by simp)
    | (right; unfold stepSelect; split <;> simp_all)

theorem TapesLaw.stepRibbon (h : TapesLaw s) (t : AB) : TapesLaw (stepRibbon t s) := by
  rcases stepRibbon_tapes t s with e | e
  · exact h.of_same e.1 e.2
  · exact ((h.evaluateTape t).chooseItem t).of_same e.1 e.2

theorem TapesLaw.restartAll (h : TapesLaw s) : TapesLaw (restartAll s) := by
  have h1 := (TapesLaw.withdrawBoth (s := restartFeed s) (h.of_same rfl rfl)).1
  refine h1.of_units (restartAll_records s) (fun x => ?_)
  have : (Machine.restartAll s).tapes
      = (Machine.withdrawAll .b (Machine.withdrawAll .a (restartFeed s))).tapes.map restartTape := by
    unfold Machine.restartAll
    simp [restartTapes]
  rw [this, Pair.get_map]
  exact ⟨rfl, rfl, rfl, rfl, (h1.tape x).backlog⟩

theorem State.reset_tapes : TapesLaw State.reset := by
  have hu : ∀ x, State.reset.tapes.get x = TapeUnit.reset := by intro x; cases x <;> rfl
  refine ⟨fun x => ⟨?_, ?_, ?_, ?_⟩, ?_, ?_, ?_⟩
  · rw [hu]; exact List.nodup_nil
  · rw [hu]; intro i hi; cases hi
  · rw [tapePendingShares_eq, hu]; rfl
  · rw [hu]; exact Nat.zero_le _
  all_goals
    intro i r hr
    rw [State.reset_free] at hr
    cases hr

/-! ### Every command -/

/-- Every command keeps the law. -/
theorem tapes_kept : KeptByCommands TapesLaw TapesLaw where
  remove _ h _ := h.of_same rfl rfl
  place _ _ _ s h := h.of_same rfl rfl
  list b s h := h.applyList b
  delist b s h := h.applyDelist b
  queryRecord b s h := by rw [applyQueryRecord_frame]; exact h
  sessionOpen b s h := by rw [applySessionOpen_frame]; exact h.of_same rfl rfl
  sessionClose b s h := h.applySessionClose b
  dayRoll b s h := h.applyDayRoll b
  tableClear b s h := h.applyTableClear b
  trade b s h := h.applyTrade b
  quote b s h := h.applyQuote b
  halt b s h := h.applyHalt b
  resume b s h := h.applyResume b
  loadEntry b s h := by rw [applyLoadEntry_frame]; exact h.of_same rfl rfl
  unloadEntry b s h := by rw [applyUnloadEntry_frame]; exact h.of_same rfl rfl
  definePage b s h := by rw [applyDefinePage_frame]; exact h.of_same rfl rfl
  undefinePage b s h := by rw [applyUndefinePage_frame]; exact h.of_same rfl rfl
  showPage b s h := by rw [applyShowPage_frame]; exact h.of_same rfl rfl
  restorePanel b s h := by rw [applyRestorePanel_frame]; exact h.of_same rfl rfl
  clearFaults b s h := by rw [applyClearFaults_frame]; exact h.of_same rfl rfl
  tapeStart b s h := by rw [applyTapeStart_frame]; exact h.of_same rfl rfl
  tapeStop b s h := by rw [applyTapeStop_frame]; exact h.of_same rfl rfl
  tapeClear b s h := h.applyTapeClear b
  notice b s h := h.applyNotice b
  terminalEnable b s h := by rw [applyTerminalEnable_frame]; exact h.of_same rfl rfl
  setParameter b s h := by rw [applySetParameter_frame]; exact h.of_same rfl rfl
  readParameter b s h := by rw [applyReadParameter_frame]; exact h
  readStatus b s h := h.applyReadStatus b
  clearConditions b s h := by rw [applyClearConditions_frame]; exact h.of_same rfl rfl
  restart _ s h := h.restartAll
  takeFeedChar c s h := by rw [takeFeedChar_frame]; exact h.of_same rfl rfl
  takeFeedFailure x s h := by rw [takeFeedFailure_frame]; exact h.of_same rfl rfl
  expireFrameGap s h := by rw [expireFrameGap_frame]; exact h.of_same rfl rfl
  sendReply s h := by rw [sendReply_frame]; exact h.of_same rfl rfl
  completeFrame c s h := h.completeFrame c
  expireQuietLimit s h := h.expireQuietLimit
  startWrite s h := by rw [startWrite_frame]; exact h.of_same rfl rfl
  completeWrite s h := by rw [completeWrite_frame]; exact h.of_same rfl rfl
  startPeriod x s h := by rw [startPeriod_frame]; exact h.of_same rfl rfl
  sampleRail i w f s h := by rw [sampleRail_frame]; exact h.of_same rfl rfl
  changeRail i s h := by rw [changeRail_frame]; exact h.of_same rfl rfl
  endGap s h := by rw [endGap_frame]; exact h.of_same rfl rfl
  startRead s h := by rw [startRead_frame]; exact h.of_same rfl rfl
  takeEcho e s h := by rw [takeEcho_frame]; exact h.of_same rfl rfl
  endEchoLimit s h := by rw [endEchoLimit_frame]; exact h.of_same rfl rfl
  stepRibbon t s h := h.stepRibbon t
  visitLine l s h := by rw [visitLine_frame]; exact h.of_same rfl rfl
  openWindow l s h := by rw [openWindow_frame]; exact h.of_same rfl rfl
  expireWindow l s h := by rw [expireWindow_frame]; exact h.of_same rfl rfl
  expireReplyGap l s h := by rw [expireReplyGap_frame]; exact h.of_same rfl rfl
  expireSettling l s h := by rw [expireSettling_frame]; exact h.of_same rfl rfl
  takeReplyChar l c s h := by rw [takeReplyChar_frame]; exact h.of_same rfl rfl
  takeLineFailure l x s h := by rw [takeLineFailure_frame]; exact h.of_same rfl rfl
  completeReply l c s h := by rw [completeReply_frame]; exact h.of_same rfl rfl
  endEmptyRound l s h := by rw [endEmptyRound_frame]; exact h.of_same rfl rfl
  restartAll s h := h.restartAll
  powerOn b s := State.reset_tapes.of_same rfl rfl
  withPending _ s h := h.of_same rfl rfl
  nextInterval s h := h.of_same (by simp) (by simp)

end Sys2Proof.Machine
end

