-- ==== Sys2Proof/Laws/TerminalsLaw.lean ====
section
/-! SUPPORT. The laws of the terminal records and the line controllers (R138 to R140, R145, R148), operation by
operation. -/

namespace Sys2Proof.Machine

/-! ### Outstanding items -/

theorem Outstanding.Held.of_kept {t u : Terminal} {o : Outstanding} (h : o.Held t)
    (hm : u.takesMarks = t.takesMarks) (ha : u.answer = t.answer)
    (hw : t.takesMarks = true → u.watched = t.watched) : o.Held u := by
  cases o with
  | nothing => trivial
  | answer f => exact ⟨hm.trans h.1, ha.trans h.2⟩
  | active sym => exact ⟨hm.trans h.1, by rw [hw h.1]; exact h.2⟩
  | dropped sym n =>
    refine ⟨hm.trans h.1, by rw [hw h.1]; exact h.2.1, ?_⟩
    have := congrArg List.length (hw h.1)
    simp only [Terminal.watched, List.length_map] at this
    rw [this]
    exact h.2.2

theorem Outstanding.Held.dropped_room {t : Terminal} {o : Outstanding} (h : o.Held t) (sym : Symbol) (n : Nat)
    (ho : o = .dropped sym n) : sym ∉ t.watched ∧ t.watch.length ≤ 11 := by
  subst ho
  exact h.2

/-! ### The visit of a line, its round apart -/

/-- What the law of a line says of the visit in progress. -/
structure VisitLaw (s : State) (line : LineIx) : Prop where
  visiting : ∀ v, (s.lines[line]).visit = some v → (s.lines[line]).round = .atDrop (v.drop.val + 1)
  attached : ∀ v, (s.lines[line]).visit = some v → v.detached = false →
    (s.terminals[terminalAt line v.drop]).enabled = true
      ∧ v.outstanding.Held s.terminals[terminalAt line v.drop]
  detached : ∀ v, (s.lines[line]).visit = some v → v.detached = true → v.outstanding = .nothing

theorem LineLaw.visitLaw {s : State} {l : LineIx} (h : LineLaw s l) : VisitLaw s l :=
  ⟨h.visiting, h.attached, h.detached⟩

theorem VisitLaw.lineLaw {s : State} {l : LineIx} (h : VisitLaw s l)
    (hi : (s.lines[l]).visit = none → ((s.lines[l]).round = .idle ↔ anyEnabled s l = false)) : LineLaw s l :=
  ⟨h.visiting, h.attached, h.detached, hi⟩

theorem VisitLaw.none {s : State} {l : LineIx} (h : (s.lines[l]).visit = none) : VisitLaw s l := by
  refine ⟨?_, ?_, ?_⟩ <;> (intro v hv; rw [h] at hv; cases hv)

theorem anyEnabled_congr {s t : State} {l : LineIx}
    (h : ∀ d, (t.terminals[terminalAt l d]).enabled = (s.terminals[terminalAt l d]).enabled) :
    anyEnabled t l = anyEnabled s l := by
  unfold anyEnabled
  congr 1
  funext d
  exact h d

/-- The law of a line through changes of its terminals that keep what the line reads. -/
theorem LineLaw.of_terminals {s t : State} {l : LineIx} (h : LineLaw s l) (hl : t.lines[l] = s.lines[l])
    (he : ∀ d, (t.terminals[terminalAt l d]).enabled = (s.terminals[terminalAt l d]).enabled)
    (hh : ∀ d (o : Outstanding), o.Held s.terminals[terminalAt l d] → o.Held t.terminals[terminalAt l d]) :
    LineLaw t l := by
  refine ⟨?_, ?_, ?_, ?_⟩
  · rw [hl]; exact h.visiting
  · intro v hv hd
    rw [hl] at hv
    have := h.attached v hv hd
    exact ⟨(he _).trans this.1, hh _ _ this.2⟩
  · rw [hl]; exact h.detached
  · rw [hl, anyEnabled_congr he]; exact h.idle

variable {s : State}

theorem TerminalsLaw.of_same {t : State} (h : TerminalsLaw s) (hl : t.lines = s.lines)
    (ht : t.terminals = s.terminals) : TerminalsLaw t := by
  refine ⟨by rw [ht]; exact h.terminal, fun l => (h.line l).of_terminals (by rw [hl]) ?_ ?_⟩
  · intro d; rw [ht]
  · intro d o ho; rw [ht]; exact ho

theorem TerminalsLaw.onTerminals (h : TerminalsLaw s) {f : Terminal → Terminal}
    (hf : ∀ t, TerminalLaw t → TerminalLaw (f t)) (he : ∀ t, (f t).enabled = t.enabled)
    (hh : ∀ t (o : Outstanding), o.Held t → o.Held (f t)) : TerminalsLaw (onTerminals f s) := by
  have hx : ∀ x : TermIx, (Machine.onTerminals f s).terminals[x] = f s.terminals[x] := fun x => Vec.mapIx_get _ _ _
  refine ⟨fun x => ?_, fun l => (h.line l).of_terminals rfl (fun d => ?_) (fun d o ho => ?_)⟩
  · rw [hx]; exact hf _ (h.terminal x)
  · rw [hx]; exact he _
  · rw [hx]; exact hh _ o ho

theorem TerminalsLaw.changeNotice (h : TerminalsLaw s) (i : SlotIx) (g : List Group) (m : Bool) :
    TerminalsLaw (changeNotice i g m s) := by
  unfold Machine.changeNotice
  refine TerminalsLaw.onTerminals (h.of_same (by simp) (by simp)) (fun t ht => ht.notice i) (by simp) ?_
  intro t o ho
  exact ho.of_kept (by simp) (by simp) (by simp)

theorem TerminalsLaw.changeNotices (h : TerminalsLaw s) (is : List SlotIx) (g : List Group) :
    TerminalsLaw (changeNotices is g s) :=
  foldl_keeps (P := TerminalsLaw) (fun _ i hs => TerminalsLaw.changeNotice hs i g false) is s h

theorem TerminalsLaw.dropAll (h : TerminalsLaw s) (hit : SlotIx → Bool) :
    TerminalsLaw (Machine.onTerminals (Terminal.dropEntries hit) (unbindEntries hit s)) := by
  refine TerminalsLaw.onTerminals (h.of_same (by simp) (by simp)) (fun t ht => ht.dropEntries hit) (by simp) ?_
  intro t o ho
  exact ho.of_kept (by simp) (by simp) (fun hm => Terminal.dropEntries_watched hit hm)

/-! ### Commands of the record table -/

theorem TerminalsLaw.of_table (h : TerminalsLaw s) (w : SessionPhase) (x : Vector (Option Record) 2048)
    (y : List (Symbol × SlotIx)) (z : Vector (Option Entry) 2048) :
    TerminalsLaw { s with phase := w, records := x, directory := y, entries := z } := h.of_same rfl rfl

theorem TerminalsLaw.applyList (h : TerminalsLaw s) (b : List Byte) : TerminalsLaw (applyList b s).1 := by
  unfold Machine.applyList Machine.listAt
  dsimp only
  (repeat' split) <;> first
    | exact h
    | exact TerminalsLaw.changeNotice (h.of_table _ _ _ _) _ _ _

theorem TerminalsLaw.applyDelist (h : TerminalsLaw s) (b : List Byte) : TerminalsLaw (applyDelist b s).1 := by
  unfold Machine.applyDelist Machine.delistAt Machine.retire
  (repeat' split) <;> first
    | exact h
    | exact (h.dropAll _).of_same rfl rfl

theorem TerminalsLaw.applySessionClose (h : TerminalsLaw s) (b : List Byte) :
    TerminalsLaw (applySessionClose b s).1 := by
  unfold Machine.applySessionClose Machine.closeSession
  split
  · exact TerminalsLaw.changeNotices (h.of_table _ _ _ _) _ _
  · exact h

theorem TerminalsLaw.applyDayRoll (h : TerminalsLaw s) (b : List Byte) : TerminalsLaw (applyDayRoll b s).1 := by
  unfold Machine.applyDayRoll Machine.rollDay
  (repeat' split) <;> first
    | exact h
    | exact TerminalsLaw.changeNotices (h.of_table _ _ _ _) _ _

theorem TerminalsLaw.applyTableClear (h : TerminalsLaw s) (b : List Byte) :
    TerminalsLaw (applyTableClear b s).1 := by
  unfold Machine.applyTableClear Machine.clearTable Machine.freeAll
  split
  · exact h
  · have h1 : TerminalsLaw (Machine.withdrawAll .b (Machine.withdrawAll .a s)) := h.of_same (by simp) (by simp)
    exact (h1.dropAll (fun _ => true)).of_same rfl rfl

theorem TerminalsLaw.applyTrade (h : TerminalsLaw s) (b : List Byte) : TerminalsLaw (applyTrade b s).1 := by
  unfold Machine.applyTrade Machine.postTrade
  dsimp only
  (repeat' split) <;> first
    | exact h
    | exact TerminalsLaw.of_same (TerminalsLaw.changeNotice (h.of_table _ _ _ _) _ _ _) (tradeNotice_lines ..)
        (tradeNotice_terminals ..)

theorem TerminalsLaw.applyQuote (h : TerminalsLaw s) (b : List Byte) : TerminalsLaw (applyQuote b s).1 := by
  unfold Machine.applyQuote Machine.postQuote
  dsimp only
  (repeat' split) <;> first
    | exact h
    | exact TerminalsLaw.changeNotice (h.of_table _ _ _ _) _ _ _

theorem TerminalsLaw.applyHalt (h : TerminalsLaw s) (b : List Byte) : TerminalsLaw (applyHalt b s).1 := by
  unfold Machine.applyHalt Machine.postState
  (repeat' split) <;> first
    | exact h
    | exact TerminalsLaw.changeNotice (h.of_table _ _ _ _) _ _ _

theorem TerminalsLaw.applyResume (h : TerminalsLaw s) (b : List Byte) : TerminalsLaw (applyResume b s).1 := by
  unfold Machine.applyResume Machine.postState
  dsimp only
  (repeat' split) <;> first
    | exact h
    | exact TerminalsLaw.changeNotice (h.of_table _ _ _ _) _ _ _

/-! ### One line -/

/-- A change of one line and of the terminals on it: the law of every other line stays. -/
theorem TerminalsLaw.at_line {t : State} (h : TerminalsLaw s) {l : LineIx}
    (hl : ∀ x : LineIx, x ≠ l → t.lines[x] = s.lines[x])
    (ht : ∀ x : TermIx, lineOf x ≠ l → t.terminals[x] = s.terminals[x])
    (hT : ∀ d, TerminalLaw t.terminals[terminalAt l d]) (hL : LineLaw t l) : TerminalsLaw t := by
  refine ⟨fun x => ?_, fun x => ?_⟩
  · by_cases hx : lineOf x = l
    · subst hx
      have := hT (dropOf x)
      simp only [terminalAt_lineOf] at this
      exact this
    · rw [ht x hx]; exact h.terminal x
  · by_cases hx : x = l
    · subst hx; exact hL
    · have hn : ∀ d, lineOf (terminalAt x d) ≠ l := by intro d; rw [lineOf_terminalAt]; exact hx
      refine (h.line x).of_terminals (hl x hx) (fun d => ?_) (fun d o ho => ?_)
      · rw [ht _ (hn d)]
      · rw [ht _ (hn d)]; exact ho

theorem setLine_get (l x : LineIx) (f : Line → Line) (s : State) :
    (setLine l f s).lines[x] = if l = x then f s.lines[x] else s.lines[x] := Vec.update_get _ _ _ _

theorem setTerminal_get (a x : TermIx) (f : Terminal → Terminal) (s : State) :
    (setTerminal a f s).terminals[x] = if a = x then f s.terminals[x] else s.terminals[x] := Vec.update_get _ _ _ _

/-- Only the line and its terminals differ. -/
structure OnlyLine (l : LineIx) (s t : State) : Prop where
  lines : ∀ x : LineIx, x ≠ l → t.lines[x] = s.lines[x]
  terminals : ∀ x : TermIx, lineOf x ≠ l → t.terminals[x] = s.terminals[x]

theorem OnlyLine.refl (l : LineIx) (s : State) : OnlyLine l s s := ⟨fun _ _ => rfl, fun _ _ => rfl⟩

theorem OnlyLine.trans {l : LineIx} {s t u : State} (h : OnlyLine l s t) (k : OnlyLine l t u) : OnlyLine l s u :=
  ⟨fun x hx => (k.lines x hx).trans (h.lines x hx), fun x hx => (k.terminals x hx).trans (h.terminals x hx)⟩

theorem OnlyLine.of_same {l : LineIx} {s t u : State} (h : OnlyLine l s t) (hl : u.lines = t.lines)
    (ht : u.terminals = t.terminals) : OnlyLine l s u :=
  ⟨fun x hx => by rw [hl]; exact h.lines x hx, fun x hx => by rw [ht]; exact h.terminals x hx⟩

theorem OnlyLine.setLine (l : LineIx) (f : Line → Line) (s : State) : OnlyLine l s (setLine l f s) :=
  ⟨fun x hx => by rw [setLine_get, if_neg (Ne.symm hx)], fun _ _ => rfl⟩

theorem OnlyLine.setTerminal (l : LineIx) (d : DropIx) (f : Terminal → Terminal) (s : State) :
    OnlyLine l s (setTerminal (terminalAt l d) f s) := by
  refine ⟨fun _ _ => rfl, fun x hx => ?_⟩
  rw [setTerminal_get, if_neg]
  rintro rfl
  exact hx (lineOf_terminalAt l d)

theorem TerminalsLaw.only {t : State} (h : TerminalsLaw s) {l : LineIx} (ho : OnlyLine l s t)
    (hT : ∀ d, TerminalLaw t.terminals[terminalAt l d]) (hL : LineLaw t l) : TerminalsLaw t :=
  h.at_line ho.lines ho.terminals hT hL

/-! ### Rounds -/

theorem beginRound_terminals' (l : LineIx) (n : BitVec 16) (s : State) :
    (beginRound l n s).terminals = s.terminals := by
  unfold beginRound
  rfl

theorem beginRound_line (l : LineIx) (n : BitVec 16) (s : State) :
    ((beginRound l n s).lines[l]).visit = (s.lines[l]).visit ∧ ((beginRound l n s).lines[l]).round ≠ .idle := by
  unfold beginRound
  dsimp only
  rw [setLine_get, if_pos rfl]
  refine ⟨rfl, ?_⟩
  dsimp only
  split <;> simp

theorem OnlyLine.beginRound (l : LineIx) (n : BitVec 16) (s : State) : OnlyLine l s (beginRound l n s) := by
  unfold Machine.beginRound
  exact OnlyLine.setLine ..

theorem OnlyLine.advanceRound (l : LineIx) (s : State) : OnlyLine l s (advanceRound l s) := by
  unfold Machine.advanceRound
  dsimp only
  (repeat' split) <;> first
    | exact OnlyLine.refl l s
    | exact OnlyLine.beginRound ..
    | exact OnlyLine.setLine ..

theorem advanceRound_terminals' (l : LineIx) (s : State) : (advanceRound l s).terminals = s.terminals := by
  unfold advanceRound
  dsimp only
  (repeat' split) <;> rfl

/-- R139: with no visit in progress, the line is IDLE exactly while no drop is enabled. -/
theorem advanceRound_law {l : LineIx} (hv : (s.lines[l]).visit = none) : LineLaw (advanceRound l s) l := by
  have hen : anyEnabled (advanceRound l s) l = anyEnabled s l :=
    anyEnabled_congr (fun d => by rw [advanceRound_terminals'])
  have key : ((advanceRound l s).lines[l]).visit = none
      ∧ (((advanceRound l s).lines[l]).round = .idle ↔ anyEnabled s l = false) := by
    unfold advanceRound
    dsimp only
    split
    · next he =>
      have hb : ∀ n, ((beginRound l n s).lines[l]).visit = none
          ∧ (((beginRound l n s).lines[l]).round = .idle ↔ anyEnabled s l = false) := fun n =>
        ⟨(beginRound_line l n s).1.trans hv, iff_of_false (beginRound_line l n s).2 (by rw [he]; simp)⟩
      split
      · exact hb _
      · next hr => exact ⟨hv, iff_of_false (by rw [hr]; simp) (by rw [he]; simp)⟩
      · next hr => exact ⟨hv, iff_of_false (by rw [hr]; simp) (by rw [he]; simp)⟩
      · next hr =>
        split
        · exact ⟨hv, iff_of_false (by rw [hr]; simp) (by rw [he]; simp)⟩
        · split
          · rw [setLine_get, if_pos rfl]
            exact ⟨hv, iff_of_false (by simp) (by rw [he]; simp)⟩
          · exact hb _
    · next he =>
      rw [setLine_get, if_pos rfl]
      exact ⟨hv, iff_of_true rfl (by simpa using he)⟩
  refine (VisitLaw.none key.1).lineLaw (fun _ => ?_)
  rw [hen]
  exact key.2

theorem OnlyLine.endVisit (l : LineIx) (s : State) : OnlyLine l s (endVisit l s) := by
  unfold Machine.endVisit
  exact (OnlyLine.setLine l _ s).trans (OnlyLine.advanceRound l _)

theorem endVisit_law (l : LineIx) (s : State) : LineLaw (endVisit l s) l := by
  unfold endVisit
  refine advanceRound_law ?_
  rw [setLine_get, if_pos rfl]

theorem endVisit_terminals' (l : LineIx) (s : State) : (endVisit l s).terminals = s.terminals := by
  unfold endVisit
  rw [advanceRound_terminals']
  rfl

/-- A visit whose effects on the terminals have been applied ends. -/
theorem TerminalsLaw.ended {t : State} (h : TerminalsLaw s) {l : LineIx} (ho : OnlyLine l s t)
    (hT : ∀ d, TerminalLaw t.terminals[terminalAt l d]) : TerminalsLaw (endVisit l t) :=
  h.only (ho.trans (OnlyLine.endVisit l t)) (by rw [endVisit_terminals']; exact hT) (endVisit_law l t)

theorem TerminalsLaw.endEmptyRound (h : TerminalsLaw s) (l : LineIx) : TerminalsLaw (endEmptyRound l s) := by
  unfold Machine.endEmptyRound
  split
  · next began hr =>
    split
    · have hnone : (s.lines[l]).visit = none := by
        cases hv : (s.lines[l]).visit with
        | none => rfl
        | some v =>
          have := (h.line l).visiting v hv
          rw [hr] at this
          cases this
      refine h.only (OnlyLine.beginRound ..) (fun d => by rw [beginRound_terminals']; exact h.terminal _) ?_
      have hb := beginRound_line l ((s.lines[l]).counter + 1) s
      refine (VisitLaw.none (hb.1.trans hnone)).lineLaw (fun _ => iff_of_false hb.2 ?_)
      rw [anyEnabled_congr (s := s) (fun d => by rw [beginRound_terminals'])]
      intro hc
      have := ((h.line l).idle hnone).mpr hc
      rw [hr] at this
      cases this
    · exact h
  · exact h
  · exact h
  · exact h

/-! ### Visits -/

theorem TerminalsLaw.beginVisit (h : ∀ x : TermIx, TerminalLaw s.terminals[x]) {l : LineIx} {d : DropIx}
    (he : (s.terminals[terminalAt l d]).enabled = true) :
    (∀ d', TerminalLaw (beginVisit l d s).terminals[terminalAt l d']) ∧ LineLaw (beginVisit l d s) l := by
  have hter : ∀ x, (Machine.beginVisit l d s).terminals[x] = if terminalAt l d = x then
      (formFrame s s.terminals[terminalAt l d]).terminal else s.terminals[x] := fun x => setTerminal_get _ _ _ _
  have hline : (Machine.beginVisit l d s).lines[l] = { s.lines[l] with
      round := .atDrop (d.val + 1)
      visit := some ⟨d, (formFrame s s.terminals[terminalAt l d]).frame,
        (formFrame s s.terminals[terminalAt l d]).outstanding, .sending, false⟩ } := by
    have := setLine_get l l (fun l' =>
      { l' with
        round := .atDrop (d.val + 1)
        visit := some ⟨d, (formFrame s s.terminals[terminalAt l d]).frame,
          (formFrame s s.terminals[terminalAt l d]).outstanding, .sending, false⟩ }) s
    exact this.trans (if_pos rfl)
  refine ⟨fun d' => ?_, ?_, ?_, ?_, ?_⟩
  · rw [hter]
    split
    · exact (h _).formFrame s
    · exact h _
  · intro v hv
    rw [hline] at hv ⊢
    cases hv
    rfl
  · intro v hv _
    rw [hline] at hv
    cases hv
    dsimp only
    rw [hter, if_pos rfl]
    exact ⟨(formFrame_enabled s _).trans he, (h _).formFrame_held s⟩
  · intro v hv hd
    rw [hline] at hv
    cases hv
    cases hd
  · intro hv
    rw [hline] at hv
    cases hv

theorem OnlyLine.beginVisit (l : LineIx) (d : DropIx) (s : State) : OnlyLine l s (beginVisit l d s) := by
  unfold Machine.beginVisit
  exact (OnlyLine.setLine l _ s).trans (OnlyLine.setTerminal l d _ _)

theorem nextDue_enabled {l : LineIx} {c : BitVec 16} {n k : Nat} {d : DropIx} (h : nextDue s l c n k = some d) :
    (s.terminals[terminalAt l d]).enabled = true := by
  have := List.find?_some h
  rw [Bool.and_eq_true] at this
  unfold Terminal.due at this
  exact (Bool.and_eq_true_iff.mp this.2).1

theorem TerminalsLaw.visitLine (h : TerminalsLaw s) (l : LineIx) : TerminalsLaw (visitLine l s) := by
  unfold Machine.visitLine visitNext
  split
  · exact h
  next hv =>
  · split
    · exact h
    · exact h
    · split
      · exact h
      · next d hd =>
        have := TerminalsLaw.beginVisit h.terminal (nextDue_enabled hd)
        exact h.only (OnlyLine.beginVisit l d s) this.1 this.2
    · split
      · have ho := OnlyLine.setLine l (fun l => { l with spacing := s.params.probeSpacing }) s
        split
        · refine h.only ho (fun d => h.terminal _) ?_
          have hl : (Machine.setLine l (fun l => { l with spacing := s.params.probeSpacing }) s).lines[l]
              = { s.lines[l] with spacing := s.params.probeSpacing } := (setLine_get _ _ _ _).trans (if_pos rfl)
          have hn := (h.line l).idle hv
          refine (VisitLaw.none (by rw [hl]; exact hv)).lineLaw (fun _ => ?_)
          rw [hl]
          exact hn
        · next d hd =>
          have := TerminalsLaw.beginVisit
            (s := Machine.setLine l (fun l => { l with spacing := s.params.probeSpacing }) s) h.terminal
            (nextDue_enabled hd)
          exact h.only (ho.trans (OnlyLine.beginVisit l d _)) this.1 this.2
      · exact h

/-- The visit goes on in another phase; its outstanding item is kept or given back. -/
theorem LineLaw.setVisit {t : State} {l : LineIx} {v v' : Visit} (h : VisitLaw s l)
    (hv : (s.lines[l]).visit = some v) (hr : (t.lines[l]).round = (s.lines[l]).round)
    (hv' : (t.lines[l]).visit = some v') (hd : v'.drop = v.drop) (hdet : v'.detached = v.detached)
    (he : v.detached = false →
      (t.terminals[terminalAt l v.drop]).enabled = (s.terminals[terminalAt l v.drop]).enabled)
    (ho : v'.outstanding = .nothing ∨
      (v'.outstanding = v.outstanding ∧ t.terminals[terminalAt l v.drop] = s.terminals[terminalAt l v.drop])) :
    LineLaw t l := by
  obtain ⟨vd, vf, vo, vp, vdet⟩ := v'
  dsimp only at hd
  subst hd
  refine ⟨?_, ?_, ?_, ?_⟩
  · intro w hw
    rw [hv'] at hw
    cases hw
    rw [hr]
    exact h.visiting v hv
  · intro w hw hdw
    rw [hv'] at hw
    cases hw
    dsimp only at hdet hdw
    rw [hdet] at hdw
    have := h.attached v hv hdw
    refine ⟨(he hdw).trans this.1, ?_⟩
    rcases ho with ho | ⟨ho, ht⟩
    · dsimp only at ho ⊢
      rw [ho]; trivial
    · dsimp only at ho ⊢
      rw [ho, ht]; exact this.2
  · intro w hw hdw
    rw [hv'] at hw
    cases hw
    dsimp only at hdet hdw
    rw [hdet] at hdw
    rcases ho with ho | ⟨ho, _⟩
    · exact ho
    · exact ho.trans (h.detached v hv hdw)
  · intro hn
    rw [hv'] at hn
    cases hn

theorem TerminalsLaw.setVisitPhase (h : TerminalsLaw s) {l : LineIx} {v : Visit} (hv : (s.lines[l]).visit = some v)
    (x : VisitPhase) : TerminalsLaw (setVisitPhase l v x s) := by
  refine h.only (OnlyLine.setLine l _ s) (fun d => h.terminal _) ?_
  have hl : (Machine.setVisitPhase l v x s).lines[l] = { s.lines[l] with visit := some { v with phase := x } } :=
    (setLine_get _ _ _ _).trans (if_pos rfl)
  exact LineLaw.setVisit (v' := { v with phase := x }) (h.line l).visitLaw hv (by rw [hl]) (by rw [hl]) rfl rfl
    (fun _ => rfl) (.inr ⟨rfl, rfl⟩)

theorem TerminalsLaw.openWindow (h : TerminalsLaw s) (l : LineIx) : TerminalsLaw (openWindow l s) := by
  unfold Machine.openWindow
  split
  · exact h
  · next v hv => split <;> first | exact h | exact h.setVisitPhase hv _

/-! ### Misses -/

theorem countMiss_line (c : MissCause) (l : Line) :
    (countMiss c l).visit = l.visit ∧ (countMiss c l).round = l.round := by
  cases c <;> exact ⟨rfl, rfl⟩

theorem OnlyLine.applyMiss (l : LineIx) (v : Visit) (c : MissCause) (s : State) : OnlyLine l s (applyMiss l v c s) := by
  unfold Machine.applyMiss
  dsimp only
  have h1 := OnlyLine.setLine l (countMiss c) s
  split
  · exact h1
  · split
    · exact (h1.trans (OnlyLine.setTerminal l v.drop
        (fun _ => makeAbsent (missedTerminal v.outstanding s.terminals[terminalAt l v.drop])) _)).of_same rfl rfl
    · exact h1.trans (OnlyLine.setTerminal l v.drop _ _)

theorem applyMiss_line (l : LineIx) (v : Visit) (c : MissCause) (s : State) :
    ((applyMiss l v c s).lines[l]).visit = (s.lines[l]).visit
      ∧ ((applyMiss l v c s).lines[l]).round = (s.lines[l]).round := by
  have : (applyMiss l v c s).lines[l] = countMiss c s.lines[l] := by
    have h1 := (setLine_get l l (countMiss c) s).trans (if_pos rfl)
    unfold applyMiss
    dsimp only
    split
    · exact h1
    · split <;> exact h1
  rw [this]
  exact countMiss_line c _

theorem applyMiss_terminal (l : LineIx) (v : Visit) (c : MissCause) (s : State) (x : TermIx) :
    (applyMiss l v c s).terminals[x] = s.terminals[x]
      ∨ (v.detached = false ∧ terminalAt l v.drop = x ∧
        ((applyMiss l v c s).terminals[x] = missedTerminal v.outstanding s.terminals[x]
          ∨ (applyMiss l v c s).terminals[x] = makeAbsent (missedTerminal v.outstanding s.terminals[x]))) := by
  unfold applyMiss
  dsimp only
  split
  · exact .inl rfl
  · next hd =>
    have hd' : v.detached = false := by simpa using hd
    by_cases hx : terminalAt l v.drop = x
    · subst hx
      right
      refine ⟨hd', rfl, ?_⟩
      split
      · exact .inr ((setTerminal_get _ _ _ _).trans (if_pos rfl))
      · exact .inl ((setTerminal_get _ _ _ _).trans (if_pos rfl))
    · left
      split
      · exact (setTerminal_get _ _ _ _).trans (if_neg hx)
      · exact (setTerminal_get _ _ _ _).trans (if_neg hx)

theorem TerminalsLaw.missedTerminals (h : TerminalsLaw s) {l : LineIx} {v : Visit}
    (hv : (s.lines[l]).visit = some v) (c : MissCause) (x : TermIx) :
    TerminalLaw (applyMiss l v c s).terminals[x]
      ∧ ((applyMiss l v c s).terminals[x]).enabled = (s.terminals[x]).enabled := by
  rcases applyMiss_terminal l v c s x with e | ⟨hd, rfl, e | e⟩ <;> rw [e]
  · exact ⟨h.terminal x, rfl⟩
  · have := ((h.line l).attached v hv hd).2
    exact ⟨(h.terminal _).missed this, by simp⟩
  · have := ((h.line l).attached v hv hd).2
    exact ⟨((h.terminal _).missed this).absent, by simp [makeAbsent]⟩

theorem TerminalsLaw.missAndSettle (h : TerminalsLaw s) {l : LineIx} {v : Visit} (hv : (s.lines[l]).visit = some v)
    (c : MissCause) : TerminalsLaw (missAndSettle l v c s) := by
  unfold Machine.missAndSettle
  refine h.only ((OnlyLine.applyMiss l v c s).trans (OnlyLine.setLine l _ _))
    (fun d => (h.missedTerminals hv c _).1) ?_
  have hl : (Machine.setVisitPhase l { v with outstanding := .nothing } (.settling s.time) (applyMiss l v c s)).lines[l]
      = { (applyMiss l v c s).lines[l] with
          visit := some { v with outstanding := .nothing, phase := .settling s.time } } :=
    (setLine_get _ _ _ _).trans (if_pos rfl)
  exact LineLaw.setVisit (v' := { v with outstanding := .nothing, phase := .settling s.time })
    (h.line l).visitLaw hv (by rw [hl]; exact (applyMiss_line l v c s).2) (by rw [hl]) rfl rfl
    (fun _ => (h.missedTerminals hv c _).2) (.inl rfl)

theorem TerminalsLaw.expireWindow (h : TerminalsLaw s) (l : LineIx) : TerminalsLaw (expireWindow l s) := by
  unfold Machine.expireWindow
  split
  · exact h
  · next v hv => (repeat' split) <;> first | exact h | exact h.missAndSettle hv _

theorem TerminalsLaw.expireReplyGap (h : TerminalsLaw s) (l : LineIx) : TerminalsLaw (expireReplyGap l s) := by
  unfold Machine.expireReplyGap missAndEnd
  split
  · exact h
  · next v hv =>
    (repeat' split) <;> first
      | exact h
      | exact h.ended (OnlyLine.applyMiss l v _ s) (fun d => (h.missedTerminals hv _ _).1)

theorem TerminalsLaw.expireSettling (h : TerminalsLaw s) (l : LineIx) : TerminalsLaw (expireSettling l s) := by
  unfold Machine.expireSettling
  split
  · exact h
  · (repeat' split) <;> first
      | exact h
      | exact h.ended (OnlyLine.refl l s) (fun d => h.terminal _)

theorem TerminalsLaw.disturbQuiet (h : TerminalsLaw s) (l : LineIx) (hv : (s.lines[l]).visit = none) :
    TerminalsLaw (disturbQuiet l s) := by
  unfold Machine.disturbQuiet
  split
  · next since hr =>
    refine h.only (OnlyLine.setLine l _ s) (fun d => h.terminal _) ?_
    have hl : (Machine.setLine l (fun l => { l with round := .quiet s.time }) s).lines[l]
        = { s.lines[l] with round := .quiet s.time } := (setLine_get _ _ _ _).trans (if_pos rfl)
    refine (VisitLaw.none (by rw [hl]; exact hv)).lineLaw (fun _ => ?_)
    rw [hl]
    have hi := (h.line l).idle hv
    rw [hr] at hi
    exact iff_of_false (by simp) (fun hc => by cases hi.mpr hc)
  · exact h
  · exact h
  · exact h

theorem TerminalsLaw.takeReplyChar (h : TerminalsLaw s) (l : LineIx) (c : Byte) :
    TerminalsLaw (takeReplyChar l c s) := by
  unfold Machine.takeReplyChar
  split
  · next hv => exact h.disturbQuiet l hv
  · next v hv => (repeat' split) <;> first | exact h | exact h.setVisitPhase hv _

theorem TerminalsLaw.takeLineFailure (h : TerminalsLaw s) (l : LineIx) (x : LineFailure) :
    TerminalsLaw (takeLineFailure l x s) := by
  unfold Machine.takeLineFailure
  split
  · next hv =>
    split
    · exact h.disturbQuiet l hv
    · exact h
  · next v hv =>
    (repeat' split) <;> first | exact h | exact h.setVisitPhase hv _ | exact h.missAndSettle hv _

/-! ### Replies -/

theorem TerminalsLaw.completeReply (h : TerminalsLaw s) (l : LineIx) (c : Byte) :
    TerminalsLaw (completeReply l c s) := by
  unfold Machine.completeReply
  split
  · exact h
  · next v hv =>
    split
    · next chars last _ =>
      split
      · split
        · unfold applyReply
          dsimp only
          split
          · exact h.ended (OnlyLine.refl l s) (fun d => h.terminal _)
          · next hd =>
            have hd' : v.detached = false := by simpa using hd
            have hen := ((h.line l).attached v hv hd').1
            have ho := OnlyLine.setTerminal l v.drop
              (repliedTerminal s (byteAt chars 0) (byteAt chars 1) (chars.drop 3)) s
            have hT : ∀ d, TerminalLaw (setTerminal (terminalAt l v.drop)
                (repliedTerminal s (byteAt chars 0) (byteAt chars 1) (chars.drop 3)) s).terminals[terminalAt l d] := by
              intro d
              rw [setTerminal_get]
              split
              · next e => rw [← e]; exact (h.terminal _).replied hen s _ _ _
              · exact h.terminal _
            unfold notePresence
            split
            · exact h.ended ho hT
            · exact h.ended (ho.of_same rfl rfl) hT
        · exact h.missAndSettle hv _
      · exact h
    · exact h
    · exact h
    · exact h

/-! ### TERMINAL ENABLE (R145, R146) -/

theorem outstandingOf_room (hv : VisitLaw s l) (d : DropIx) (sym : Symbol) (n : Nat)
    (ho : outstandingOf s l d = .dropped sym n) :
    sym ∉ (s.terminals[terminalAt l d]).watched ∧ (s.terminals[terminalAt l d]).watch.length ≤ 11 := by
  unfold outstandingOf at ho
  split at ho
  · cases ho
  · next v hvis =>
    split at ho
    · next hd =>
      subst hd
      cases hdet : v.detached with
      | true => rw [hv.detached v hvis hdet] at ho; cases ho
      | false => exact (hv.attached v hvis hdet).2.dropped_room sym n ho
    · cases ho

theorem OnlyLine.setEnabled (l : LineIx) (d : DropIx) (x : Bool) (s : State) : OnlyLine l s (setEnabled l d x s) := by
  unfold Machine.setEnabled
  dsimp only
  (repeat' split) <;> first
    | exact OnlyLine.refl l s
    | exact (OnlyLine.setTerminal l d _ s).trans (OnlyLine.setLine l _ _)
    | exact OnlyLine.setTerminal l d _ s

/-- What the setting of the flags keeps while the rounds are not yet settled. -/
structure EnableLaw (s : State) (l : LineIx) : Prop where
  terminal : ∀ d, TerminalLaw s.terminals[terminalAt l d]
  visit : VisitLaw s l

theorem terminalAt_eq_iff {l : LineIx} {d d' : DropIx} : terminalAt l d = terminalAt l d' ↔ d = d' :=
  ⟨fun h => (terminalAt_inj h).2, fun h => by rw [h]⟩

theorem EnableLaw.setEnabled {l : LineIx} (h : EnableLaw s l) (d : DropIx) (x : Bool) :
    EnableLaw (setEnabled l d x s) l := by
  unfold Machine.setEnabled
  dsimp only
  split
  · split
    · exact h
    · -- the terminal is disabled
      generalize hz : Machine.setLine l
        (fun l => { l with visit := l.visit.map (fun v => if v.drop = d then detachVisit v else v) })
        (Machine.setTerminal (terminalAt l d) (fun r => settleItem (outstandingOf s l d) (disableTerminal r)) s) = z
      have hter : ∀ y, z.terminals[y] = if terminalAt l d = y then
          settleItem (outstandingOf s l d) (disableTerminal s.terminals[y]) else s.terminals[y] := by
        intro y
        rw [← hz]
        exact setTerminal_get _ _ _ _
      have hline : z.lines[l] = { s.lines[l] with
          visit := (s.lines[l]).visit.map (fun v => if v.drop = d then detachVisit v else v) } := by
        rw [← hz]
        exact (setLine_get _ _ _ _).trans (if_pos rfl)
      refine ⟨fun d' => ?_, ?_, ?_, ?_⟩
      · rw [hter]
        split
        · next e =>
          have := terminalAt_eq_iff.mp e
          subst this
          exact (h.terminal d).disable.settle (fun sym n ho => outstandingOf_room h.visit d sym n ho)
        · exact h.terminal d'
      · intro v hv
        rw [hline] at hv ⊢
        obtain ⟨w, hw, rfl⟩ := Option.map_eq_some_iff.mp hv
        have := h.visit.visiting w hw
        dsimp only
        rw [this]
        split <;> rfl
      · intro v hv hd
        rw [hline] at hv
        obtain ⟨w, hw, rfl⟩ := Option.map_eq_some_iff.mp hv
        by_cases hwd : w.drop = d
        · rw [if_pos hwd] at hd
          cases hd
        · rw [if_neg hwd] at hd ⊢
          have hne : terminalAt l d ≠ terminalAt l w.drop := fun c => hwd (terminalAt_eq_iff.mp c).symm
          rw [hter, if_neg hne]
          exact h.visit.attached w hw hd
      · intro v hv hd
        rw [hline] at hv
        obtain ⟨w, hw, rfl⟩ := Option.map_eq_some_iff.mp hv
        by_cases hwd : w.drop = d
        · rw [if_pos hwd]; rfl
        · rw [if_neg hwd] at hd ⊢
          exact h.visit.detached w hw hd
  · next hen =>
    split
    · -- the terminal is enabled
      have hter : ∀ y, (Machine.setTerminal (terminalAt l d) enableTerminal s).terminals[y]
          = if terminalAt l d = y then enableTerminal s.terminals[y] else s.terminals[y] :=
        fun y => setTerminal_get _ _ _ _
      refine ⟨fun d' => ?_, h.visit.visiting, ?_, h.visit.detached⟩
      · rw [hter]
        split
        · next e =>
          have := terminalAt_eq_iff.mp e
          subst this
          exact (h.terminal d).enable (by simpa using hen)
        · exact h.terminal d'
      · intro v hv hd
        have hold := h.visit.attached v hv hd
        have hne : terminalAt l d ≠ terminalAt l v.drop := by
          intro c
          have := terminalAt_eq_iff.mp c
          subst this
          exact hen hold.1
        rw [hter, if_neg hne]
        exact hold
    · exact h

theorem TerminalsLaw.enableDrops (h : TerminalsLaw s) (l : LineIx) (mask : Byte) :
    TerminalsLaw (enableDrops l mask s) := by
  have key : ∀ (ds : List DropIx) (z : State), OnlyLine l s z → EnableLaw z l →
      OnlyLine l s (ds.foldl (fun s d => Machine.setEnabled l d (mask.getLsbD d.val) s) z)
        ∧ EnableLaw (ds.foldl (fun s d => Machine.setEnabled l d (mask.getLsbD d.val) s) z) l := by
    intro ds
    induction ds with
    | nil => exact fun z ho hz => ⟨ho, hz⟩
    | cons d rest ih =>
      exact fun z ho hz => ih _ (ho.trans (OnlyLine.setEnabled l d _ z)) (hz.setEnabled d _)
  have fin : ∀ z : State, OnlyLine l s z ∧ EnableLaw z l → TerminalsLaw (settleRounds l z) := by
    intro z this
    unfold settleRounds
    split
    · next hv =>
      exact h.only (this.1.trans (OnlyLine.advanceRound l z))
        (by rw [advanceRound_terminals']; exact this.2.terminal) (advanceRound_law hv)
    · next v hv =>
      refine h.only this.1 this.2.terminal (this.2.visit.lineLaw (fun hn => ?_))
      rw [hv] at hn
      cases hn
  exact fin _ (key (List.finRange 8) s (OnlyLine.refl l s) ⟨fun d => h.terminal _, (h.line l).visitLaw⟩)

theorem TerminalsLaw.applyTerminalEnable (h : TerminalsLaw s) (b : List Byte) :
    TerminalsLaw (applyTerminalEnable b s).1 := by
  unfold Machine.applyTerminalEnable
  split
  · exact h
  · dsimp only
    exact h.enableDrops _ _

/-! ### Restart and reset -/

theorem TerminalsLaw.restartLines (h : TerminalsLaw s) : TerminalsLaw (restartLines s) := by
  have hter : ∀ x : TermIx, (Machine.restartLines s).terminals[x]
      = restartTerminal (abandonedItem s x) s.terminals[x] := fun x => Vec.mapIx_get _ _ _
  have hline : ∀ l : LineIx, (Machine.restartLines s).lines[l] = restartLine s.time (anyEnabled s l) s.lines[l] :=
    fun l => Vec.mapIx_get _ _ _
  refine ⟨fun x => ?_, fun l => ?_⟩
  · rw [hter]
    refine (h.terminal x).restart (fun sym n ho => ?_)
    have := outstandingOf_room (h.line (lineOf x)).visitLaw (dropOf x) sym n ho
    simp only [terminalAt_lineOf] at this
    exact this
  · have hen : anyEnabled (Machine.restartLines s) l = anyEnabled s l :=
      anyEnabled_congr (fun d => by rw [hter]; simp)
    refine (VisitLaw.none (by rw [hline]; rfl)).lineLaw (fun _ => ?_)
    rw [hen, hline]
    unfold restartLine
    dsimp only
    cases anyEnabled s l <;> simp

theorem TerminalsLaw.restartAll (h : TerminalsLaw s) : TerminalsLaw (restartAll s) := by
  have h1 : TerminalsLaw (Machine.restartLines (restartTapes (restartFeed s))) :=
    TerminalsLaw.restartLines (h.of_same (by simp) (by simp))
  refine h1.of_same ?_ ?_ <;> (unfold Machine.restartAll; simp)

theorem State.reset_line (l : LineIx) : State.reset.lines[l] = Line.reset := by
  unfold State.reset
  simp [Fin.getElem_fin]

theorem State.reset_terminalRecord (x : TermIx) : State.reset.terminals[x] = Terminal.reset := by
  unfold State.reset
  simp [Fin.getElem_fin]

theorem State.reset_terminals : TerminalsLaw State.reset := by
  refine ⟨fun x => ?_, fun l => ?_⟩
  · rw [State.reset_terminalRecord]
    exact ⟨Nat.zero_le _, List.nodup_nil, List.nodup_nil, fun sym hm => (by cases hm), fun _ => ⟨rfl, rfl⟩, Nat.zero_le _⟩
  · refine (VisitLaw.none (by rw [State.reset_line]; rfl)).lineLaw (fun _ => ?_)
    rw [State.reset_line]
    refine iff_of_true rfl ?_
    unfold anyEnabled
    rw [List.any_eq_false]
    intro d _
    rw [State.reset_terminalRecord]
    simp [Terminal.reset]

/-! ### Every command -/

/-- Every command keeps the law. -/
theorem terminals_kept : KeptByCommands TerminalsLaw TerminalsLaw where
  remove _ h _ := h.of_same rfl rfl
  place _ _ _ s h := h.of_same rfl rfl
  list b s h := h.applyList b
  delist b s h := h.applyDelist b
  queryRecord b s h := by rw [applyQueryRecord_frame]; exact h
  sessionOpen b s h := by rw [applySessionOpen_frame]; exact h.of_same rfl rfl
  sessionClose b s h := h.applySessionClose b
  dayRoll b s h := h.applyDayRoll b
  tableClear b s h := h.applyTableClear b
  trade b s h := h.applyTrade b
  quote b s h := h.applyQuote b
  halt b s h := h.applyHalt b
  resume b s h := h.applyResume b
  loadEntry b s h := by rw [applyLoadEntry_frame]; exact h.of_same rfl rfl
  unloadEntry b s h := by rw [applyUnloadEntry_frame]; exact h.of_same rfl rfl
  definePage b s h := by rw [applyDefinePage_frame]; exact h.of_same rfl rfl
  undefinePage b s h := by rw [applyUndefinePage_frame]; exact h.of_same rfl rfl
  showPage b s h := by rw [applyShowPage_frame]; exact h.of_same rfl rfl
  restorePanel b s h := by rw [applyRestorePanel_frame]; exact h.of_same rfl rfl
  clearFaults b s h := by rw [applyClearFaults_frame]; exact h.of_same rfl rfl
  tapeStart b s h := by rw [applyTapeStart_frame]; exact h.of_same rfl rfl
  tapeStop b s h := by rw [applyTapeStop_frame]; exact h.of_same rfl rfl
  tapeClear b s h := by rw [applyTapeClear_frame]; exact h.of_same rfl rfl
  notice b s h := by rw [applyNotice_frame]; exact h.of_same rfl rfl
  terminalEnable b s h := h.applyTerminalEnable b
  setParameter b s h := by rw [applySetParameter_frame]; exact h.of_same rfl rfl
  readParameter b s h := by rw [applyReadParameter_frame]; exact h
  readStatus b s h := by rw [applyReadStatus_frame]; exact h.of_same rfl rfl
  clearConditions b s h := by rw [applyClearConditions_frame]; exact h.of_same rfl rfl
  restart _ s h := h.restartAll
  takeFeedChar c s h := by rw [takeFeedChar_frame]; exact h.of_same rfl rfl
  takeFeedFailure x s h := by rw [takeFeedFailure_frame]; exact h.of_same rfl rfl
  expireFrameGap s h := by rw [expireFrameGap_frame]; exact h.of_same rfl rfl
  sendReply s h := by rw [sendReply_frame]; exact h.of_same rfl rfl
  completeFrame c s h := by rw [completeFrame_frame]; exact h.of_same rfl rfl
  expireQuietLimit s h := by rw [expireQuietLimit_frame]; exact h.of_same rfl rfl
  startWrite s h := by rw [startWrite_frame]; exact h.of_same rfl rfl
  completeWrite s h := by rw [completeWrite_frame]; exact h.of_same rfl rfl
  startPeriod x s h := by rw [startPeriod_frame]; exact h.of_same rfl rfl
  sampleRail i w f s h := by rw [sampleRail_frame]; exact h.of_same rfl rfl
  changeRail i s h := by rw [changeRail_frame]; exact h.of_same rfl rfl
  endGap s h := by rw [endGap_frame]; exact h.of_same rfl rfl
  startRead s h := by rw [startRead_frame]; exact h.of_same rfl rfl
  takeEcho e s h := by rw [takeEcho_frame]; exact h.of_same rfl rfl
  endEchoLimit s h := by rw [endEchoLimit_frame]; exact h.of_same rfl rfl
  stepRibbon t s h := by rw [stepRibbon_frame]; exact h.of_same rfl rfl
  visitLine l s h := h.visitLine l
  openWindow l s h := h.openWindow l
  expireWindow l s h := h.expireWindow l
  expireReplyGap l s h := h.expireReplyGap l
  expireSettling l s h := h.expireSettling l
  takeReplyChar l c s h := h.takeReplyChar l c
  takeLineFailure l x s h := h.takeLineFailure l x
  completeReply l c s h := h.completeReply l c
  endEmptyRound l s h := h.endEmptyRound l
  restartAll s h := h.restartAll
  powerOn b s := State.reset_terminals.of_same rfl rfl
  withPending _ s h := h.of_same rfl rfl
  nextInterval s h := h.of_same (by simp) (by simp)

end Sys2Proof.Machine
end

