-- ==== Sys2Proof/Tests/Slice0.lean ====
section
/-! SUPPORT. The model's own tests: the well-formedness checks, the worked examples of the manual, small steps of the
commands, and, for every statement that has hypotheses, a concrete state and operands that meet them together. -/

namespace Sys2Proof.Tests
set_option Elab.async false
open Sys2Proof.Machine

/-! ### Well-formed commands -/

theorem test_wf_feedLength : (Instr.framingFailure (.badLength 241)).wf = true := by decide
theorem test_illformed_feedLength : (Instr.framingFailure (.badLength 240)).wf = false := by decide
theorem test_wf_lineLength : (Instr.terminalFramingError 3 (.badLength 61)).wf = true := by decide
theorem test_illformed_lineLength : (Instr.terminalFramingError 3 (.badLength 60)).wf = false := by decide
theorem test_wf_echo : (Instr.echoArrival (List.replicate 12 0)).wf = true := by decide
theorem test_illformed_shortEcho : (Instr.echoArrival (List.replicate 11 0)).wf = false := by decide
theorem test_illformed_longEcho : (Instr.echoArrival (List.replicate 13 0)).wf = false := by decide
theorem test_decode : decodeTableWord 8 0x01 = none := by decide

/-! ### The manual's worked examples (chapter 2 and Appendix A) -/

/-- R25: step 3 both ways, step 4 at 319,998, step 5 at 1, and the refusals. -/
theorem test_rounding : roundToGrid 4 641 = some 640 ∧ roundToGrid 4 642 = some 644 ∧ roundToGrid 4 319998 = some 319996
    ∧ roundToGrid 2 319999 = some 319998 ∧ roundToGrid 4 1 = some 4 ∧ roundToGrid 2 1 = some 2
    ∧ roundToGrid 1 319999 = some 319999 ∧ roundToGrid 1 0 = none ∧ roundToGrid 4 320000 = none := by decide
/-- R30: 12, 3, 320, 398 and 319,999 in FULL form. -/
theorem test_fullForm : fullForm 12 = [0x83] ∧ fullForm 3 = [0x33, 0x2F, 0x33, 0x32] ∧ fullForm 320 = [0x31, 0x30]
    ∧ fullForm 398 = [0x31, 0x32, 0x20, 0x37, 0x2F, 0x31, 0x36]
    ∧ fullForm 319999 = [0x39, 0x39, 0x39, 0x39, 0x20, 0x33, 0x31, 0x2F, 0x33, 0x32] := by decide +kernel
/-- R39: 12, 320, 398, 1,458 and 1,460 in CUT form. -/
theorem test_cutForm : cutForm 12 = [0x83] ∧ cutForm 320 = [0x30] ∧ cutForm 398 = [0x32, 0x20, 0x37, 0x2F, 0x31, 0x36]
    ∧ cutForm 1458 = [0x35, 0x20, 0x39, 0x2F, 0x31, 0x36] ∧ cutForm 1460 = [0x35, 0x85] := by decide +kernel
/-- R31: +1/4, +1/16, -1 1/8 and 0. -/
theorem test_changeForm : changeForm 8 = [0x2B, 0x82] ∧ changeForm 2 = [0x2B, 0x31, 0x2F, 0x31, 0x36]
    ∧ changeForm (-36) = [0x2D, 0x31, 0x81] ∧ changeForm 0 = [0x30] := by decide +kernel
/-- R37: the table of size parts. -/
theorem test_sizePart : sizePart 150 = [] ∧ sizePart 200 = [0x32, 0x78]
    ∧ sizePart 999999 = [0x39, 0x39, 0x39, 0x39, 0x78]
    ∧ sizePart 1000000 = [0x31, 0x30, 0x4B, 0x78] ∧ sizePart 1500000000 = [0x39, 0x39, 0x39, 0x39, 0x4B, 0x78] := by
  decide +kernel
/-- R32: twelve lots in width 1 have no form that fits. -/
theorem test_volumeForm : volumeForm 1200 1 = none ∧ volumeForm 1200 2 = some [0x31, 0x32]
    ∧ volumeForm 99 1 = some [0x30] := by
  decide +kernel
/-- R7: one to four letters, blanks behind them, and nothing else. -/
theorem test_symbols : symbolOf [0x4B, 0x54, 0x4F, 0x20] = some [0x4B, 0x54, 0x4F]
    ∧ symbolOf [0x41, 0x42, 0x43, 0x44] = some [0x41, 0x42, 0x43, 0x44] ∧ symbolOf [0x20, 0x20, 0x20, 0x20] = none
    ∧ symbolOf [0x41, 0x20, 0x42, 0x20] = none ∧ symbolOf [0x41, 0x61, 0x20, 0x20] = none := by decide
/-- R160: a check character makes the characters sum to 0 modulo 256. -/
theorem test_check : sumsToZero ([0x03, 0x07, 0x01, 0xFF] ++ [checkFor [0x03, 0x07, 0x01, 0xFF]]) = true := by decide
/-- R167: the numbers of the parameter table at its ends and at the seams of its ranges. -/
theorem test_parameterNumbers : parameterOf 0 = none ∧ parameterOf 1 = some .quietLimit
    ∧ parameterOf 9 = some (.brightness 0) ∧ parameterOf 16 = some (.policy 3) ∧ parameterOf 32 = some (.panelRail 15)
    ∧ parameterOf 33 = some .verifyEnable ∧ parameterOf 43 = some (.k .a) ∧ parameterOf 48 = some (.k .b)
    ∧ parameterOf 52 = some .mask ∧ parameterOf 53 = none := by decide

/-! ### Small states -/

/-- The state that a command answers. -/
def after (c : Instr) (s : State) : State :=
  match exec c s with
  | .next t => t
  | .fault _ => s
  | .refused _ => s

/-- A frame of a kind. -/
def msg (k : Kind) (body : List Byte) : Frame := ⟨k.code, 0x07, body⟩

/-- The state with the message alone in the inbound queue. -/
def headed (k : Kind) (body : List Byte) (s : State) : State :=
  { s with feed := { s.feed with inbound := [msg k body] } }

/-- Such a message can be taken. -/
theorem headed_canTake (k : Kind) (body : List Byte) {s : State} (hp : s.por = false)
    (hr : s.feed.replies.length < 8) : CanTakeHead k (msg k body) (headed k body s) := ⟨hp, rfl, rfl, hr⟩

/-- The status of the newest reply. -/
def newest (s : State) : Option Status := s.feed.replies.getLast?.map (·.status)

/-- The body of the newest reply. -/
def newestBody (s : State) : Option (List Byte) := s.feed.replies.getLast?.map (·.body)

/-- The symbol "A" in its four places. -/
def placesA : List Byte := [0x41, 0x20, 0x20, 0x20]

/-- A LISTED record of "A" on tape A, in eighths, closed at 20. -/
def listed : Record := ⟨[0x41], .listed, .a, .eighths, some 640, none, none, none, 0, 0, .none, none⟩

/-- The same after a trade of 100 shares at 20, its print waiting. -/
def traded : Record :=
  { listed with
    state := .trading, day := some ⟨640, 640, 640, 640⟩, volume := 100, trades := 1, direction := .none
    pending := some ⟨0, 1, 100⟩ }

/-- The state with one record, in slot 0. -/
def withRecord (r : Record) (s : State) : State :=
  { s with records := (Vector.replicate 2048 none).set 0 (some r), directory := [(r.symbol, 0)] }

/-- The one record is in slot 0. -/
theorem withRecord_get (r : Record) (s : State) (i : SlotIx) :
    (withRecord r s).records[i] = if 0 = i then some r else none := by
  have h : (withRecord r s).records[i] = if 0 = i then some r else (Vector.replicate 2048 (none : Option Record))[i] :=
    Vec.set_get _ 0 i _
  rw [h]
  split
  · rfl
  · exact Vector.getElem_replicate ..

/-- Reset with the phase OPEN. -/
def opened : State := { State.reset with phase := .opened }

/-- Reset with the phase POST. -/
def closed : State := { State.reset with phase := .post }

/-- The phase OPEN with the record traded and its print on tape A's list. -/
def floor : State :=
  { withRecord traded opened with
    tapes := ⟨{ TapeUnit.reset with prints := [0], backlogMax := 1, accepted := 100 }, TapeUnit.reset⟩ }

/-- The tapes of such a floor keep their law, in any phase. -/
theorem floor_tapes (s : State) (hr : s.records = floor.records) (ht : s.tapes = floor.tapes) : TapesLaw s := by
  have hg : ∀ i : SlotIx, s.records[i] = if 0 = i then some traded else none := fun i => by
    rw [hr]; exact withRecord_get traded opened i
  have h0 : s.records[(0 : SlotIx)] = some traded := (hg 0).trans (if_pos rfl)
  have hone : ∀ (i : SlotIx) r, s.records[i] = some r → i = 0 ∧ r = traded := by
    intro i r h
    rw [hg i] at h
    split at h
    · next hi => exact ⟨hi.symm, (Option.some.inj h).symm⟩
    · cases h
  have ha : s.tapes.get .a = { TapeUnit.reset with prints := [0], backlogMax := 1, accepted := 100 } := by rw [ht]; rfl
  have hb : s.tapes.get .b = TapeUnit.reset := by rw [ht]; rfl
  refine ⟨fun x => ?_, ⟨fun i r h _ => ?_, fun i r h _ => ?_, fun i r h hs => ?_⟩⟩
  · cases x
    · have hp : pendingShares s 0 = 100 := by unfold pendingShares; rw [h0]; rfl
      refine ⟨by rw [ha]; decide, ?_, ?_, by rw [ha]; decide⟩
      · rw [ha]
        intro i hi
        rw [List.mem_singleton.mp hi]
        exact ⟨traded, h0, rfl, by decide⟩
      · unfold tapePendingShares
        rw [ha]
        simp only [List.map_cons, List.map_nil, hp]
        decide
    · refine ⟨by rw [hb]; decide, ?_, ?_, by rw [hb]; decide⟩
      · rw [hb]; intro i hi; cases hi
      · unfold tapePendingShares
        rw [hb]
        rfl
  · obtain ⟨rfl, rfl⟩ := hone i r h
    show (0 : SlotIx) ∈ (s.tapes.get .a).prints
    rw [ha]
    exact List.mem_singleton.mpr rfl
  · obtain ⟨_, rfl⟩ := hone i r h
    decide
  · obtain ⟨_, rfl⟩ := hone i r h
    cases hs

/-! ### Witnesses: the machine and its laws

For each statement with hypotheses, a state and operands that meet all of them together; where it has clauses, one for
each clause, at the ends of its ranges. -/

/-- The state with the record LISTED, the phase as it is, and a command waiting: a step of it is not a stop. -/
def busy : State := { floor with pending := [.stepEvent .a, .porAssert] }

theorem witness_StepRunsFront : busy.pending = .stepEvent .a :: [.porAssert] := rfl
theorem witness_IdleStepPassesInterval :
    (({ State.reset with por := true } : State).pending = [] ∧ ({ State.reset with por := true } : State).por = true) ∧
    (State.reset.pending = [] ∧ State.reset.por = false) := by decide
theorem witness_PowerOnReset : ({ floor with por := true } : State).por = true ∧ Instr.list ≠ .porAssert
    ∧ Instr.list ≠ .porRelease := by decide
theorem witness_lawsKept : RecordsLaw State.reset ∧ TableLaw State.reset ∧ RibbonsLaw State.reset
    ∧ BoardLaw State.reset ∧ PagesLaw State.reset ∧ TerminalsLaw State.reset ∧ InterfaceLaw State.reset
    ∧ (∃ t, step State.reset = .next t) ∧ TapesLaw busy ∧ ∃ t, step busy = .next t :=
  ⟨State.reset_records, State.reset_table, State.reset_ribbons, State.reset_boards, State.reset_pages,
    State.reset_terminals, State.reset_interface, ⟨_, rfl⟩, floor_tapes _ rfl rfl, ⟨_, rfl⟩⟩

/-! ### Witnesses: the taking of messages and the records -/

/-- The head and its frame for `CanTakeHead` on a state of the list above. -/
theorem witness_MessagesMalformedOrHeld_kind :
    let s : State := { opened with feed := { opened.feed with inbound := [⟨0x00, 9, []⟩] } }
    (s.por = false ∧ s.feed.inbound.head? = some ⟨0x00, 9, []⟩ ∧ s.feed.replies.length < 8)
      ∧ ∀ k : Kind, (0x00 : Byte) ≠ k.code := by
  refine ⟨by decide, fun k => ?_⟩
  cases k <;> decide
theorem witness_MessagesMalformedOrHeld_length : CanTakeHead .quote (msg .quote (List.replicate 14 0))
      (headed .quote (List.replicate 14 0) opened) ∧ Kind.quote.lengthFits 14 = false
    ∧ Kind.notice.lengthFits 1 = false ∧ Kind.notice.lengthFits 34 = false ∧ Kind.notice.lengthFits 2 = true
    ∧ Kind.notice.lengthFits 33 = true :=
  ⟨headed_canTake _ _ rfl (by decide), by decide⟩
/-- Four places whose first is no capital letter are no symbol's places. -/
theorem places_unsuitable (g : Byte) (rest : List Byte) (hg : ¬ (0x41 ≤ g ∧ g ≤ 0x5A)) (letters : Symbol)
    (hl : 1 ≤ letters.length) (ha : ∀ x ∈ letters, 0x41 ≤ x ∧ x ≤ 0x5A) :
    (g :: rest : List Byte) ≠ letters ++ List.replicate (4 - letters.length) 0x20 := by
  cases letters with
  | nil => exact absurd hl (by decide)
  | cons x xs =>
    intro h
    rw [List.cons_append] at h
    exact hg ((List.cons.inj h).1 ▸ ha x (List.mem_cons_self ..))
theorem witness_MessagesMalformedOrHeld_symbol : ∀ g ∈ ([0x20, 0x40, 0x5B] : List Byte), ∀ letters : Symbol,
    1 ≤ letters.length → (∀ x ∈ letters, 0x41 ≤ x ∧ x ≤ 0x5A) →
      (([g, 0x41, 0x20, 0x20] : List Byte).drop 0).take 4 ≠ letters ++ List.replicate (4 - letters.length) 0x20 := by
  intro g hg letters h1 h2
  refine places_unsuitable g [0x41, 0x20, 0x20] ?_ letters h1 h2
  simp only [List.mem_cons, List.not_mem_nil, or_false] at hg
  rcases hg with rfl | rfl | rfl <;> decide
theorem witness_MessagesMalformedOrHeld_held :
    8 ≤ ({ State.reset.feed with replies := List.replicate 8 ⟨1, 1, .ok, []⟩ } : Feed).replies.length := by decide

/-- The body of a LIST of "A" on tape A in eighths, closed at 20. -/
def listBody : List Byte := placesA ++ [0, 8, 1, 0, 2, 0x80]

theorem witness_ListAccepted :
    CanTakeHead .list (msg .list listBody) (headed .list listBody State.reset) ∧ listBody.length = 10
    ∧ symbolAt listBody 0 = some [0x41] ∧ byteAt listBody 4 = tapeCode .a
    ∧ field listBody 5 1 = Denominator.eighths.value ∧ flagAt listBody 6 0 = true ∧ field listBody 7 3 = 640
    ∧ OnGrid .eighths 640 ∧ OnGrid .thirtySeconds 1 ∧ OnGrid .thirtySeconds 319999
    ∧ (∀ e ∈ State.reset.directory, e.1 ≠ [0x41]) ∧ (headed .list listBody State.reset).records[(0 : SlotIx)] = none := by
  refine ⟨headed_canTake _ _ rfl (by decide), ?_⟩
  unfold OnGrid
  decide +kernel
theorem witness_ListRefused :
    -- an unsuitable symbol; an unknown tape, denominator; a close off the grid
    (symbolAt (List.replicate 10 0x20) 0 = none ∧ (List.replicate 10 0x20 : List Byte).length = 10)
    ∧ field (placesA ++ [2, 8, 0, 0, 0, 0]) 4 1 ∉ [0, 1] ∧ field (placesA ++ [1, 9, 0, 0, 0, 0]) 5 1 ∉ [8, 16, 32]
    ∧ (flagAt (placesA ++ [0, 8, 1, 0, 0, 0]) 6 0 = true ∧ field (placesA ++ [0, 8, 1, 0, 0, 0]) 7 3 = 0)
    ∧ ¬ OnGrid .eighths 0 ∧ ¬ OnGrid .thirtySeconds 320000 ∧ ¬ OnGrid .eighths 642 := by
  refine ⟨by decide, by decide, by decide, by decide, ?_, ?_, ?_⟩ <;> (intro h; revert h; unfold OnGrid; decide)
/-- The symbol of LIST already held: in a live record, and in a RETIRING one. -/
theorem witness_ListRefused_held :
    CanTakeHead .list (msg .list listBody) (headed .list listBody floor)
    ∧ fullLookup [0x41] (headed .list listBody floor) = some (0, traded) ∧ traded.state ≠ .retiring
    ∧ fullLookup [0x41] (headed .list listBody (withRecord { traded with state := .retiring } floor))
      = some (0, { traded with state := .retiring }) :=
  ⟨headed_canTake _ _ rfl (by decide), by decide +kernel⟩
theorem witness_ListRefused_full :
    let s : State := { State.reset with records := Vector.replicate 2048 (some listed) }
    fullLookup [0x41] s = none ∧ ∀ i : SlotIx, s.records[i] ≠ none := by
  refine ⟨rfl, fun i h => ?_⟩
  have hg : (Vector.replicate 2048 (some listed))[i] = some listed := Vector.getElem_replicate ..
  cases hg.symm.trans h
theorem witness_DelistTaken :
    CanTakeHead .delist (msg .delist placesA) (headed .delist placesA floor) ∧ placesA.length = 4
    ∧ symbolAt placesA 0 = some [0x41] ∧ fullLookup [0x41] (headed .delist placesA opened) = none
    ∧ fullLookup [0x41] (headed .delist placesA floor) = some (0, traded) ∧ traded.pending ≠ none
    ∧ fullLookup [0x41] (headed .delist placesA (withRecord listed opened)) = some (0, listed)
    ∧ listed.pending = none ∧ listed.state ≠ .retiring ∧ traded.state ≠ .retiring
    ∧ fullLookup [0x41] (headed .delist placesA (withRecord { traded with state := .retiring } floor))
      = some (0, { traded with state := .retiring }) :=
  ⟨headed_canTake _ _ rfl (by decide), by decide +kernel⟩
/-- A terminal with a watch entry of "A", as presence and enabled flag say. -/
def watcher (enabled : Bool) (presence : Presence) : Terminal := ⟨enabled, presence, 0, none, [⟨[0x41], .active 0⟩], []⟩
theorem witness_DelistedWatchEntriesDrop : ((watcher true .unknown).enabled = true
    ∧ (watcher true .unknown).presence ≠ .absent)
    ∧ (watcher true .absent).presence = .absent ∧ (watcher false .unknown).enabled = false := by decide
theorem witness_QueryRecordAnswered :
    CanTakeHead .queryRecord (msg .queryRecord placesA) (headed .queryRecord placesA floor)
    ∧ placesA.length = 4 ∧ symbolAt placesA 0 = some [0x41] ∧ fullLookup [0x41] opened = none
    ∧ fullLookup [0x41] (headed .queryRecord placesA floor) = some (0, traded) ∧ DirectoryLaw State.reset :=
  ⟨headed_canTake _ _ rfl (by decide), by decide, by decide, by decide, by decide +kernel, State.reset_directory⟩
/-- A record with every optional part, at the ends of the ranges. -/
def fullRecord : Record :=
  ⟨[0x41, 0x42, 0x43, 0x44], .halted .other, .b, .thirtySeconds, some 319999, some ⟨319999, 2, 319999, 1⟩, some ⟨1, 1⟩,
    some ⟨319999, 9999⟩, 999999999, 65535, .zeroDown, some ⟨7, 65535, 0xFFFFFFFF⟩⟩
theorem witness_QueryRecordAnswered_image : RecordLaw fullRecord ∧ RecordLaw listed := by
  refine ⟨⟨by decide, ?_, ?_, ?_, ?_, ?_, by decide, by decide, ?_⟩, ⟨by decide, ?_, ?_, ?_, ?_, ?_, by decide, by decide, ?_⟩⟩
  all_goals try (intro x h; cases h; done)
  · rintro c ⟨⟩; unfold OnGrid; decide
  · rintro d ⟨⟩; constructor <;> first | decide | (unfold OnGrid; decide)
  · rintro x ⟨⟩; unfold SideLaw OnGrid; decide
  · rintro x ⟨⟩; unfold SideLaw OnGrid; decide
  · rintro x y ⟨⟩ ⟨⟩; decide
  · rintro x ⟨⟩; decide
  · rintro c ⟨⟩; unfold OnGrid; decide
  · rintro x y ⟨⟩
/-- R178, byte by byte. -/
theorem test_recordImage : recordImage 2047 fullRecord = [0x07, 0xFF, 0x41, 0x42, 0x43, 0x44, 3, 1, 32, 0x3F]
    ++ [0x04, 0xE1, 0xFF] ++ [0x04, 0xE1, 0xFF, 0, 0, 2, 0x04, 0xE1, 0xFF, 0, 0, 1] ++ [0, 0, 1, 0, 1]
    ++ [0x04, 0xE1, 0xFF, 0x27, 0x0F] ++ [0x3B, 0x9A, 0xC9, 0xFF, 0xFF, 0xFF, 4, 2]
    ++ [0, 0, 0, 7, 0xFF, 0xFF, 0xFF, 0xFF, 0xFF, 0xFF] := by decide +kernel
theorem witness_SessionOpensAndCloses :
    CanTakeHead .sessionOpen (msg .sessionOpen []) (headed .sessionOpen [] State.reset) ∧ State.reset.phase = .pre
    ∧ opened.phase ≠ .pre ∧ closed.phase ≠ .opened
    ∧ CanTakeHead .sessionClose (msg .sessionClose []) (headed .sessionClose [] opened) ∧ opened.phase = .opened :=
  ⟨headed_canTake _ _ rfl (by decide), rfl, by decide, by decide, headed_canTake _ _ rfl (by decide), rfl⟩
theorem witness_DayRollTaken :
    CanTakeHead .dayRoll (msg .dayRoll []) (headed .dayRoll [] closed) ∧ closed.phase = .post
    ∧ closed.tapes.a.prints = [] ∧ closed.tapes.b.prints = [] ∧ opened.phase ≠ .post
    ∧ ({ floor with phase := .post } : State).phase = .post
    ∧ ({ floor with phase := .post } : State).tapes.a.prints ≠ [] :=
  ⟨headed_canTake _ _ rfl (by decide), by decide⟩
theorem witness_TableClearTaken :
    CanTakeHead .tableClear (msg .tableClear []) (headed .tableClear [] { floor with phase := .post })
    ∧ (headed .tableClear [] { floor with phase := .post }).phase ≠ .opened
    ∧ TapesLaw (headed .tableClear [] { floor with phase := .post }) ∧ (headed .tableClear [] floor).phase = .opened :=
  ⟨headed_canTake _ _ rfl (by decide), by decide, floor_tapes _ rfl rfl, rfl⟩

/-! ### Witnesses: prices and postings -/

/-- The clauses of R25: a remainder of 0; a candidate above the largest price, of 0, and between. -/
theorem witness_GridRounding :
    (640 % 4 = 0) ∧ (319998 % 4 ≠ 0 ∧ 4 ≤ 2 * (319998 % 4) ∧ 319999 < 319998 - 319998 % 4 + 4)
    ∧ (1 % 4 ≠ 0 ∧ ¬ 4 ≤ 2 * (1 % 4) ∧ 1 - 1 % 4 = 0) ∧ (641 % 4 ≠ 0 ∧ 1 ≤ 641 - 641 % 4)
    ∧ roundToGrid (Denominator.eighths).step 641 = some 640 ∧ roundToGrid (Denominator.eighths).step 642
      = some 644 := by
  decide
/-- The body of a TRADE of "A". -/
def tradeBody (price shares : Nat) : List Byte := placesA ++ beBytes 3 price ++ beBytes 3 shares
theorem witness_TradeAccepted :
    CanTakeHead .trade (msg .trade (tradeBody 642 999999)) (headed .trade (tradeBody 642 999999) floor)
    ∧ (tradeBody 642 999999).length = 10 ∧ symbolAt (tradeBody 642 999999) 0 = some [0x41]
    ∧ liveLookup [0x41] (headed .trade (tradeBody 642 999999) floor) = some (0, traded)
    ∧ field (tradeBody 642 999999) 4 3 = 642 ∧ field (tradeBody 642 999999) 7 3 = 999999
    ∧ traded.state = .trading ∧ listed.state = .listed
    ∧ roundToGrid traded.denominator.step 642 = some 644 ∧ field (tradeBody 1 1) 7 3 = 1
    ∧ liveLookup [0x41] (headed .trade (tradeBody 1 1) (withRecord listed opened)) = some (0, listed)
    ∧ roundToGrid listed.denominator.step 1 = some 4 :=
  ⟨headed_canTake _ _ rfl (by decide), by decide +kernel⟩
/-- Tradeless states, and the ends of the ranges, that turn a TRADE away. -/
theorem witness_TradeRefused :
    CanTakeHead .trade (msg .trade (tradeBody 642 0)) (headed .trade (tradeBody 642 0) floor)
    ∧ symbolAt (tradeBody 642 0) 0 = some [0x41] ∧ symbolAt (List.replicate 10 0x20) 0 = none
    ∧ liveLookup [0x41] opened = none ∧ field (tradeBody 642 0) 7 3 < 1 ∧ 999999 < field (tradeBody 642 1000000) 7 3
    ∧ field (tradeBody 0 1) 4 3 < 1 ∧ 319999 < field (tradeBody 320000 1) 4 3
    ∧ liveLookup [0x41] (withRecord { listed with state := .closed } opened)
      = some (0, { listed with state := .closed })
    ∧ liveLookup [0x41] ({ floor with phase := .pre } : State) = some (0, traded) :=
  ⟨headed_canTake _ _ rfl (by decide), by decide +kernel⟩
/-- The body of a QUOTE of "A" with both sides. -/
def quoteBody (bid bidSize ask askSize : Nat) : List Byte :=
  placesA ++ [3] ++ beBytes 3 bid ++ beBytes 2 bidSize ++ beBytes 3 ask ++ beBytes 2 askSize
theorem witness_QuoteTaken_accepted :
    CanTakeHead .quote (msg .quote (quoteBody 640 1 642 9999)) (headed .quote (quoteBody 640 1 642 9999) floor)
    ∧ (quoteBody 640 1 642 9999).length = 15 ∧ symbolAt (quoteBody 640 1 642 9999) 0 = some [0x41]
    ∧ liveLookup [0x41] (headed .quote (quoteBody 640 1 642 9999) floor) = some (0, traded)
    ∧ flagAt (quoteBody 640 1 642 9999) 4 0 = true ∧ flagAt (quoteBody 640 1 642 9999) 4 1 = true
    ∧ field (quoteBody 640 1 642 9999) 5 3 = 640 ∧ field (quoteBody 640 1 642 9999) 8 2 = 1
    ∧ field (quoteBody 640 1 642 9999) 10 3 = 642 ∧ field (quoteBody 640 1 642 9999) 13 2 = 9999
    ∧ roundToGrid traded.denominator.step 640 = some 640 ∧ roundToGrid traded.denominator.step 642 = some 644
    ∧ flagAt (placesA ++ List.replicate 11 0) 4 0 = false ∧ flagAt (placesA ++ List.replicate 11 0) 4 1 = false :=
  ⟨headed_canTake _ _ rfl (by decide), by decide +kernel⟩
theorem witness_QuoteTaken_refused :
    CanTakeHead .quote (msg .quote (quoteBody 644 1 640 1)) (headed .quote (quoteBody 644 1 640 1) floor)
    ∧ symbolAt (quoteBody 644 1 640 1) 0 = some [0x41] ∧ symbolAt (List.replicate 15 0x20) 0 = none
    ∧ liveLookup [0x41] (headed .quote (quoteBody 644 1 640 1) floor) = some (0, traded)
      ∧ liveLookup [0x41] opened = none
    ∧ field (quoteBody 640 0 640 1) 8 2 < 1 ∧ 9999 < field (quoteBody 640 10000 640 1) 8 2
    ∧ field (quoteBody 640 1 640 0) 13 2 < 1 ∧ 9999 < field (quoteBody 640 1 640 10000) 13 2
    ∧ field (quoteBody 0 1 640 1) 5 3 < 1 ∧ 319999 < field (quoteBody 320000 1 640 1) 5 3
    ∧ field (quoteBody 640 1 0 1) 10 3 < 1 ∧ 319999 < field (quoteBody 640 1 320000 1) 10 3
    ∧ roundToGrid traded.denominator.step 644 = some 644 ∧ roundToGrid traded.denominator.step 640 = some 640 :=
  ⟨headed_canTake _ _ rfl (by decide), by decide +kernel⟩
theorem witness_HaltAndResumeTaken :
    CanTakeHead .halt (msg .halt (placesA ++ [2])) (headed .halt (placesA ++ [2]) floor)
    ∧ (placesA ++ [2]).length = 5 ∧ symbolAt (placesA ++ [2]) 0 = some [0x41]
      ∧ symbolAt (List.replicate 5 0x20) 0 = none
    ∧ liveLookup [0x41] opened = none ∧ liveLookup [0x41] (headed .halt (placesA ++ [2]) floor) = some (0, traded)
    ∧ field (placesA ++ [2]) 4 1 = HaltReason.other.code.toNat ∧ 2 < field (placesA ++ [3]) 4 1
    ∧ CanTakeHead .resume (msg .resume placesA) (headed .resume placesA floor)
    ∧ (∀ q, traded.state ≠ .halted q)
    ∧ liveLookup [0x41] (headed .resume placesA (withRecord { listed with state := .halted .news } opened))
      = some (0, { listed with state := .halted .news }) :=
  ⟨headed_canTake _ _ rfl (by decide), by decide, by decide, by decide, rfl, by decide +kernel, by decide, by decide,
    headed_canTake _ _ rfl (by decide), fun q => RecState.noConfusion, by decide +kernel⟩
theorem witness_TradeNoticeJoinsOrFolds :
    floor.records[(0 : SlotIx)] = some traded ∧ traded.tape = .a ∧ traded.pending = some ⟨0, 1, 100⟩
    ∧ (withRecord listed opened).records[(0 : SlotIx)] = some listed ∧ listed.pending = none :=
  by decide +kernel

/-! ### A small board

Panel 0, LIVE, shows page 0: entry 0, the last price of "A" at position 0, flashing and with its tick lamp. -/

/-- The one layout entry. -/
def entryA : Entry := ⟨0, 0, .last, 4, true, true, [0x41], some 0⟩

/-- The floor with the board, every rail OK, and no panel but panel 0 out of SHED. -/
def board : State :=
  { floor with
    entries := (Vector.replicate 2048 none).set 0 (some entryA)
    pages := (Vector.replicate 32 none).set 0 (some ⟨0, 0, 1⟩)
    panels := (Vector.replicate 16 Panel.reset).set 0 ⟨.live, some 0, none⟩
    rails := Vector.replicate 4 ⟨.ok, .ok, 50, 12, false, false⟩
    boards := { State.reset.boards with
      positions := (Vector.replicate 1024 Position.reset).set 0 { Position.reset with shown := some 0 } } }

theorem board_position (p : PosIx) :
    board.boards.positions[p] = if 0 = p then { Position.reset with shown := some 0 } else Position.reset := by
  have h : board.boards.positions[p] = if 0 = p then { Position.reset with shown := some 0 }
      else (Vector.replicate 1024 Position.reset)[p] := Vec.set_get _ 0 p _
  rw [h]
  split
  · rfl
  · exact Vector.getElem_replicate ..

theorem board_entry (k : EntryIx) : board.entries[k] = if 0 = k then some entryA else none := by
  have h : board.entries[k] = if 0 = k then some entryA else (Vector.replicate 2048 (none : Option Entry))[k] :=
    Vec.set_get _ 0 k _
  rw [h]
  split
  · rfl
  · exact Vector.getElem_replicate ..

/-! ### Witnesses: layout and pages -/

theorem witness_ChangeNoticeReaches :
    (board.panels[panelOf 0].state = .live ∧ shownEntry board board.boards.positions[(0 : PosIx)] = some entryA
      ∧ entryA.binding = some 0 ∧ entryA.flash = true ∧ entryA.kind = .last)
    ∧ (watcher true .unknown).enabled = true ∧ (watcher true .unknown).presence ≠ .absent
    ∧ (watcher true .absent).presence = .absent ∧ (watcher false .unknown).enabled = false := by decide +kernel
/-- The body of a LOAD ENTRY. -/
def loadBody (index panel position kind width flags : Nat) (places : List Byte) : List Byte :=
  beBytes 2 index ++ [byte panel, byte position, byte kind, byte width, byte flags] ++ places
theorem witness_LoadEntryTaken :
    CanTakeHead .loadEntry (msg .loadEntry (loadBody 2047 15 63 10 10 3 placesA))
      (headed .loadEntry (loadBody 2047 15 63 10 10 3 placesA) opened)
    ∧ (∀ n page, opened.pages[(n : PageIx)] = some page → (2047 : EntryIx).val < page.first
      ∨ page.first + page.count ≤ (2047 : EntryIx).val)
    ∧ (loadBody 2047 15 63 10 10 3 placesA).length = 11 ∧ symbolAt (loadBody 2047 15 63 10 10 3 placesA) 7 = some [0x41]
    ∧ symbolAt (List.replicate 11 0x20) 7 = none
    ∧ field (loadBody 2047 15 63 10 10 3 placesA) 0 2 = (2047 : EntryIx).val
    ∧ field (loadBody 2047 15 63 10 10 3 placesA) 2 1 = (15 : PanelIx).val
    ∧ field (loadBody 2047 15 63 10 10 3 placesA) 3 1 = (63 : Fin 64).val
    ∧ fieldKindOfCode (byteAt (loadBody 2047 15 63 10 10 3 placesA) 4) = some .state
    ∧ field (loadBody 2047 15 63 10 10 3 placesA) 5 1 = 10 ∧ field (loadBody 0 0 0 0 1 0 placesA) 5 1 = 1
    ∧ fieldKindOfCode (byteAt (loadBody 0 0 0 0 1 0 placesA) 4) = some .symbol
    ∧ 2047 < field (loadBody 2048 0 0 0 1 0 placesA) 0 2 ∧ 15 < field (loadBody 0 16 0 0 1 0 placesA) 2 1
    ∧ 63 < field (loadBody 0 0 64 0 1 0 placesA) 3 1 ∧ 10 < field (loadBody 0 0 0 11 1 0 placesA) 4 1
    ∧ field (loadBody 0 0 0 0 0 0 placesA) 5 1 < 1 ∧ 10 < field (loadBody 0 0 0 0 11 0 placesA) 5 1
    -- a conflict, and the same place in a page
    ∧ board.pages[(0 : PageIx)] = some ⟨0, 0, 1⟩ ∧ board.entries[(0 : EntryIx)] = some entryA ∧ entryA.panel ≠ 15 := by
  refine ⟨headed_canTake _ _ rfl (by decide), fun n page h => ?_, by decide +kernel⟩
  cases (State.reset_page n).symm.trans h
theorem witness_UnloadAndUndefineTaken :
    CanTakeHead .unloadEntry (msg .unloadEntry [0x07, 0xFF]) (headed .unloadEntry [0x07, 0xFF] opened)
    ∧ field [0x07, 0xFF] 0 2 = (2047 : EntryIx).val ∧ 2047 < field [0x08, 0x00] 0 2
    ∧ field [0, 0] 0 2 = (0 : EntryIx).val ∧ board.pages[(0 : PageIx)] = some ⟨0, 0, 1⟩
    ∧ (∀ n page, opened.pages[(n : PageIx)] = some page → (2047 : EntryIx).val < page.first
        ∨ page.first + page.count ≤ (2047 : EntryIx).val)
    ∧ CanTakeHead .undefinePage (msg .undefinePage [31]) (headed .undefinePage [31] opened)
    ∧ field [31] 0 1 = (31 : PageIx).val ∧ 31 < field [32] 0 1
    ∧ board.panels[(0 : PanelIx)].current = some 0 ∧ ∀ panel : PanelIx, opened.panels[panel].current ≠ some 31 := by
  refine ⟨headed_canTake _ _ rfl (by decide), by decide, by decide, by decide, by decide +kernel, fun n page h => ?_,
    headed_canTake _ _ rfl (by decide), by decide, by decide, by decide +kernel, fun panel h => ?_⟩
  · cases (State.reset_page n).symm.trans h
  · rw [show opened.panels[panel] = Panel.reset from State.reset_panel panel] at h
    cases h
theorem witness_DefinePageTaken :
    CanTakeHead .definePage (msg .definePage [31, 0, 0, 0, 1]) (headed .definePage [31, 0, 0, 0, 1] board)
    ∧ field [31, 0, 0, 0, 1] 0 1 = (31 : PageIx).val ∧ field [31, 0, 0, 0, 1] 1 1 = (0 : PanelIx).val
    ∧ field [31, 0, 0, 0, 1] 2 2 = 0 ∧ field [31, 0, 0, 0, 1] 4 1 = 1 ∧ field [0, 0, 0x07, 0xFF, 64] 2 2 = 2047
    ∧ field [0, 0, 0x07, 0xFF, 64] 4 1 = 64
    ∧ 31 < field [32, 0, 0, 0, 1] 0 1 ∧ 15 < field [0, 16, 0, 0, 1] 1 1 ∧ 2047 < field [0, 0, 8, 0, 1] 2 2
    ∧ field [0, 0, 0, 0, 0] 4 1 < 1 ∧ 64 < field [0, 0, 0, 0, 65] 4 1
    ∧ board.panels[(0 : PanelIx)].current = some 0 ∧ ¬ (2047 + 64 ≤ 2048) := by
  exact ⟨headed_canTake _ _ rfl (by decide), by decide +kernel⟩
/-- Entry 0 alone makes a page of panel 0 that is not shown. -/
theorem witness_DefinePageTaken_good :
    (∀ q : PanelIx, board.panels[q].current ≠ some 31) ∧
    (∀ k : EntryIx, 0 ≤ k.val → k.val < 0 + 1 → ∃ e, board.entries[k] = some e ∧ e.panel = 0) ∧
    ∀ (k l : EntryIx) (e e' : Entry), 0 ≤ k.val → k.val < 0 + 1 → 0 ≤ l.val → l.val < 0 + 1 →
      board.entries[k] = some e → board.entries[l] = some e' → e.position = e'.position → k = l := by
  refine ⟨fun q => ?_, fun k _ hk => ?_, fun k l _ _ _ hk _ hl _ _ _ => Fin.ext (by omega)⟩
  · have h : board.panels[q] = if 0 = q then ⟨.live, some 0, none⟩ else (Vector.replicate 16 Panel.reset)[q] :=
      Vec.set_get _ 0 q _
    rw [h]
    split
    · intro hc; cases hc
    · rw [show (Vector.replicate 16 Panel.reset)[q] = Panel.reset from Vector.getElem_replicate ..]
      intro hc; cases hc
  · have h0 : (0 : EntryIx) = k := by apply Fin.ext; show 0 = k.val; omega
    exact ⟨entryA, by rw [board_entry, if_pos h0], rfl⟩
theorem witness_PanelShown :
    CanTakeHead .showPage (msg .showPage [15, 255]) (headed .showPage [15, 255] board)
    ∧ field [15, 255] 0 1 = (15 : PanelIx).val ∧ field [15, 255] 1 1 = 255
    ∧ 15 < field [16, 255] 0 1 ∧ (field [0, 32] 1 1 ≠ 255 ∧ 31 < field [0, 32] 1 1)
    ∧ field [0, 31] 1 1 = (31 : PageIx).val ∧ (∀ d, opened.pages[(31 : PageIx)] = some d → d.panel ≠ 0)
    ∧ field [0, 0] 1 1 = (0 : PageIx).val ∧ board.pages[(0 : PageIx)] = some ⟨0, 0, 1⟩
    ∧ CanTakeHead .restorePanel (msg .restorePanel [15]) (headed .restorePanel [15] board)
    ∧ field [15] 0 1 = (15 : PanelIx).val ∧ 15 < field [16] 0 1 ∧ board.panels[(15 : PanelIx)].state ≠ .heldDark
    ∧ ({ board with panels := Vector.replicate 16 ⟨.heldDark, none, none⟩ } : State).panels[(15 : PanelIx)].state
      = .heldDark
    ∧ PagesLaw State.reset := by
  refine ⟨headed_canTake _ _ rfl (by decide), by decide, by decide, by decide, by decide, by decide, fun d h => ?_,
    by decide, by decide +kernel, headed_canTake _ _ rfl (by decide), by decide, by decide, by decide +kernel,
    by decide +kernel, State.reset_pages⟩
  cases (State.reset_page 31).symm.trans h

/-! ### Witnesses: board refresh, lamp drive, verification -/

/-- The board with position 0 queued. -/
def queued : State := { board with boards := { board.boards with repaint := [0] } }

/-- A write of position 0 on the bus. -/
def written : PositionWrite := ⟨0, ⟨.steady, .dark, List.replicate 10 0x20⟩⟩

/-- The board with the write in progress and the switch pending flag of position 0 as given. -/
def writing (flag : Bool) : State :=
  { board with boards := { board.boards with
    write := some written
    positions := board.boards.positions.set 0 { Position.reset with shown := some 0, switchPending := flag } } }

theorem witness_PositionWriteRuns_start : queued.por = false ∧ queued.boards.repaint = 0 :: [] ∧ queued.boards.write = none
    ∧ queued.verifier.target = none ∧ (writing true).boards.write ≠ none
    ∧ ({ queued with verifier := { queued.verifier with target := some 5 } } : State).verifier.target ≠ none := by
  decide
theorem witness_PositionContent :
    shownEntry opened opened.boards.positions[(7 : PosIx)] = none
    ∧ shownEntry board board.boards.positions[(0 : PosIx)] = some entryA ∧ board.records[(0 : SlotIx)] = some traded
    ∧ fieldForm .bid 4 traded = .absent ∧ fieldForm .volume 1 { traded with volume := 1200 } = .noFit
    ∧ fieldForm .last 1 traded = .text [0x32, 0x30] ∧ fieldForm .last 2 traded = .text [0x32, 0x30]
    ∧ fieldForm .symbol 1 traded = .text [0x41] := by decide +kernel
/-- A fraction of each denominator, at the ends of R29, and the field of each kind absent and present. -/
theorem witness_TextForms :
    (∀ x ∈ [(1, 1, 32), (31, 31, 32), (2, 1, 16), (30, 15, 16), (4, 1, 8), (28, 7, 8), (8, 1, 4), (24, 3, 4), (16, 1, 2)],
      x.2.1 % 2 = 1 ∧ x.1 * x.2.2 = 32 * x.2.1)
    ∧ 7 * 8 = 8 * 7 ∧ 4 * 2 = 8 * 1 ∧ listed.day = none ∧ traded.day = some ⟨640, 640, 640, 640⟩
    ∧ ({ listed with close := none } : Record).close = none ∧ listed.close = some 640 ∧ listed.bid = none
    ∧ fullRecord.bid = some ⟨1, 1⟩ ∧ listed.ask = none ∧ fullRecord.ask = some ⟨319999, 9999⟩ := by decide
theorem witness_PrintForms :
    min (BitVec.toNat (199 : Word32)) 999999999 / 100 = 1 ∧ min (BitVec.toNat (200 : Word32)) 999999999 / 100 = 2
    ∧ min (BitVec.toNat (999999 : Word32)) 999999999 / 100 = 9999
    ∧ min (BitVec.toNat (1000000 : Word32)) 999999999 / 100 = 10000 ∧ 319 / 32 = 9 ∧ 320 / 32 = 10 := by decide
theorem witness_PositionWriteRuns_complete :
    ((writing true).por = false ∧ (writing true).boards.write = some written ∧ written.position = 0)
    ∧ (writing true).panels[panelOf 0].state = .live
    ∧ ({ writing true with panels := State.reset.panels } : State).panels[panelOf 0].state ≠ .live
    ∧ (writing false).boards.positions[(0 : PosIx)].switchPending = false
    ∧ (writing true).boards.positions[(0 : PosIx)].switchPending = true := by decide +kernel
/-- The write of the last flagged position of the panel leaves no flag; with position 63 flagged too, it leaves one. -/
theorem witness_PositionWriteRuns_last (x : Position) (hx : x.switchPending = false) (q : PosIx) :
    ((writing true).boards.positions.set 0 x)[q].switchPending = false ∧
    (((writing true).boards.positions.set 63 { x with switchPending := true }).set 0 x)[(63 : PosIx)].switchPending
      = true := by
  constructor
  · rw [show ((writing true).boards.positions.set 0 x)[q] = if 0 = q then x else (writing true).boards.positions[q] from
      Vec.set_get _ 0 q _]
    split
    · exact hx
    · next h =>
      rw [show (writing true).boards.positions[q]
        = if 0 = q then { Position.reset with shown := some 0, switchPending := true } else board.boards.positions[q]
        from Vec.set_get _ 0 q _, if_neg h, board_position, if_neg h]
      rfl
  · simp
theorem witness_PeriodStarts : State.reset.por = false ∧ State.reset.params.blinkPeriod.get .a / 10 = 50
    ∧ elapsed ({ State.reset with time := 49 } : State).time (State.reset.boards.timerStart.get .a) < 50
    ∧ 50 ≤ elapsed ({ State.reset with time := 50 } : State).time (State.reset.boards.timerStart.get .a)
    ∧ State.reset.params.blinkPeriod.get .b / 10 = 100 := by decide
theorem witness_RailSampled : State.reset.por = false ∧ State.reset.rails[(3 : RailIx)].sampled = false
    ∧ (after (.railSample 3 true true) State.reset).rails[(3 : RailIx)].sampled = true
    ∧ ∃ t, step { after (.railSample 3 true true) State.reset with pending := [] } = .next t :=
  ⟨rfl, by decide, by decide, _, rfl⟩
/-- The board with a change of every rail due. -/
def railDue (now next : RailState) (policy : Policy) : State :=
  { board with
    rails := Vector.replicate 4 ⟨now, next, 4, 0, true, true⟩
    params := { board.params with policy := Vector.replicate 4 policy } }
theorem witness_RailStateChanges : ∀ rail : RailIx, board.rails[rail].changeDue = false
    ∧ ∀ p : Policy, p ∈ [Policy.restore, .hold] →
      (railDue .fail .ok p).rails[rail] = ⟨.fail, .ok, 4, 0, true, true⟩ ∧ (railDue .fail .ok p).params.policy[rail] = p
      ∧ (railDue .ok .fail p).rails[rail] = ⟨.ok, .fail, 4, 0, true, true⟩
      ∧ (railDue .ok .low p).rails[rail] = ⟨.ok, .low, 4, 0, true, true⟩ := by decide +kernel
/-- Position 0 has been written and is compared: the one eligible position. -/
def known : State :=
  { board with
    boards := { board.boards with
      positions := board.boards.positions.set 0
        { Position.reset with shown := some 0, image := some written.content } }
    verifier := { board.verifier with phase := .ready, cursor := 1023 } }
theorem known_position (p : PosIx) : known.boards.positions[p]
    = if 0 = p then { Position.reset with shown := some 0, image := some written.content } else Position.reset := by
  rw [show known.boards.positions[p] = if 0 = p then
      { Position.reset with shown := some 0, image := some written.content } else board.boards.positions[p]
    from Vec.set_get _ 0 p _]
  split
  · rfl
  · next h => rw [board_position, if_neg h]
theorem witness_GapEndsAndReadStarts_gap : State.reset.por = false ∧ State.reset.verifier.phase = .waiting 0 10
    ∧ 10 ≤ elapsed ({ State.reset with time := 10 } : State).time 0
    ∧ elapsed ({ State.reset with time := 9 } : State).time 0 < 10 := by decide
theorem witness_GapEndsAndReadStarts_read : known.por = false ∧ known.verifier.phase = .ready ∧ known.boards.write = none
    ∧ known.verifier.target = none ∧ known.boards.repaint = [] ∧ Eligible known 0
    ∧ (∀ q : PosIx, Eligible known q → ((0 : PosIx) - known.verifier.cursor).val ≤ (q - known.verifier.cursor).val)
    ∧ ∀ p : PosIx, ¬ Eligible { board with verifier := known.verifier } p := by
  refine ⟨rfl, rfl, rfl, rfl, rfl, ⟨by decide +kernel, ?_, ?_, by decide, ?_⟩, fun q hq => ?_, fun p hp => ?_⟩
  · rw [known_position]; decide
  · rw [known_position]; decide
  · rw [known_position]; decide
  · by_cases h : (0 : PosIx) = q
    · rw [h]
    · have hi := hq.image
      rw [known_position, if_neg h] at hi
      exact absurd rfl hi
  · have hi := hp.image
    have hb : ({ board with verifier := known.verifier } : State).boards.positions[p].image = none := by
      show board.boards.positions[p].image = none
      rw [board_position]
      split <;> rfl
    exact hi hb
/-- The same with a read of position 0 in progress, overtaken or not. -/
def reading (overtaken : Bool) : State :=
  { known with verifier := { known.verifier with phase := .reading, target := some 0, overtaken := overtaken } }
theorem witness_ReadOutcomesAndClearFaults :
    ((reading true).por = false ∧ (reading true).verifier.target = some 0 ∧ (reading true).verifier.overtaken = true)
    ∧ (reading false).verifier.overtaken = false ∧ (List.replicate 12 (0 : Byte)).length = 12
    ∧ (reading false).boards.positions[(0 : PosIx)].image = some written.content ∧ written.content.cells.length = 10
    ∧ List.replicate 12 0 ≠ imageBytes 0 written.content
    ∧ CanTakeHead .clearFaults (msg .clearFaults []) (headed .clearFaults [] (reading false)) :=
  ⟨by decide, rfl, by decide, by rw [show (reading false).boards.positions[(0 : PosIx)]
    = known.boards.positions[(0 : PosIx)] from rfl, known_position]; rfl, by decide, by decide +kernel,
    headed_canTake _ _ rfl (by decide)⟩

/-! ### Witnesses: tapes and ribbons -/

theorem witness_TapeStartedAndStopped :
    CanTakeHead .tapeStart (msg .tapeStart [1]) (headed .tapeStart [1] State.reset)
    ∧ CanTakeHead .tapeStop (msg .tapeStop [0]) (headed .tapeStop [0] State.reset)
    ∧ 1 < field [2] 0 1 ∧ byteAt [0] 0 = tapeCode .a ∧ byteAt [1] 0 = tapeCode .b :=
  ⟨headed_canTake _ _ rfl (by decide), headed_canTake _ _ rfl (by decide), by decide⟩
theorem witness_TapeCleared :
    CanTakeHead .tapeClear (msg .tapeClear [0]) (headed .tapeClear [0] floor) ∧ byteAt [0] 0 = tapeCode .a
    ∧ TapesLaw (headed .tapeClear [0] floor) ∧ 1 < field [2] 0 1 :=
  ⟨headed_canTake _ _ rfl (by decide), by decide, floor_tapes _ rfl rfl, by decide⟩
/-- A tape unit with the slots given. -/
def unitWith (staged feedSlot modeSlot lateSlot : Option Text) (prints : List SlotIx) : TapeUnit :=
  ⟨prints, 1, 100, 0, 0, .full, 0, staged, feedSlot, modeSlot, lateSlot, 0⟩
theorem witness_NoticeStaged :
    CanTakeHead .notice (msg .notice (0 :: List.replicate 32 0x41)) (headed .notice (0 :: List.replicate 32 0x41) floor)
    ∧ (0 :: List.replicate 32 (0x41 : Byte)).length = (List.replicate 32 (0x41 : Byte)).length + 1
    ∧ (List.replicate 32 (0x41 : Byte)).length = 32 ∧ ([0x41] : Text).length = 1
    ∧ (∀ g ∈ List.replicate 32 (0x41 : Byte), displayable g = true)
      ∧ (∃ g ∈ ([0x41, 0x1F] : Text), displayable g = false)
    ∧ byteAt (0 :: List.replicate 32 0x41) 0 = tapeCode .a ∧ 1 < field [2, 0x41] 0 1
      ∧ (floor.tapes.get .a).staged = none
    ∧ (unitWith (some [0x41]) none none none []).staged ≠ none :=
  ⟨headed_canTake _ _ rfl (by decide), by decide⟩
/-- The floor with ribbon A in the state given, its item and feeder. -/
def ribbonA (st : RibbonState) (kind : ItemKind) (feeder : Text) : State :=
  { floor with ribbons := ⟨⟨st, kind, feeder, 0, 0⟩, Ribbon.reset⟩ }
theorem witness_StepMovesFeeder :
    (floor.por = false ∧ (floor.ribbons.get .a).state = .stopped)
    ∧ 2 ^ 31 ≤ elapsed floor.time 1 ∧ elapsed floor.time 0 < 2 ^ 31
    ∧ ((ribbonA (.running 0) .print [0x41]).ribbons.get .a).feeder = 0x41 :: []
    ∧ ((ribbonA (.running 0) .print [0x41]).ribbons.get .a).state = .running 0
    ∧ ((ribbonA (.stopping 0) .stagedNotice [0x41]).ribbons.get .a).state = .stopping 0
    ∧ ((ribbonA (.stopping 0) .stagedNotice [0x41, 0x20]).ribbons.get .a).feeder = 0x41 :: [0x20] := by decide
/-- Ribbon A due for a selection, with the tape unit given. -/
def selecting (u : TapeUnit) : State :=
  { ribbonA (.running 0) .blank [] with tapes := ⟨u, TapeUnit.reset⟩ }
/-- The tape unit after the two evaluations of the selection. -/
def evaluated (s : State) : TapeUnit :=
  evaluateMode (s.params.thresholds.get .a) (s.tapes.get .a).prints.length
    (evaluateLateness (latenessNow s.time (oldestJoined .a s)) (s.tapes.get .a))
theorem witness_SelectionFeedsItem :
    ((selecting TapeUnit.reset).por = false ∧ ((selecting TapeUnit.reset).ribbons.get .a).state = .running 0
      ∧ elapsed (selecting TapeUnit.reset).time 0 < 2 ^ 31 ∧ ((selecting TapeUnit.reset).ribbons.get .a).feeder = [])
    ∧ (evaluated (selecting (unitWith (some [0x41]) none none none []))).staged = some [0x41]
    ∧ (evaluated (selecting (unitWith none (some quotesDelayed) none none []))).feedSlot = some quotesDelayed
    ∧ (evaluated (selecting (unitWith none none (some [0x43]) none []))).modeSlot = some [0x43]
    ∧ (evaluated (selecting (unitWith none none none (some [0x44]) []))).lateSlot = some [0x44]
    ∧ (evaluated (selecting (unitWith none none none none []))).prints = []
    ∧ (evaluated (selecting (unitWith none none none none [0]))).prints = 0 :: []
    ∧ (evaluated (selecting (unitWith none none none none [0]))).lateSlot = none
    ∧ floor.records[(0 : SlotIx)] = some traded ∧ traded.day = some ⟨640, 640, 640, 640⟩
    ∧ traded.pending = some ⟨0, 1, 100⟩ := by decide +kernel
theorem witness_SelectionEvaluations :
    ((State.reset.tapes.get .a).prints = [] ∧ (floor.tapes.get .a).prints = 0 :: []
      ∧ floor.records[(0 : SlotIx)] = some traded)
    ∧ (0 : Nat) = TapeUnit.reset.lateness ∧ (99 : Nat) ≠ TapeUnit.reset.lateness ∧ (1 : Nat) ≠ TapeUnit.reset.lateness
    ∧ (0 : Nat) ≠ ({ TapeUnit.reset with lateness := 1 } : TapeUnit).lateness ∧ ThresholdsLaw ⟨40, 120, 20, 80, 8⟩
    ∧ ThresholdsLaw ⟨1, 1, 0, 0, 1⟩ ∧ ThresholdsLaw ⟨2048, 2048, 2047, 2047, 255⟩
    ∧ TapeUnit.reset.mode = .full ∧ TapeUnit.reset.mode ≠ .bare
    ∧ ({ TapeUnit.reset with mode := .cut, modeCount := 7 } : TapeUnit).modeCount + 1 = 8
    ∧ ({ TapeUnit.reset with mode := .bare, modeCount := 6 } : TapeUnit).modeCount + 1 < 8 :=
  ⟨by decide +kernel, by decide, by decide, by decide, by decide, by constructor <;> decide, by constructor <;> decide,
    by constructor <;> decide, by decide⟩

/-! ### Witnesses: terminal lines -/

/-- Line 0 with its terminal at drop 7 and its controller as given, the record of "A" traded, nothing else enabled. -/
def lined (t : Terminal) (round : Round) (visit : Option Visit) : State :=
  { floor with
    terminals := (Vector.replicate 32 Terminal.reset).set 7 t
    lines := (Vector.replicate 4 Line.reset).set 0 ⟨0, round, 16, visit, 0, 0, 0⟩ }

/-- A visit of drop 7. -/
def visiting (outstanding : Outstanding) (phase : VisitPhase) (detached : Bool) : Visit :=
  ⟨7, ⟨0x01, 0, []⟩, outstanding, phase, detached⟩

theorem lined_terminal (t : Terminal) (r : Round) (v : Option Visit) (x : TermIx) :
    (lined t r v).terminals[x] = if 7 = x then t else Terminal.reset := by
  rw [show (lined t r v).terminals[x] = if 7 = x then t else (Vector.replicate 32 Terminal.reset)[x] from
    Vec.set_get _ 7 x _]
  split
  · rfl
  · exact Vector.getElem_replicate ..

theorem lined_line (t : Terminal) (r : Round) (v : Option Visit) :
    (lined t r v).lines[(0 : LineIx)] = ⟨0, r, 16, v, 0, 0, 0⟩ := (Vec.set_get _ 0 0 _).trans (if_pos rfl)

/-- The present terminal, with no watch entries. -/
def lone : Terminal := ⟨true, .present, 0, none, [], []⟩

theorem lone_due (x : BitVec 16) (n : Nat) : IsDue lone x n := ⟨rfl, Or.inl (by decide)⟩

theorem reset_notDue (x : BitVec 16) (n : Nat) : ¬ IsDue Terminal.reset x n := fun h => by cases h.1

/-- Before drop 7 no terminal is due. -/
theorem lined_notDue (t : Terminal) (r : Round) (v : Option Visit) (x : BitVec 16) (n : Nat) (e : DropIx) (h : e < 7) :
    ¬ IsDue (lined t r v).terminals[terminalAt 0 e] x n := by
  rw [lined_terminal, if_neg]
  · exact reset_notDue x n
  · intro hc
    have := congrArg Fin.val hc
    have h2 : (terminalAt 0 e).val = e.val := by show 8 * 0 + e.val = e.val; omega
    have h3 : e.val < 7 := h
    have h4 : (7 : TermIx).val = 7 := rfl
    omega

/-- The message TERMINAL ENABLE takes a visit in progress with it; here the line has one, and reset has none. -/
theorem witness_TerminalEnableTaken :
    CanTakeHead .terminalEnable (msg .terminalEnable [3, 0x80]) (headed .terminalEnable [3, 0x80] State.reset)
    ∧ field [3, 0x80] 0 1 = (3 : LineIx).val ∧ 3 < field [4, 0] 0 1
    ∧ TerminalsLaw (headed .terminalEnable [3, 0x80] State.reset)
    ∧ (State.reset.terminals[(31 : TermIx)].enabled = false ∧ (0x80 : Byte).getLsbD 7 = true)
    ∧ State.reset.lines[(3 : LineIx)].visit = none ∧ State.reset.lines[(3 : LineIx)].round = .idle :=
  ⟨headed_canTake _ _ rfl (by decide), by decide, by decide,
    ⟨State.reset_terminals.terminal, fun l => let h := State.reset_terminals.line l; ⟨h.visiting, h.attached,
      h.detached, h.idle⟩⟩,
    by decide +kernel⟩
/-- Line 0 as it stands when TERMINAL ENABLE has enabled drop 0 and its visit has begun. -/
def enabled0 : State := after .terminalEnable (headed .terminalEnable [0, 1] State.reset)
def polled0 : State := after (.visit 0) enabled0
theorem polled0_law : TerminalsLaw polled0 := by
  have hr : TerminalsLaw (headed .terminalEnable [0, 1] State.reset) :=
    ⟨State.reset_terminals.terminal, fun l => let h := State.reset_terminals.line l; ⟨h.visiting, h.attached,
      h.detached, h.idle⟩⟩
  exact terminals_kept.exec (.visit 0) (terminals_kept.exec .terminalEnable hr rfl) rfl
theorem witness_TerminalEnableTaken_visit : TerminalsLaw polled0
    ∧ (polled0.lines[(0 : LineIx)].visit = some ⟨0, ⟨0x01, 0, []⟩, .nothing, .sending, false⟩
      ∧ polled0.terminals[(0 : TermIx)].enabled = true ∧ (0x00 : Byte).getLsbD 0 = false)
    ∧ (enabled0.lines[(0 : LineIx)].visit = none ∧ enabled0.lines[(0 : LineIx)].round = .atDrop 0
      ∧ enabled0.terminals[terminalAt 0 0].enabled = true ∧ enabled0.terminals[terminalAt 0 0].presence ≠ .absent) :=
  ⟨polled0_law, by decide +kernel, by decide +kernel⟩
/-- Line 0 with drop 0 ABSENT, drop 7 PRESENT and no visit, in the round of the number given. -/
def twoDrops (counter : BitVec 16) (next : Nat) : State :=
  { floor with
    terminals := ((Vector.replicate 32 Terminal.reset).set 7 lone).set 0 ⟨true, .absent, 3, none, [], []⟩
    lines := (Vector.replicate 4 Line.reset).set 0 ⟨counter, .atDrop next, 16, none, 0, 0, 0⟩ }
theorem twoDrops_law (counter : BitVec 16) (next : Nat) : TerminalsLaw (twoDrops counter next) := by
  have hl : ∀ line : LineIx, (twoDrops counter next).lines[line]
      = if 0 = line then ⟨counter, .atDrop next, 16, none, 0, 0, 0⟩ else Line.reset := fun line => by
    rw [show (twoDrops counter next).lines[line] = if 0 = line then ⟨counter, .atDrop next, 16, none, 0, 0, 0⟩
      else (Vector.replicate 4 Line.reset)[line] from Vec.set_get _ 0 line _]
    rw [show (Vector.replicate 4 Line.reset)[line] = Line.reset from Vector.getElem_replicate ..]
  have hn : ∀ line : LineIx, (twoDrops counter next).lines[line].visit = none := fun line => by
    rw [hl]; split <;> rfl
  refine ⟨fun x => ?_, fun line => ⟨fun v h => ?_, fun v h => ?_, fun v h => ?_, fun _ => ?_⟩⟩
  · rw [show (twoDrops counter next).terminals[x] = if 0 = x then ⟨true, .absent, 3, none, [], []⟩
      else ((Vector.replicate 32 Terminal.reset).set 7 lone)[x] from Vec.set_get _ 0 x _]
    rw [show ((Vector.replicate 32 Terminal.reset).set 7 lone)[x] = if 7 = x then lone
      else (Vector.replicate 32 Terminal.reset)[x] from Vec.set_get _ 7 x _]
    rw [show (Vector.replicate 32 Terminal.reset)[x] = Terminal.reset from Vector.getElem_replicate ..]
    split
    · constructor <;> decide
    · split <;> constructor <;> decide
  · cases (hn line).symm.trans h
  · cases (hn line).symm.trans h
  · cases (hn line).symm.trans h
  · have ha : ∀ l : LineIx, anyEnabled (twoDrops counter next) l = decide (0 = l) := fun l => by
      show anyEnabled (twoDrops 0 0) l = _
      revert l; decide +kernel
    rw [hl, ha]
    by_cases h : 0 = line <;> simp [h, Line.reset]
/-- A round that TERMINAL ENABLE leaves with no due drop: drop 7 goes, and the ABSENT drop 0 stays (log 21). -/
theorem witness_TerminalEnableTaken_noneDue : ∀ x : BitVec 16 × Nat, x ∈ [((0 : BitVec 16), 1), (1, 0)] →
    TerminalsLaw (headed .terminalEnable [0, 1] (twoDrops x.1 x.2)) ∧ byteAt [0, 1] 1 ≠ 0
    ∧ (twoDrops x.1 x.2).lines[(0 : LineIx)].visit = none
    ∧ (twoDrops x.1 x.2).lines[(0 : LineIx)].round = .atDrop x.2
    ∧ (∀ d : DropIx, x.2 ≤ d.val →
      ¬ IsDue (after .terminalEnable (headed .terminalEnable [0, 1] (twoDrops x.1 x.2))).terminals[terminalAt 0 d] x.1 16)
    ∧ (after .terminalEnable (headed .terminalEnable [0, 1] (twoDrops x.1 x.2))).lines[(0 : LineIx)]
      = ⟨1, .empty 0, 16, none, 0, 0, 0⟩ := by
  intro x hx
  have h := twoDrops_law x.1 x.2
  refine ⟨⟨h.terminal, fun l => let h := h.line l; ⟨h.visiting, h.attached, h.detached, h.idle⟩⟩, by decide, ?_⟩
  unfold IsDue
  simp only [List.mem_cons, List.not_mem_nil, or_false] at hx
  rcases hx with rfl | rfl <;> decide +kernel
theorem witness_VisitBegins : ∀ t : Terminal, t ∈ [lone, { lone with answer := some ⟨0x03, 9, [0, 7]⟩ },
      { lone with watch := [⟨[0x41], .active 0⟩], dirty := [[0x41]] },
      { lone with watch := [⟨[0x41], .dropped⟩], dirty := [[0x41]] }] →
    (lined t (.atDrop 0) none).por = false ∧ (lined t (.atDrop 0) none).lines[(0 : LineIx)]
      = ⟨0, .atDrop 0, 16, none, 0, 0, 0⟩
    ∧ (lined t (.atDrop 0) none).terminals[terminalAt 0 7] = t ∧ IsDue t 0 16
    ∧ ∀ e : DropIx, 0 ≤ e.val → e < 7 → ¬ IsDue (lined t (.atDrop 0) none).terminals[terminalAt 0 e] 0 16 := by
  intro t ht
  refine ⟨rfl, lined_line .., (lined_terminal ..).trans (if_pos (by decide)), ?_,
      fun e _ he => lined_notDue _ _ _ _ _ e he⟩
  simp only [List.mem_cons, List.not_mem_nil, or_false] at ht
  rcases ht with rfl | rfl | rfl | rfl <;> exact ⟨rfl, Or.inl (by decide)⟩
theorem witness_VisitBegins_quiet :
    (lined lone (.quiet 0) none).lines[(0 : LineIx)] = ⟨0, .quiet 0, 16, none, 0, 0, 0⟩
    ∧ 2 ≤ elapsed ({ lined lone (.quiet 0) none with time := 2 } : State).time 0
    ∧ lone.entryOf [0x41] = none
    ∧ ({ lone with watch := [⟨[0x41], .active 0⟩] } : Terminal).entryOf [0x41] = some ⟨[0x41], .active 0⟩
    ∧ ({ lone with watch := [⟨[0x41], .dropped⟩] } : Terminal).entryOf [0x41] = some ⟨[0x41], .dropped⟩ :=
  ⟨lined_line .., by decide⟩
theorem witness_ReplyWindowOpens :
    (lined lone (.atDrop 8) (some (visiting .nothing .sending false))).lines[(0 : LineIx)].visit
      = some (visiting .nothing .sending false) ∧ (visiting .nothing .sending false).phase = .sending :=
  ⟨by rw [lined_line], rfl⟩
theorem witness_MissEffects :
    (visiting .nothing (.window 0 4) true).detached = true ∧ (visiting .nothing (.window 0 4) false).detached = false
    ∧ Outstanding.Held lone .nothing ∧ Outstanding.Held lone (.answer ⟨0x03, 9, [0, 7]⟩)
    ∧ Outstanding.Held (watcher true .unknown) (.active [0x41]) ∧ Outstanding.Held lone (.dropped [0x41] 0)
    ∧ (watcher true .absent).presence = .absent ∧ min (lone.missRun + 1) 8 < State.reset.params.absentThreshold
    ∧ lone.presence ≠ .absent ∧ State.reset.params.absentThreshold ≤ min (({ lone with missRun := 2 } :
      Terminal).missRun + 1) 8 :=
  ⟨rfl, rfl, trivial, ⟨by decide, rfl⟩, ⟨by decide, by decide⟩, ⟨by decide, by decide⟩, by decide⟩
theorem witness_ListeningPhases : ∀ phase : VisitPhase,
    (lined lone (.atDrop 8) (some (visiting .nothing phase false))).por = false
    ∧ (lined lone (.atDrop 8) (some (visiting .nothing phase false))).lines[(0 : LineIx)].visit
      = some (visiting .nothing phase false) ∧ (visiting .nothing phase false).phase = phase := by
  intro phase
  rw [lined_line]
  exact ⟨rfl, rfl, rfl⟩
/-- The phases and characters that the clauses name, at the ends of their ranges. -/
theorem witness_ListeningPhases_ends :
    elapsed 3 0 < 4 ∧ 4 ≤ elapsed 4 0 ∧ elapsed 2 0 ≤ 2 ∧ 2 < elapsed 3 0
    ∧ (([0x10, 5] : List Byte).length = 2 ∧ 60 < (61 : Byte).toNat ∧ (60 : Byte).toNat ≤ 60)
    ∧ ([] : List Byte).length < 2 ∧ (3 ≤ ([0x11, 5, 4] : List Byte).length ∧
      ([0x11, 5, 4, 0x41, 0x20, 0x20] : List Byte).length < 3 + (byteAt [0x11, 5, 4, 0x41, 0x20, 0x20] 2).toNat) := by
  decide
theorem witness_RoundGoesOn :
    (visiting .nothing (.settling 0) false).phase = .settling 0 ∧ elapsed 1 0 < 2 ∧ 2 ≤ elapsed 2 0
    ∧ (∀ d : DropIx, (lined Terminal.reset (.atDrop 8) none).terminals[terminalAt 0 d].enabled = false)
    ∧ (lined lone (.atDrop 1) none).lines[(0 : LineIx)].round = .atDrop 1
    ∧ (∃ d : DropIx, 1 ≤ d.val ∧ IsDue (lined lone (.atDrop 1) none).terminals[terminalAt 0 d] 0 16)
    ∧ (∃ d : DropIx, (lined lone (.atDrop 8) none).terminals[terminalAt 0 d].enabled = true)
    ∧ (∀ d : DropIx, 8 ≤ d.val → ¬ IsDue (lined lone (.atDrop 8) none).terminals[terminalAt 0 d] 0 16)
    ∧ (lined lone (.empty 0) none).lines[(0 : LineIx)].round = .empty 0 ∧ elapsed 0 0 = 0 ∧ 1 ≤ elapsed 1 0 := by
  refine ⟨rfl, by decide, by decide, fun d => ?_, by rw [lined_line], ⟨7, by decide, ?_⟩, ⟨7, ?_⟩,
    fun d hd => absurd d.isLt (by omega), by rw [lined_line], by decide, by decide⟩
  · rw [lined_terminal]
    split <;> rfl
  · rw [lined_terminal, if_pos (by decide)]
    exact lone_due 0 16
  · rw [lined_terminal, if_pos (by decide)]
    rfl
theorem witness_ReplyCompletes : ∀ detached : Bool,
    (lined lone (.atDrop 8) (some (visiting .nothing (.receiving [0x14, 5, 0] 0) detached))).por = false
    ∧ (lined lone (.atDrop 8) (some (visiting .nothing (.receiving [0x14, 5, 0] 0) detached))).lines[(0 : LineIx)].visit
      = some (visiting .nothing (.receiving [0x14, 5, 0] 0) detached)
    ∧ 3 ≤ ([0x14, 5, 0] : List Byte).length ∧ ([0x14, 5, 0] : List Byte).length = 3 + (byteAt [0x14, 5, 0] 2).toNat
    ∧ ([0x14, 5, 0] ++ [(0 : Byte)]).foldl (· + ·) 0 ≠ 0 ∧ ([0x14, 5, 0] ++ [(0xE7 : Byte)]).foldl (· + ·) 0 = 0
    ∧ lone.enabled = true ∧ lone.watched.Nodup := by
  intro detached
  rw [lined_line]
  exact ⟨rfl, rfl, by decide⟩
/-- A terminal that watches eleven or twelve symbols, "A" not among them. -/
def full (n : Nat) : Terminal :=
  { lone with watch := (List.range n).map (fun k => ⟨[byte (0x42 + k)], .dropped⟩) }
theorem witness_RequestsApplied :
    (∀ t : Terminal, t ∈ [lone, watcher true .present, { lone with watch := [⟨[0x41], .dropped⟩] }, full 11, full 12] →
      t.enabled = true ∧ t.presence = .present ∧ TerminalLaw t)
    ∧ symbolOf [0x20, 0x20, 0x20, 0x20] = none ∧ symbolOf placesA = some [0x41]
    ∧ liveLookup [0x41] opened = none ∧ liveLookup [0x41] floor = some (0, traded)
    ∧ (⟨[0x41], .active 0⟩ : WatchEntry) ∈ (watcher true .present).watch
    ∧ [0x41] ∉ (full 12).watched ∧ 12 ≤ (full 12).watch.length ∧ (full 11).watch.length < 12
    ∧ [0x41] ∈ (watcher true .present).watched ∧ [0x41] ∉ lone.watched := by
  refine ⟨fun t ht => ?_, by decide +kernel⟩
  simp only [List.mem_cons, List.not_mem_nil, or_false] at ht
  rcases ht with rfl | rfl | rfl | rfl | rfl <;>
    exact ⟨rfl, rfl, by constructor <;> decide⟩

/-! ### Witnesses: the feed link -/

/-- Reset with the receiver as given. -/
def receiving (r : Receiver) : State := { State.reset with feed := { State.reset.feed with receiver := r } }
theorem witness_FeedFramesReceived_characters :
    (State.reset.por = false ∧ State.reset.feed.receiver = .hunting)
    ∧ (receiving (.inFrame [1, 2] 0)).feed.receiver = .inFrame [1, 2] 0
    ∧ (240 : Byte).toNat ≤ 240 ∧ 240 < (241 : Byte).toNat
    ∧ (3 ≤ ([0x44, 7, 1] : List Byte).length ∧ ([0x44, 7, 1] : List Byte).length < 3 + (byteAt [0x44, 7, 1] 2).toNat)
    ∧ elapsed 2 0 ≤ 2 ∧ 2 < elapsed 3 0 := by decide
theorem witness_FeedFramesReceived_complete :
    (receiving (.inFrame [0x44, 7, 0] 0)).por = false
    ∧ (receiving (.inFrame [0x44, 7, 0] 0)).feed.receiver = .inFrame [0x44, 7, 0] 0
    ∧ 3 ≤ ([0x44, 7, 0] : List Byte).length ∧ ([0x44, 7, 0] : List Byte).length = 3 + (byteAt [0x44, 7, 0] 2).toNat
    ∧ ([0x44, 7, 0] ++ [(0 : Byte)]).foldl (· + ·) 0 ≠ 0 ∧ ([0x44, 7, 0] ++ [(0xB5 : Byte)]).foldl (· + ·) 0 = 0
    ∧ (receiving (.inFrame [0x44, 7, 0] 0)).feed.stale = false
    ∧ (List.replicate 7 (⟨0x44, 7, []⟩ : Frame)).length < 8 ∧ 8 ≤ (List.replicate 8 (⟨0x44, 7, []⟩ :
      Frame)).length := by
  decide
theorem witness_ReplySentAndQuietLimit :
    ({ State.reset with feed := { State.reset.feed with replies := [⟨1, 2, .ok, []⟩] } } : State).feed.replies
      = ⟨1, 2, .ok, []⟩ :: []
    ∧ (opened.phase = .opened ∧ opened.feed.stale = false ∧ opened.params.quietLimit ≠ 0)
    ∧ opened.params.quietLimit * 100 ≤ elapsed ({ opened with time := 1000 } : State).time opened.feed.lastIntact
    ∧ ¬ opened.params.quietLimit * 100 ≤ elapsed ({ opened with time := 999 } : State).time opened.feed.lastIntact := by
  decide
theorem witness_ParametersSetAndRead :
    CanTakeHead .setParameter (msg .setParameter [52, 0xFF, 0xFF, 0xFF, 0xFF])
      (headed .setParameter [52, 0xFF, 0xFF, 0xFF, 0xFF] State.reset)
    ∧ CanTakeHead .readParameter (msg .readParameter [1]) (headed .readParameter [1] State.reset)
    ∧ field [0] 0 1 < 1 ∧ 52 < field [53] 0 1 ∧ parameterOf (field [1] 0 1) = some .quietLimit
    ∧ parameterOf (field [52, 0xFF, 0xFF, 0xFF, 0xFF] 0 1) = some .mask
    ∧ ValueFits State.reset.params .mask (2 ^ 32 - 1) ∧ ValueFits State.reset.params .quietLimit 60
    ∧ ¬ ValueFits State.reset.params .quietLimit 61 ∧ ValueFits State.reset.params (.blinkPeriod .a) 250
    ∧ ValueFits State.reset.params (.litPart .b) 8 ∧ ValueFits State.reset.params (.panelRail 0) 3
    ∧ ValueFits State.reset.params .verifyEnable 0 ∧ ValueFits State.reset.params (.ec .a) 120
    ∧ ¬ ValueFits State.reset.params (.ec .a) 121 := by
  refine ⟨headed_canTake _ _ rfl (by decide), headed_canTake _ _ rfl (by decide), by decide, by decide, by decide,
    by decide, trivial, ?_, ?_, Or.inl rfl, ?_, ?_, ?_, ?_, fun h => absurd h.order.2.1 (by decide)⟩
  · show (60 : Nat) ≤ 60; decide
  · show ¬ (61 : Nat) ≤ 60; decide
  · show (8 : Nat) ≤ 8; decide
  · show (3 : Nat) ≤ 3; decide
  · show (0 : Nat) ≤ 1; decide
  · show ThresholdsLaw _
    constructor <;> decide
/-- Panel 0 moves to rail 3: to the rail it has; to a FAIL rail, SHED and not; to one that is not FAIL, SHED and not. -/
theorem witness_ParametersSetAndRead_panelRail :
    State.reset.params.panelRail[(15 : PanelIx)].val = 3 ∧ State.reset.params.panelRail[(0 : PanelIx)].val ≠ 3
    ∧ (State.reset.rails[(3 : RailIx)].state = .fail ∧ State.reset.panels[(0 : PanelIx)].state = .shed)
    ∧ (({ board with rails := State.reset.rails } : State).rails[(3 : RailIx)].state = .fail
      ∧ ({ board with rails := State.reset.rails } : State).panels[(0 : PanelIx)].state ≠ .shed)
    ∧ (board.rails[(3 : RailIx)].state ≠ .fail ∧ board.panels[(1 : PanelIx)].state = .shed)
    ∧ board.panels[(0 : PanelIx)].state ≠ .shed := by decide +kernel
theorem witness_StatusReadAndConditionsCleared :
    CanTakeHead .readStatus (msg .readStatus [3, 1]) (headed .readStatus [3, 1] State.reset)
    ∧ field [3, 1] 0 1 = 3 ∧ flagAt [3, 1] 1 0 = true ∧ flagAt [0, 0] 1 0 = false ∧ field [0, 0] 0 1 = 0
    ∧ field [1, 0] 0 1 = 1 ∧ field [2, 0] 0 1 = 2 ∧ 3 < field [4, 0] 0 1
    ∧ CanTakeHead .clearConditions (msg .clearConditions [0xFF, 0xFF, 0xFF, 0xFF])
      (headed .clearConditions [0xFF, 0xFF, 0xFF, 0xFF] State.reset) :=
  ⟨headed_canTake _ _ rfl (by decide), by decide, by decide, by decide, by decide, by decide, by decide, by decide,
    headed_canTake _ _ rfl (by decide)⟩
theorem witness_RestartReachesEveryBlock :
    (floor.por = false ∧ TapesLaw floor) ∧ CanTakeHead .restart (msg .restart []) (headed .restart [] floor)
    ∧ TapesLaw (headed .restart [] floor) :=
  ⟨⟨rfl, floor_tapes _ rfl rfl⟩, headed_canTake _ _ rfl (by decide), floor_tapes _ rfl rfl⟩

/-! ### Witnesses: the outputs -/

/-- Reset with the lit part of timer A. -/
def litReset (lit : Nat) : State := { State.reset with params := { State.reset.params with litPart := ⟨lit, 6⟩ } }
theorem witness_OutputLines : State.reset.por = false ∧ (litReset 0).params.litPart.get .a = 0
    ∧ (litReset 1).params.litPart.get .a = 1 ∧ (litReset 7).params.litPart.get .a = 7
    ∧ (litReset 8).params.litPart.get .a = 8
    ∧ exec (.stepEvent .b) floor = .next floor ∧ Instr.stepEvent .b ≠ .stepEvent .a ∧ Instr.stepEvent .b ≠ .porAssert
    ∧ Instr.stepEvent .b ≠ .porRelease :=
  ⟨by decide, by decide, by decide, by decide, by decide, rfl, by decide⟩
theorem witness_BytesSent : ([Status.ok, .rounded] : List Status)[(1 : Byte).toNat]? = some .rounded
    ∧ shownEntry board board.boards.positions[(0 : PosIx)] = some entryA ∧ entryA.width ≤ 10 := by decide +kernel
/-- R163, R169: READY with 6 and 7 frames queued; ATTENTION with a condition masked and enabled. -/
theorem test_readyAndAttention :
    ({ State.reset with feed := { State.reset.feed with inbound := List.replicate 6 ⟨1, 1, []⟩ } } : State).ready = true
    ∧ ({ State.reset with feed := { State.reset.feed with inbound := List.replicate 7 ⟨1, 1, []⟩ } } : State).ready = false
    ∧ (latch .staleChange State.reset).attention = true
    ∧ ({ latch .staleChange State.reset with params := { State.reset.params with mask := 1 } } : State).attention = false := by
  decide
/-- R85: half a period of 500 ms, of which 4 eighths are lit. -/
theorem test_phaseLit : phaseLit { State.reset with time := 24 } .a = true
    ∧ phaseLit { State.reset with time := 25 } .a = false ∧ phaseLit (litReset 0) .a = false := by decide
/-- R176, R180, R179: a position write of 15/63, a reply to QUERY RECORD, and a POLL to drop 7. -/
theorem test_bytes : writeBytes ⟨1023, ⟨.blinkB, .downB, List.replicate 10 0x20⟩⟩
      = [0x8F, 0x3F, 0x43] ++ List.replicate 10 0x20
    ∧ replyBytes ⟨0x0B, 7, .unknown, []⟩ = [0xC3, 0x0B, 7, 1, 2, 0xEB]
    ∧ visitChars (visiting .nothing .sending false) = [(true, 7), (false, 1), (false, 0), (false, 0), (false, 0xFF)] := by
  decide
/-- R119, R135: the items of a tape after one trade of 100 shares. -/
theorem test_readStatus_tapes : (newestBody (after .readStatus (headed .readStatus [1, 0] floor))).map (·.take 25)
    = some [0, 1, 0, 1, 0, 0, 0, 100, 0, 0, 0, 0, 0, 0, 0, 0, 0, 0, 0, 100, 1, 0, 0, 0, 0] := by decide +kernel

/-! ### One step of each command

Each runs one command on one of the small states and looks at what the manual says it leaves. -/

theorem test_list : (after .list (headed .list listBody State.reset)).records[(0 : SlotIx)] = some listed
    ∧ newest (after .list (headed .list listBody State.reset)) = some .ok
    ∧ newestBody (after .list (headed .list listBody State.reset)) = some [0, 0] := by decide +kernel
theorem test_list_again : newest (after .list (headed .list listBody floor)) = some .existing := by decide +kernel
theorem test_delist : (after .delist (headed .delist placesA floor)).records[(0 : SlotIx)]
    = some { traded with state := .retiring } := by decide +kernel
theorem test_queryRecord : (newestBody (after .queryRecord (headed .queryRecord placesA floor))).map List.length
    = some 53
    ∧ (newestBody (after .queryRecord (headed .queryRecord placesA floor))).map (·.take 10)
      = some [0, 0, 0x41, 0x20, 0x20, 0x20, 0x02, 0, 8, 0x23] := by decide +kernel
theorem test_sessionOpen : (after .sessionOpen (headed .sessionOpen [] State.reset)).phase = .opened
    ∧ newest (after .sessionOpen (headed .sessionOpen [] opened)) = some .session := by decide
theorem test_sessionClose : (after .sessionClose (headed .sessionClose [] floor)).phase = .post
    ∧ (after .sessionClose (headed .sessionClose [] floor)).records[(0 : SlotIx)]
      = some { traded with state := .closed } := by decide +kernel
theorem test_dayRoll_busy : newest (after .dayRoll (headed .dayRoll [] { floor with phase := .post }))
    = some .busy := by
  decide +kernel
theorem test_tableClear : (after .tableClear (headed .tableClear [] { floor with phase :=
    .post })).tapes.a.withdrawn = 100
    ∧ (after .tableClear (headed .tableClear [] { floor with phase := .post })).directory = [] := by decide +kernel
/-- R27, R28: 642 is posted as 644, up from 640. -/
theorem test_trade : (after .trade (headed .trade (tradeBody 642 200) floor)).records[(0 : SlotIx)]
      = some { traded with
        day := some ⟨644, 640, 644, 640⟩, volume := 300, trades := 2, direction := .up, pending := some ⟨0, 2, 300⟩ }
    ∧ newest (after .trade (headed .trade (tradeBody 642 200) floor)) = some .rounded
    ∧ newestBody (after .trade (headed .trade (tradeBody 642 200) floor)) = some [0, 0, 0, 2, 0x84, 2] :=
      by decide +kernel
theorem test_quote : (after .quote (headed .quote (quoteBody 640 1 642 9999) floor)).records[(0 : SlotIx)]
    = some { traded with bid := some ⟨640, 1⟩, ask := some ⟨644, 9999⟩ } := by decide +kernel
theorem test_quote_crossed : newest (after .quote (headed .quote (quoteBody 644 1 640 1) floor)) = some .crossed := by
  decide +kernel
theorem test_halt : (after .halt (headed .halt (placesA ++ [1]) floor)).records[(0 : SlotIx)]
    = some { traded with state := .halted .imbalance } := by decide +kernel
theorem test_resume :
    (after .resume (headed .resume placesA (withRecord { listed with state := .halted .news } opened))).records[(0 :
      SlotIx)]
      = some listed := by decide +kernel
theorem test_loadEntry :
    (after .loadEntry (headed .loadEntry (loadBody 0 0 0 1 4 3 placesA) floor)).entries[(0 : EntryIx)]
      = some entryA := by
  decide +kernel
theorem test_unloadEntry : newest (after .unloadEntry (headed .unloadEntry [0, 0] board)) = some .conflict := by
  decide +kernel
theorem test_definePage : (after .definePage (headed .definePage [31, 0, 0, 0, 1] board)).pages[(31 : PageIx)]
    = some ⟨0, 0, 1⟩ := by decide +kernel
theorem test_undefinePage : newest (after .undefinePage (headed .undefinePage [0] board)) = some .shown := by
  decide +kernel
theorem test_showPage : (after .showPage (headed .showPage [0, 255] board)).boards.repaint.length = 64
    ∧ newestBody (after .showPage (headed .showPage [0, 255] board)) = some [0, 255, 0] := by decide +kernel
theorem test_restorePanel : newestBody (after .restorePanel (headed .restorePanel [15] board)) = some [15, 255, 1] := by
  decide +kernel
theorem test_clearFaults : newest (after .clearFaults (headed .clearFaults [] known)) = some .ok := by decide +kernel
theorem test_tapeStart : ((after .tapeStart (headed .tapeStart [0] floor)).ribbons.get .a).state = .running 8 :=
    by decide
theorem test_tapeStop :
    ((after .tapeStop (headed .tapeStop [0] (ribbonA (.running 3) .print [0x41]))).ribbons.get .a).state
    = .stopping 3 := by decide
theorem test_tapeClear : newestBody (after .tapeClear (headed .tapeClear [0] floor))
    = some [0, 0, 1, 0, 0, 0, 100] := by
  decide +kernel
theorem test_notice : (after .notice (headed .notice [1, 0x48, 0x49] floor)).tapes.b.staged = some [0x48, 0x49] := by
  decide
theorem test_terminalEnable : enabled0.terminals[(0 : TermIx)].enabled = true
    ∧ enabled0.lines[(0 : LineIx)].round = .atDrop 0 := by decide +kernel
theorem test_setParameter : (after .setParameter (headed .setParameter [2, 0, 0, 0,
    15] State.reset)).params.flashCount = 15
    ∧ newest (after .setParameter (headed .setParameter [2, 0, 0, 0, 16] State.reset)) = some .range :=
      by decide +kernel
theorem test_readParameter : newestBody (after .readParameter (headed .readParameter [52] State.reset))
    = some [52, 0x3F, 0xFF, 0xFF, 0xFF] := by decide +kernel
theorem test_readStatus : (newestBody (after .readStatus (headed .readStatus [0, 0] floor))).map (·.take 10)
    = some [1, 0, 1, 0, 0, 0, 0, 0, 0, 0] := by decide +kernel
theorem test_clearConditions :
    (after .clearConditions (headed .clearConditions [0, 0, 0, 3]
      { State.reset with feed := { State.reset.feed with latched := 5 } })).feed.latched = 4 := by decide
theorem test_restart : (after .restart (headed .restart [] floor)).tapes.a.withdrawn = 100
    ∧ (after .restart (headed .restart [] floor)).feed.replies = [⟨0x44, 7, .ok, []⟩] := by decide +kernel
theorem test_unknownKindTaken :
    (after .unknownKindTaken { opened with feed := { opened.feed with inbound := [⟨0x0F, 9, []⟩] } }).feed.replies
      = [⟨0x0F, 9, .malformed, []⟩] := by decide
theorem test_restartInput : (after .restartInput floor).tapes.a.prints = []
    ∧ (after .restartInput floor).records[(0 : SlotIx)] = some { traded with pending := none } := by decide +kernel
theorem test_porAssert : (after .porAssert floor).ready = false ∧ (after .porAssert floor).directory = [] := by decide
theorem test_porRelease : (after .porRelease (after .porAssert floor)).ready = true := by decide
theorem test_frameComplete : (after (.frameComplete 0xB5) (receiving (.inFrame [0x44, 7, 0] 0))).feed.inbound
      = [⟨0x44, 7, []⟩]
    ∧ (after (.frameComplete 0xB4) (receiving (.inFrame [0x44, 7, 0] 0))).feed.checkCount = 1 := by decide
theorem test_framingFailure : (after (.framingFailure .badStop) (receiving (.inFrame [0x44] 0))).feed.framingCount
    = 1 := by
  decide
theorem test_frameGapExpiry :
    (after .frameGapExpiry { receiving (.inFrame [0x44] 0) with time := 3 }).feed.receiver = .hunting
    ∧ (after .frameGapExpiry { receiving (.inFrame [0x44] 0) with time := 2 }).feed.receiver = .inFrame [0x44] 0 := by
  decide
theorem test_replySent :
    (after .replySent (after .sessionOpen (headed .sessionOpen [] State.reset))).feed.replies = [] := by decide
theorem test_quietLimitExpiry : (after .quietLimitExpiry { opened with time := 1000 }).feed.stale = true
    ∧ (after .quietLimitExpiry { opened with time := 1000 }).tapes.b.feedSlot = some quotesDelayed
    ∧ (after .quietLimitExpiry { opened with time := 999 }).feed.stale = false := by decide +kernel
theorem test_positionWriteStart : (after .positionWriteStart queued).boards.write
    = some ⟨0, ⟨.steady, .dark, [0x20, 0x20, 0x20, 0x20, 0x20, 0x20, 0x20, 0x20, 0x32, 0x30]⟩⟩ := by decide +kernel
theorem test_positionWriteComplete :
    (after .positionWriteComplete (writing true)).boards.positions[(0 : PosIx)].image = some written.content
    ∧ (after .positionWriteComplete (writing true)).feed.latched = 1
    ∧ (after .positionWriteComplete (writing true)).panels[(0 : PanelIx)].lastShown = some 0 := by decide +kernel
theorem test_periodStart : (after (.periodStart .b) { State.reset with time := 100 }).boards.timerStart = ⟨0, 100⟩ := by
  decide
theorem test_railSample : (after (.railSample 2 true true) State.reset).rails[(2 : RailIx)]
    = ⟨.fail, .ok, 1, 0, true, false⟩ := by decide
theorem test_railStateChange :
    (after (.railStateChange 1) (railDue .fail .ok .hold)).panels[(4 : PanelIx)].state = .heldDark
    ∧ (after (.railStateChange 1) (railDue .fail .ok .hold)).feed.latched = BitVec.twoPow 30 21 := by decide +kernel
theorem test_verifyGapExpiry : (after .verifyGapExpiry { State.reset with time := 10 }).verifier.phase = .ready
    ∧ (after .verifyGapExpiry { State.reset with time := 9 }).verifier.phase = .waiting 0 10 := by decide
theorem test_readStart : (after .readStart known).verifier = ⟨.reading, 1, some 0, false, 0, none⟩ := by decide +kernel
theorem test_echoArrival :
    (after (.echoArrival (imageBytes 0 written.content)) (reading false)).boards.positions[(0 : PosIx)].matchRun = 1
    ∧ (after (.echoArrival (imageBytes 1 written.content)) (reading false)).boards.positions[(0 : PosIx)].verify
      = .suspect := by decide +kernel
theorem test_echoLimitExpiry : (after .echoLimitExpiry (reading false)).verifier.mismatchTotal = 1
    ∧ (after .echoLimitExpiry (reading true)).verifier.mismatchTotal = 0 := by decide +kernel
/-- R126, R127: the print of 100 shares of "A" at 20: its first character enters the ribbon,
    and the print is counted. -/
theorem test_stepEvent :
    ((after (.stepEvent .a) (ribbonA (.running 0) .blank [])).ribbons.get .a).charOut = 0x41
    ∧ ((after (.stepEvent .a) (ribbonA (.running 0) .blank [])).ribbons.get .a).strobes = 1
    ∧ ((after (.stepEvent .a) (ribbonA (.running 0) .blank [])).ribbons.get .a).state = .running 8
    ∧ (after (.stepEvent .a) (ribbonA (.running 0) .blank [])).tapes.a.printed = 100 := by decide +kernel
theorem test_visit : polled0.lines[(0 : LineIx)].visit = some ⟨0, ⟨0x01, 0, []⟩, .nothing, .sending, false⟩
    ∧ polled0.lines[(0 : LineIx)].round = .atDrop 1 := by decide +kernel
theorem test_emptyRoundExpiry :
    (after (.emptyRoundExpiry 0) { lined lone (.empty 0) none with time := 1 }).lines[(0 : LineIx)].counter = 1
    ∧ (after (.emptyRoundExpiry 0) (lined lone (.empty 0) none)).lines[(0 : LineIx)].counter = 0 := by decide +kernel
/-- Line 0 visiting drop 7 in the phase given, at the time 4. -/
def listening (phase : VisitPhase) : State :=
  { lined lone (.atDrop 8) (some (visiting .nothing phase false)) with time := 4 }
theorem test_replyWindowExpiry : (after (.replyWindowExpiry 0) (listening (.window 0 4))).lines[(0 :
    LineIx)].silentCount = 1
    ∧ (after (.replyWindowExpiry 0) (listening (.window 0 4))).terminals[(7 : TermIx)].missRun = 1 := by decide +kernel
/-- R155: a REFRESH answered DONE, and the visit and the round have ended. -/
theorem test_replyComplete :
    (after (.replyComplete 0 0xE7) (listening (.receiving [0x14, 5, 0] 4))).terminals[(7 : TermIx)].answer
      = some ⟨0x03, 5, [0, 7]⟩
    ∧ (after (.replyComplete 0 0xE7) (listening (.receiving [0x14, 5, 0] 4))).lines[(0 : LineIx)]
      = ⟨1, .atDrop 0, 16, none, 0, 0, 0⟩ := by decide +kernel
theorem test_terminalFramingError :
    (after (.terminalFramingError 0 .markOne) (listening (.window 0 4))).lines[(0 : LineIx)].framingCount = 1 := by
  decide +kernel
theorem test_replyGapExpiry :
    (after (.replyGapExpiry 0) (listening (.receiving [0x14] 1))).lines[(0 : LineIx)]
      = ⟨1, .atDrop 0, 16, none, 1, 0, 0⟩ := by decide +kernel
theorem test_settlingExpiry : (after (.settlingExpiry 0) (listening (.settling 2))).lines[(0 : LineIx)].visit = none
    ∧ (after (.settlingExpiry 0) (listening (.settling 3))).lines[(0 : LineIx)].visit ≠ none := by decide +kernel
theorem test_feedCharacterArrival : (after (.feedCharacterArrival 0xC3) State.reset).feed.receiver = .inFrame [] 0
    ∧ (after (.feedCharacterArrival 0x44) State.reset).feed.receiver = .hunting := by decide
theorem test_replyCharacterArrival :
    ((after (.replyCharacterArrival 0 0x14) (listening (.window 0 4))).lines[(0 : LineIx)].visit).map (·.phase)
      = some (.receiving [0x14] 4) := by decide +kernel
theorem test_replyWindowOpen :
    ((after (.replyWindowOpen 0) (listening .sending)).lines[(0 : LineIx)].visit).map (·.phase)
      = some (.window 4 4) := by
  decide +kernel
/-- An empty queue lets an interval pass (log 3); a queue gives its front to the machine first. -/
theorem test_step : step State.reset = .next (nextInterval State.reset)
    ∧ step busy = exec (.stepEvent .a) { floor with pending := [.porAssert] } := ⟨rfl, rfl⟩

end Sys2Proof.Tests
end

/-! ### The laws of the records, the table, the tapes and the ribbons (chapters 1, 4, 7 and 8) -/

namespace Sys2Proof.Machine

/-- Settles O6: every command and the passing of an interval keep the law, operation by operation. -/
theorem recordLawKept : Obligations.RecordLawKept := fun _ _ h he => records_kept.step h he

/-- Settles O7: every command and the passing of an interval keep the law, operation by operation. -/
theorem tableLawKept : Obligations.TableLawKept := fun _ _ h he => table_kept.step h he

/-- Settles O8: every command and the passing of an interval keep the law of the tapes, and that of the ribbons. -/
theorem tapeLawsKept : Obligations.TapeLawsKept :=
  ⟨fun _ _ h he => tapes_kept.step h he, fun _ _ h he => ribbons_kept.step h he⟩

/-- Settles O5, law by law. -/
theorem resetKeepsEveryLaw : Obligations.ResetKeepsEveryLaw :=
  ⟨State.reset_records, State.reset_table, State.reset_tapes, State.reset_ribbons, State.reset_boards,
    State.reset_pages, State.reset_terminals, State.reset_interface⟩

end Sys2Proof.Machine

/-! ### How a command takes a message (R164) -/

namespace Sys2Proof.Machine

/-- What the owner of a message of the kind makes of its body. -/
def Kind.owner : Kind → List Byte → State → State × Answer
  | .list => applyList
  | .delist => applyDelist
  | .trade => applyTrade
  | .quote => applyQuote
  | .halt => applyHalt
  | .resume => applyResume
  | .sessionOpen => applySessionOpen
  | .sessionClose => applySessionClose
  | .dayRoll => applyDayRoll
  | .tableClear => applyTableClear
  | .queryRecord => applyQueryRecord
  | .loadEntry => applyLoadEntry
  | .unloadEntry => applyUnloadEntry
  | .definePage => applyDefinePage
  | .undefinePage => applyUndefinePage
  | .showPage => applyShowPage
  | .restorePanel => applyRestorePanel
  | .clearFaults => applyClearFaults
  | .tapeStart => applyTapeStart
  | .tapeStop => applyTapeStop
  | .tapeClear => applyTapeClear
  | .notice => applyNotice
  | .terminalEnable => applyTerminalEnable
  | .setParameter => applySetParameter
  | .readParameter => applyReadParameter
  | .readStatus => applyReadStatus
  | .clearConditions => applyClearConditions
  | .restart => applyRestart

/-- R164: the command of a kind takes a message of that kind and applies its owner's rules. -/
theorem exec_command (k : Kind) (s : State) : exec k.command s = powered (takeMessage k k.owner) s := by
  cases k <;> rfl

/-- R164: a message that its owner accepts. -/
theorem command_accepted {k : Kind} {f : Frame} {s z : State} {a : Answer} (h : CanTakeHead k f s)
    (hl : k.lengthFits f.body.length = true) (ha : k.owner f.body (removeHead s) = (z, a)) :
    exec k.command s = .next (placeReply f.kind f.tag a z) :=
  (exec_command k s).trans (message_accepted _ h hl ha)

/-- R41, R164: a message that its owner refuses. -/
theorem command_refused {k : Kind} {f : Frame} {s : State} {status : Status} (h : CanTakeHead k f s)
    (hl : k.lengthFits f.body.length = true)
    (ha : k.owner f.body (removeHead s) = refuse status (removeHead s)) :
    exec k.command s = .next (turnedAway f status s) :=
  (exec_command k s).trans (message_refused _ h hl ha)

/-- R164: a message whose length does not suit its kind. -/
theorem command_malformed {k : Kind} {f : Frame} {s : State} (h : CanTakeHead k f s)
    (hl : k.lengthFits f.body.length = false) : exec k.command s = .next (turnedAway f .malformed s) := by
  rw [exec_command, powered_eq h.powered, takeMessage_malformed _ h hl]
  rfl

/-- R165: with 8 replies waiting there is no free place. -/
theorem canTake_full {s : State} (h : 8 ≤ s.feed.replies.length) : canTake s = false :=
  Bool.eq_false_iff.mpr fun hc => Nat.not_lt.mpr h (canTake_iff.mp hc)

theorem takeMessage_full {k : Kind} {apply : List Byte → State → State × Answer} {s : State}
    (h : 8 ≤ s.feed.replies.length) : takeMessage k apply s = s := by
  unfold takeMessage
  split
  · rfl
  · simp [canTake_full h]

theorem takeUnknown_full {s : State} (h : 8 ≤ s.feed.replies.length) : takeUnknown s = s := by
  unfold takeUnknown
  split
  · rfl
  · simp [canTake_full h]

/-- An effect that leaves the state alone leaves it alone under POR too. -/
theorem powered_same {f : State → State} {s : State} (h : f s = s) : powered f s = .next s := by
  simp [powered, h]

theorem knownKind_false {code : Byte} (h : ∀ k : Kind, code ≠ k.code) : knownKind code = false :=
  List.any_eq_false.mpr fun k _ => by simpa using (h k).symm

/-- R164, step 1: a head of a kind that is no message. -/
theorem takeUnknown_eq {f : Frame} {s : State} (hh : s.feed.inbound.head? = some f) (hk : knownKind f.kind = false)
    (hp : s.feed.replies.length < 8) : takeUnknown s = turnedAway f .malformed s := by
  unfold takeUnknown
  split
  · next he => simp [he] at hh
  · next g q he =>
    have hg : g = f := by simpa [he] using hh
    subst hg
    rw [if_pos ⟨hk, canTake_iff.mpr hp⟩]
    rfl

/-! ### Symbol fields (R7) -/

theorem splitLetters_append (l : List Byte) : (splitLetters l).1 ++ (splitLetters l).2 = l := by
  induction l with
  | nil => rfl
  | cons g rest ih =>
    unfold splitLetters
    split
    · simpa using ih
    · rfl

theorem isLetter_iff {g : Byte} : isLetter g = true ↔ 0x41 ≤ g ∧ g ≤ 0x5A := by simp [isLetter]

/-- R7: the places of an accepted symbol are its letters followed by blanks. -/
theorem symbolOf_places {places : List Byte} {sym : Symbol} (h : symbolOf places = some sym) :
    places = sym ++ List.replicate (places.length - sym.length) 0x20 := by
  unfold symbolOf at h
  dsimp only at h
  split at h
  · next hc =>
    cases h
    have happ := splitLetters_append places
    have hblank : (splitLetters places).2 = List.replicate (splitLetters places).2.length 0x20 :=
      List.eq_replicate_of_mem fun b hb => by simpa using List.all_eq_true.mp hc.2 b hb
    have hlen : places.length - (splitLetters places).1.length = (splitLetters places).2.length := by
      have := congrArg List.length happ
      rw [List.length_append] at this
      omega
    rw [hlen, ← hblank, happ]
  · cases h

/-- R7: four places that are not 1 to 4 capital letters followed by blanks are no symbol. -/
theorem symbolAt_none {body : List Byte} {n : Nat} (hn : n + 4 ≤ body.length)
    (h : ∀ letters : Symbol, 1 ≤ letters.length → (∀ g ∈ letters, 0x41 ≤ g ∧ g ≤ 0x5A) →
      (body.drop n).take 4 ≠ letters ++ List.replicate (4 - letters.length) 0x20) : symbolAt body n = none := by
  cases hs : symbolAt body n with
  | none => rfl
  | some sym =>
    obtain ⟨hne, _, hlet⟩ := symbolAt_law hs
    have hp := symbolOf_places hs
    have h4 : ((body.drop n).take 4).length = 4 := by
      rw [List.length_take, List.length_drop]
      omega
    rw [h4] at hp
    exact absurd hp (h sym (List.length_pos_of_ne_nil hne) fun g hg => isLetter_iff.mp (hlet g hg))

/-- The kinds whose body begins with a symbol (R177). -/
def symbolFirst : List Kind := [.list, .delist, .trade, .quote, .halt, .resume, .queryRecord]

/-- R7: the owner of a message that begins with its symbol answers MALFORMED where the field is none. -/
theorem owner_malformed {k : Kind} (hk : k ∈ symbolFirst) {b : List Byte} (h : symbolAt b 0 = none) (s : State) :
    k.owner b s = refuse .malformed s := by
  simp only [symbolFirst, List.mem_cons, List.not_mem_nil, or_false] at hk
  rcases hk with rfl | rfl | rfl | rfl | rfl | rfl | rfl
  · simp [Kind.owner, applyList, h]
  · simp [Kind.owner, applyDelist, h]
  · simp [Kind.owner, applyTrade, h]
  · simp [Kind.owner, applyQuote, h]
  · simp [Kind.owner, applyHalt, h]
  · simp [Kind.owner, applyResume, h]
  · simp [Kind.owner, applyQueryRecord, h]

theorem loadEntry_malformed {b : List Byte} (h : symbolAt b 7 = none) (s : State) :
    applyLoadEntry b s = refuse .malformed s := by
  simp [applyLoadEntry, h]

/-- R177: a message that begins with its symbol is long enough to hold it. -/
theorem symbolFirst_length {k : Kind} (hk : k ∈ symbolFirst) {n : Nat} (h : k.lengthFits n = true) : 4 ≤ n := by
  simp only [symbolFirst, List.mem_cons, List.not_mem_nil, or_false] at hk
  rcases hk with rfl | rfl | rfl | rfl | rfl | rfl | rfl <;> simp [Kind.lengthFits] at h <;> omega

/-- Settles O12: by the three ways to be malformed, and by the full reply queue. -/
theorem messagesMalformedOrHeld : Obligations.MessagesMalformedOrHeld := by
  refine ⟨?_, fun s hs => ⟨powered_same (takeUnknown_full hs), fun k => ?_⟩⟩
  · rintro f s t hpor hh hp rfl
    refine ⟨fun hk => ?_, fun k hk hl => command_malformed ⟨hpor, hh, hk, hp⟩ hl, fun k n hk hl hw hsym => ?_⟩
    · exact (powered_eq hpor).trans (congrArg _ (takeUnknown_eq hh (knownKind_false hk) hp))
    · refine command_refused ⟨hpor, hh, hk, hp⟩ hl ?_
      rcases hw with ⟨hw, rfl⟩ | ⟨rfl, rfl⟩
      · exact owner_malformed hw (symbolAt_none (symbolFirst_length hw hl) hsym) _
      · have h11 : f.body.length = 11 := by simpa [Kind.lengthFits] using hl
        exact loadEntry_malformed (symbolAt_none (by omega) hsym) _
  · rw [exec_command]
    exact powered_same (takeMessage_full hs)

end Sys2Proof.Machine

/-! ### LIST (R8, R10, R11, R62) -/

namespace Sys2Proof.Machine

/-- R175: a field of one byte is the byte, 0 where the body ends before it. -/
theorem field_one (b : List Byte) (n : Nat) : field b n 1 = (byteAt b n).toNat := by
  unfold field byteAt
  rw [List.getD_eq_getElem?_getD, ← List.head?_drop]
  cases b.drop n with
  | nil => rfl
  | cons x rest => simp [ofBeBytes]

theorem tapeOfCode_code (t : AB) : tapeOfCode (tapeCode t) = some t := by cases t <;> rfl

/-- R181: a tape code is 0 or 1. -/
theorem tapeOfCode_none {b : Byte} (h : b.toNat ∉ [0, 1]) : tapeOfCode b = none := by
  simp only [List.mem_cons, List.not_mem_nil, or_false, not_or] at h
  have h0 : b ≠ 0#8 := fun e => h.1 (e ▸ rfl)
  have h1 : b ≠ 1#8 := fun e => h.2 (e ▸ rfl)
  simp [tapeOfCode, h0, h1]

theorem tapeOfCode_some {b : Byte} (h : b.toNat ∈ [0, 1]) : ∃ t, tapeOfCode b = some t := by
  simp only [List.mem_cons, List.not_mem_nil, or_false] at h
  rcases h with h | h
  · exact ⟨.a, by rw [BitVec.eq_of_toNat_eq (y := 0) h]; rfl⟩
  · exact ⟨.b, by rw [BitVec.eq_of_toNat_eq (y := 1) h]; rfl⟩

/-- R24: a denominator is carried as 8, 16 or 32. -/
theorem denominatorOfCode_value {b : Byte} {d : Denominator} (h : b.toNat = d.value) :
    denominatorOfCode b = some d := by
  have hb : b = BitVec.ofNat 8 d.value := by rw [← h, BitVec.ofNat_toNat, BitVec.setWidth_eq]
  cases d <;> rw [hb] <;> rfl

theorem denominatorOfCode_none {b : Byte} (h : b.toNat ∉ [8, 16, 32]) : denominatorOfCode b = none := by
  simp only [List.mem_cons, List.not_mem_nil, or_false, not_or] at h
  have h8 : b ≠ 8#8 := fun e => h.1 (e ▸ rfl)
  have h16 : b ≠ 16#8 := fun e => h.2.1 (e ▸ rfl)
  have h32 : b ≠ 32#8 := fun e => h.2.2 (e ▸ rfl)
  simp [denominatorOfCode, h8, h16, h32]

/-- R10, step 3: a close fits when it is none or a price on the grid. -/
theorem closeFits_iff {d : Denominator} {close : Option Nat} :
    closeFits d close = true ↔ ∀ c, close = some c → OnGrid d c := by
  cases close with
  | none => simp [closeFits]
  | some c =>
    simp only [closeFits, Bool.and_eq_true, decide_eq_true_eq, validPrice_iff, OnGrid, Option.some.injEq,
      forall_eq', and_assoc]

/-- R177: the close that a LIST gives, if any. -/
def givenClose (b : List Byte) : Option Nat := if flagAt b 6 0 then some (field b 7 3) else none

theorem givenClose_fits {b : List Byte} {d : Denominator} :
    closeFits d (givenClose b) = true ↔ (flagAt b 6 0 = true → OnGrid d (field b 7 3)) := by
  rw [closeFits_iff]
  unfold givenClose
  split
  · next hf => simp [hf]
  · next hf => simp [hf]

/-- R10, step 1. -/
theorem applyList_malformed {b : List Byte} (h : symbolAt b 0 = none) (s : State) :
    applyList b s = refuse .malformed s := owner_malformed (k := .list) (by simp [symbolFirst]) h s

/-- R10, step 2. -/
theorem applyList_code {b : List Byte} {sym : Symbol} (hs : symbolAt b 0 = some sym)
    (h : tapeOfCode (byteAt b 4) = none ∨ denominatorOfCode (byteAt b 5) = none) (s : State) :
    applyList b s = refuse .range s := by
  unfold applyList
  rw [hs]
  dsimp only
  split
  · next ht hd =>
    rcases h with h | h
    · rw [h] at ht; cases ht
    · rw [h] at hd; cases hd
  · rfl

section

/-! R10, steps 3 to 5, and R11: a LIST whose symbol, tape and denominator have passed. -/

variable {b : List Byte} {sym : Symbol} {t : AB} {d : Denominator} {s : State} (hs : symbolAt b 0 = some sym)
  (ht : tapeOfCode (byteAt b 4) = some t) (hd : denominatorOfCode (byteAt b 5) = some d)
include hs ht hd

theorem applyList_offGrid (hc : closeFits d (givenClose b) = false) : applyList b s = refuse .range s := by
  unfold givenClose at hc
  simp [applyList, hs, ht, hd, hc]

theorem applyList_held (hc : closeFits d (givenClose b) = true) {i : SlotIx} {r : Record}
    (hl : fullLookup sym s = some (i, r)) :
    applyList b s = if r.state.isLive then refuse .existing s else refuse .busy s := by
  unfold givenClose at hc
  simp [applyList, hs, ht, hd, hc, hl]

theorem applyList_full (hc : closeFits d (givenClose b) = true) (hl : fullLookup sym s = none)
    (hf : lowestFree s = none) : applyList b s = refuse .full s := by
  unfold givenClose at hc
  simp [applyList, hs, ht, hd, hc, hl, hf]

theorem applyList_taken (hc : closeFits d (givenClose b) = true) (hl : fullLookup sym s = none) {i : SlotIx}
    (hf : lowestFree s = some i) :
    applyList b s = (listAt i (newRecord sym t d (givenClose b)) s, ⟨.ok, beBytes 2 i.val⟩) := by
  unfold givenClose at hc ⊢
  simp [applyList, hs, ht, hd, hc, hl, hf]

end

theorem isLive_iff {x : RecState} : x.isLive = true ↔ x ≠ .retiring := by
  cases x <;> simp [RecState.isLive]

/-- R9: the full lookup finds nothing where the directory has no entry of the symbol. -/
theorem fullLookup_absent {sym : Symbol} {s : State} (h : ∀ e ∈ s.directory, e.1 ≠ sym) :
    fullLookup sym s = none := by
  unfold fullLookup
  rw [List.find?_eq_none.mpr fun e he => by simpa using h e he]

/-- R11, step 1: the FREE slot with no FREE slot below it is the lowest. -/
theorem lowestFree_eq {s : State} {i : SlotIx} (hi : s.records[i] = none)
    (hlow : ∀ j, j < i → s.records[j] ≠ none) : lowestFree s = some i := by
  have hmem : ∀ j : SlotIx, j ∈ Vec.select (fun _ r => r.isNone) s.records ↔ s.records[j] = none := fun j => by
    rw [Vec.mem_select, Option.isNone_iff_eq_none]
  have hsort := Vec.select_sorted (fun _ (r : Option Record) => r.isNone) s.records
  unfold lowestFree
  cases hsel : Vec.select (fun _ (r : Option Record) => r.isNone) s.records with
  | nil => exact absurd ((hmem i).mpr hi) (by simp [hsel])
  | cons x rest =>
    rw [hsel] at hmem hsort
    have hx : ¬ x < i := fun hlt => hlow x hlt ((hmem x).mp (List.mem_cons_self ..))
    rcases List.mem_cons.mp ((hmem i).mpr hi) with rfl | hm
    · rfl
    · exact absurd ((List.pairwise_cons.mp hsort).1 i hm) hx

theorem lowestFree_none {s : State} (h : ∀ i : SlotIx, s.records[i] ≠ none) : lowestFree s = none := by
  cases hf : lowestFree s with
  | none => rfl
  | some i => exact absurd (lowestFree_free hf) (h i)

theorem mem_addDirectory {sym : Symbol} {i : SlotIx} {l : List (Symbol × SlotIx)} {e : Symbol × SlotIx} :
    e ∈ addDirectory sym i l ↔ e = (sym, i) ∨ e ∈ l := by
  rw [(addDirectory_perm sym i l).mem_iff, List.mem_cons]

/-- R62: the entries after a LIST. -/
theorem bindEntries_get (sym : Symbol) (i : SlotIx) (s : State) (k : EntryIx) :
    (bindEntries sym i s).entries[k] = s.entries[k].map fun e =>
      if e.symbol = sym ∧ e.binding = none then { e with binding := some i } else e := by
  have hget : (bindEntries sym i s).entries[k] = _ := Vec.mapIx_get _ _ k
  rw [hget]
  simp only [Bool.and_eq_true, beq_iff_eq, Option.isNone_iff_eq_none]

/-- R8, R11, R62: the slot taken, before its change notice. -/
def placeRecord (i : SlotIx) (r : Record) (s : State) : State :=
  bindEntries r.symbol i
    { setRecord i r s with directory := addDirectory r.symbol i s.directory }

/-- Settles O13: the checks of R10 pass, and the slot is taken by `placeRecord` and its notice. -/
theorem listAccepted : Obligations.ListAccepted := by
  intro f s sym tape d close i h hlen hsym htape hd hclose hgrid hdir hfree hlow
  subst hclose
  have ht : tapeOfCode (byteAt f.body 4) = some tape := htape ▸ tapeOfCode_code tape
  have hden : denominatorOfCode (byteAt f.body 5) = some d := denominatorOfCode_value (field_one f.body 5 ▸ hd)
  have hfits : closeFits d (givenClose f.body) = true := closeFits_iff.mpr hgrid
  have hlook : fullLookup sym (removeHead s) = none := fullLookup_absent hdir
  have hslot : lowestFree (removeHead s) = some i := lowestFree_eq (s := removeHead s) hfree hlow
  refine ⟨placeRecord i (newRecord sym tape d (givenClose f.body)) (removeHead s), ?_, rfl,
    fun e => mem_addDirectory, fun k => bindEntries_get sym i _ k⟩
  exact command_accepted (k := .list) h (by simp [Kind.lengthFits, hlen])
    (applyList_taken hsym ht hden hfits hlook hslot)

/-- Settles O14, check by check. -/
theorem listRefused : Obligations.ListRefused := by
  intro f s h hlen
  have hfit : Kind.list.lengthFits f.body.length = true := by simp [Kind.lengthFits, hlen]
  have refused : ∀ {status}, applyList f.body (removeHead s) = refuse status (removeHead s) →
      exec .list s = .next (turnedAway f status s) := fun ha => command_refused (k := .list) h hfit ha
  refine ⟨fun hsym => refused (applyList_malformed hsym _), fun sym hsym => ⟨fun hcode => ?_, fun htape d hd => ?_⟩⟩
  · rw [field_one, field_one] at hcode
    exact refused (applyList_code hsym (hcode.imp tapeOfCode_none denominatorOfCode_none) _)
  · rw [field_one] at htape hd
    obtain ⟨t, ht⟩ := tapeOfCode_some htape
    have hden := denominatorOfCode_value hd
    refine ⟨fun hf hoff => refused (applyList_offGrid hsym ht hden ?_), fun hgrid => ?_⟩
    · exact Bool.eq_false_iff.mpr fun hc => hoff (givenClose_fits.mp hc hf)
    · have hfits := givenClose_fits.mpr hgrid
      refine ⟨fun i r hl hr => refused ?_, fun i r hl hr => refused ?_, fun hl hfull => refused ?_⟩
      · exact (applyList_held (s := removeHead s) hsym ht hden hfits hl).trans (if_pos (isLive_iff.mpr hr))
      · exact (applyList_held (s := removeHead s) hsym ht hden hfits hl).trans
          (if_neg fun hlive => isLive_iff.mp hlive hr)
      · exact applyList_full hsym ht hden hfits hl (lowestFree_none (s := removeHead s) hfull)

end Sys2Proof.Machine

/-! ### DELIST and TABLE CLEAR (R4, R12, R13, R22, R63, R64, R117) -/

namespace Sys2Proof.Machine

/-- R63: the entries bound to a slot that is hit become UNBOUND. -/
theorem unbindEntries_get (hit : SlotIx → Bool) (s : State) (k : EntryIx) :
    (unbindEntries hit s).entries[k] = s.entries[k].map fun e =>
      if e.binding.any hit then { e with binding := none } else e := by
  have hget : (unbindEntries hit s).entries[k] = _ := Vec.mapIx_get _ _ k
  rw [hget]
  congr 1
  funext e
  cases e.binding <;> rfl

/-- An unbinding is a change of the entries and a run of marks. -/
theorem unbindEntries_eq (hit : SlotIx → Bool) (s : State) :
    unbindEntries hit s = mark (Vec.select (fun _ pos => (shownSlot s pos).any hit) s.boards.positions)
      { s with entries := (unbindEntries hit s).entries } := by
  have hpick : (fun (_ : PosIx) pos => (shownSlot s pos).any hit)
      = fun _ pos => match shownSlot s pos with | none => false | some i => hit i := by
    funext _ pos
    cases shownSlot s pos <;> rfl
  rw [hpick]
  rfl

/-- R63, R64: the positions that showed an entry bound to a slot that is hit are marked. -/
theorem unbindEntries_marked (hit : SlotIx → Bool) (s : State) :
    Marked s (fun p => (shownSlot s s.boards.positions[p]).any hit = true) (unbindEntries hit s) := by
  rw [unbindEntries_eq]
  have hm := mark_marked (Vec.select (fun _ pos => (shownSlot s pos).any hit) s.boards.positions)
    { s with entries := (unbindEntries hit s).entries } (Vec.select_sorted _ _)
  exact (hm.base (z := s) rfl rfl rfl rfl).congr fun p => Vec.mem_select _ _ p

/-- R157: what a drop does at each terminal. -/
theorem onTerminals_get (f : Terminal → Terminal) (s : State) (t : TermIx) :
    (onTerminals f s).terminals[t] = f s.terminals[t] := Vec.mapIx_get _ _ t

theorem applyDelist_unknown {b : List Byte} {sym : Symbol} {s : State} (hs : symbolAt b 0 = some sym)
    (hl : fullLookup sym s = none) : applyDelist b s = refuse .unknown s := by
  simp [applyDelist, hs, hl]

theorem applyDelist_found {b : List Byte} {sym : Symbol} {s : State} {i : SlotIx} {r : Record}
    (hs : symbolAt b 0 = some sym) (hl : fullLookup sym s = some (i, r)) :
    applyDelist b s = if r.state.isLive then (delistAt i r s, ⟨.ok, []⟩) else refuse .state s := by
  simp [applyDelist, hs, hl]

/-- R12: what DELIST changes. -/
theorem delistAt_frame (i : SlotIx) (r : Record) (s : State) :
    delistAt i r s = { s with
      records := (delistAt i r s).records
      directory := (delistAt i r s).directory
      entries := (delistAt i r s).entries
      terminals := (delistAt i r s).terminals
      boards := { s.boards with repaint := (delistAt i r s).boards.repaint }
      verifier := { s.verifier with overtaken := (delistAt i r s).verifier.overtaken } } := by
  unfold delistAt retire
  split <;> rfl

theorem delistAt_entries (i : SlotIx) (r : Record) (s : State) :
    (delistAt i r s).entries = (unbindEntries (· == i) s).entries := by simp [delistAt]

theorem delistAt_terminals (i : SlotIx) (r : Record) (s : State) (t : TermIx) :
    (delistAt i r s).terminals[t] = s.terminals[t].dropEntries (· == i) := by
  have h : (delistAt i r s).terminals
      = (onTerminals (Terminal.dropEntries (· == i)) (unbindEntries (· == i) s)).terminals := retire_terminals ..
  rw [h]
  exact onTerminals_get _ (unbindEntries (· == i) s) t

/-- R4, R13: a record with no print waiting is freed. -/
theorem delistAt_freed {r : Record} (hp : r.pending = none) (i : SlotIx) (s : State) :
    (delistAt i r s).records = s.records.set i none ∧
      (delistAt i r s).directory = s.directory.filter (fun e => e.2 != i) := by
  simp [delistAt, retire, hp]

/-- R13: a record whose print waits is left RETIRING. -/
theorem delistAt_retiring {r : Record} (hp : r.pending ≠ none) (i : SlotIx) (s : State) :
    (delistAt i r s).records = s.records.set i (some { r with state := .retiring }) ∧
      (delistAt i r s).directory = s.directory := by
  obtain ⟨p, hp⟩ := Option.ne_none_iff_exists'.mp hp
  simp [delistAt, retire, hp]

theorem delistAt_marked (i : SlotIx) (r : Record) (s : State) :
    Marked s (fun p => shownSlot s s.boards.positions[p] = some i) (delistAt i r s) :=
  ((unbindEntries_marked (· == i) s).congr fun p => by
    cases shownSlot s s.boards.positions[p] <;> simp).result (by simp [delistAt]) (by simp [delistAt])

/-- Settles O15: the refusals of R12, and the taking by the facts about `delistAt`. -/
theorem delistTaken : Obligations.DelistTaken := by
  intro f s sym h hlen hsym
  have hfit : Kind.delist.lengthFits f.body.length = true := by simp [Kind.lengthFits, hlen]
  refine ⟨fun hl => ?_, fun i r hl hr => ?_, fun i r hl hr => ?_⟩
  · exact command_refused (k := .delist) h hfit (applyDelist_unknown (s := removeHead s) hsym hl)
  · exact command_refused (k := .delist) h hfit
      ((applyDelist_found (s := removeHead s) hsym hl).trans (if_neg fun hlive => isLive_iff.mp hlive hr))
  · refine ⟨delistAt i r (removeHead s), ?_, delistAt_frame i r _, fun hp => delistAt_freed hp i _,
      fun hp => delistAt_retiring hp i _, fun k => ?_,
      (delistAt_marked i r (removeHead s)).base rfl rfl rfl rfl, fun t => delistAt_terminals i r _ t⟩
    · exact command_accepted (k := .delist) h hfit
        ((applyDelist_found (s := removeHead s) hsym hl).trans (if_pos (isLive_iff.mpr hr)))
    · rw [delistAt_entries, unbindEntries_get]
      congr 1
      funext e
      cases e.binding <;> simp

/-! ### Withdrawals (R115 to R117) -/

/-- R115: a withdrawn slot has no shares waiting; the others keep theirs. -/
theorem withdraw_shares (t : AB) (i j : SlotIx) (s : State) :
    pendingShares (withdraw t i s) j = if i = j then 0 else pendingShares s j := by
  have hrec : (withdraw t i s).records[j] = _ := takenOff_records i j (setTape t _ s)
  by_cases hij : i = j
  · rw [if_pos hij] at hrec ⊢
    unfold pendingShares
    rw [hrec, setTape_records]
    cases s.records[j] with
    | none => rfl
    | some r => by_cases hr : r.state = .retiring <;> simp [hr]
  · rw [if_neg hij] at hrec ⊢
    unfold pendingShares
    rw [hrec, setTape_records]

theorem withdraw_unit (t : AB) (i : SlotIx) (s : State) :
    (withdraw t i s).tapes.get t = { s.tapes.get t with
      prints := (s.tapes.get t).prints.erase i
      withdrawn := (s.tapes.get t).withdrawn + pendingShares s i } := by
  unfold withdraw
  simp

/-- Withdrawals of slots that do not include `j` leave its shares. -/
theorem withdrawAll_shares {t : AB} {j : SlotIx} {s : State} (hj : j ∉ (s.tapes.get t).prints) :
    pendingShares (withdrawAll t s) j = pendingShares s j := by
  unfold withdrawAll
  generalize (s.tapes.get t).prints = l at hj
  induction l generalizing s with
  | nil => rfl
  | cons i rest ih =>
    rw [List.mem_cons, not_or] at hj
    exact (ih hj.2).trans ((withdraw_shares t i j s).trans (if_neg fun e => hj.1 e.symm))

/-- R116: what the withdrawal of a whole list makes of its tape's unit. -/
theorem withdrawAll_unit {t : AB} {s : State} (hn : (s.tapes.get t).prints.Nodup) :
    (withdrawAll t s).tapes.get t = { s.tapes.get t with
      prints := [], withdrawn := (s.tapes.get t).withdrawn + tapePendingShares t s } := by
  rw [tapePendingShares_eq]
  unfold withdrawAll
  generalize hl : (s.tapes.get t).prints = l at hn
  induction l generalizing s with
  | nil => rw [List.foldl_nil, sumShares_nil, show ∀ w : Word32, w + 0 = w from BitVec.add_zero, ← hl]
  | cons i rest ih =>
    obtain ⟨hi, hrest⟩ := List.nodup_cons.mp hn
    have htail : ((withdraw t i s).tapes.get t).prints = rest := by rw [withdraw_prints, hl, List.erase_cons_head]
    have hsame : sumShares (pendingShares (withdraw t i s)) rest = sumShares (pendingShares s) rest :=
      sumShares_congr fun j hj => (withdraw_shares t i j s).trans (if_neg fun e : i = j => hi (e ▸ hj))
    rw [List.foldl_cons, ih htail hrest, hsame, withdraw_unit, sumShares_cons, BitVec.add_assoc]

/-- R117: what the withdrawal of both lists makes of each tape's unit. -/
theorem TapesLaw.withdrawBoth_unit {s : State} (h : TapesLaw s) (x : AB) :
    (Machine.withdrawAll .b (Machine.withdrawAll .a s)).tapes.get x = { s.tapes.get x with
      prints := [], withdrawn := (s.tapes.get x).withdrawn + tapePendingShares x s } := by
  have hb : (Machine.withdrawAll .a s).tapes.get .b = s.tapes.get .b := withdrawAll_other (by decide) s
  cases x with
  | a => rw [withdrawAll_other (by decide), withdrawAll_unit (h.tape .a).once]
  | b =>
    have hshares : tapePendingShares .b (Machine.withdrawAll .a s) = tapePendingShares .b s := by
      rw [tapePendingShares_eq, tapePendingShares_eq, hb]
      refine sumShares_congr fun j hj => withdrawAll_shares fun ha => ?_
      exact absurd (h.elsewhere hj ha) (by decide)
    rw [withdrawAll_unit (hb ▸ (h.tape .b).once), hb, hshares]

/-! ### TABLE CLEAR (R22) -/

/-- R22: what TABLE CLEAR changes. -/
theorem clearTable_frame (s : State) :
    clearTable s = { s with
      records := (clearTable s).records
      directory := []
      entries := (clearTable s).entries
      terminals := (clearTable s).terminals
      tapes := (clearTable s).tapes
      boards := { s.boards with repaint := (clearTable s).boards.repaint }
      verifier := { s.verifier with overtaken := (clearTable s).verifier.overtaken } } := by
  have hboards : (clearTable s).boards = { (withdrawAll .b (withdrawAll .a s)).boards with
      repaint := (clearTable s).boards.repaint } := rfl
  have hverifier : (clearTable s).verifier = { (withdrawAll .b (withdrawAll .a s)).verifier with
      overtaken := (clearTable s).verifier.overtaken } := rfl
  rw [withdrawAll_boards, withdrawAll_boards] at hboards
  rw [withdrawAll_verifier, withdrawAll_verifier] at hverifier
  apply State.same
  case h11 => exact hboards
  case h13 => exact hverifier
  all_goals simp [clearTable, freeAll]

theorem clearTable_tapes (s : State) : (clearTable s).tapes = (withdrawAll .b (withdrawAll .a s)).tapes := by
  simp [clearTable, freeAll]

theorem clearTable_entries (s : State) (k : EntryIx) :
    (clearTable s).entries[k] = s.entries[k].map fun e => { e with binding := none } := by
  have hget : (clearTable s).entries[k] = _ :=
    unbindEntries_get (fun _ => true) (withdrawAll .b (withdrawAll .a s)) k
  rw [hget, withdrawAll_entries, withdrawAll_entries]
  congr 1
  funext e
  split
  · rfl
  · next hn =>
    have hb : e.binding = none := by simpa using hn
    rw [← hb]

theorem clearTable_terminals (s : State) (t : TermIx) :
    (clearTable s).terminals[t] = s.terminals[t].dropEntries (fun _ => true) := by
  have hget : (clearTable s).terminals[t] = _ :=
    onTerminals_get (Terminal.dropEntries fun _ => true)
      (unbindEntries (fun _ => true) (withdrawAll .b (withdrawAll .a s))) t
  rw [hget, unbindEntries_terminals, withdrawAll_terminals, withdrawAll_terminals]

theorem clearTable_marked (s : State) :
    Marked s (fun p => shownSlot s s.boards.positions[p] ≠ none) (clearTable s) := by
  have hm := unbindEntries_marked (fun _ => true) (withdrawAll .b (withdrawAll .a s))
  refine ((hm.base (z := s) (by simp) (by simp) (by simp) (by simp)).congr fun p => ?_).result rfl rfl
  unfold shownSlot shownEntry
  simp only [withdrawAll_boards, withdrawAll_entries]
  generalize Option.bind _ _ = o
  cases o <;> simp

/-- Settles O20: the refusal of R22, and the taking by the facts about `clearTable`. -/
theorem tableClearTaken : Obligations.TableClearTaken := by
  intro f s h hlen
  have hfit : Kind.tableClear.lengthFits f.body.length = true := by simp [Kind.lengthFits, hlen]
  refine ⟨fun hph => ?_, fun hph hlaw => ?_⟩
  · exact command_refused (k := .tableClear) h hfit (by simp [Kind.owner, applyTableClear, hph])
  · have hlaw' : TapesLaw (removeHead s) := hlaw.of_same rfl rfl
    refine ⟨clearTable (removeHead s), ?_, clearTable_frame _, clearTable_records _, fun x => ?_,
      clearTable_entries _, (clearTable_marked (removeHead s)).base rfl rfl rfl rfl, clearTable_terminals _⟩
    · exact command_accepted (k := .tableClear) h hfit (by simp [Kind.owner, applyTableClear, hph])
    · rw [clearTable_tapes]
      exact hlaw'.withdrawBoth_unit x

end Sys2Proof.Machine

/-! ### Session phases and DAY ROLL (R17 to R21) -/

namespace Sys2Proof.Machine

theorem closes_iff {x : RecState} : x.closes = true ↔ x = .listed ∨ x = .trading := by
  cases x <;> simp [RecState.closes]

/-- R19, step 3: the slots whose records SESSION CLOSE moves. -/
theorem mem_closingSlots {s : State} {i : SlotIx} :
    i ∈ closingSlots s ↔ ∃ r, s.records[i] = some r ∧ (r.state = .listed ∨ r.state = .trading) := by
  unfold closingSlots
  rw [Vec.mem_select]
  cases s.records[i] with
  | none => simp
  | some r => simp [closes_iff]

theorem closeRecord_eq (r : Record) :
    closeRecord r = if r.state = .listed ∨ r.state = .trading then { r with state := .closed } else r := by
  simp [closeRecord, closes_iff]

theorem mem_occupiedSlots {s : State} {i : SlotIx} : i ∈ occupiedSlots s ↔ s.records[i] ≠ none := by
  unfold occupiedSlots
  rw [Vec.mem_select, Option.isSome_iff_ne_none]

/-- Settles O18: by the phase, and for SESSION CLOSE by the slots that close. -/
theorem sessionOpensAndCloses : Obligations.SessionOpensAndCloses := by
  refine ⟨fun f s h hlen => ?_, fun f s h hlen => ?_⟩
  · have hfit : Kind.sessionOpen.lengthFits f.body.length = true := by simp [Kind.lengthFits, hlen]
    refine ⟨fun hph => ?_, fun hph => ?_⟩
    · exact command_accepted (k := .sessionOpen) h hfit (if_pos (c := (removeHead s).phase = .pre) hph)
    · exact command_refused (k := .sessionOpen) h hfit (if_neg (c := (removeHead s).phase = .pre) hph)
  · have hfit : Kind.sessionClose.lengthFits f.body.length = true := by simp [Kind.lengthFits, hlen]
    refine ⟨fun hph => ?_, fun hph => ?_⟩
    · refine ⟨closingSlots (removeHead s),
        { removeHead s with phase := .post, records := Vec.mapIx (fun _ r => r.map closeRecord) s.records },
        ?_, rfl, fun i => ?_, Vec.select_sorted _ _, fun i => mem_closingSlots⟩
      · exact command_accepted (k := .sessionClose) h hfit (if_pos (c := (removeHead s).phase = .opened) hph)
      · rw [← funext closeRecord_eq]
        exact Vec.mapIx_get _ _ i
    · exact command_refused (k := .sessionClose) h hfit (if_neg (c := (removeHead s).phase = .opened) hph)

/-- R20: the refusals of DAY ROLL, in the order of the checks. -/
theorem applyDayRoll_session {s : State} (h : s.phase ≠ .post) (b : List Byte) :
    applyDayRoll b s = refuse .session s := if_pos h

theorem applyDayRoll_busy {s : State} (h : s.phase = .post) (hp : s.tapes.a.prints ≠ [] ∨ s.tapes.b.prints ≠ [])
    (b : List Byte) : applyDayRoll b s = refuse .busy s := (if_neg (not_not.mpr h)).trans (if_pos hp)

theorem applyDayRoll_taken {s : State} (h : s.phase = .post) (ha : s.tapes.a.prints = [])
    (hb : s.tapes.b.prints = []) (b : List Byte) : applyDayRoll b s = (rollDay s, ⟨.ok, []⟩) :=
  (if_neg (not_not.mpr h)).trans (if_neg (by simp [ha, hb]))

/-- Settles O19: by the phase and the lists, and for an accepted roll by the occupied slots. -/
theorem dayRollTaken : Obligations.DayRollTaken := by
  intro f s h hlen
  have hfit : Kind.dayRoll.lengthFits f.body.length = true := by simp [Kind.lengthFits, hlen]
  refine ⟨fun hph => ?_, fun hph hlist => ?_, fun hph ha hb => ?_⟩
  · exact command_refused (k := .dayRoll) h hfit (applyDayRoll_session (s := removeHead s) hph f.body)
  · exact command_refused (k := .dayRoll) h hfit (applyDayRoll_busy (s := removeHead s) hph hlist f.body)
  · refine ⟨occupiedSlots (removeHead s),
      { removeHead s with phase := .pre, records := Vec.mapIx (fun _ r => r.map rollRecord) s.records },
      ?_, rfl, fun i => ?_, Vec.select_sorted _ _, fun i => mem_occupiedSlots⟩
    · exact command_accepted (k := .dayRoll) h hfit (applyDayRoll_taken (s := removeHead s) hph ha hb f.body)
    · exact Vec.mapIx_get (fun _ r => r.map rollRecord) s.records i

end Sys2Proof.Machine

/-! ### QUERY RECORD and the record image (R9, R16, R178) -/

namespace Sys2Proof.Machine

theorem applyQueryRecord_unknown {b : List Byte} {sym : Symbol} {s : State} (hs : symbolAt b 0 = some sym)
    (hl : fullLookup sym s = none) : applyQueryRecord b s = refuse .unknown s := by
  simp [applyQueryRecord, hs, hl]

theorem applyQueryRecord_found {b : List Byte} {sym : Symbol} {s : State} {i : SlotIx} {r : Record}
    (hs : symbolAt b 0 = some sym) (hl : fullLookup sym s = some (i, r)) :
    applyQueryRecord b s = (s, ⟨.ok, recordImage i r⟩) := by
  simp [applyQueryRecord, hs, hl]

/-- R175: the places hold the number modulo what they can hold. -/
theorem ofBeBytes_beBytes_mod (w n : Nat) : ofBeBytes (beBytes w n) = n % 256 ^ w := by
  induction w with
  | zero => simp [beBytes, ofBeBytes, Nat.mod_one]
  | succ w ih =>
    have htop : ofBeBytes [BitVec.ofNat 8 (n / 256 ^ w)] = n / 256 ^ w % 256 := by simp [ofBeBytes]
    rw [beBytes, ← List.singleton_append, ofBeBytes_append, ih, beBytes_length, htop, Nat.mod_pow_succ]
    ring

/-- R175: a number that fits its places is read back. -/
theorem ofBeBytes_beBytes {w n : Nat} (h : n < 256 ^ w) : ofBeBytes (beBytes w n) = n :=
  (ofBeBytes_beBytes_mod w n).trans (Nat.mod_eq_of_lt h)

theorem getD_lt {α : Type} {o : Option α} {g : α → Nat} {m : Nat} (hm : 0 < m) (h : ∀ x, o = some x → g x < m) :
    (o.map g).getD 0 < m := by
  cases o with
  | none => exact hm
  | some x => exact h x rfl

/-- The part of a joined list that begins where the parts before it end. -/
theorem flatten_slice {α : Type} {parts : List (List α)} {k : Nat} {p : List α} (h : parts[k]? = some p) :
    (parts.flatten.drop ((parts.map List.length).take k).sum).take p.length = p := by
  obtain ⟨hk, hp⟩ := List.getElem?_eq_some_iff.mp h
  rw [List.drop_sum_flatten, List.drop_eq_getElem_cons hk, List.flatten_cons, hp, List.take_left]

/-- R181: the halt reason's byte, 0 for a record that is not HALTED. -/
def haltByte : RecState → Byte
  | .halted reason => reason.code
  | _ => 0

/-- R178: the parts of a record image, in the order of their offsets. -/
def imageParts (i : SlotIx) (r : Record) : List (List Byte) :=
  [beBytes 2 i.val, symbolBytes r.symbol, [r.state.code], [tapeCode r.tape], [byte r.denominator.value],
    [byte (presenceByte r)], orZero 3 r.close, orZero 3 (r.day.map (·.last)), orZero 3 (r.day.map (·.opened)),
    orZero 3 (r.day.map (·.high)), orZero 3 (r.day.map (·.low)), orZero 3 (r.bid.map (·.price)),
    orZero 2 (r.bid.map (·.size)), orZero 3 (r.ask.map (·.price)), orZero 2 (r.ask.map (·.size)),
    beBytes 4 r.volume, beBytes 2 r.trades, [r.direction.code], [haltByte r.state],
    orZero 4 (r.pending.map (·.joined.toNat)), orZero 2 (r.pending.map (·.folded)),
    orZero 4 (r.pending.map (·.shares.toNat))]

/-- R178: the lengths of the parts. -/
def imageLengths : List Nat := [2, 4, 1, 1, 1, 1, 3, 3, 3, 3, 3, 3, 2, 3, 2, 4, 2, 1, 1, 4, 2, 4]

theorem recordImage_eq (i : SlotIx) (r : Record) : recordImage i r = (imageParts i r).flatten := by
  unfold recordImage
  simp only [imageParts, List.flatten_cons, List.flatten_nil, List.append_nil, List.append_assoc, List.cons_append,
    List.nil_append]
  cases r.state with
  | halted q => rfl
  | listed | trading | closed | retiring => rfl

theorem imageParts_length (i : SlotIx) (r : Record) : (imageParts i r).map List.length = imageLengths := by
  simp only [imageParts, imageLengths, List.map_cons, List.map_nil, beBytes_length, orZero_length, symbolBytes_length,
    List.length_cons, List.length_nil]

/-- R178: the image takes 53 bytes. -/
theorem recordImage_length (i : SlotIx) (r : Record) : (recordImage i r).length = 53 := by
  rw [recordImage_eq, List.length_flatten, imageParts_length]
  rfl

section

/-! R178: what stands in the part `k` of a record image, at its offset. -/

variable {i : SlotIx} {r : Record} {k offset : Nat}

theorem image_part {p : List Byte} (hp : (imageParts i r)[k]? = some p) (ho : (imageLengths.take k).sum = offset) :
    ((recordImage i r).drop offset).take p.length = p := by
  rw [← ho, ← imageParts_length i r, recordImage_eq]
  exact flatten_slice hp

theorem image_byte {x : Byte} (hp : (imageParts i r)[k]? = some [x]) (ho : (imageLengths.take k).sum = offset) :
    byteAt (recordImage i r) offset = x := by
  have hslice : ((recordImage i r).drop offset).take 1 = [x] := image_part hp ho
  have hhead := congrArg List.head? hslice
  rw [List.head?_take, if_neg (by decide), List.head?_drop] at hhead
  rw [byteAt, List.getD_eq_getElem?_getD, hhead]
  rfl

theorem image_number {w n : Nat} (hp : (imageParts i r)[k]? = some (beBytes w n))
    (ho : (imageLengths.take k).sum = offset) (hn : n < 256 ^ w) : field (recordImage i r) offset w = n := by
  have hslice := image_part hp ho
  rw [beBytes_length] at hslice
  rw [field, hslice, ofBeBytes_beBytes hn]

end

/-- R7, R178: the four places of a symbol of up to four letters. -/
theorem symbolBytes_eq {sym : Symbol} (h : sym.length ≤ 4) :
    symbolBytes sym = sym ++ List.replicate (4 - sym.length) 0x20 := by
  rw [symbolBytes, List.take_append, List.take_of_length_le h, List.take_replicate, Nat.min_eq_left (by omega)]

/-- R178: the bits of the presence byte, for what is present. -/
theorem presence_bits : ∀ close day bid ask halted pending : Bool, ∀ bits : Byte,
    bits = byte ((if close then 1 else 0) + (if day then 2 else 0) + (if bid then 4 else 0) + (if ask then 8 else 0)
      + (if halted then 16 else 0) + (if pending then 32 else 0)) →
    bits.getLsbD 0 = close ∧ bits.getLsbD 1 = day ∧ bits.getLsbD 2 = bid ∧ bits.getLsbD 3 = ask ∧
      bits.getLsbD 4 = halted ∧ bits.getLsbD 5 = pending ∧ bits.getLsbD 6 = false ∧ bits.getLsbD 7 = false := by
  rintro close day bid ask halted pending bits rfl
  revert close day bid ask halted pending
  decide

theorem presenceByte_eq (r : Record) :
    presenceByte r = (if r.close.isSome then 1 else 0) + (if r.day.isSome then 2 else 0)
      + (if r.bid.isSome then 4 else 0) + (if r.ask.isSome then 8 else 0) + (if r.state.isHalted then 16 else 0)
      + (if r.pending.isSome then 32 else 0) := by
  unfold presenceByte
  cases r.state <;> rfl

theorem isHalted_iff {x : RecState} : x.isHalted = true ↔ ∃ q, x = .halted q := by
  cases x <;> simp [RecState.isHalted]

/-- A price of R23 fits three bytes. -/
theorem OnGrid.fits {d : Denominator} {p : Nat} (h : OnGrid d p) : p < 256 ^ 3 := by
  obtain ⟨_, hmax, _⟩ := h
  omega

/-- A size of R2 fits two bytes. -/
theorem SideLaw.size_fits {d : Denominator} {x : Side} (h : SideLaw d x) : x.size < 256 ^ 2 := by
  obtain ⟨_, _, hmax⟩ := h
  omega

/-- Settles O17: by the lookups under the directory law, and by the layout of the image. -/
theorem queryRecordAnswered : Obligations.QueryRecordAnswered := by
  refine ⟨fun f s sym h hlen hsym => ?_, fun s sym i r hdir => ⟨hdir.fullLookup_iff, ?_⟩, ?_⟩
  · have hfit : Kind.queryRecord.lengthFits f.body.length = true := by simp [Kind.lengthFits, hlen]
    refine ⟨fun hl => ?_, fun i r hl => ⟨?_, recordImage_length i r⟩⟩
    · exact command_refused (k := .queryRecord) h hfit (applyQueryRecord_unknown (s := removeHead s) hsym hl)
    · exact command_accepted (k := .queryRecord) h hfit (applyQueryRecord_found (s := removeHead s) hsym hl)
  · rw [hdir.liveLookup_iff, isLive_iff]
  · intro i r image law himage
    rw [himage]
    have hpres : byteAt (recordImage i r) 9 = _ :=
      (image_byte (k := 5) rfl rfl).trans (congrArg byte (presenceByte_eq r))
    obtain ⟨hclose, hday, hbid, hask, hhalt, hpend, h6, h7⟩ := presence_bits _ _ _ _ _ _ _ hpres
    refine ⟨recordImage_length i r, ?_, ?_, ?_, ?_, ?_, ⟨hclose, hday, hbid, hask, ?_, hpend, h6, h7⟩, ?_,
      ⟨?_, ?_, ?_, ?_⟩, ⟨?_, ?_, ?_, ?_⟩, ⟨?_, ?_⟩, ?_, ?_, ⟨?_, ?_, ?_⟩⟩
    · exact image_number (k := 0) rfl rfl (by omega)
    · have hslice := image_part (i := i) (r := r) (k := 1) rfl rfl
      obtain ⟨_, hfour, _⟩ := law.symbol
      rw [symbolBytes_length] at hslice
      exact hslice.trans (symbolBytes_eq hfour)
    · rw [image_byte (k := 2) rfl (offset := 6) rfl]; cases r.state <;> rfl
    · rw [image_byte (k := 3) rfl (offset := 7) rfl]; cases r.tape <;> rfl
    · rw [image_byte (k := 4) rfl (offset := 8) rfl]; cases r.denominator <;> rfl
    · exact (Bool.eq_iff_iff.mp hhalt).trans isHalted_iff
    · refine image_number (k := 6) rfl rfl ?_
      cases hc : r.close with
      | none => decide
      | some c => exact (law.close c hc).fits
    · exact image_number (k := 7) rfl rfl (getD_lt (by decide) fun x hx => (law.day x hx).last.fits)
    · exact image_number (k := 8) rfl rfl (getD_lt (by decide) fun x hx => (law.day x hx).opened.fits)
    · exact image_number (k := 9) rfl rfl (getD_lt (by decide) fun x hx => (law.day x hx).high.fits)
    · exact image_number (k := 10) rfl rfl (getD_lt (by decide) fun x hx => (law.day x hx).low.fits)
    · exact image_number (k := 11) rfl rfl (getD_lt (by decide) fun x hx => (law.bid x hx).1.fits)
    · exact image_number (k := 12) rfl rfl (getD_lt (by decide) fun x hx => (law.bid x hx).size_fits)
    · exact image_number (k := 13) rfl rfl (getD_lt (by decide) fun x hx => (law.ask x hx).1.fits)
    · exact image_number (k := 14) rfl rfl (getD_lt (by decide) fun x hx => (law.ask x hx).size_fits)
    · exact image_number (k := 15) rfl rfl (Nat.lt_of_le_of_lt law.volume (by decide))
    · exact image_number (k := 16) rfl rfl (Nat.lt_of_le_of_lt law.trades (by decide))
    · rw [image_byte (k := 17) rfl (offset := 41) rfl]; cases r.direction <;> rfl
    · rw [image_byte (k := 18) rfl (offset := 42) rfl]
      cases r.state with
      | halted q => cases q <;> rfl
      | listed | trading | closed | retiring => rfl
    · exact image_number (k := 19) rfl rfl (getD_lt (by decide) fun p _ => p.joined.isLt)
    · exact image_number (k := 20) rfl rfl
        (getD_lt (by decide) fun p hp => Nat.lt_of_le_of_lt (law.folded p hp).2 (by decide))
    · exact image_number (k := 21) rfl rfl (getD_lt (by decide) fun p _ => p.shares.isLt)

end Sys2Proof.Machine

/-! ### Grid rounding (R24, R25, R49) -/

namespace Sys2Proof.Machine

/-- R24: the grid step is 32/D. -/
theorem Denominator.step_eq (d : Denominator) : d.step = 32 / d.value := by cases d <;> rfl

/-- R25, step 3: the candidate, the nearer grid price. -/
def gridCandidate (g p : Nat) : Nat := if g ≤ 2 * (p % g) then p - p % g + g else p - p % g

/-- R25, steps 2 to 5, for a price that step 1 does not refuse. -/
theorem roundToGrid_valid {g p : Nat} (hlow : 1 ≤ p) (hhigh : p ≤ 319999) :
    roundToGrid g p = if p % g = 0 then some p
      else if 319999 < gridCandidate g p then some (p - p % g)
      else if gridCandidate g p = 0 then some g
      else some (gridCandidate g p) :=
  if_pos (validPrice_iff.mpr ⟨hlow, hhigh⟩)

/-- R25, step 1: the prices that are refused. -/
theorem roundToGrid_eq_none_iff {g p : Nat} : roundToGrid g p = none ↔ p < 1 ∨ 319999 < p := by
  by_cases hv : 1 ≤ p ∧ p ≤ 319999
  · obtain ⟨hlow, hhigh⟩ := hv
    refine iff_of_false ?_ (by omega)
    rw [roundToGrid_valid hlow hhigh]
    split_ifs <;> simp
  · exact iff_of_true (if_neg (mt validPrice_iff.mp hv)) (by omega)

/-- R25: "it differs from p by less than g". -/
theorem roundToGrid_near {g p q : Nat} (hg : 0 < g) (h : roundToGrid g p = some q) : q < p + g ∧ p < q + g := by
  obtain ⟨_, hcases⟩ := roundToGrid_cases hg h
  have hmod := Nat.mod_lt p hg
  have hle := Nat.mod_le p g
  omega

/-- Settles O21: the steps by `roundToGrid_valid`, the rest by the cases of a rounded price. -/
theorem gridRounding : Obligations.GridRounding := by
  intro d p
  rw [← d.step_eq]
  refine ⟨fun hout => ?_, fun hlow hhigh g r candidate hg hr hc => ?_, fun q hq => ?_, fun p' q q' hle hq hq' => ?_⟩
  · exact roundToGrid_eq_none_iff.mpr (hout.imp_left (by omega))
  · subst hg hr
    have hcand : candidate = gridCandidate d.step p := hc
    subst hcand
    rw [roundToGrid_valid hlow hhigh]
    refine ⟨fun h0 => if_pos h0, fun h0 hmax => ?_, fun h0 hzero => ?_, fun h0 hpos hmax => ?_⟩
    · rw [if_neg h0, if_pos hmax]
    · rw [if_neg h0, if_neg (by omega), if_pos hzero]
    · rw [if_neg h0, if_neg (by omega), if_neg (by omega)]
  · obtain ⟨hmin, hmax, hgrid⟩ := roundToGrid_onGrid hq
    exact ⟨hgrid, hmin, hmax, roundToGrid_near d.step_pos hq⟩
  · exact roundToGrid_mono hq hq' hle

end Sys2Proof.Machine

/-! ### TRADE (R26 to R28, R43 to R46, R55) -/

namespace Sys2Proof.Machine

theorem RecState.trades_iff {x : RecState} : x.trades = true ↔ x = .listed ∨ x = .trading := by
  cases x <;> simp [RecState.trades]

/-- R26: the status of an accepted posting, by whether its prices stayed as given. -/
theorem roundedStatus_eq {changed : Bool} {same : Prop} [Decidable same] (h : changed = true ↔ ¬ same) :
    roundedStatus changed = if same then .ok else .rounded := by
  by_cases hs : same
  · rw [if_pos hs, Bool.eq_false_iff.mpr fun hc => h.mp hc hs]
    rfl
  · rw [if_neg hs, h.mpr hs]
    rfl

/-- R27: the direction after a trade that has a reference. -/
theorem directionAfter_some (q p : Nat) (before : Direction) :
    directionAfter (some q) p before = if q < p then .up
      else if p < q then .down
      else if before = .up ∨ before = .zeroUp then .zeroUp
      else if before = .down ∨ before = .zeroDown then .zeroDown
      else .none := by
  cases before <;> rfl

/-- R28: the prices of the day after a later trade. -/
theorem dayAfter_some (d : DayPrices) (p : Nat) :
    dayAfter (some d) p
      = ⟨p, d.opened, if d.high < p then p else d.high, if p < d.low then p else d.low⟩ := by
  have hhigh : max d.high p = if d.high < p then p else d.high := by split <;> omega
  have hlow : min d.low p = if p < d.low then p else d.low := by split <;> omega
  rw [← hhigh, ← hlow]
  rfl

theorem volumeAfter_eq (volume shares : Nat) :
    volumeAfter volume shares = if volume + shares ≤ 999999999 then volume + shares else 999999999 :=
  Nat.min_def

theorem tradesAfter_eq (trades : Nat) : tradesAfter trades = if trades + 1 ≤ 65535 then trades + 1 else 65535 :=
  Nat.min_def

theorem movedMark_first {r : Record} (h : r.day = none) (p : Nat) : movedMark r p = true := by
  simp [movedMark, h]

theorem movedMark_later {r : Record} {d : DayPrices} (h : r.day = some d) (p : Nat) :
    movedMark r p = decide (d.last ≠ p) := by
  simp [movedMark, h, bne, beq_eq_decide]

/-- R110: a trade notice reads only the tape and the pending print of the record it is given. -/
theorem tradeNotice_congr {r r' : Record} (ht : r.tape = r'.tape) (hp : r.pending = r'.pending) (i : SlotIx)
    (n : Nat) (s : State) : tradeNotice i r n s = tradeNotice i r' n s := by
  unfold tradeNotice
  rw [ht, hp]

/-- R43, R44: a TRADE that passes every check. -/
theorem applyTrade_taken {b : List Byte} {sym : Symbol} {i : SlotIx} {r : Record} {p : Nat} {s : State}
    (hs : symbolAt b 0 = some sym) (hl : liveLookup sym s = some (i, r)) (hph : s.phase = .opened)
    (ht : r.state.trades = true) (hmin : 1 ≤ field b 7 3) (hmax : field b 7 3 ≤ 999999)
    (hp : roundToGrid r.denominator.step (field b 4 3) = some p) :
    applyTrade b s = (postTrade i r p (field b 7 3) s,
      ⟨roundedStatus (p != field b 4 3), beBytes 2 i.val ++ beBytes 3 p ++ [0x02]⟩) := by
  have hshares : ¬ (field b 7 3 < 1 ∨ Config.maxShares < field b 7 3) :=
    not_or.mpr ⟨by omega, Nat.not_lt.mpr hmax⟩
  unfold applyTrade
  simp only [hs, hl, hph, ht, hshares, hp]
  rfl

/-- Settles O22: the checks of R43 pass, and the record, the moved mark and the notices are those of `postTrade`. -/
theorem tradeAccepted : Obligations.TradeAccepted := by
  intro f s sym i r r' price shares p h hlen hsym hlook hprice hshares hphase hstate hmin hmax hround hr'
  subst hprice hshares
  have hfit : Kind.trade.lengthFits f.body.length = true := by simp [Kind.lengthFits, hlen]
  have hrecord : tradeRecord r p (field f.body 7 3) = r' := by
    rw [hr', tradeRecord, Record.reference, volumeAfter_eq, tradesAfter_eq]
    cases hday : r.day with
    | some d => simp only [directionAfter_some, dayAfter_some]
    | none =>
      cases r.close with
      | some c => simp only [directionAfter_some]; rfl
      | none => rfl
  have hmoved : movedMark r p = (match r.day with | none => true | some d => decide (d.last ≠ p)) := by
    cases hday : r.day with
    | none => exact movedMark_first hday p
    | some d => exact movedMark_later hday p
  have hstatus : roundedStatus (p != field f.body 4 3) = if p = field f.body 4 3 then .ok else .rounded :=
    roundedStatus_eq bne_iff_ne
  have hsame : r.tape = r'.tape ∧ r.pending = r'.pending := by rw [← hrecord]; exact ⟨rfl, rfl⟩
  obtain ⟨htape, hpending⟩ := hsame
  have taken := command_accepted (k := .trade) h hfit (applyTrade_taken (s := removeHead s) hsym hlook hphase
    (RecState.trades_iff.mpr hstate) hmin hmax hround)
  rw [postTrade, hstatus, hmoved, hrecord, tradeNotice_congr htape hpending] at taken
  exact taken

end Sys2Proof.Machine

/-! ### QUOTE (R26, R47 to R50, R55) -/

namespace Sys2Proof.Machine

/-- R48, step 3. -/
theorem sizeFits_iff {side : Option Side} :
    sizeFits side = true ↔ ∀ x, side = some x → 1 ≤ x.size ∧ x.size ≤ 9999 := by
  cases side with
  | none => simp [sizeFits]
  | some x =>
    simp only [sizeFits, Bool.and_eq_true, decide_eq_true_eq, Option.some.injEq, forall_eq']
    rfl

/-- R26: a side is refused where it is given with a price outside 1 to 319,999. -/
theorem roundSide_eq_none_iff {g : Nat} {given : Option Side} :
    roundSide g given = none ↔ ∃ x, given = some x ∧ (x.price < 1 ∨ 319999 < x.price) := by
  cases given with
  | none => simp [roundSide]
  | some x => simp [roundSide, roundToGrid_eq_none_iff]

/-- R26: a given side takes its rounded price and keeps its size. -/
theorem roundSide_given {g p : Nat} {x : Side} (h : roundToGrid g x.price = some p) :
    roundSide g (some x) = some (some ⟨p, x.size⟩) := by
  simp [roundSide, h]

/-- R26: the side held after a QUOTE is the rounding of the side given, where the two agree on being present. -/
theorem roundSide_eq {g : Nat} {given held : Option Side} (hpresent : held.isSome = given.isSome)
    (h : ∀ x y, given = some x → held = some y → roundToGrid g x.price = some y.price ∧ y.size = x.size) :
    roundSide g given = some held := by
  cases given with
  | none =>
    rw [Option.not_isSome_iff_eq_none.mp (Bool.eq_false_iff.mp hpresent)]
    rfl
  | some x =>
    obtain ⟨y, rfl⟩ := Option.isSome_iff_exists.mp hpresent
    obtain ⟨hprice, hsize⟩ := h x y rfl rfl
    rw [roundSide_given hprice, ← hsize]

/-- R49: the crossing check. -/
theorem crossed_iff {bid ask : Option Side} :
    crossed bid ask = true ↔ ∃ x y, bid = some x ∧ ask = some y ∧ y.price < x.price := by
  cases bid <;> cases ask <;> simp [crossed]

/-- R177: the bid of a QUOTE as given. -/
def givenBid (b : List Byte) : Option Side := sideGiven (flagAt b 4 0) (field b 5 3) (field b 8 2)

/-- R177: the ask of a QUOTE as given. -/
def givenAsk (b : List Byte) : Option Side := sideGiven (flagAt b 4 1) (field b 10 3) (field b 13 2)

/-- R48, step 3: the size of a side is examined only where the side is given. -/
theorem sideGiven_sizeFits_iff {given : Bool} {price size : Nat} :
    sizeFits (sideGiven given price size) = true ↔ (given = true → 1 ≤ size ∧ size ≤ 9999) := by
  rw [sizeFits_iff]
  cases given <;> simp [sideGiven]

theorem sideGiven_sizeOut {given : Bool} {price size : Nat} (h : given = true ∧ (size < 1 ∨ 9999 < size)) :
    sizeFits (sideGiven given price size) = false := by
  obtain ⟨hg, hout⟩ := h
  refine Bool.eq_false_iff.mpr fun hfits => ?_
  have hsize := sideGiven_sizeFits_iff.mp hfits hg
  omega

/-- R26: the price of a side is examined only where the side is given. -/
theorem roundSide_sideGiven_eq_none_iff {g : Nat} {given : Bool} {price size : Nat} :
    roundSide g (sideGiven given price size) = none ↔ given = true ∧ (price < 1 ∨ 319999 < price) := by
  rw [roundSide_eq_none_iff]
  cases given <;> simp [sideGiven]

/-- R26: a side that is given takes its rounded price and keeps its size. -/
theorem roundSide_sideGiven {g p price size : Nat} {given : Bool} (hg : given = true)
    (h : roundToGrid g price = some p) : roundSide g (sideGiven given price size) = some (some ⟨p, size⟩) := by
  subst hg
  exact roundSide_given (x := ⟨price, size⟩) h

/-- R48, step 1. -/
theorem applyQuote_malformed {b : List Byte} (h : symbolAt b 0 = none) (s : State) :
    applyQuote b s = refuse .malformed s := owner_malformed (k := .quote) (by simp [symbolFirst]) h s

/-- R48, step 2. -/
theorem applyQuote_unknown {b : List Byte} {sym : Symbol} {s : State} (hs : symbolAt b 0 = some sym)
    (hl : liveLookup sym s = none) : applyQuote b s = refuse .unknown s := by
  simp [applyQuote, hs, hl]

section

/-! R48, steps 3 to 5, and R50: a QUOTE whose symbol has a live record. -/

variable {b : List Byte} {sym : Symbol} {i : SlotIx} {r : Record} {s : State} (hs : symbolAt b 0 = some sym)
  (hl : liveLookup sym s = some (i, r))
include hs hl

theorem applyQuote_size (h : sizeFits (givenBid b) = false ∨ sizeFits (givenAsk b) = false) :
    applyQuote b s = refuse .range s := by
  unfold givenBid givenAsk at h
  simp only [applyQuote, hs, hl, if_pos h]

variable (hbid : sizeFits (givenBid b) = true) (hask : sizeFits (givenAsk b) = true)
include hbid hask

theorem applyQuote_price
    (h : roundSide r.denominator.step (givenBid b) = none ∨ roundSide r.denominator.step (givenAsk b) = none) :
    applyQuote b s = refuse .range s := by
  unfold givenBid givenAsk at *
  simp only [applyQuote, hs, hl, hbid, hask]
  rcases h with h | h
  · simp [h]
  · cases roundSide r.denominator.step (sideGiven (flagAt b 4 0) (field b 5 3) (field b 8 2)) <;> simp [h]

variable {bid ask : Option Side} (hb : roundSide r.denominator.step (givenBid b) = some bid)
  (ha : roundSide r.denominator.step (givenAsk b) = some ask)
include hb ha

/-- R49, R50: what remains once both sides have been rounded. -/
theorem applyQuote_rounded :
    applyQuote b s = if crossed bid ask then refuse .crossed s
      else (postQuote i r bid ask s,
        ⟨roundedStatus (bid != givenBid b || ask != givenAsk b),
          beBytes 2 i.val ++ withPresence 3 (bid.map (·.price)) ++ withPresence 3 (ask.map (·.price))⟩) := by
  unfold givenBid givenAsk at *
  simp [applyQuote, hs, hl, hbid, hask, hb, ha]

end

/-- Settles O24: an accepted QUOTE by its rounded sides, and the refusals in the order of R48. -/
theorem quoteTaken : Obligations.QuoteTaken := by
  refine ⟨?_, fun f s h hlen => ?_⟩
  · intro f s sym i r bidGiven askGiven bid ask h hlen hsym hlook hbg hag hsize hbp hap hbr har hcross
    have hfit : Kind.quote.lengthFits f.body.length = true := by simp [Kind.lengthFits, hlen]
    obtain rfl : bidGiven = givenBid f.body := hbg
    obtain rfl : askGiven = givenAsk f.body := hag
    have hstatus : roundedStatus (bid != givenBid f.body || ask != givenAsk f.body)
        = if bid = givenBid f.body ∧ ask = givenAsk f.body then .ok else .rounded :=
      roundedStatus_eq (by simp only [Bool.or_eq_true, bne_iff_ne, not_and_or, ne_eq])
    have hnot : ¬ crossed bid ask = true := fun hc => by
      obtain ⟨x, y, hx, hy, hlt⟩ := crossed_iff.mp hc
      exact Nat.not_lt.mpr (hcross x y hx hy) hlt
    have hrounded := applyQuote_rounded (s := removeHead s) hsym hlook
      (sizeFits_iff.mpr fun x hx => hsize x (.inl hx)) (sizeFits_iff.mpr fun x hx => hsize x (.inr hx))
      (roundSide_eq hbp hbr) (roundSide_eq hap har)
    rw [← hstatus]
    exact command_accepted (k := .quote) h hfit (hrounded.trans (if_neg hnot))
  · have hfit : Kind.quote.lengthFits f.body.length = true := by simp [Kind.lengthFits, hlen]
    have refused : ∀ {status}, applyQuote f.body (removeHead s) = refuse status (removeHead s) →
        exec .quote s = .next (turnedAway f status s) := fun ha => command_refused (k := .quote) h hfit ha
    refine ⟨fun hsym => refused (applyQuote_malformed hsym _), fun sym hsym => ⟨fun hl => ?_, ?_⟩⟩
    · exact refused (applyQuote_unknown (s := removeHead s) hsym hl)
    · rintro i r hl _ _ rfl rfl
      refine ⟨fun hsize => refused ?_, fun hbs has => ⟨fun hprice => refused ?_, fun p q hb ha hp hq hlt => ?_⟩⟩
      · exact applyQuote_size (s := removeHead s) hsym hl (hsize.imp sideGiven_sizeOut sideGiven_sizeOut)
      · exact applyQuote_price (s := removeHead s) hsym hl (sideGiven_sizeFits_iff.mpr hbs)
          (sideGiven_sizeFits_iff.mpr has)
          (hprice.imp roundSide_sideGiven_eq_none_iff.mpr roundSide_sideGiven_eq_none_iff.mpr)
      · have hrounded := applyQuote_rounded (s := removeHead s) hsym hl (sideGiven_sizeFits_iff.mpr hbs)
          (sideGiven_sizeFits_iff.mpr has) (roundSide_sideGiven hb hp) (roundSide_sideGiven ha hq)
        exact refused (hrounded.trans (if_pos (crossed_iff.mpr ⟨_, _, rfl, rfl, hlt⟩)))

end Sys2Proof.Machine

/-! ### The text forms (R29 to R34) -/

namespace Sys2Proof.Machine

/-- The digits found are put before what stands there. -/
theorem digitsFrom_append (fuel n : Nat) (acc : Text) : digitsFrom fuel n acc = digitsFrom fuel n [] ++ acc := by
  induction fuel generalizing n acc with
  | zero => rfl
  | succ fuel ih =>
    unfold digitsFrom
    dsimp only
    split
    · rfl
    · rw [ih _ (_ :: acc), ih _ [_], List.append_assoc, List.singleton_append]

/-- Fuel above the number gives all of its digits. -/
theorem digitsFrom_fuel {fuel more n : Nat} (h : n < fuel) (hm : n < more) (acc : Text) :
    digitsFrom fuel n acc = digitsFrom more n acc := by
  induction fuel generalizing more n acc with
  | zero => omega
  | succ fuel ih =>
    obtain ⟨more, rfl⟩ := Nat.exists_eq_succ_of_ne_zero (show more ≠ 0 by omega)
    unfold digitsFrom
    dsimp only
    split
    · rfl
    · exact ih (by omega) (by omega) _

/-- A number below 10 is a single digit. -/
theorem digits_one {n : Nat} (h : n < 10) : digits n = [byte (0x30 + n)] := by
  unfold digits digitsFrom
  rw [if_pos (Nat.div_eq_of_lt h), Nat.mod_eq_of_lt h]

/-- The last digit of a longer number follows the digits of its tenth. -/
theorem digits_more {n : Nat} (h : 10 ≤ n) : digits n = digits (n / 10) ++ [byte (0x30 + n % 10)] := by
  have hlast : digits n = digitsFrom n (n / 10) [byte (0x30 + n % 10)] := if_neg (by omega)
  rw [hlast, digitsFrom_append, digitsFrom_fuel (more := n / 10 + 1) (by omega) (by omega)]
  rfl

/-- The induction along the digits: a single digit, and a further last digit. -/
theorem digits_induction {P : Nat → Text → Prop} (one : ∀ n, n < 10 → P n [byte (0x30 + n)])
    (more : ∀ n, 10 ≤ n → P (n / 10) (digits (n / 10)) → P n (digits (n / 10) ++ [byte (0x30 + n % 10)]))
    (n : Nat) : P n (digits n) := by
  induction n using Nat.strongRecOn with
  | ind n ih =>
    by_cases h : n < 10
    · rw [digits_one h]
      exact one n h
    · rw [digits_more (by omega)]
      exact more n (by omega) (ih _ (by omega))

/-- R181: the glyph of a digit. -/
theorem digit_toNat {k : Nat} (h : k < 10) : (byte (0x30 + k)).toNat = 0x30 + k := by
  rw [byte, BitVec.toNat_ofNat]
  omega

/-- The digits hold the number. -/
theorem digits_value (n : Nat) : (digits n).foldl (fun acc g => 10 * acc + (g.toNat - 0x30)) 0 = n := by
  induction n using digits_induction with
  | one n h => simp [digit_toNat h]
  | more n h ih =>
    rw [List.foldl_append, ih, List.foldl_cons, List.foldl_nil, digit_toNat (Nat.mod_lt n (by decide))]
    omega

/-- The digits are glyphs of decimal digits. -/
theorem digits_glyphs (n : Nat) : ∀ g ∈ digits n, 0x30 ≤ g.toNat ∧ g.toNat ≤ 0x39 := by
  induction n using digits_induction with
  | one n h =>
    intro g hg
    rw [List.mem_singleton.mp hg, digit_toNat h]
    omega
  | more n h ih =>
    intro g hg
    rcases List.mem_append.mp hg with hg | hg
    · exact ih g hg
    · rw [List.mem_singleton.mp hg, digit_toNat (Nat.mod_lt n (by decide))]
      omega

theorem digits_ne_nil (n : Nat) : digits n ≠ [] := by
  induction n using digits_induction with
  | one n h => exact List.cons_ne_nil _ _
  | more n h ih => exact List.append_ne_nil_of_left_ne_nil ih _

/-- No leading zeros, but for 0 itself. -/
theorem digits_head (n : Nat) : (digits n).head? = some 0x30 ↔ n = 0 := by
  induction n using digits_induction with
  | one n h =>
    rw [List.head?_cons, Option.some.injEq]
    refine ⟨fun he => ?_, fun he => he ▸ rfl⟩
    have := digit_toNat h
    rw [he] at this
    simpa using this
  | more n h ih =>
    rw [List.head?_append_of_ne_nil _ (digits_ne_nil _), ih]
    omega

/-! R29, R30: the FULL price form. -/

/-- R29: the reduction to lowest terms gives the fraction whose numerator is odd. -/
theorem reduceFraction_eq {f n d : Nat} (hf : f < 32) (hd : d ∈ [2, 4, 8, 16, 32]) (hn : n % 2 = 1)
    (h : f * d = 32 * n) : reduceFraction f = (n, d) := by
  simp only [List.mem_cons, List.not_mem_nil, or_false] at hd
  unfold reduceFraction
  rcases hd with rfl | rfl | rfl | rfl | rfl
  · rw [if_pos (by omega), show f / 16 = n by omega]
  · rw [if_neg (by omega), if_pos (by omega), show f / 8 = n by omega]
  · rw [if_neg (by omega), if_neg (by omega), if_pos (by omega), show f / 4 = n by omega]
  · rw [if_neg (by omega), if_neg (by omega), if_neg (by omega), if_pos (by omega), show f / 2 = n by omega]
  · rw [if_neg (by omega), if_neg (by omega), if_neg (by omega), if_neg (by omega), show f = n by omega]

/-- R30, steps 2 and 3, for a fraction that reduces to n/d. -/
theorem fractionForm_eq {f n d : Nat} (hf : f ≠ 0) (h : reduceFraction f = (n, d)) (afterDigit : Bool) :
    fractionForm afterDigit f = if d ≤ 8 then [byte (0x80 + n * 8 / d)]
      else (if afterDigit then [0x20] else []) ++ digits n ++ [0x2F] ++ digits d := by
  simp only [fractionForm, if_neg hf, h]

/-- R30: a price with no fraction, and the zero change of R31. -/
theorem fullForm_whole {v : Nat} (h : v % 32 = 0) : fullForm v = digits (v / 32) := by
  unfold fullForm
  by_cases hw : v / 32 = 0
  · simp only [h, hw, and_self, if_true]
  · simp [h, hw, fractionForm]

/-- R30: a price with a fraction. -/
theorem fullForm_fraction {v : Nat} (h : v % 32 ≠ 0) :
    fullForm v = (if v / 32 = 0 then [] else digits (v / 32)) ++ fractionForm (decide (0 < v / 32)) (v % 32) :=
  if_neg fun hz => h hz.2

/-- R30: the fraction is put behind the whole part, if any. -/
theorem fullForm_parts {v : Nat} (h : 0 < v / 32) : fullForm v = digits (v / 32) ++ fractionForm true (v % 32) := by
  by_cases hf : v % 32 = 0
  · rw [fullForm_whole hf, fractionForm, if_pos hf, List.append_nil]
  · rw [fullForm_fraction hf, if_neg (by omega), decide_eq_true h]

theorem fraction_ne_zero {f n d : Nat} (hn : n % 2 = 1) (h : f * d = 32 * n) : f ≠ 0 := fun hz => by
  rw [hz, Nat.zero_mul] at h
  omega

section

/-! R30: the FULL price form of a price whose fraction is n/d in lowest terms. -/

variable {v n d : Nat} (hd : d ∈ [2, 4, 8, 16, 32]) (hn : n % 2 = 1) (h : v % 32 * d = 32 * n)
include hd hn h

/-- Step 2: eighths take one fraction glyph. -/
theorem fullForm_eighths {k : Nat} (h8 : d ≤ 8) (hk : k * d = 8 * n) :
    fullForm v = (if v / 32 = 0 then [] else digits (v / 32)) ++ [byte (0x80 + k)] := by
  have hf := fraction_ne_zero hn h
  have hpos : 0 < d := Nat.pos_of_ne_zero fun hz => by subst hz; omega
  have hglyph : n * 8 / d = k := by rw [Nat.mul_comm, ← hk, Nat.mul_div_cancel k hpos]
  rw [fullForm_fraction hf, fractionForm_eq hf (reduceFraction_eq (Nat.mod_lt v (by decide)) hd hn h), if_pos h8,
    hglyph]

/-- Step 3: sixteenths and thirty-seconds are written out. -/
theorem fullForm_writtenOut (h16 : 16 ≤ d) :
    fullForm v = (if v / 32 = 0 then [] else digits (v / 32) ++ [0x20]) ++ digits n ++ [0x2F] ++ digits d := by
  have hf := fraction_ne_zero hn h
  rw [fullForm_fraction hf, fractionForm_eq hf (reduceFraction_eq (Nat.mod_lt v (by decide)) hd hn h),
    if_neg (show ¬ d ≤ 8 by omega)]
  by_cases hw : v / 32 = 0
  · simp [hw]
  · simp [hw, Nat.pos_of_ne_zero hw]

end

/-! R31, R34: the change form and the fields. -/

theorem changeForm_zero : changeForm 0 = [0x30] := (if_pos rfl).trans (digits_one (by decide))

theorem changeForm_up {m : Nat} (h : 0 < m) : changeForm m = 0x2B :: fullForm m := by
  rw [changeForm, if_neg (by omega), if_pos (by omega), Int.natAbs_natCast]

theorem changeForm_down {m : Nat} (h : 0 < m) : changeForm (-m) = 0x2D :: fullForm m := by
  rw [changeForm, if_neg (by omega), if_neg (by omega), Int.natAbs_neg, Int.natAbs_natCast]

/-- R34: the fields of the day are absent before the first trade. -/
theorem fieldForm_noDay {r : Record} (h : r.day = none) (w : Nat) :
    ∀ kind ∈ [FieldKind.last, .change, .high, .low, .opened], fieldForm kind w r = .absent := by
  intro kind hk
  simp only [List.mem_cons, List.not_mem_nil, or_false] at hk
  rcases hk with rfl | rfl | rfl | rfl | rfl <;> simp [fieldForm, Record.change, FieldForm.ofOption, h]

/-- R34: the prices of the day. -/
theorem fieldForm_day {r : Record} {d : DayPrices} (h : r.day = some d) (w : Nat) :
    fieldForm .last w r = .text (fullForm d.last) ∧ fieldForm .high w r = .text (fullForm d.high) ∧
      fieldForm .low w r = .text (fullForm d.low) ∧ fieldForm .opened w r = .text (fullForm d.opened) := by
  simp [fieldForm, FieldForm.ofOption, h]

theorem fieldForm_change {r : Record} {d : DayPrices} {c : Nat} (h : r.day = some d) (hc : r.close = some c)
    (w : Nat) : fieldForm .change w r = .text (changeForm ((d.last : Int) - (c : Int))) := by
  simp [fieldForm, Record.change, FieldForm.ofOption, h, hc]

/-- R31, R34: without a close there is no change either. -/
theorem fieldForm_noClose {r : Record} (h : r.close = none) (w : Nat) :
    fieldForm .change w r = .absent ∧ fieldForm .close w r = .absent := by
  cases hday : r.day <;> simp [fieldForm, Record.change, FieldForm.ofOption, h, hday]

theorem fieldForm_close (w : Nat) (r : Record) : fieldForm .close w r = .ofOption (r.close.map fullForm) := rfl

theorem fieldForm_bid (w : Nat) (r : Record) :
    fieldForm .bid w r = .ofOption (r.bid.map fun x => fullForm x.price) := rfl

theorem fieldForm_ask (w : Nat) (r : Record) :
    fieldForm .ask w r = .ofOption (r.ask.map fun x => fullForm x.price) := rfl

/-- Settles O34: the digits by induction along them, the FULL form by its fraction, the fields kind by kind. -/
theorem textForms : Obligations.TextForms := by
  refine ⟨fun n => ⟨digits_value n, digits_glyphs n, digits_head n, digits_one (by decide)⟩, ?_,
    ⟨changeForm_zero, fun m hm => ⟨changeForm_up hm, changeForm_down hm⟩⟩, ?_,
    ⟨rfl, rfl, fun _ => rfl, rfl⟩, ?_⟩
  · rintro v _ _ rfl rfl
    exact ⟨fullForm_whole, fun n d hd hn h =>
      ⟨fun k h8 hk => fullForm_eighths hd hn h h8 hk, fullForm_writtenOut hd hn h⟩⟩
  · rintro volume w _ _ _ _ rfl rfl rfl rfl
    rfl
  · intro w r
    refine ⟨⟨rfl, rfl, rfl⟩, fun hd => fieldForm_noDay hd w, fun d hd => ?_, fun hc => fieldForm_noClose hc w,
      fun c hc => ?_, fun hb => ?_, fun x hb => ?_, fun ha => ?_, fun x ha => ?_⟩
    · obtain ⟨hlast, hhigh, hlow, hopened⟩ := fieldForm_day hd w
      exact ⟨hlast, hhigh, hlow, hopened, fun c hc => fieldForm_change hd hc w⟩
    · rw [fieldForm_close, hc]; rfl
    · rw [fieldForm_bid, hb]; rfl
    · rw [fieldForm_bid, hb]; rfl
    · rw [fieldForm_ask, ha]; rfl
    · rw [fieldForm_ask, ha]; rfl

end Sys2Proof.Machine

/-! ### The ribbon prints (R37 to R40) -/

namespace Sys2Proof.Machine

/-- R37: the size part, in hundreds of the shares limited to 999,999,999. -/
theorem sizePart_eq (shares : Word32) :
    sizePart shares = if min shares.toNat 999999999 / 100 ≤ 1 then []
      else if min shares.toNat 999999999 / 100 ≤ 9999 then digits (min shares.toNat 999999999 / 100) ++ [0x78]
      else digits (min shares.toNat 999999999 / 100 / 1000) ++ [0x4B, 0x78] := rfl

/-- R39: a whole part of one digit is left as it is. -/
theorem cutForm_short {v : Nat} (h : v / 32 < 10) : cutForm v = fullForm v := if_neg (Nat.not_le.mpr h)

/-- R39: a longer whole part is cut to its last digit. -/
theorem cutForm_cut {v : Nat} (h : 10 ≤ v / 32) :
    cutForm v = byte (0x30 + v / 32 % 10) :: fractionForm true (v % 32) := by
  rw [cutForm, if_pos h, digits_one (Nat.mod_lt _ (by decide)), List.singleton_append]

/-- Settles O35: the size part by its ranges, the CUT form by the length of the whole part, the prints by mode. -/
theorem printForms : Obligations.PrintForms := by
  refine ⟨fun shares n hn => ?_, ?_, fun sym last shares => ⟨rfl, rfl, rfl⟩⟩
  · rw [sizePart_eq, ← hn]
    refine ⟨fun h => if_pos h, fun hlow hhigh => ?_, fun hlow => ?_⟩
    · rw [if_neg (by omega), if_pos hhigh]
    · rw [if_neg (by omega), if_neg (by omega)]
  · rintro v _ rfl
    exact ⟨cutForm_short, fun h => ⟨fractionForm true (v % 32), fullForm_parts (by omega), cutForm_cut h⟩⟩

end Sys2Proof.Machine

/-! ### TRADE refused (R43) -/

namespace Sys2Proof.Machine

/-- R43, step 1. -/
theorem applyTrade_malformed {b : List Byte} (h : symbolAt b 0 = none) (s : State) :
    applyTrade b s = refuse .malformed s := owner_malformed (k := .trade) (by simp [symbolFirst]) h s

/-- R43, step 2. -/
theorem applyTrade_unknown {b : List Byte} {sym : Symbol} {s : State} (hs : symbolAt b 0 = some sym)
    (hl : liveLookup sym s = none) : applyTrade b s = refuse .unknown s := by
  simp [applyTrade, hs, hl]

section

/-! R43, steps 3 to 6: a TRADE whose symbol has a live record. -/

variable {b : List Byte} {sym : Symbol} {i : SlotIx} {r : Record} {s : State} (hs : symbolAt b 0 = some sym)
  (hl : liveLookup sym s = some (i, r))
include hs hl

theorem applyTrade_session (h : s.phase ≠ .opened) : applyTrade b s = refuse .session s := by
  simp [applyTrade, hs, hl, h]

variable (hphase : s.phase = .opened)
include hphase

theorem applyTrade_state (h : r.state.trades = false) : applyTrade b s = refuse .state s := by
  simp [applyTrade, hs, hl, hphase, h]

variable (htrades : r.state.trades = true)
include htrades

theorem applyTrade_shares (h : field b 7 3 < 1 ∨ 999999 < field b 7 3) : applyTrade b s = refuse .range s := by
  have hout : field b 7 3 < 1 ∨ Config.maxShares < field b 7 3 := h
  simp only [applyTrade, hs, hl, hphase, htrades, if_pos hout]
  rfl

theorem applyTrade_price (hmin : 1 ≤ field b 7 3) (hmax : field b 7 3 ≤ 999999)
    (h : field b 4 3 < 1 ∨ 319999 < field b 4 3) : applyTrade b s = refuse .range s := by
  have hshares : ¬ (field b 7 3 < 1 ∨ Config.maxShares < field b 7 3) :=
    not_or.mpr ⟨Nat.not_lt.mpr hmin, Nat.not_lt.mpr hmax⟩
  have hround : roundToGrid r.denominator.step (field b 4 3) = none := roundToGrid_eq_none_iff.mpr h
  simp only [applyTrade, hs, hl, hphase, htrades, if_neg hshares, hround]
  rfl

end

/-- Settles O23, check by check in the order of R43. -/
theorem tradeRefused : Obligations.TradeRefused := by
  intro f s h hlen
  have hfit : Kind.trade.lengthFits f.body.length = true := by simp [Kind.lengthFits, hlen]
  have refused : ∀ {status}, applyTrade f.body (removeHead s) = refuse status (removeHead s) →
      exec .trade s = .next (turnedAway f status s) := fun ha => command_refused (k := .trade) h hfit ha
  refine ⟨fun hsym => refused (applyTrade_malformed hsym _), fun sym hsym => ⟨fun hl => ?_, fun i r hl => ?_⟩⟩
  · exact refused (applyTrade_unknown (s := removeHead s) hsym hl)
  · refine ⟨fun hphase => ?_, fun hphase => ⟨fun hlisted htrading => ?_, fun hstate => ?_⟩⟩
    · exact refused (applyTrade_session (s := removeHead s) hsym hl hphase)
    · have htrades : r.state.trades = false :=
        Bool.eq_false_iff.mpr fun ht => (RecState.trades_iff.mp ht).elim hlisted htrading
      exact refused (applyTrade_state (s := removeHead s) hsym hl hphase htrades)
    · have htrades : r.state.trades = true := RecState.trades_iff.mpr hstate
      refine ⟨fun hshares => ?_, fun hmin hmax hprice => ?_⟩
      · exact refused (applyTrade_shares (s := removeHead s) hsym hl hphase htrades hshares)
      · exact refused (applyTrade_price (s := removeHead s) hsym hl hphase htrades hmin hmax hprice)

end Sys2Proof.Machine

/-! ### HALT and RESUME (R51 to R55) -/

namespace Sys2Proof.Machine

theorem haltReasonOfCode_code (q : HaltReason) : haltReasonOfCode q.code = some q := by cases q <;> rfl

/-- R181: a halt reason is 0, 1 or 2. -/
theorem haltReasonOfCode_none {b : Byte} (h : 2 < b.toNat) : haltReasonOfCode b = none := by
  have h0 : b ≠ 0#8 := by rintro rfl; exact absurd h (by decide)
  have h1 : b ≠ 1#8 := by rintro rfl; exact absurd h (by decide)
  have h2 : b ≠ 2#8 := by rintro rfl; exact absurd h (by decide)
  simp [haltReasonOfCode, h0, h1, h2]

/-- R54: where a RESUME in OPEN leads, last being present exactly when the prices of the day are. -/
theorem resumeState_opened (day : Option DayPrices) :
    resumeState .opened day.isSome = if day = none then .listed else .trading := by
  cases day <;> rfl

/-- R51, step 1. -/
theorem applyHalt_malformed {b : List Byte} (h : symbolAt b 0 = none) (s : State) :
    applyHalt b s = refuse .malformed s := owner_malformed (k := .halt) (by simp [symbolFirst]) h s

/-- R53, step 1. -/
theorem applyResume_malformed {b : List Byte} (h : symbolAt b 0 = none) (s : State) :
    applyResume b s = refuse .malformed s := owner_malformed (k := .resume) (by simp [symbolFirst]) h s

section

variable {b : List Byte} {sym : Symbol} {s : State} (hs : symbolAt b 0 = some sym)
include hs

/-- R51, step 2. -/
theorem applyHalt_unknown (hl : liveLookup sym s = none) : applyHalt b s = refuse .unknown s := by
  simp [applyHalt, hs, hl]

/-- R53, step 2. -/
theorem applyResume_unknown (hl : liveLookup sym s = none) : applyResume b s = refuse .unknown s := by
  simp [applyResume, hs, hl]

variable {i : SlotIx} {r : Record} (hl : liveLookup sym s = some (i, r))
include hl

/-- R51, step 3. -/
theorem applyHalt_range (hq : haltReasonOfCode (byteAt b 4) = none) : applyHalt b s = refuse .range s := by
  simp [applyHalt, hs, hl, hq]

/-- R52, R55: a HALT that passes every check. -/
theorem applyHalt_taken {q : HaltReason} (hq : haltReasonOfCode (byteAt b 4) = some q) :
    applyHalt b s = (postState i r (.halted q) s, ⟨.ok, beBytes 2 i.val ++ [0x03, q.code]⟩) := by
  simp [applyHalt, hs, hl, hq, RecState.code]

/-- R53, step 3. -/
theorem applyResume_state (h : r.state.isHalted = false) : applyResume b s = refuse .state s := by
  simp [applyResume, hs, hl, h]

/-- R54, R55: a RESUME that passes every check. -/
theorem applyResume_taken (h : r.state.isHalted = true) :
    applyResume b s = (postState i r (resumeState s.phase r.day.isSome) s,
      ⟨.ok, beBytes 2 i.val ++ [(resumeState s.phase r.day.isSome).code]⟩) := by
  simp [applyResume, hs, hl, h]

end

/-- Settles O25: the refusals check by check, and the effects by `postState`. -/
theorem haltAndResumeTaken : Obligations.HaltAndResumeTaken := by
  refine ⟨fun f s h hlen => ?_, fun f s h hlen => ?_⟩
  · have hfit : Kind.halt.lengthFits f.body.length = true := by simp [Kind.lengthFits, hlen]
    have refused : ∀ {status}, applyHalt f.body (removeHead s) = refuse status (removeHead s) →
        exec .halt s = .next (turnedAway f status s) := fun ha => command_refused (k := .halt) h hfit ha
    refine ⟨fun hsym => refused (applyHalt_malformed hsym _), fun sym hsym => ⟨fun hl => ?_, fun i r hl => ?_⟩⟩
    · exact refused (applyHalt_unknown (s := removeHead s) hsym hl)
    · rw [field_one]
      refine ⟨fun hcode => ?_, fun q hq => ?_⟩
      · exact refused (applyHalt_range (s := removeHead s) hsym hl (haltReasonOfCode_none hcode))
      · have hreason : haltReasonOfCode (byteAt f.body 4) = some q :=
          BitVec.eq_of_toNat_eq hq ▸ haltReasonOfCode_code q
        exact command_accepted (k := .halt) h hfit (applyHalt_taken (s := removeHead s) hsym hl hreason)
  · have hfit : Kind.resume.lengthFits f.body.length = true := by simp [Kind.lengthFits, hlen]
    have refused : ∀ {status}, applyResume f.body (removeHead s) = refuse status (removeHead s) →
        exec .resume s = .next (turnedAway f status s) := fun ha => command_refused (k := .resume) h hfit ha
    refine ⟨fun hsym => refused (applyResume_malformed hsym _), fun sym hsym => ⟨fun hl => ?_, fun i r hl => ?_⟩⟩
    · exact refused (applyResume_unknown (s := removeHead s) hsym hl)
    · refine ⟨fun hnot => ?_, fun q st hq hst => ?_⟩
      · have hstate : r.state.isHalted = false := Bool.eq_false_iff.mpr fun hhalted =>
          (isHalted_iff.mp hhalted).elim hnot
        exact refused (applyResume_state (s := removeHead s) hsym hl hstate)
      · have hto : resumeState s.phase r.day.isSome = st := by
          rw [hst]
          cases s.phase with
          | pre => rfl
          | opened => exact resumeState_opened r.day
          | post => rfl
        have taken := command_accepted (k := .resume) h hfit
          (applyResume_taken (s := removeHead s) hsym hl (isHalted_iff.mpr ⟨q, hq⟩))
        rw [removeHead_phase, hto] at taken
        exact taken

end Sys2Proof.Machine

/-! ### The laws of the boards and the pages (chapters 4 to 6) -/

namespace Sys2Proof.Machine

/-- Settles O9: every command and the passing of an interval keep the law of the boards, and that of the pages. -/
theorem boardLawsKept : Obligations.BoardLawsKept :=
  ⟨fun _ _ h he => boards_kept.step h he, fun _ _ h he => pages_kept.step h he⟩

end Sys2Proof.Machine

/-! ### Pages and their ranges (R65, R66, R68) -/

namespace Sys2Proof.Machine

/-- A number that a place of the store has names that place. -/
theorem placeOf_val {n size : Nat} {i : Fin size} (h : n = i.val) : placeOf n size = some i := by
  subst h
  exact dif_pos i.isLt

theorem placeOf_none {n size : Nat} (h : size ≤ n) : placeOf n size = none := dif_neg (Nat.not_lt.mpr h)

theorem Vec.any_iff {α : Type} {n : Nat} (v : Vector α n) (f : α → Bool) :
    v.toList.any f = true ↔ ∃ i : Fin n, f v[i] = true := by
  rw [List.any_eq_true]
  constructor
  · rintro ⟨x, hx, hf⟩
    obtain ⟨i, hi, rfl⟩ := Vector.mem_iff_getElem.mp (Vector.mem_toList_iff.mp hx)
    exact ⟨⟨i, hi⟩, hf⟩
  · rintro ⟨i, hf⟩
    exact ⟨v[i], Vector.mem_toList_iff.mpr (Vector.getElem_mem i.isLt), hf⟩

/-- R65: the range of a page. -/
theorem Page.holds_iff {page : Page} {k : Nat} :
    page.holds k = true ↔ page.first ≤ k ∧ k < page.first + page.count := by simp [Page.holds]

/-- R59, R61: the index lies in the range of a defined page. -/
theorem inDefinedPage_iff {s : State} {k : Nat} : inDefinedPage s k = true ↔
    ∃ n page, s.pages[(n : PageIx)] = some page ∧ page.first ≤ k ∧ k < page.first + page.count := by
  unfold inDefinedPage
  rw [Vec.any_iff]
  refine exists_congr fun n => ?_
  cases s.pages[n] with
  | none => simp
  | some page => simp [Page.holds_iff]

/-- R59, R61: the index lies in the range of no defined page. -/
theorem inDefinedPage_false {s : State} {k : Nat}
    (h : ∀ n page, s.pages[(n : PageIx)] = some page → k < page.first ∨ page.first + page.count ≤ k) :
    inDefinedPage s k = false :=
  Bool.eq_false_iff.mpr fun hin => by
    obtain ⟨n, page, hn, hlow, hhigh⟩ := inDefinedPage_iff.mp hin
    have := h n page hn
    omega

/-- R65: a page is shown while it is a current page. -/
theorem pageShown_iff {s : State} {n : PageIx} :
    pageShown s n = true ↔ ∃ panel : PanelIx, s.panels[panel].current = some n := by
  unfold pageShown
  rw [Vec.any_iff]
  simp only [beq_iff_eq]

theorem pageShown_false {s : State} {n : PageIx} (h : ∀ panel : PanelIx, s.panels[panel].current ≠ some n) :
    pageShown s n = false :=
  Bool.eq_false_iff.mpr fun hs => (pageShown_iff.mp hs).elim h

theorem namesPanel_iff {panel : PanelIx} {o : Option Entry} :
    namesPanel panel o = true ↔ ∃ e, o = some e ∧ e.panel = panel := by
  cases o <;> simp [namesPanel]

/-- The place of the store that holds the `k`th entry of a range within the store. -/
theorem range_place {first count k : Nat} (hfit : first + count ≤ 2048) (hk : k < count) :
    placeOf (first + k) 2048 = some ⟨first + k, by omega⟩ := placeOf_val rfl

/-- R66, steps 4 and 5: the entries of a range within the store all meet a test. -/
theorem rangeEntries_all {s : State} {first count : Nat} (hfit : first + count ≤ 2048) (f : Option Entry → Bool) :
    (rangeEntries s first count).all f = true ↔
      ∀ k : EntryIx, first ≤ k.val → k.val < first + count → f s.entries[k] = true := by
  simp only [rangeEntries, List.all_map, List.all_eq_true, List.mem_range, Function.comp_apply]
  constructor
  · intro h k hlow hhigh
    have hk := h (k.val - first) (by omega)
    rwa [placeOf_val (i := k) (by omega)] at hk
  · intro h k hk
    rw [range_place hfit hk]
    exact h ⟨first + k, by omega⟩ (Nat.le_add_right ..) (by simpa using hk)

/-- R66, step 6: no two entries of a range name one position. -/
def NamesOnce (s : State) (first count : Nat) : Prop :=
  ∀ (k l : EntryIx) (e e' : Entry), first ≤ k.val → k.val < first + count → first ≤ l.val → l.val < first + count →
    s.entries[k] = some e → s.entries[l] = some e' → e.position = e'.position → k = l

/-- R66, step 6: how the model finds it, for a range within the store. -/
theorem rangeEntries_nodup {s : State} {first count : Nat} (hfit : first + count ≤ 2048) :
    ((rangeEntries s first count).filterMap (fun e => e.map (·.position))).Nodup ↔ NamesOnce s first count := by
  rw [NamesOnce, List.Nodup, List.pairwise_filterMap, rangeEntries, List.pairwise_map, List.pairwise_iff_getElem]
  simp only [List.getElem_range, List.length_range, Option.map_eq_some_iff, forall_exists_index, and_imp]
  constructor
  · intro h
    have below : ∀ (k l : EntryIx) (e e' : Entry), first ≤ k.val → l.val < first + count → s.entries[k] = some e →
        s.entries[l] = some e' → k < l → e.position ≠ e'.position := by
      intro k l e e' hk hl he he' hlt
      have hkl : k.val < l.val := hlt
      refine h (k.val - first) (l.val - first) (by omega) (by omega) (by omega) _ e ?_ rfl _ e' ?_ rfl
      · rw [placeOf_val (i := k) (by omega)]; exact he
      · rw [placeOf_val (i := l) (by omega)]; exact he'
    intro k l e e' hk hk' hl hl' he he' hp
    rcases lt_trichotomy k l with hlt | heq | hgt
    · exact absurd hp (below k l e e' hk hl' he he' hlt)
    · exact heq
    · exact absurd hp.symm (below l k e' e hl hk' he' he hgt)
  · rintro h k l hk hl hlt _ e he rfl _ e' he' rfl hp
    rw [range_place hfit hk] at he
    rw [range_place hfit hl] at he'
    have := h _ _ e e' (by simp) (by simpa using hk) (by simp) (by simpa using hl) he he' hp
    simp only [Fin.mk.injEq] at this
    omega

/-- R66, steps 3 to 6: a range that qualifies for a page of the panel. -/
theorem pageQualifies_iff {s : State} {panel : PanelIx} {first count : Nat} :
    pageQualifies s panel first count = true ↔ first + count ≤ 2048 ∧
      (∀ k : EntryIx, first ≤ k.val → k.val < first + count → ∃ e, s.entries[k] = some e ∧ e.panel = panel) ∧
      NamesOnce s first count := by
  simp only [pageQualifies, Bool.and_eq_true, decide_eq_true_eq, and_assoc]
  refine and_congr_right fun hfit => ?_
  rw [rangeEntries_all hfit, rangeEntries_nodup hfit]
  simp only [namesPanel_iff]

/-- R68: what a page that qualifies shows at a position is the one entry in its range that names it. -/
theorem entryShownBy_iff {s : State} {page : Page} {position : Fin 64} {i : EntryIx}
    (h : pageQualifies s page.panel page.first page.count = true) :
    entryShownBy s page position = some i ↔
      page.first ≤ i.val ∧ i.val < page.first + page.count ∧ ∃ e, s.entries[i] = some e ∧ e.position = position := by
  obtain ⟨hfit, hloaded, honce⟩ := pageQualifies_iff.mp h
  have found : ∀ {k}, entryShownBy s page position = some k →
      page.first ≤ k.val ∧ k.val < page.first + page.count ∧ ∃ e, s.entries[k] = some e ∧ e.position = position := by
    intro k hk
    obtain ⟨m, hm, hsome⟩ := List.exists_of_findSome?_eq_some hk
    rw [List.mem_range] at hm
    rw [range_place hfit hm] at hsome
    dsimp only at hsome
    split at hsome
    · cases hsome
    · next e he =>
      split at hsome
      · next hp =>
        cases hsome
        exact ⟨Nat.le_add_right .., by simpa using hm, e, he, hp⟩
      · cases hsome
  refine ⟨found, fun ⟨hlow, hhigh, e, he, hp⟩ => ?_⟩
  cases hs : entryShownBy s page position with
  | some k =>
    obtain ⟨klow, khigh, e', he', hp'⟩ := found hs
    rw [honce k i e' e klow khigh hlow hhigh he' he (hp'.trans hp.symm)]
  | none =>
    have hnone := List.findSome?_eq_none_iff.mp hs (i.val - page.first) (List.mem_range.mpr (by omega))
    rw [placeOf_val (i := i) (by omega)] at hnone
    simp [he, hp] at hnone

/-- R65, R68: under the law of the pages a position shows the entry of the current page that names it. -/
theorem PagesLaw.shown_iff {s : State} (h : PagesLaw s) (p : PosIx) (i : EntryIx) :
    s.boards.positions[p].shown = some i ↔ ShowsUnder s s.panels[panelOf p].current p i := by
  rw [h.shown p]
  unfold shownBy ShowsUnder
  cases s.panels[panelOf p].current with
  | none => simp
  | some n =>
    dsimp only
    cases hn : s.pages[n] with
    | none => simp [hn, -Fin.getElem_fin]
    | some page => simp [hn, entryShownBy_iff (h.defined n page hn).2.2, -Fin.getElem_fin]

end Sys2Proof.Machine

/-! ### LOAD ENTRY and UNLOAD ENTRY (R59 to R61) -/

namespace Sys2Proof.Machine

/-- R181: the field kinds are numbered 0 to 10. -/
theorem fieldKindOfCode_none {b : Byte} (h : 10 < b.toNat) : fieldKindOfCode b = none :=
  List.getElem?_eq_none h

/-- R59, step 3: the index lies in no defined page, or its entry names the same place. -/
theorem loadFits_iff {s : State} {index : EntryIx} {panel : PanelIx} {position : Fin 64} :
    loadFits s index panel position = true ↔ inDefinedPage s index.val = false ∨
      ∃ e, s.entries[index] = some e ∧ e.panel = panel ∧ e.position = position := by
  unfold loadFits
  rw [Bool.or_eq_true, Bool.not_eq_true']
  refine or_congr_right ?_
  cases s.entries[index] <;> simp

section

variable {b : List Byte} {sym : Symbol} {s : State} (hs : symbolAt b 7 = some sym)
include hs

/-- R59, step 2: a field out of its range. -/
theorem applyLoadEntry_range (h : 2047 < field b 0 2 ∨ 15 < field b 2 1 ∨ 63 < field b 3 1 ∨ 10 < field b 4 1 ∨
    field b 5 1 < 1 ∨ 10 < field b 5 1) : applyLoadEntry b s = refuse .range s := by
  unfold applyLoadEntry
  rw [hs]
  dsimp only
  split
  · next index panel position kind hindex hpanel hposition hkind =>
    refine if_pos ?_
    have hi := placeOf_eq_some hindex
    have hp := placeOf_eq_some hpanel
    have hq := placeOf_eq_some hposition
    have hk : ¬ 10 < field b 4 1 := fun hlt => by
      rw [fieldKindOfCode_none (field_one b 4 ▸ hlt)] at hkind
      cases hkind
    omega
  · rfl

variable {index : EntryIx} {panel : PanelIx} {position : Fin 64} {kind : FieldKind}

/-- R59, step 3, and R60: a LOAD ENTRY whose fields are in their ranges. -/
theorem applyLoadEntry_inRange (hindex : field b 0 2 = index.val) (hpanel : field b 2 1 = panel.val)
    (hposition : field b 3 1 = position.val) (hkind : fieldKindOfCode (byteAt b 4) = some kind)
    (hmin : 1 ≤ field b 5 1) (hmax : field b 5 1 ≤ 10) :
    applyLoadEntry b s = if loadFits s index panel position then
      (loadAt index
          ⟨panel, position, kind, field b 5 1, flagAt b 6 0, flagAt b 6 1, sym, (liveLookup sym s).map (·.1)⟩ s,
        ⟨.ok, beBytes 2 index.val ++ orNone 2 (((liveLookup sym s).map (·.1)).map (·.val))⟩)
      else refuse .conflict s := by
  simp only [applyLoadEntry, hs, placeOf_val hindex, placeOf_val hpanel, placeOf_val hposition, hkind]
  exact if_neg (by omega)

end

/-- R60: the positions that show the index are marked. -/
theorem loadAt_marked (index : EntryIx) (e : Entry) (s : State) :
    Marked s (fun p => s.boards.positions[p].shown = some index) (loadAt index e s) := by
  have hm := mark_marked (Vec.select (fun _ pos => pos.shown == some index) s.boards.positions)
    { s with entries := s.entries.set index (some e) } (Vec.select_sorted _ _)
  refine (hm.base (z := s) rfl rfl rfl rfl).congr fun p => ?_
  rw [Vec.mem_select, beq_iff_eq]

/-- Settles O28: the refusals check by check, and the load by `loadAt`. -/
theorem loadEntryTaken : Obligations.LoadEntryTaken := by
  intro f s h hlen
  have hfit : Kind.loadEntry.lengthFits f.body.length = true := by simp [Kind.lengthFits, hlen]
  refine ⟨fun hsym => command_refused (k := .loadEntry) h hfit (loadEntry_malformed hsym _), fun sym hsym =>
    ⟨fun hrange => command_refused (k := .loadEntry) h hfit (applyLoadEntry_range hsym hrange), ?_⟩⟩
  intro index panel position kind hindex hpanel hposition hkind hmin hmax
  have happly := applyLoadEntry_inRange (s := removeHead s) hsym hindex hpanel hposition hkind hmin hmax
  refine ⟨fun hin hother => ?_, fun hfree binding hbinding => ?_⟩
  · refine command_refused (k := .loadEntry) h hfit (happly.trans (if_neg fun hfits => ?_))
    rcases loadFits_iff.mp hfits with hout | ⟨e, he, hp, hq⟩
    · exact Bool.eq_false_iff.mp hout (inDefinedPage_iff.mpr hin)
    · exact (hother e he).elim (fun hne => hne hp) (fun hne => hne hq)
  · subst hbinding
    have hfits : loadFits (removeHead s) index panel position = true :=
      loadFits_iff.mpr (hfree.imp_left inDefinedPage_false)
    refine ⟨loadAt index _ (removeHead s), ?_, rfl, (loadAt_marked index _ (removeHead s)).base rfl rfl rfl rfl⟩
    refine (command_accepted (k := .loadEntry) h hfit (happly.trans (if_pos hfits))).trans ?_
    rw [show liveLookup sym (removeHead s) = liveLookup sym s from rfl]
    cases liveLookup sym s <;> rfl

theorem applyUnloadEntry_range {b : List Byte} (h : 2047 < field b 0 2) (s : State) :
    applyUnloadEntry b s = refuse .range s := by
  simp [applyUnloadEntry, placeOf_none (size := 2048) h]

theorem applyUnloadEntry_inRange {b : List Byte} {index : EntryIx} (h : field b 0 2 = index.val) (s : State) :
    applyUnloadEntry b s = if inDefinedPage s index.val then refuse .conflict s
      else ({ s with entries := s.entries.set index none }, ⟨.ok, []⟩) := by
  simp [applyUnloadEntry, placeOf_val h]

theorem applyUndefinePage_range {b : List Byte} (h : 31 < field b 0 1) (s : State) :
    applyUndefinePage b s = refuse .range s := by
  simp [applyUndefinePage, placeOf_none (size := 32) h]

theorem applyUndefinePage_inRange {b : List Byte} {n : PageIx} (h : field b 0 1 = n.val) (s : State) :
    applyUndefinePage b s = if pageShown s n then refuse .shown s
      else ({ s with pages := s.pages.set n none }, ⟨.ok, []⟩) := by
  simp [applyUndefinePage, placeOf_val h]

/-- Settles O29: by the range of the number, and by the pages that hold the index or the panels that show the page. -/
theorem unloadAndUndefineTaken : Obligations.UnloadAndUndefineTaken := by
  refine ⟨fun f s h hlen => ?_, fun f s h hlen => ?_⟩
  · have hfit : Kind.unloadEntry.lengthFits f.body.length = true := by simp [Kind.lengthFits, hlen]
    refine ⟨fun hr => command_refused (k := .unloadEntry) h hfit (applyUnloadEntry_range hr _), fun index hindex => ?_⟩
    have happly := applyUnloadEntry_inRange hindex (removeHead s)
    refine ⟨fun hin => ?_, fun hout => ?_⟩
    · have hpage : inDefinedPage (removeHead s) index.val = true := inDefinedPage_iff.mpr hin
      exact command_refused (k := .unloadEntry) h hfit (happly.trans (if_pos hpage))
    · have hpage : inDefinedPage (removeHead s) index.val = false := inDefinedPage_false hout
      exact command_accepted (k := .unloadEntry) h hfit (happly.trans (if_neg (Bool.eq_false_iff.mp hpage)))
  · have hfit : Kind.undefinePage.lengthFits f.body.length = true := by simp [Kind.lengthFits, hlen]
    refine ⟨fun hr => command_refused (k := .undefinePage) h hfit (applyUndefinePage_range hr _), fun n hn => ?_⟩
    have happly := applyUndefinePage_inRange hn (removeHead s)
    refine ⟨fun hcurrent => ?_, fun hcurrent => ?_⟩
    · have hshown : pageShown (removeHead s) n = true := pageShown_iff.mpr hcurrent
      exact command_refused (k := .undefinePage) h hfit (happly.trans (if_pos hshown))
    · have hshown : pageShown (removeHead s) n = false := pageShown_false hcurrent
      exact command_accepted (k := .undefinePage) h hfit (happly.trans (if_neg (Bool.eq_false_iff.mp hshown)))

end Sys2Proof.Machine

/-! ### DEFINE PAGE (R66) -/

namespace Sys2Proof.Machine

/-- R66, step 1: a field out of its range. -/
theorem applyDefinePage_range {b : List Byte} {s : State} (h : 31 < field b 0 1 ∨ 15 < field b 1 1 ∨
    2047 < field b 2 2 ∨ field b 4 1 < 1 ∨ 64 < field b 4 1) : applyDefinePage b s = refuse .range s := by
  unfold applyDefinePage
  dsimp only
  split
  · next n panel hn hpanel =>
    refine if_pos ?_
    have hn := placeOf_eq_some hn
    have hp := placeOf_eq_some hpanel
    omega
  · rfl

/-- R66, steps 2 to 6: a DEFINE PAGE whose fields are in their ranges. -/
theorem applyDefinePage_inRange {b : List Byte} {s : State} {n : PageIx} {panel : PanelIx}
    (hn : field b 0 1 = n.val) (hpanel : field b 1 1 = panel.val) (hfirst : field b 2 2 ≤ 2047)
    (hmin : 1 ≤ field b 4 1) (hmax : field b 4 1 ≤ 64) :
    applyDefinePage b s = if pageShown s n then refuse .shown s
      else if pageQualifies s panel (field b 2 2) (field b 4 1) then
        ({ s with pages := s.pages.set n (some ⟨panel, field b 2 2, field b 4 1⟩) }, ⟨.ok, []⟩)
      else refuse .badPage s := by
  simp only [applyDefinePage, placeOf_val hn, placeOf_val hpanel]
  exact if_neg (by omega)

/-- Settles O30: the refusals check by check, the page qualifying by `pageQualifies_iff`. -/
theorem definePageTaken : Obligations.DefinePageTaken := by
  rintro f s first count h hlen rfl rfl
  have hfit : Kind.definePage.lengthFits f.body.length = true := by simp [Kind.lengthFits, hlen]
  refine ⟨fun hr => command_refused (k := .definePage) h hfit (applyDefinePage_range hr), ?_⟩
  intro n panel hn hpanel hfirst hmin hmax
  have happly := applyDefinePage_inRange (s := removeHead s) hn hpanel hfirst hmin hmax
  refine ⟨fun hcurrent => ?_, fun hcurrent good hgood => ?_⟩
  · have hshown : pageShown (removeHead s) n = true := pageShown_iff.mpr hcurrent
    exact command_refused (k := .definePage) h hfit (happly.trans (if_pos hshown))
  · have hshown : pageShown (removeHead s) n = false := pageShown_false hcurrent
    have hfree := happly.trans (if_neg (Bool.eq_false_iff.mp hshown))
    have hqualifies : pageQualifies (removeHead s) panel (field f.body 2 2) (field f.body 4 1) = true ↔ good :=
      pageQualifies_iff.trans hgood.symm
    refine ⟨fun hbad => ?_, fun hok => ?_⟩
    · exact command_refused (k := .definePage) h hfit (hfree.trans (if_neg fun hq => hbad (hqualifies.mp hq)))
    · exact command_accepted (k := .definePage) h hfit (hfree.trans (if_pos (hqualifies.mpr hok)))

end Sys2Proof.Machine

/-! ### SHOW PAGE and RESTORE PANEL (R68 to R70, R72) -/

namespace Sys2Proof.Machine

theorem appendMarks_ignored {live : PosIx → Bool} {ps : List PosIx} (h : ∀ p ∈ ps, live p = false)
    (queue : List PosIx) : appendMarks live queue ps = queue := by
  induction ps with
  | nil => rfl
  | cons p rest ih =>
    rw [appendMarks, h p List.mem_cons_self, Bool.false_and, if_neg Bool.false_ne_true]
    exact ih fun q hq => h q (List.mem_cons_of_mem p hq)

/-- R75: marks on panels that are not LIVE change nothing. -/
theorem mark_ignored {ps : List PosIx} {s : State} (h : ∀ p ∈ ps, s.panels[panelOf p].state ≠ .live) :
    mark ps s = s := by
  have hdark : ∀ p ∈ ps, panelLive s (panelOf p) = false := fun p hp =>
    Bool.eq_false_iff.mpr fun hl => h p hp (panelLive_iff.mp hl)
  have hover : marksOvertake s ps = false := by
    unfold marksOvertake
    split
    · rfl
    · next t _ =>
      by_cases ht : t ∈ ps
      · simp [hdark t ht]
      · simp [ht]
  simp only [mark, appendMarks_ignored hdark, hover, Bool.or_false]

theorem setPanel_same {panel : PanelIx} {f : Panel → Panel} {s : State} (h : f s.panels[panel] = s.panels[panel]) :
    setPanel panel f s = s := by
  unfold setPanel Vec.update
  rw [h]
  simp

theorem panelPositions_sorted (panel : PanelIx) : (panelPositions panel).Pairwise (· < ·) :=
  List.pairwise_map.mpr ((List.pairwise_lt_finRange 64).imp fun hlt => Nat.add_lt_add_left hlt (64 * panel.val))

/-- R69, step 3: the state of a panel after a switch. -/
def Panel.lifted (p : Panel) : Panel := { p with state := if p.state = .shed then .shed else .live }

/-- R69: whatever the state of the panel, a switch is the reshowing, the lift of HELD-DARK and a run of marks, which
are ignored on a SHED panel. -/
theorem beginSwitch_eq (panel : PanelIx) (s : State) :
    beginSwitch panel s = mark (panelPositions panel) (setPanel panel Panel.lifted (reshow (· == panel) s)) := by
  unfold beginSwitch
  dsimp only
  split
  · next hst =>
    rw [setPanel_same]
    rw [reshow_panels, Panel.lifted, hst]
    exact congrArg (Panel.mk · _ _) hst.symm
  · next hst =>
    congr 1
    unfold setPanel Vec.update
    rw [reshow_panels, Panel.lifted, hst]
    rfl
  · next hst =>
    rw [setPanel_same, mark_ignored]
    · intro p hp
      rw [mem_panelPositions] at hp
      subst hp
      rw [reshow_panels, hst]
      decide
    · rw [reshow_panels, Panel.lifted, hst]
      exact congrArg (Panel.mk · _ _) hst.symm

/-- R72: a switch to the present page is a SHOW PAGE of it. -/
theorem beginSwitch_eq_showPage (panel : PanelIx) (s : State) :
    beginSwitch panel s = showPage panel s.panels[panel].current s := by
  unfold showPage
  rw [setPanel_same rfl]

theorem showPage_panels (panel : PanelIx) (page : Option PageIx) (s : State) :
    (showPage panel page s).panels = s.panels.set panel { s.panels[panel] with
      current := page, state := if s.panels[panel].state = .shed then .shed else .live } := by
  unfold showPage
  rw [beginSwitch_eq, mark_panels, setPanel_panels, reshow_panels, setPanel_panels]
  simp [Vec.update, Panel.lifted]

theorem showPage_panel (panel : PanelIx) (page : Option PageIx) (s : State) :
    (showPage panel page s).panels[panel] = { s.panels[panel] with
      current := page, state := if s.panels[panel].state = .shed then .shed else .live } := by
  rw [showPage_panels, Vec.set_get, if_pos rfl]

/-- R68, R70: the positions of the panel are reshown, the others kept. -/
theorem showPage_position (panel : PanelIx) (page : Option PageIx) (s : State) (p : PosIx) :
    (showPage panel page s).boards.positions[p] = if panelOf p = panel then
      { s.boards.positions[p] with shown := shownBy (showPage panel page s) p, switchPending := true, flash := 0 }
      else s.boards.positions[p] := by
  have hcurrent : (showPage panel page s).panels[panelOf p].current
      = (setPanel panel (fun q => { q with current := page }) s).panels[panelOf p].current := by
    rw [showPage_panels, Vec.set_get, setPanel_panels, Vec.update_get]
    split <;> rfl
  have hshown := shownBy_congr (s := setPanel panel (fun q => { q with current := page }) s)
    (t := showPage panel page s) (p := p) hcurrent (fun _ _ => by simp [showPage])
    (fun _ _ _ _ => entryShownBy_congr fun _ _ _ _ => by simp [showPage])
  have hget : (showPage panel page s).boards.positions[p] = if (panelOf p == panel) = true then
      { s.boards.positions[p] with
        shown := shownBy (setPanel panel (fun q => { q with current := page }) s) p, switchPending := true, flash := 0 }
      else s.boards.positions[p] := by
    unfold showPage
    rw [beginSwitch_eq]
    exact Vec.mapIx_get _ _ p
  rw [hget, hshown]
  simp only [beq_iff_eq]

/-- R69: SHOW PAGE switches the panel. -/
theorem showPage_switched (panel : PanelIx) (page : Option PageIx) (s : State) :
    PanelSwitched panel page s (showPage panel page s) where
  frame := by
    rw [← showPage_panels]
    unfold showPage
    rw [beginSwitch_eq]
    rfl
  switched p hp := (showPage_position panel page s p).trans (if_pos hp)
  kept p hp := (showPage_position panel page s p).trans (if_neg hp)
  marked := by
    have hm := mark_marked (panelPositions panel) (setPanel panel Panel.lifted
      (reshow (· == panel) (setPanel panel (fun q => { q with current := page }) s))) (panelPositions_sorted panel)
    rw [← beginSwitch_eq] at hm
    refine (hm.base (z := { s with panels := (showPage panel page s).panels }) ?_ rfl rfl rfl).congr fun p =>
      mem_panelPositions panel p
    unfold showPage
    rw [beginSwitch_eq, mark_panels]

/-- R69, R177: the byte of a page, 0xFF for none. -/
def pageByte : Option PageIx → Byte
  | none => 0xFF
  | some n => byte n.val

theorem panelAnswer_eq (panel : PanelIx) (s : State) : panelAnswer panel s
    = (s, ⟨.ok, [byte panel.val, pageByte s.panels[panel].current, s.panels[panel].state.code]⟩) := by
  unfold panelAnswer
  cases s.panels[panel].current with
  | none => rfl
  | some n => simp [orNone, beBytes, pageByte, byte]

theorem byteAt_none {b : List Byte} {n : Nat} (h : field b n 1 = 255) : byteAt b n = 0xFF :=
  BitVec.eq_of_toNat_eq (field_one b n ▸ h)

theorem byteAt_page {b : List Byte} {k : Nat} {n : PageIx} (h : field b k 1 = n.val) : byteAt b k = byte n.val :=
  BitVec.eq_of_toNat_eq (by rw [← field_one, h, byte, BitVec.toNat_ofNat]; omega)

theorem pageOfPanel_iff {s : State} {panel : PanelIx} {n : PageIx} :
    pageOfPanel s panel n = true ↔ ∃ d, s.pages[n] = some d ∧ d.panel = panel := by
  unfold pageOfPanel
  cases s.pages[n] <;> simp

section

variable {b : List Byte} {s : State}

/-- R69, R177: a panel or page byte out of its range. -/
theorem applyShowPage_range (h : 15 < field b 0 1 ∨ field b 1 1 ≠ 255 ∧ 31 < field b 1 1) :
    applyShowPage b s = refuse .range s := by
  unfold applyShowPage
  split
  · rfl
  · next panel hpanel =>
    have hp := placeOf_eq_some hpanel
    obtain ⟨hne, hn⟩ := h.resolve_left (by omega)
    rw [if_neg fun he => hne ((field_one b 1).trans (congrArg BitVec.toNat he)), placeOf_none (size := 32) hn]

variable {panel : PanelIx} (hpanel : field b 0 1 = panel.val)
include hpanel

theorem applyShowPage_none (h : field b 1 1 = 255) :
    applyShowPage b s = panelAnswer panel (showPage panel none s) := by
  simp only [applyShowPage, placeOf_val hpanel]
  exact if_pos (byteAt_none h)

theorem applyShowPage_page {n : PageIx} (h : field b 1 1 = n.val) :
    applyShowPage b s = if pageOfPanel s panel n then panelAnswer panel (showPage panel (some n) s)
      else refuse .badPage s := by
  have hne : byteAt b 1 ≠ 0xFF := fun he => by
    have := (field_one b 1).symm.trans h
    rw [he] at this
    have h255 : (0xFF : Byte).toNat = 255 := rfl
    omega
  simp only [applyShowPage, placeOf_val hpanel, placeOf_val h]
  exact if_neg hne

/-- R69: a SHOW PAGE that passes every check; its page byte names the page shown. -/
theorem applyShowPage_taken {page : Option PageIx} (h : page = none ∧ field b 1 1 = 255 ∨
    ∃ n d, page = some n ∧ field b 1 1 = n.val ∧ s.pages[n] = some d ∧ d.panel = panel) :
    applyShowPage b s = panelAnswer panel (showPage panel page s) ∧ pageByte page = byteAt b 1 := by
  rcases h with ⟨rfl, hb⟩ | ⟨n, d, rfl, hb, hd, hp⟩
  · exact ⟨applyShowPage_none hpanel hb, (byteAt_none hb).symm⟩
  · have hof : pageOfPanel s panel n = true := pageOfPanel_iff.mpr ⟨d, hd, hp⟩
    exact ⟨(applyShowPage_page hpanel hb).trans (if_pos hof), (byteAt_page hb).symm⟩

theorem applyRestorePanel_inRange : applyRestorePanel b s = panelAnswer panel (restorePanel panel s) := by
  simp only [applyRestorePanel, placeOf_val hpanel]

end

theorem applyRestorePanel_range {b : List Byte} (h : 15 < field b 0 1) (s : State) :
    applyRestorePanel b s = refuse .range s := by
  simp [applyRestorePanel, placeOf_none (size := 16) h]

/-- R72: a HELD-DARK panel is switched to its present page. -/
theorem restorePanel_heldDark {panel : PanelIx} {s : State} (h : s.panels[panel].state = .heldDark) :
    restorePanel panel s = showPage panel s.panels[panel].current s := by
  unfold restorePanel
  rw [h]
  exact beginSwitch_eq_showPage panel s

/-- R72: nothing happens to a panel that is not HELD-DARK. -/
theorem restorePanel_other {panel : PanelIx} {s : State} (h : s.panels[panel].state ≠ .heldDark) :
    restorePanel panel s = s := by
  unfold restorePanel
  cases hst : s.panels[panel].state with
  | live => rfl
  | shed => rfl
  | heldDark => exact absurd hst h

/-- Settles O31: both commands by `showPage`, the shown entry by the law of the pages. -/
theorem panelShown : Obligations.PanelShown := by
  refine ⟨fun f s h hlen => ?_, fun f s h hlen => ?_, fun s p i hlaw => hlaw.shown_iff p i⟩
  · have hfit : Kind.showPage.lengthFits f.body.length = true := by simp [Kind.lengthFits, hlen]
    refine ⟨fun hr => command_refused (k := .showPage) h hfit (applyShowPage_range hr), fun panel hpanel =>
      ⟨fun n hn hbad => ?_, fun page hpage => ?_⟩⟩
    · refine command_refused (k := .showPage) h hfit ((applyShowPage_page hpanel hn).trans (if_neg fun hof => ?_))
      obtain ⟨d, hd, hp⟩ := pageOfPanel_iff.mp hof
      exact hbad d hd hp
    · obtain ⟨happly, hbyte⟩ := applyShowPage_taken (s := removeHead s) hpanel hpage
      refine ⟨showPage panel page (removeHead s), ?_, showPage_switched ..⟩
      rw [panelAnswer_eq, showPage_panel, hbyte, ← showPage_panel] at happly
      exact command_accepted (k := .showPage) h hfit happly
  · have hfit : Kind.restorePanel.lengthFits f.body.length = true := by simp [Kind.lengthFits, hlen]
    refine ⟨fun hr => command_refused (k := .restorePanel) h hfit (applyRestorePanel_range hr _), ?_⟩
    intro panel hpanel pb hpb
    have hbyte : pb = pageByte s.panels[panel].current := by
      rw [hpb]
      cases s.panels[panel].current <;> rfl
    subst hbyte
    have happly := applyRestorePanel_inRange (s := removeHead s) hpanel
    refine ⟨fun hdark => ?_, fun hother => ?_⟩
    · refine ⟨showPage panel s.panels[panel].current (removeHead s), ?_, showPage_switched ..⟩
      have hlive : (removeHead s).panels[panel].state = .heldDark := hdark
      rw [restorePanel_heldDark hlive, panelAnswer_eq, showPage_panel, hlive] at happly
      exact command_accepted (k := .restorePanel) h hfit happly
    · rw [restorePanel_other (s := removeHead s) hother, panelAnswer_eq] at happly
      exact command_accepted (k := .restorePanel) h hfit happly

end Sys2Proof.Machine

/-! ### Position writes (R70, R71, R77 to R79) -/

namespace Sys2Proof.Machine

theorem busFree_iff {s : State} : busFree s = true ↔ s.boards.write = none ∧ s.verifier.target = none := by
  simp [busFree]

/-- R77, R78: with the bus free the write of the queue's head starts. -/
theorem startWrite_free {s : State} {p : PosIx} {rest : List PosIx} (hq : s.boards.repaint = p :: rest)
    (hfree : busFree s = true) : startWrite s
      = { s with boards := { s.boards with repaint := rest, write := some ⟨p, contentOf s p⟩ } } := by
  simp [startWrite, hq, hfree]

/-- R77: while the bus is taken no write starts. -/
theorem startWrite_taken {s : State} (h : busFree s = false) : startWrite s = s := by
  unfold startWrite
  split
  · rfl
  · simp [h]

/-- R65: no position of the panel has a switch pending. -/
theorem switchesPending_eq_zero_iff {s : State} {panel : PanelIx} : switchesPending s panel = 0 ↔
    ∀ q : PosIx, panelOf q = panel → s.boards.positions[q].switchPending = false := by
  rw [switchesPending, List.length_eq_zero_iff, List.eq_nil_iff_forall_not_mem]
  simp only [Vec.mem_select, Bool.and_eq_true, beq_iff_eq, not_and, Bool.not_eq_true]

/-- R70: a flag that is not set, or whose position is queued, stays as it is. -/
theorem clearSwitch_kept {s : State} {p : PosIx}
    (h : s.boards.positions[p].switchPending = true → p ∈ s.boards.repaint) : clearSwitch p s = s := by
  refine if_neg fun hc => ?_
  rw [Bool.and_eq_true, Bool.not_eq_true', ← Bool.not_eq_true, List.contains_iff_mem] at hc
  exact hc.2 (h hc.1)

/-- R70, R71: the flag of a position that is not queued is cleared, and the last of its panel completes the switch. -/
theorem clearSwitch_cleared {s u : State} {p : PosIx} (hset : s.boards.positions[p].switchPending = true)
    (hq : p ∉ s.boards.repaint) (hu : setPosition p (fun pos => { pos with switchPending := false }) s = u) :
    clearSwitch p s = if switchesPending u (panelOf p) = 0 then completeSwitch (panelOf p) u else u := by
  subst hu
  exact if_pos (by simpa using ⟨hset, hq⟩)

/-- R79: the image recorded and the bus free, the flag of the position as it was. -/
def imageRecorded (w : PositionWrite) (s : State) : State :=
  setPosition w.position (fun pos => { pos with image := some w.content })
    { s with boards := { s.boards with write := none } }

/-- R70, R79: the image recorded, and the flag of the position cleared where it is not queued. -/
def writeRecorded (w : PositionWrite) (s : State) : State :=
  { s with boards := { s.boards with
    write := none
    positions := s.boards.positions.set w.position { s.boards.positions[w.position] with
      image := some w.content
      switchPending := s.boards.positions[w.position].switchPending && s.boards.repaint.contains w.position } } }

section

variable {s : State} {w : PositionWrite}

theorem imageRecorded_flag : (imageRecorded w s).boards.positions[w.position].switchPending
    = s.boards.positions[w.position].switchPending := by
  have hget : (imageRecorded w s).boards.positions[w.position] = _ := Vec.update_get _ w.position w.position _
  rw [hget, if_pos rfl]

theorem writeRecorded_flag : (writeRecorded w s).boards.positions[w.position].switchPending
    = (s.boards.positions[w.position].switchPending && s.boards.repaint.contains w.position) := by
  have hget : (writeRecorded w s).boards.positions[w.position] = _ := Vec.set_get _ w.position w.position _
  rw [hget, if_pos rfl]

theorem imageRecorded_eq (h : s.boards.positions[w.position].switchPending = true → w.position ∈ s.boards.repaint) :
    imageRecorded w s = writeRecorded w s := by
  have hflag : (s.boards.positions[w.position].switchPending && s.boards.repaint.contains w.position)
      = s.boards.positions[w.position].switchPending := by
    cases hset : s.boards.positions[w.position].switchPending with
    | false => rfl
    | true => simpa using h hset
  unfold writeRecorded
  rw [hflag]
  rfl

theorem imageRecorded_cleared (hq : w.position ∉ s.boards.repaint) :
    setPosition w.position (fun pos => { pos with switchPending := false }) (imageRecorded w s)
      = writeRecorded w s := by
  have hflag : s.boards.repaint.contains w.position = false := by simpa using hq
  unfold writeRecorded
  rw [hflag, Bool.and_false]
  simp [imageRecorded, setPosition, Vec.update]

variable (hw : s.boards.write = some w)
include hw

/-- R79: on a panel that is not LIVE nothing is recorded. -/
theorem completeWrite_dark (h : s.panels[panelOf w.position].state ≠ .live) :
    completeWrite s = { s with boards := { s.boards with write := none } } := by
  simp only [completeWrite, hw, recordWrite]
  exact if_neg fun hl => h (panelLive_iff.mp hl)

variable (hlive : s.panels[panelOf w.position].state = .live)
include hlive

theorem completeWrite_live : completeWrite s = clearSwitch w.position (imageRecorded w s) := by
  simp only [completeWrite, hw, recordWrite]
  exact if_pos (panelLive_iff.mpr hlive)

/-- R70, R79: the panel's switch does not complete where the flag was not set or a flag of the panel is left. -/
theorem completeWrite_unfinished (h : (∃ q, panelOf q = panelOf w.position ∧
    (writeRecorded w s).boards.positions[(q : PosIx)].switchPending = true) ∨
      s.boards.positions[w.position].switchPending = false) : completeWrite s = writeRecorded w s := by
  rw [completeWrite_live hw hlive]
  by_cases hkept : s.boards.positions[w.position].switchPending = true → w.position ∈ s.boards.repaint
  · rw [clearSwitch_kept (s := imageRecorded w s) fun hset => hkept (imageRecorded_flag.symm.trans hset),
      imageRecorded_eq hkept]
  · rw [Classical.not_imp] at hkept
    obtain ⟨hset, hq⟩ := hkept
    rw [clearSwitch_cleared (imageRecorded_flag.trans hset) hq (imageRecorded_cleared hq)]
    obtain ⟨q, hpanel, hleft⟩ := h.resolve_right fun hclear => Bool.false_ne_true (hclear.symm.trans hset)
    exact if_neg fun hz => Bool.false_ne_true ((switchesPending_eq_zero_iff.mp hz q hpanel).symm.trans hleft)

/-- R70, R71, R79: where the last flag of the panel is cleared, its switch completes. -/
theorem completeWrite_finished
    (hnone : ∀ q, panelOf q = panelOf w.position →
      (writeRecorded w s).boards.positions[(q : PosIx)].switchPending = false)
    (hset : s.boards.positions[w.position].switchPending = true) :
    completeWrite s = completeSwitch (panelOf w.position) (writeRecorded w s) := by
  have hq : w.position ∉ s.boards.repaint := fun hm => by
    have hflag := hnone w.position rfl
    rw [writeRecorded_flag, hset, List.contains_iff_mem.mpr hm] at hflag
    cases hflag
  rw [completeWrite_live hw hlive,
    clearSwitch_cleared (imageRecorded_flag.trans hset) hq (imageRecorded_cleared hq)]
  exact if_pos (switchesPending_eq_zero_iff.mpr hnone)

end

/-- Settles O32: the start by the bus, the completion by the state of the panel and the flags left. -/
theorem positionWriteRuns : Obligations.PositionWriteRuns := by
  refine ⟨fun s hpor => ⟨fun p rest hq hwrite htarget => ?_, fun htaken => ?_⟩, ?_⟩
  · exact (powered_eq hpor).trans (congrArg _ (startWrite_free hq (busFree_iff.mpr ⟨hwrite, htarget⟩)))
  · refine powered_same (startWrite_taken (Bool.eq_false_iff.mpr fun hfree => ?_))
    obtain ⟨hwrite, htarget⟩ := busFree_iff.mp hfree
    exact htaken.elim (fun hn => hn hwrite) (fun hn => hn htarget)
  · rintro s w p hpor hw rfl
    refine ⟨fun hdark => (powered_eq hpor).trans (congrArg _ (completeWrite_dark hw hdark)), ?_⟩
    rintro hlive u rfl
    refine ⟨fun hleft => ?_, fun hnone hset => ?_⟩
    · exact (powered_eq hpor).trans (congrArg _ (completeWrite_unfinished hw hlive hleft))
    · exact (powered_eq hpor).trans (congrArg _ (completeWrite_finished hw hlive hnone hset))

end Sys2Proof.Machine

/-! ### The passing of an interval (R88, R90, R174) -/

namespace Sys2Proof.Machine

/-- R90: the effective duty, spelled out. -/
theorem railDuty_eq (s : State) (rail : RailIx) :
    railDuty s rail = (match s.rails[rail].state with
      | .ok => min s.params.brightness[rail] 12
      | .low => min (min s.params.brightness[rail] 12) s.params.sagCeiling
      | .fail => 0) := by
  unfold railDuty effectiveDuty
  cases s.rails[rail].state <;> rfl

/-- R174: while POR is asserted the time base does not count. -/
theorem nextInterval_held {s : State} (h : s.por = true) : nextInterval s = s := if_pos h

theorem nextInterval_running {s : State} (h : s.por = false) : nextInterval s = { s with
    time := s.time + 1
    rails := Vec.mapIx (fun i r => { r with duty := railDuty s i, sampled := false }) s.rails } :=
  if_neg (Bool.eq_false_iff.mp h)

/-- R88, R90: a rail in the interval that begins. -/
theorem nextInterval_rail {s : State} (h : s.por = false) (rail : RailIx) :
    (nextInterval s).rails[rail] = { s.rails[rail] with duty := railDuty s rail, sampled := false } := by
  rw [nextInterval_running h]
  exact Vec.mapIx_get _ _ rail

theorem nextInterval_passes {s : State} (h : s.por = false) :
    nextInterval s = { s with time := s.time + 1, rails := (nextInterval s).rails } := by
  rw [nextInterval_running h]

/-- With no command waiting a step is the passing of an interval (log 3). -/
theorem step_idle {s : State} (h : s.pending = []) : step s = .next (nextInterval s) := by
  simp [step, h]

/-- Settles O2: by the state of the POR input. -/
theorem idleStepPassesInterval : Obligations.IdleStepPassesInterval := by
  intro s hidle
  refine ⟨fun hpor => ?_, fun hpor => ⟨nextInterval s, step_idle hidle, nextInterval_passes hpor, fun rail => ?_⟩⟩
  · rw [step_idle hidle, nextInterval_held hpor]
  · have hduty : lampDuty (nextInterval s) rail = railDuty s rail :=
      congrArg Rail.duty (nextInterval_rail hpor rail)
    rw [hduty]
    exact ⟨nextInterval_rail hpor rail, railDuty_eq s rail⟩

end Sys2Proof.Machine

/-! ### Position content (R35, R36, R80 to R82) -/

namespace Sys2Proof.Machine

theorem FieldKind.isPrice_iff {k : FieldKind} : k.isPrice = true ↔ k ∈ priceKinds := by
  cases k <;> decide

/-- R83: the entries that a moved mark flashes. -/
theorem Entry.flashes_iff {e : Entry} : e.flashes = true ↔ e.flash = true ∧ (e.kind = .last ∨ e.kind = .change) := by
  simp [Entry.flashes]

/-- R81: the drive mode, by the first condition that applies. -/
theorem driveModeOf_eq (stale : Bool) (flash : Nat) (e : Entry) :
    driveModeOf stale flash e = if stale = true ∧ e.kind ∈ priceKinds then .blinkB
      else if 0 < flash ∧ e.flash = true ∧ (e.kind = .last ∨ e.kind = .change) then .flashA
      else .steady := by
  simp only [driveModeOf, Bool.and_eq_true, decide_eq_true_eq, FieldKind.isPrice_iff, Entry.flashes_iff]

/-- R82: the tick lamp shows the direction where the stored lighting asks for it and the record is not HALTED. -/
theorem tickLampOf_eq (e : Entry) (r : Record) :
    tickLampOf e r = if e.tick = true ∧ r.isHalted = false then r.direction.lamp else .dark := by
  simp only [tickLampOf, Bool.and_eq_true, Bool.not_eq_true']

/-- R80: no shown entry, or an unbound one. -/
theorem contentOf_blank {s : State} {p : PosIx}
    (h : ∀ e, shownEntry s s.boards.positions[p] = some e → e.binding = none) : contentOf s p = blankContent := by
  unfold contentOf
  dsimp only
  cases he : shownEntry s s.boards.positions[p] with
  | none => rfl
  | some e => simp only [h e he]

/-- R80 to R82: an entry bound to a record. -/
theorem contentOf_bound {s : State} {p : PosIx} {e : Entry} {i : SlotIx} {r : Record}
    (he : shownEntry s s.boards.positions[p] = some e) (hi : e.binding = some i) (hr : s.records[i] = some r) :
    contentOf s p = boundContent s.feed.stale s.boards.positions[p].flash e r := by
  simp only [contentOf, he, hi, hr]

section

variable {kind : FieldKind} {w : Nat} {r : Record}

/-- R35: an absent field leaves its window blank. -/
theorem window_absent (h : fieldForm kind w r = .absent) : window kind w r = blanks w := by
  simp only [window, h]

/-- R36: a volume with no form that fits. -/
theorem window_noFit (h : fieldForm kind w r = .noFit) : window kind w r = overflow w := by
  simp only [window, h]

/-- R35, R36: a form that does not fit overflows, that of a symbol stands left, any other right. -/
theorem window_text {form : Text} (h : fieldForm kind w r = .text form) :
    window kind w r = if w < form.length then overflow w
      else if kind = .symbol then form ++ blanks (w - form.length)
      else blanks (w - form.length) ++ form := by
  simp only [window, h]

end

/-- Settles O33: the two contents of a position, and the window by the form of its field. -/
theorem positionContent : Obligations.PositionContent := by
  refine ⟨fun s p h => contentOf_blank h, fun s p e i r he hi hr => ?_, fun kind w r => ⟨window_absent, window_noFit,
    fun form hform => ?_⟩⟩
  · rw [contentOf_bound he hi hr, boundContent, driveModeOf_eq, tickLampOf_eq]
    cases r.direction <;> rfl
  · rw [window_text hform]
    refine ⟨fun hlong => if_pos hlong, fun hfits hsym => ?_, fun hfits hother => ?_⟩
    · rw [if_neg (Nat.not_lt.mpr hfits), if_pos hsym]
      rfl
    · rw [if_neg (Nat.not_lt.mpr hfits), if_neg hother]
      rfl

end Sys2Proof.Machine

/-! ### Period starts of the blink timers (R84, R85) -/

namespace Sys2Proof.Machine

theorem onPositions_get (f : PosIx → Position → Position) (s : State) (p : PosIx) :
    (onPositions f s).boards.positions[p] = f p s.boards.positions[p] := Vec.mapIx_get _ _ p

/-- R84: every running countdown is lowered. -/
theorem lowerFlashes_position (s : State) (p : PosIx) :
    (lowerFlashes s).boards.positions[p] = { s.boards.positions[p] with flash := s.boards.positions[p].flash - 1 } :=
  onPositions_get _ s p

/-- R84: the positions whose countdown reaches 0 are marked. -/
theorem lowerFlashes_marked (s : State) :
    Marked s (fun p => s.boards.positions[p].flash = 1) (lowerFlashes s) :=
  ((mark_marked (Vec.select (fun _ pos => pos.flash == 1) s.boards.positions)
    (onPositions (fun _ pos => { pos with flash := pos.flash - 1 }) s) (Vec.select_sorted _ _)).base
    (z := s) rfl rfl rfl rfl).congr fun p => by rw [Vec.mem_select, beq_iff_eq]

theorem startPeriod_due {x : AB} {s : State} (h : periodIntervals s x ≤ elapsed s.time (s.boards.timerStart.get x)) :
    startPeriod x s = periodStarted x
      (setTimerStart x (s.boards.timerStart.get x + BitVec.ofNat 32 (periodIntervals s x)) s) :=
  if_pos (decide_eq_true h)

theorem startPeriod_early {x : AB} {s : State} (h : elapsed s.time (s.boards.timerStart.get x) < periodIntervals s x) :
    startPeriod x s = s := if_neg fun hd => Nat.not_lt.mpr (of_decide_eq_true hd) h

/-- Settles O36: by whether the period has run, and by the timer. -/
theorem periodStarts : Obligations.PeriodStarts := by
  rintro x s intervals hpor rfl
  refine ⟨fun hearly => powered_same (startPeriod_early hearly), ?_⟩
  rintro hdue start rfl
  have hexec := (powered_eq (f := startPeriod x) hpor).trans (congrArg _ (startPeriod_due hdue))
  refine ⟨?_, ?_⟩
  · rintro rfl
    exact hexec
  · rintro rfl
    have hmarked := lowerFlashes_marked
      (setTimerStart .a (s.boards.timerStart.get .a + BitVec.ofNat 32 (periodIntervals s .a)) s)
    exact ⟨_, hexec, rfl, lowerFlashes_position (setTimerStart .a _ s), hmarked.base rfl rfl rfl rfl⟩

end Sys2Proof.Machine

/-! ### Rail samples (R88, R89) -/

namespace Sys2Proof.Machine

theorem readingOf_eq (working fail : Bool) :
    readingOf working fail = if fail = false then .fail else if working = true then .ok else .low := by
  cases fail <;> rfl

/-- R89: what a sample makes of a rail record. -/
theorem sampledRail_eq (settle : Nat) (reading : RailState) (r : Rail) :
    sampledRail settle reading r = { r with
      candidate := reading
      run := if reading = r.candidate then min (r.run + 1) 50 else 1
      sampled := true
      changeDue := decide (settle ≤ (if reading = r.candidate then min (r.run + 1) 50 else 1) ∧ reading ≠ r.state) } := by
  have hdue : (decide (settle ≤ (if reading = r.candidate then min (r.run + 1) 50 else 1)) && reading != r.state)
      = decide (settle ≤ (if reading = r.candidate then min (r.run + 1) 50 else 1) ∧ reading ≠ r.state) := by
    rw [Bool.decide_and, bne, beq_eq_decide, decide_not]
  rw [← hdue]
  rfl

/-- The first sample of a rail in an interval. -/
theorem sampleRail_first {rail : RailIx} {working fail : Bool} {s : State} (h : s.rails[rail].sampled = false) :
    sampleRail rail working fail s = setRail rail (sampledRail s.params.settleTime (readingOf working fail)) s := by
  unfold sampleRail
  rw [h]
  rfl

/-- A second sample of a rail is the first one of the next interval (log 4). -/
theorem sampleRail_again {rail : RailIx} {working fail : Bool} {s : State} (hpor : s.por = false)
    (h : s.rails[rail].sampled = true) :
    sampleRail rail working fail s = sampleRail rail working fail (nextInterval s) := by
  rw [sampleRail_first (s := nextInterval s) (congrArg Rail.sampled (nextInterval_rail hpor rail))]
  unfold sampleRail
  rw [h]
  rfl

/-- The passing of an interval does not touch the queue of waiting commands. -/
theorem nextInterval_withPending {s : State} (h : s.por = false) (q : List Instr) :
    { nextInterval { s with pending := q } with pending := s.pending } = nextInterval s := by
  rw [nextInterval_running h, nextInterval_running (s := { s with pending := q }) h]
  rfl

/-- Settles O37: a first sample by `sampledRail_eq`, a second one through the next interval. -/
theorem railSampled : Obligations.RailSampled := by
  rintro rail working fail s reading r run hpor rfl rfl rfl
  refine ⟨fun hfirst => ?_, fun hagain t hstep => ?_⟩
  · refine (powered_eq hpor).trans (congrArg _ ((sampleRail_first hfirst).trans ?_))
    rw [setRail, Vec.update, sampledRail_eq, readingOf_eq]
  · have ht : nextInterval { s with pending := [] } = t := Host.Outcome.next.inj ((step_idle rfl).symm.trans hstep)
    rw [← ht, nextInterval_withPending hpor]
    refine (powered_eq hpor).trans ((congrArg _ (sampleRail_again hpor hagain)).trans (powered_eq ?_).symm)
    rw [nextInterval_por, hpor]

end Sys2Proof.Machine

/-! ### Sent replies and the quiet limit (R87, R134, R165, R171, R172) -/

namespace Sys2Proof.Machine

theorem quietLimitReached_iff {s : State} : quietLimitReached s = true ↔ s.phase = .opened ∧ s.feed.stale = false ∧
    s.params.quietLimit ≠ 0 ∧ s.params.quietLimit * 100 ≤ elapsed s.time s.feed.lastIntact := by
  simp only [quietLimitReached, Bool.and_eq_true, beq_iff_eq, Bool.not_eq_true', bne_iff_ne, decide_eq_true_eq,
    and_assoc]
  rfl

/-- R87: the positions whose shown entry has a price kind. -/
theorem mem_pricePositions {s : State} {p : PosIx} : p ∈ pricePositions s ↔
    ∃ e, shownEntry s s.boards.positions[p] = some e ∧ e.kind ∈ priceKinds := by
  unfold pricePositions
  rw [Vec.mem_select]
  cases shownEntry s s.boards.positions[p] with
  | none => simp
  | some e => simp [FieldKind.isPrice_iff]

/-- R87, R134, R171, R172: STALE becomes set or clear, with its effects. -/
theorem setStale_turned (stale : Bool) (s : State) :
    StaleTurned stale (if stale then quotesDelayed else quotesResumed) s (setStale stale s) where
  frame := rfl
  marked := ((mark_marked (pricePositions s) (latch .staleChange { s with
      feed := { s.feed with stale := stale }
      tapes := s.tapes.map (fun u =>
        { u with feedSlot := some (if stale then quotesDelayed else quotesResumed) }) }) (Vec.select_sorted _ _)).base
    (z := s) rfl rfl rfl rfl).congr fun _ => mem_pricePositions

/-- Settles O55: the head of the reply queue, and the conditions of R171. -/
theorem replySentAndQuietLimit : Obligations.ReplySentAndQuietLimit := by
  refine ⟨fun s r rest hpor hq => ⟨?_, ?_⟩, fun s due hpor hdue => ⟨fun h => ⟨setStale true s, ?_, setStale_turned true s⟩,
    fun h => powered_same (if_neg fun hreached => h (hdue.mpr (quietLimitReached_iff.mp hreached)))⟩⟩
  · simp [sendingReply, hpor, hq]
  · refine (powered_eq hpor).trans ?_
    rw [sendReply, hq]
    rfl
  · exact (powered_eq hpor).trans (congrArg _ (if_pos (quietLimitReached_iff.mpr (hdue.mp h))))

end Sys2Proof.Machine

/-! ### Change notices (R75, R76, R83, R156) -/

namespace Sys2Proof.Machine

/-- R83: the position shows an entry that a moved mark for the slot flashes. -/
def ShowsFlashing (s : State) (slot : SlotIx) (p : PosIx) : Prop :=
  ∃ e, shownEntry s s.boards.positions[p] = some e ∧ e.binding = some slot ∧ e.flash = true ∧
    (e.kind = .last ∨ e.kind = .change)

/-- R83: on a LIVE panel the countdown of a position that flashes starts. -/
theorem startFlash_started {slot : SlotIx} {s : State} {p : PosIx} (hlive : s.panels[panelOf p].state = .live)
    (h : ShowsFlashing s slot p) :
    (startFlash slot s).boards.positions[p] = { s.boards.positions[p] with flash := s.params.flashCount } := by
  obtain ⟨e, he, hslot, hflash⟩ := h
  refine (onPositions_get _ s p).trans ?_
  simp only [he]
  exact if_pos (by rw [panelLive_iff.mpr hlive, hslot, Entry.flashes_iff.mpr hflash, beq_self_eq_true]; rfl)

/-- R83: every other position keeps its countdown. -/
theorem startFlash_kept {slot : SlotIx} {s : State} {p : PosIx}
    (h : s.panels[panelOf p].state ≠ .live ∨ ¬ ShowsFlashing s slot p) :
    (startFlash slot s).boards.positions[p] = s.boards.positions[p] := by
  refine (onPositions_get _ s p).trans ?_
  cases he : shownEntry s s.boards.positions[p] with
  | none => rfl
  | some e =>
    refine if_neg fun hc => ?_
    simp only [Bool.and_eq_true, panelLive_iff, beq_iff_eq, Entry.flashes_iff] at hc
    obtain ⟨⟨hlive, hslot⟩, hflash⟩ := hc
    exact h.elim (fun hn => hn hlive) (fun hn => hn ⟨e, he, hslot, hflash⟩)

/-- R83: a flash start does not change what a position shows. -/
theorem startFlash_shown (slot : SlotIx) (s : State) (p : PosIx) :
    (startFlash slot s).boards.positions[p].shown = s.boards.positions[p].shown := by
  by_cases h : s.panels[panelOf p].state = .live ∧ ShowsFlashing s slot p
  · rw [startFlash_started h.1 h.2]
  · rw [startFlash_kept (not_and_or.mp h)]

/-- R76: the entries that a notice with the groups affects. -/
theorem entryAffected_iff {groups : List Group} {e : Entry} : entryAffected groups e = true ↔
    .price ∈ groups ∧ e.kind ∈ [FieldKind.last, .change, .high, .low, .opened, .volume] ∨
      .quote ∈ groups ∧ e.kind ∈ [FieldKind.bid, .ask] ∨ .state ∈ groups ∧ e.kind = .state ∨ .day ∈ groups ∨
      e.tick = true ∧ (.price ∈ groups ∨ .state ∈ groups) := by
  have hany : groups.any (fun g => g.affects e.kind) = true ↔
      .price ∈ groups ∧ e.kind ∈ [FieldKind.last, .change, .high, .low, .opened, .volume] ∨
        .quote ∈ groups ∧ e.kind ∈ [FieldKind.bid, .ask] ∨ .state ∈ groups ∧ e.kind = .state ∨ .day ∈ groups := by
    rw [List.any_eq_true]
    constructor
    · rintro ⟨g, hg, ha⟩
      cases g with
      | price => exact .inl ⟨hg, by simpa [Group.affects, or_assoc] using ha⟩
      | quote => exact .inr (.inl ⟨hg, by simpa [Group.affects] using ha⟩)
      | state => exact .inr (.inr (.inl ⟨hg, by simpa [Group.affects] using ha⟩))
      | day => exact .inr (.inr (.inr hg))
    · rintro (⟨hg, hk⟩ | ⟨hg, hk⟩ | ⟨hg, hk⟩ | hg)
      · exact ⟨.price, hg, by simpa [Group.affects, or_assoc] using hk⟩
      · exact ⟨.quote, hg, by simpa [Group.affects] using hk⟩
      · exact ⟨.state, hg, by simpa [Group.affects] using hk⟩
      · exact ⟨.day, hg, rfl⟩
  unfold entryAffected
  rw [Bool.or_eq_true, hany, Bool.and_eq_true, Bool.or_eq_true, List.contains_iff_mem, List.contains_iff_mem]
  simp only [or_assoc]

theorem mem_noticePositions {slot : SlotIx} {groups : List Group} {s : State} {p : PosIx} :
    p ∈ noticePositions slot groups s ↔ ∃ e, shownEntry s s.boards.positions[p] = some e ∧
      e.binding = some slot ∧ entryAffected groups e = true := by
  unfold noticePositions
  rw [Vec.mem_select]
  cases shownEntry s s.boards.positions[p] with
  | none => simp
  | some e => simp

/-- The state in which a notice makes its marks. -/
def flashedBy (slot : SlotIx) (moved : Bool) (s : State) : State := if moved then startFlash slot s else s

theorem flashedBy_shownEntry (slot : SlotIx) (moved : Bool) (s : State) (p : PosIx) :
    shownEntry (flashedBy slot moved s) (flashedBy slot moved s).boards.positions[p]
      = shownEntry s s.boards.positions[p] := by
  cases moved with
  | false => rfl
  | true =>
    unfold shownEntry
    exact congrArg (Option.bind · _) (startFlash_shown slot s p)

/-- R76: the marks of a notice. -/
theorem changeNotice_marked (slot : SlotIx) (groups : List Group) (moved : Bool) (s : State) :
    Marked s (fun p => ∃ e, shownEntry s s.boards.positions[p] = some e ∧ e.binding = some slot ∧
      entryAffected groups e = true) (changeNotice slot groups moved s) := by
  have hm := mark_marked (noticePositions slot groups (flashedBy slot moved s)) (flashedBy slot moved s)
    (Vec.select_sorted _ _)
  have hbase : Marked s _ _ := hm.base (z := s) (by cases moved <;> rfl) (by cases moved <;> rfl)
    (by cases moved <;> rfl) (by cases moved <;> rfl)
  refine (hbase.congr fun p => ?_).result rfl rfl
  rw [mem_noticePositions, flashedBy_shownEntry]

/-- R150: the terminals on which marks take effect. -/
theorem Terminal.takesMarks_iff {t : Terminal} :
    t.takesMarks = true ↔ t.enabled = true ∧ t.presence ≠ .absent := by
  simp [Terminal.takesMarks]

theorem Terminal.takesMarks_false_iff {t : Terminal} :
    t.takesMarks = false ↔ t.enabled = false ∨ t.presence = .absent := by
  rw [← Bool.not_eq_true, Terminal.takesMarks_iff, not_and_or, Bool.not_eq_true, not_not]

/-- R156: the symbols of the ACTIVE entries bound to the slot. -/
theorem mem_noticedSymbols {slot : SlotIx} {l : List WatchEntry} {sym : Symbol} :
    sym ∈ (l.filter (WatchEntry.boundTo slot)).map (·.symbol) ↔ ⟨sym, .active slot⟩ ∈ l := by
  rw [List.mem_map]
  constructor
  · rintro ⟨⟨y, st⟩, hw, rfl⟩
    obtain ⟨hm, hb⟩ := List.mem_filter.mp hw
    have hst : st = .active slot := beq_iff_eq.mp hb
    exact hst ▸ hm
  · exact fun hm => ⟨_, List.mem_filter.mpr ⟨hm, beq_self_eq_true _⟩, rfl⟩

theorem changeNotice_terminal (slot : SlotIx) (groups : List Group) (moved : Bool) (s : State) (t : TermIx) :
    (changeNotice slot groups moved s).terminals[t] = s.terminals[t].notice slot := by
  have hget := onTerminals_get (Terminal.notice slot) (boardNotice slot groups moved s) t
  rwa [boardNotice_terminals] at hget

/-- Settles O26: the flash start, the marks and the terminals, each by its lemma. -/
theorem changeNoticeReaches : Obligations.ChangeNoticeReaches := by
  rintro slot groups moved s u rfl
  refine ⟨by cases moved <;> rfl, fun p => ⟨?_, fun hkept => ?_⟩, ?_, fun t => ⟨fun hen hpres => ?_, fun haway => ?_⟩⟩
  · rintro rfl hlive hshows
    exact startFlash_started hlive hshows
  · cases moved with
    | false => rfl
    | true => exact startFlash_kept (hkept.resolve_left (by decide))
  · refine (changeNotice_marked slot groups moved s).congr fun p => exists_congr fun e => ?_
    rw [entryAffected_iff]
  · obtain ⟨added, hadd, -, hmem⟩ := Terminal.markAll_added (Terminal.takesMarks_iff.mpr ⟨hen, hpres⟩)
      ((s.terminals[t].watch.filter (WatchEntry.boundTo slot)).map (·.symbol))
    refine ⟨added, (changeNotice_terminal ..).trans hadd, fun sym => (hmem sym).trans ?_⟩
    rw [mem_noticedSymbols]
  · exact (changeNotice_terminal ..).trans (Terminal.markAll_away (Terminal.takesMarks_false_iff.mpr haway) _)

end Sys2Proof.Machine

/-! ### Changes of a rail's state (R89, R91, R93 to R95, R101) -/

namespace Sys2Proof.Machine

theorem mem_railPanels {s : State} {rail : RailIx} {panel : PanelIx} :
    panel ∈ railPanels s rail ↔ s.params.panelRail[panel] = rail := by
  unfold railPanels
  rw [Vec.mem_select, beq_iff_eq]

/-- R95: the panels of a rail come in panel order. -/
theorem railPanels_sorted (s : State) (rail : RailIx) : (railPanels s rail).Pairwise (· < ·) := Vec.select_sorted _ _

/-- What `u` may change of `s` where panels are shed or recovered. -/
def PanelsFollow (s u : State) : Prop :=
  u = { s with
    panels := u.panels
    boards := { s.boards with positions := u.boards.positions, repaint := u.boards.repaint }
    verifier := { s.verifier with overtaken := u.verifier.overtaken } }

theorem PanelsFollow.trans {s u w : State} (h : PanelsFollow s u) (k : PanelsFollow u w) : PanelsFollow s w := by
  unfold PanelsFollow at *
  rw [k, h]

theorem railChanged_follows (before after : RailState) (x : Policy) (panel : PanelIx) (s : State) :
    PanelsFollow s (railChanged before after x panel s) := by
  unfold railChanged
  split
  · rfl
  · split
    · cases x <;> rfl
    · rfl

theorem railChanged_sheds {before after : RailState} (hb : before ≠ .fail) (ha : after = .fail) (x : Policy) :
    railChanged before after x = shed := by
  funext panel s
  exact if_pos ⟨hb, ha⟩

theorem railChanged_recovers {before after : RailState} (hb : before = .fail) (ha : after ≠ .fail) (x : Policy) :
    railChanged before after x = recover x := by
  funext panel s
  exact (if_neg fun h => h.1 hb).trans (if_pos ⟨hb, ha⟩)

theorem railChanged_same {before after : RailState} (h : before = .fail ↔ after = .fail) (x : Policy)
    (panel : PanelIx) (s : State) : railChanged before after x panel s = s :=
  (if_neg fun hs => hs.1 (h.mpr hs.2)).trans (if_neg fun hs => hs.2 (h.mp hs.1))

/-- Operations on one panel each, made in turn. -/
def onEach (f : PanelIx → State → State) (l : List PanelIx) (s : State) : State := l.foldl (fun z panel => f panel z) s

/-- What only the operation on the panel `own` changes, and changes but once, is changed where the panel is met. -/
theorem onEach_view {α : Type} {f : PanelIx → State → State} (v : State → α) (own : PanelIx) (g : α → α)
    (hf : ∀ panel s, v (f panel s) = if panel = own then g (v s) else v s) (hg : ∀ x, g (g x) = g x)
    (l : List PanelIx) (s : State) : v (onEach f l s) = if own ∈ l then g (v s) else v s := by
  unfold onEach
  induction l generalizing s with
  | nil => rfl
  | cons a rest ih =>
    rw [List.foldl_cons, ih, hf]
    by_cases ha : a = own
    · subst ha
      simp [hg]
    · simp [ha, Ne.symm ha]

theorem onEach_untouched {α : Type} {f : PanelIx → State → State} (v : State → α) (own : PanelIx)
    (hf : ∀ panel s, panel ≠ own → v (f panel s) = v s) {l : List PanelIx} (h : own ∉ l) (s : State) :
    v (onEach f l s) = v s := by
  unfold onEach
  induction l generalizing s with
  | nil => rfl
  | cons a rest ih =>
    obtain ⟨hne, hrest⟩ := not_or.mp (mt List.mem_cons.mpr h)
    exact (ih hrest (f a s)).trans (hf a s (Ne.symm hne))

theorem onEach_follows {f : PanelIx → State → State} (hf : ∀ panel s, PanelsFollow s (f panel s))
    (l : List PanelIx) (s : State) : PanelsFollow s (onEach f l s) :=
  foldl_keeps (P := PanelsFollow s) (fun z panel hz => hz.trans (hf panel z)) l s rfl

/-! #### Shedding -/

theorem shed_panel (panel p : PanelIx) (s : State) :
    (shed panel s).panels[p] = if panel = p then { s.panels[p] with state := .shed } else s.panels[p] :=
  Vec.update_get s.panels panel p _

theorem shed_position (panel : PanelIx) (p : PosIx) (s : State) :
    (shed panel s).boards.positions[p] = if panel = panelOf p then
      { s.boards.positions[p] with image := none, flash := 0, mismatchRun := 0, matchRun := 0 }
      else s.boards.positions[p] := by
  refine (onPositions_get _ _ p).trans ?_
  simp only [eq_comm]
  rfl

theorem shedEach_panel (l : List PanelIx) (p : PanelIx) (s : State) : (onEach shed l s).panels[p]
    = if p ∈ l then { s.panels[p] with state := .shed } else s.panels[p] :=
  onEach_view (·.panels[p]) p (fun x => { x with state := .shed }) (fun a z => shed_panel a p z) (fun _ => rfl) l s

theorem shedEach_position (l : List PanelIx) (p : PosIx) (s : State) : (onEach shed l s).boards.positions[p]
    = if panelOf p ∈ l then { s.boards.positions[p] with image := none, flash := 0, mismatchRun := 0, matchRun := 0 }
      else s.boards.positions[p] :=
  onEach_view (·.boards.positions[p]) (panelOf p)
    (fun x => { x with image := none, flash := 0, mismatchRun := 0, matchRun := 0 }) (fun a z => shed_position a p z)
    (fun _ => rfl) l s

theorem shedEach_repaint (l : List PanelIx) (s : State) :
    (onEach shed l s).boards.repaint = s.boards.repaint.filter (fun p => panelOf p ∉ l) := by
  unfold onEach
  induction l generalizing s with
  | nil => simp
  | cons a rest ih =>
    have hhead : (shed a s).boards.repaint = s.boards.repaint.filter (fun p => panelOf p != a) := rfl
    rw [List.foldl_cons, ih, hhead, List.filter_filter]
    refine List.filter_congr fun p _ => ?_
    simp [Bool.and_comm, bne, beq_eq_decide]

/-- R101: a shed overtakes the read of a position of the panel. -/
theorem shed_overtaken (panel : PanelIx) (s : State) : (shed panel s).verifier.overtaken = true ↔
    s.verifier.overtaken = true ∨ ∃ p, s.verifier.target = some p ∧ panelOf p = panel := by
  have hover : (shed panel s).verifier.overtaken
      = (s.verifier.overtaken || s.verifier.target.any (fun t => panelOf t == panel)) := by
    unfold shed
    cases ht : s.verifier.target <;> simp [ht]
  rw [hover, Bool.or_eq_true, Option.any_eq_true]
  simp only [beq_iff_eq]

theorem shedEach_overtaken (l : List PanelIx) (s : State) : (onEach shed l s).verifier.overtaken = true ↔
    s.verifier.overtaken = true ∨ ∃ p, s.verifier.target = some p ∧ panelOf p ∈ l := by
  unfold onEach
  induction l generalizing s with
  | nil => simp
  | cons a rest ih =>
    have htarget : (shed a s).verifier.target = s.verifier.target := rfl
    rw [List.foldl_cons, ih, shed_overtaken, htarget, or_assoc, ← exists_or]
    simp only [← and_or_left, List.mem_cons]

/-! #### Recovery -/

theorem recover_panel (x : Policy) (panel p : PanelIx) (s : State) :
    (recover x panel s).panels[p] = if panel = p then { s.panels[p] with state := x.recovered } else s.panels[p] := by
  cases x <;> exact Vec.update_get s.panels panel p _

theorem recoverHold_position (panel : PanelIx) (p : PosIx) (s : State) :
    (recover .hold panel s).boards.positions[p] = if panel = panelOf p then { s.boards.positions[p] with flash := 0 }
      else s.boards.positions[p] := by
  refine (onPositions_get _ _ p).trans ?_
  simp only [eq_comm]
  rfl

theorem recoverEach_panel (x : Policy) (l : List PanelIx) (p : PanelIx) (s : State) :
    (onEach (recover x) l s).panels[p] = if p ∈ l then { s.panels[p] with state := x.recovered } else s.panels[p] :=
  onEach_view (·.panels[p]) p (fun y => { y with state := x.recovered }) (fun a z => recover_panel x a p z)
    (fun _ => rfl) l s

theorem holdEach_position (l : List PanelIx) (p : PosIx) (s : State) : (onEach (recover .hold) l s).boards.positions[p]
    = if panelOf p ∈ l then { s.boards.positions[p] with flash := 0 } else s.boards.positions[p] :=
  onEach_view (·.boards.positions[p]) (panelOf p) (fun x => { x with flash := 0 })
    (fun a z => recoverHold_position a p z) (fun _ => rfl) l s

/-- R94: RESTORE leaves the position records, HOLD the queue and the verifier. -/
theorem restoreEach_positions (l : List PanelIx) (s : State) :
    (onEach (recover .restore) l s).boards.positions = s.boards.positions :=
  foldl_same (f := fun z panel => recover .restore panel z) (·.boards.positions) (fun _ _ => rfl) l s

theorem holdEach_repaint (l : List PanelIx) (s : State) : (onEach (recover .hold) l s).boards.repaint
    = s.boards.repaint :=
  foldl_same (f := fun z panel => recover .hold panel z) (·.boards.repaint) (fun _ _ => rfl) l s

theorem holdEach_verifier (l : List PanelIx) (s : State) : (onEach (recover .hold) l s).verifier = s.verifier :=
  foldl_same (f := fun z panel => recover .hold panel z) (·.verifier) (fun _ _ => rfl) l s

/-- Marks of one group of positions and then of another, all after the first, are the marks of both. -/
theorem Marked.trans {s u w : State} {P Q : PosIx → Prop} (h : Marked s P u) (k : Marked u Q w)
    (hp : u.panels = s.panels) (ht : u.verifier.target = s.verifier.target) (hlt : ∀ p q, P p → Q q → p < q) :
    Marked s (fun p => P p ∨ Q p) w := by
  obtain ⟨first, hq1, hs1, hm1⟩ := h.queue
  obtain ⟨second, hq2, hs2, hm2⟩ := k.queue
  have hunqueued : ∀ p, p ∉ u.boards.repaint ↔ p ∉ s.boards.repaint ∧ p ∉ first := fun p => by
    rw [hq1, List.mem_append, not_or]
  refine ⟨⟨first ++ second, by rw [hq2, hq1, List.append_assoc], ?_, fun p => ?_⟩, ?_⟩
  · refine List.pairwise_append.mpr ⟨hs1, hs2, fun p hp q hq => hlt p q ((hm1 p).mp hp).1 ((hm2 q).mp hq).1⟩
  · rw [List.mem_append, hm2, hunqueued, hm1, hp]
    tauto
  · rw [k.overtaken, h.overtaken, or_assoc, ← exists_or]
    refine or_congr_right (exists_congr fun p => ?_)
    rw [hunqueued, hm1, hp, ht]
    tauto

/-- Of the panels only those of the positions picked out count. -/
theorem Marked.panels {s z u : State} {P : PosIx → Prop} (h : Marked s P u)
    (hp : ∀ p : PosIx, P p → z.panels[panelOf p].state = s.panels[panelOf p].state)
    (hq : z.boards.repaint = s.boards.repaint) (ht : z.verifier.target = s.verifier.target)
    (ho : z.verifier.overtaken = s.verifier.overtaken) : Marked z P u where
  queue := by
    obtain ⟨added, happ, hsort, hmem⟩ := h.queue
    refine ⟨added, by rw [hq, happ], hsort, fun p => (hmem p).trans (and_congr_right fun hP => ?_)⟩
    rw [hp p hP, hq]
  overtaken := by
    rw [h.overtaken, ho, ht, hq]
    refine or_congr_right (exists_congr fun p => and_congr_right fun _ => and_congr_right fun hP => ?_)
    rw [hp p hP]

theorem Marked.none (s : State) : Marked s (fun _ => False) s where
  queue := ⟨[], by simp⟩
  overtaken := by simp

theorem panelOf_lt {p q : PosIx} (h : panelOf p < panelOf q) : p < q := by
  have hdiv : p.val / 64 < q.val / 64 := h
  exact Fin.lt_def.mpr (by omega)

/-- R94: a panel recovered under RESTORE is marked, its panel being LIVE by then. -/
theorem recoverRestore_marked (panel : PanelIx) (s : State) :
    Marked { s with panels := (recover .restore panel s).panels } (fun p => panelOf p = panel)
      (recover .restore panel s) :=
  ((mark_marked (panelPositions panel) (setPanel panel (fun p => { p with state := .live }) s)
    (panelPositions_sorted panel)).base rfl rfl rfl rfl).congr fun p => mem_panelPositions panel p

theorem recoverEach_marked {l : List PanelIx} (hl : l.Pairwise (· < ·)) (s : State) :
    Marked { s with panels := (onEach (recover .restore) l s).panels } (fun p => panelOf p ∈ l)
      (onEach (recover .restore) l s) := by
  induction l generalizing s with
  | nil => exact (Marked.none s).congr fun p => by simp
  | cons a rest ih =>
    obtain ⟨hhead, hrest⟩ := List.pairwise_cons.mp hl
    have hlast := ih hrest (recover .restore a s)
    have hsame : (onEach (recover .restore) rest (recover .restore a s)).panels[a]
        = (recover .restore a s).panels[a] :=
      (recoverEach_panel ..).trans (if_neg fun hm => lt_irrefl a (hhead a hm))
    have hfirst := (recoverRestore_marked a s).panels
      (z := { s with panels := (onEach (recover .restore) rest (recover .restore a s)).panels })
      (fun p hp => by subst hp; exact congrArg Panel.state hsame) rfl rfl rfl
    refine ((hfirst.result (w := { recover .restore a s with
      panels := (onEach (recover .restore) rest (recover .restore a s)).panels }) rfl rfl).trans hlast rfl rfl
      fun p q hp hq => panelOf_lt (hp ▸ hhead _ hq)).congr fun p => List.mem_cons.symm

/-! #### The change -/

/-- R89, R91: the state of the rail has become its candidate and RAIL CHANGE has latched. -/
def railTurned (rail : RailIx) (s : State) : State :=
  latch (.railChange rail) (setRail rail (fun r => { r with state := r.candidate, changeDue := false }) s)

theorem changeRail_due {rail : RailIx} {s : State} (h : s.rails[rail].changeDue = true) :
    changeRail rail s = onEach (railChanged s.rails[rail].state s.rails[rail].candidate s.params.policy[rail])
      (railPanels s rail) (railTurned rail s) := if_pos h

theorem changeRail_notDue {rail : RailIx} {s : State} (h : s.rails[rail].changeDue = false) : changeRail rail s = s :=
  if_neg (Bool.eq_false_iff.mp h)

/-- R91: a rail's change of state does not touch a panel of another rail, nor the positions of one. -/
theorem railChanged_otherPanel {panel p : PanelIx} (h : panel ≠ p) (before after : RailState) (x : Policy) (s : State) :
    (railChanged before after x panel s).panels[p] = s.panels[p] := by
  unfold railChanged
  split
  · exact (shed_panel ..).trans (if_neg h)
  · split
    · exact (recover_panel ..).trans (if_neg h)
    · rfl

theorem railChanged_otherPosition {panel : PanelIx} {p : PosIx} (h : panel ≠ panelOf p) (before after : RailState)
    (x : Policy) (s : State) : (railChanged before after x panel s).boards.positions[p] = s.boards.positions[p] := by
  unfold railChanged
  split
  · exact (shed_position ..).trans (if_neg h)
  · split
    · cases x with
      | restore => rfl
      | hold => exact (recoverHold_position ..).trans (if_neg h)
    · rfl

/-- Settles O38: by whether a change is due, and then by the states between which the rail moves. -/
theorem railStateChanges : Obligations.RailStateChanges := by
  rintro rail s r hpor rfl
  refine ⟨fun hnot => powered_same (changeRail_notDue hnot), fun hdue => ?_⟩
  have hexec := (powered_eq (f := changeRail rail) hpor).trans (congrArg _ (changeRail_due hdue))
  refine ⟨_, hexec, ?_, fun panel hother => ?_, fun p hother => ?_, fun hsame => ?_, fun hb ha => ?_, fun hb ha hx => ?_,
    fun hb ha hx => ?_⟩
  · exact onEach_follows (railChanged_follows _ _ _) (railPanels s rail) (railTurned rail s)
  · exact onEach_untouched (·.panels[panel]) panel (fun _ z hne => railChanged_otherPanel hne _ _ _ z)
      (mt mem_railPanels.mp hother) _
  · exact onEach_untouched (·.boards.positions[p]) (panelOf p)
      (fun _ z hne => railChanged_otherPosition hne _ _ _ z) (mt mem_railPanels.mp hother) _
  · have hid : onEach (railChanged s.rails[rail].state s.rails[rail].candidate s.params.policy[rail])
        (railPanels s rail) (railTurned rail s) = railTurned rail s :=
      foldl_same (f := fun z panel => railChanged _ _ _ panel z) id (fun z panel => railChanged_same hsame _ panel z) _ _
    rw [hid]
    exact ⟨rfl, rfl, rfl⟩
  · rw [railChanged_sheds hb ha]
    refine ⟨fun panel hrail => ?_, fun p hrail => ?_, ?_, ?_⟩
    · exact (shedEach_panel ..).trans (if_pos (mem_railPanels.mpr hrail))
    · exact (shedEach_position ..).trans (if_pos (mem_railPanels.mpr hrail))
    · rw [shedEach_repaint]
      simp only [mem_railPanels]
      rfl
    · rw [shedEach_overtaken]
      simp only [mem_railPanels]
      rfl
  · rw [railChanged_recovers hb ha, hx]
    refine ⟨fun panel hrail => ?_, restoreEach_positions .., ?_⟩
    · exact (recoverEach_panel ..).trans (if_pos (mem_railPanels.mpr hrail))
    · have hmarked := (recoverEach_marked (railPanels_sorted s rail) (railTurned rail s)).congr fun p => mem_railPanels
      exact hmarked.base rfl rfl rfl rfl
  · rw [railChanged_recovers hb ha, hx]
    refine ⟨fun panel hrail => ?_, fun p hrail => ?_, holdEach_repaint .., holdEach_verifier ..⟩
    · exact (recoverEach_panel ..).trans (if_pos (mem_railPanels.mpr hrail))
    · exact (holdEach_position ..).trans (if_pos (mem_railPanels.mpr hrail))

end Sys2Proof.Machine

/-! ### SET PARAMETER and READ PARAMETER (R85, R95, R99, R130, R167) -/

namespace Sys2Proof.Machine

/-! #### The table of the parameters -/

theorem parameterTable_length : parameterTable.length = 52 := rfl

/-- R167: the numbers that are not in the table. -/
theorem parameterOf_none {n : Nat} (h : n < 1 ∨ 52 < n) : parameterOf n = none := by
  cases n with
  | zero => rfl
  | succ m => exact List.getElem?_eq_none (by rw [parameterTable_length]; omega)

theorem Policy.code_eq (x : Policy) : x.code = if x = .restore then 0 else 1 := by cases x <;> rfl

theorem Params.value_policy (p : Params) (rail : RailIx) :
    p.value (.policy rail) = if p.policy[rail] = .restore then 0 else 1 := Policy.code_eq _

/-- R175: a field of one byte, written back. -/
theorem byte_field_one (b : List Byte) (n : Nat) : byte (field b n 1) = byteAt b n := by
  rw [field_one, byte, BitVec.ofNat_toNat, BitVec.setWidth_eq]

/-! #### What a write makes of the parameter set -/

/-- R130: the five thresholds are within their ranges and meet the conditions. -/
theorem Thresholds.fit_iff {t : Thresholds} : t.fit = true ↔ ThresholdsLaw t := by
  simp only [Thresholds.fit, Bool.and_eq_true, decide_eq_true_eq]
  constructor
  · rintro ⟨⟨⟨⟨⟨⟨⟨hec, heb⟩, hlc⟩, hlb⟩, hk⟩, h1⟩, h2⟩, h3⟩
    exact ⟨hec, heb, hlc, hlb, hk, h1, h2, h3⟩
  · rintro ⟨hec, heb, hlc, hlb, hk, h1, h2, h3⟩
    exact ⟨⟨⟨⟨⟨⟨⟨hec, heb⟩, hlc⟩, hlb⟩, hk⟩, h1⟩, h2⟩, h3⟩

/-- A tape's thresholds replaced. -/
def Params.putThresholds (p : Params) (x : AB) (t : Thresholds) : Params :=
  { p with thresholds := p.thresholds.put x t }

/-- R167: the parameter set with the value held for the parameter. -/
def Params.put (p : Params) (q : Parameter) (v : Nat) : Params :=
  match q with
  | .quietLimit => { p with quietLimit := v }
  | .flashCount => { p with flashCount := v }
  | .blinkPeriod x => { p with blinkPeriod := p.blinkPeriod.put x v }
  | .litPart x => { p with litPart := p.litPart.put x v }
  | .settleTime => { p with settleTime := v }
  | .sagCeiling => { p with sagCeiling := v }
  | .brightness rail => { p with brightness := p.brightness.set rail v }
  | .policy rail => { p with policy := p.policy.set rail (if v = 0 then .restore else .hold) }
  | .panelRail panel => { p with panelRail := p.panelRail.set panel (Fin.ofNat 4 v) }
  | .verifyEnable => { p with verifyEnable := v == 1 }
  | .verifyGap => { p with verifyGap := v }
  | .failThreshold => { p with failThreshold := v }
  | .clearThreshold => { p with clearThreshold := v }
  | .stepPeriod x => { p with stepPeriod := p.stepPeriod.put x v }
  | .ec x => p.putThresholds x { p.thresholds.get x with ec := v }
  | .eb x => p.putThresholds x { p.thresholds.get x with eb := v }
  | .lc x => p.putThresholds x { p.thresholds.get x with lc := v }
  | .lb x => p.putThresholds x { p.thresholds.get x with lb := v }
  | .k x => p.putThresholds x { p.thresholds.get x with k := v }
  | .replyWindow => { p with replyWindow := v }
  | .absentThreshold => { p with absentThreshold := v }
  | .probeSpacing => { p with probeSpacing := v }
  | .mask => { p with mask := flagsOf v }

theorem inRange_zero (hi v : Nat) (p : Params) : inRange 0 hi v p = if v ≤ hi then some p else none := by
  simp [inRange]

/-- R85: the four periods of a blink timer. -/
theorem blinkPeriodFits_iff {v : Nat} : blinkPeriodFits v = true ↔ v = 250 ∨ v = 500 ∨ v = 1000 ∨ v = 2000 := by
  simp [blinkPeriodFits, or_assoc]

theorem placeOf_four {v : Nat} (h : v ≤ 3) : placeOf v 4 = some (Fin.ofNat 4 v) :=
  placeOf_val (Nat.mod_eq_of_lt (by omega)).symm

/-- R167: a value that fits is held. -/
theorem Params.write_fits {p : Params} {q : Parameter} {v : Nat} (h : ValueFits p q v) :
    p.write q v = some (p.put q v) := by
  cases q with
  | quietLimit | flashCount | litPart | brightness | verifyEnable | verifyGap =>
    exact (inRange_zero ..).trans (if_pos h)
  | settleTime | sagCeiling | failThreshold | clearThreshold | stepPeriod | replyWindow | absentThreshold
  | probeSpacing => exact if_pos h
  | blinkPeriod => exact if_pos (blinkPeriodFits_iff.mpr h)
  | policy rail =>
    have hv : v = 0 ∨ v = 1 := Nat.le_one_iff_eq_zero_or_eq_one.mp h
    rcases hv with rfl | rfl <;> rfl
  | panelRail panel => exact congrArg (Option.map _) (placeOf_four h)
  | ec | eb | lc | lb | k => exact if_pos (Thresholds.fit_iff.mpr h)
  | mask => rfl

/-- R130, R167: any other value is refused. -/
theorem Params.write_unfit {p : Params} {q : Parameter} {v : Nat} (h : ¬ ValueFits p q v) : p.write q v = none := by
  cases q with
  | quietLimit | flashCount | litPart | brightness | verifyEnable | verifyGap =>
    exact (inRange_zero ..).trans (if_neg h)
  | settleTime | sagCeiling | failThreshold | clearThreshold | stepPeriod | replyWindow | absentThreshold
  | probeSpacing => exact if_neg h
  | blinkPeriod => exact if_neg (mt blinkPeriodFits_iff.mp h)
  | policy rail =>
    have hv : 1 < v := Nat.not_le.mp h
    exact (if_neg (by omega)).trans (if_neg (by omega))
  | panelRail panel =>
    have hv : 3 < v := Nat.not_le.mp h
    exact congrArg (Option.map _) (placeOf_none hv)
  | ec | eb | lc | lb | k => exact if_neg (mt Thresholds.fit_iff.mp h)
  | mask => exact absurd trivial h

theorem Vec.set_get_same {α : Type} {n : Nat} (v : Vector α n) (i : Fin n) (x : α) : (v.set i x)[i] = x := by
  rw [Vec.set_get, if_pos rfl]

theorem Vec.set_get_ne {α : Type} {n : Nat} (v : Vector α n) {i j : Fin n} (x : α) (h : i ≠ j) :
    (v.set i x)[j] = v[j] := by
  rw [Vec.set_get, if_neg h]

/-- R167: what is held for the parameter after the write. -/
theorem Params.put_value {p : Params} {q : Parameter} {v : Nat} (h : ValueFits p q v) :
    (p.put q v).value q = if q = .mask then v % 2 ^ 30 else v := by
  cases q with
  | quietLimit | flashCount | settleTime | sagCeiling | verifyGap | failThreshold | clearThreshold | replyWindow
  | absentThreshold | probeSpacing => rfl
  | blinkPeriod | litPart | stepPeriod => exact Pair.get_put_same ..
  | brightness => exact Vec.set_get_same ..
  | policy rail =>
    have hput : (p.put (.policy rail) v).policy[rail] = if v = 0 then .restore else .hold := Vec.set_get_same ..
    have hv : v = 0 ∨ v = 1 := Nat.le_one_iff_eq_zero_or_eq_one.mp h
    rw [Params.value_policy, hput]
    rcases hv with rfl | rfl <;> rfl
  | panelRail panel =>
    have hv : v ≤ 3 := h
    exact (congrArg Fin.val (Vec.set_get_same ..)).trans (Nat.mod_eq_of_lt (by omega))
  | verifyEnable =>
    have hv : v = 0 ∨ v = 1 := Nat.le_one_iff_eq_zero_or_eq_one.mp h
    rcases hv with rfl | rfl <;> rfl
  | ec => exact congrArg Thresholds.ec (Pair.get_put_same ..)
  | eb => exact congrArg Thresholds.eb (Pair.get_put_same ..)
  | lc => exact congrArg Thresholds.lc (Pair.get_put_same ..)
  | lb => exact congrArg Thresholds.lb (Pair.get_put_same ..)
  | k => exact congrArg Thresholds.k (Pair.get_put_same ..)
  | mask => exact BitVec.toNat_ofNat v 30

/-- R130: an item of the thresholds that a replacement leaves alike. -/
theorem Params.putThresholds_item (p : Params) {x : AB} {t : Thresholds} (item : Thresholds → Nat) (y : AB)
    (h : x = y → item t = item (p.thresholds.get x)) :
    item ((p.putThresholds x t).thresholds.get y) = item (p.thresholds.get y) := by
  rw [Params.putThresholds, Pair.get_put]
  split
  · next hxy => rw [h hxy, hxy]
  · rfl

/-- R167: a write leaves every other parameter: two parameters are held in different items, or in different places of
one item. -/
theorem Params.put_other (p : Params) {q q' : Parameter} (v : Nat) (h : q' ≠ q) : (p.put q v).value q' = p.value q' := by
  cases q <;> cases q'
  case quietLimit.quietLimit | flashCount.flashCount | settleTime.settleTime | sagCeiling.sagCeiling
    | verifyEnable.verifyEnable | verifyGap.verifyGap | failThreshold.failThreshold | clearThreshold.clearThreshold
    | replyWindow.replyWindow | absentThreshold.absentThreshold | probeSpacing.probeSpacing | mask.mask =>
    exact absurd rfl h
  case blinkPeriod.blinkPeriod | litPart.litPart | stepPeriod.stepPeriod =>
    exact Pair.get_put_ne _ _ fun e => h (e ▸ rfl)
  case brightness.brightness => exact Vec.set_get_ne _ _ fun e => h (e ▸ rfl)
  case policy.policy => exact congrArg Policy.code (Vec.set_get_ne _ _ fun e => h (e ▸ rfl))
  case panelRail.panelRail => exact congrArg Fin.val (Vec.set_get_ne _ _ fun e => h (e ▸ rfl))
  case ec.ec => exact p.putThresholds_item Thresholds.ec _ fun e => absurd (congrArg _ e.symm) h
  case eb.eb => exact p.putThresholds_item Thresholds.eb _ fun e => absurd (congrArg _ e.symm) h
  case lc.lc => exact p.putThresholds_item Thresholds.lc _ fun e => absurd (congrArg _ e.symm) h
  case lb.lb => exact p.putThresholds_item Thresholds.lb _ fun e => absurd (congrArg _ e.symm) h
  case k.k => exact p.putThresholds_item Thresholds.k _ fun e => absurd (congrArg _ e.symm) h
  case eb.ec | lc.ec | lb.ec | k.ec => exact p.putThresholds_item Thresholds.ec _ fun _ => rfl
  case ec.eb | lc.eb | lb.eb | k.eb => exact p.putThresholds_item Thresholds.eb _ fun _ => rfl
  case ec.lc | eb.lc | lb.lc | k.lc => exact p.putThresholds_item Thresholds.lc _ fun _ => rfl
  case ec.lb | eb.lb | lc.lb | k.lb => exact p.putThresholds_item Thresholds.lb _ fun _ => rfl
  case ec.k | eb.k | lc.k | lb.k => exact p.putThresholds_item Thresholds.k _ fun _ => rfl
  all_goals rfl

end Sys2Proof.Machine

namespace Sys2Proof.Machine

/-! #### What the owner of a parameter does with a write -/

/-- R85, R95, R99: the owners that act on a write. -/
theorem parameterWritten_plain {q : Parameter} (htimer : ∀ x, q ≠ .blinkPeriod x ∧ q ≠ .litPart x)
    (hpanel : ∀ panel, q ≠ .panelRail panel) (henable : q ≠ .verifyEnable) (old : Params) (s : State) :
    parameterWritten q old s = s := by
  cases q
  case blinkPeriod x => exact absurd rfl (htimer x).1
  case litPart x => exact absurd rfl (htimer x).2
  case panelRail panel => exact absurd rfl (hpanel panel)
  case verifyEnable => exact absurd rfl henable
  all_goals rfl

/-- R85: a blink timer restarts with a period start. -/
theorem parameterWritten_timer {q : Parameter} {x : AB} (h : q = .blinkPeriod x ∨ q = .litPart x) (old : Params)
    (s : State) : parameterWritten q old s = periodStarted x (setTimerStart x s.time s) := by
  rcases h with rfl | rfl <;> rfl

/-- R95: a panel is shed or recovered by the state of its new rail. -/
theorem reassignPanel_eq {panel : PanelIx} {rail : RailIx} {s : State} (hrail : s.params.panelRail[panel] = rail) :
    reassignPanel panel s = if s.rails[rail].state = .fail then
        (if s.panels[panel].state = .shed then s else shed panel s)
      else if s.panels[panel].state = .shed then recover s.params.policy[rail] panel s else s := by
  subst hrail
  unfold reassignPanel
  cases s.panels[panel].state <;> rfl

theorem parameterWritten_panelRail {panel : PanelIx} {rail : RailIx} {s : State}
    (hrail : s.params.panelRail[panel] = rail) (old : Params) :
    parameterWritten (.panelRail panel) old s = if old.panelRail[panel] = rail then s else reassignPanel panel s := by
  subst hrail
  rfl

theorem Params.put_panelRail (p : Params) {panel : PanelIx} {rail : RailIx} {v : Nat} (h : rail.val = v) :
    (p.put (.panelRail panel) v).panelRail[panel] = rail := by
  subst h
  exact (Vec.set_get_same ..).trans (Fin.ext (Nat.mod_eq_of_lt rail.isLt))

/-- The verifier's phase replaced. -/
def setPhase (x : VerifierPhase) (s : State) : State := { s with verifier := { s.verifier with phase := x } }

theorem setPhase_same {x : VerifierPhase} {s : State} (h : s.verifier.phase = x) : setPhase x s = s := by
  subst h
  rfl

/-- R99: the phase in which a gap begins. -/
def gapPhase (s : State) : VerifierPhase :=
  if s.params.verifyGap = 0 then .ready else .waiting s.time s.params.verifyGap

theorem beginGap_eq (s : State) : beginGap s = setPhase (gapPhase s) s := rfl

/-- R99: what a change of verify enable does to the phase. -/
theorem verifyEnableChanged_eq (s : State) : verifyEnableChanged s = setPhase
    (if s.params.verifyEnable = true then (if s.verifier.phase = .idle then gapPhase s else s.verifier.phase)
      else if s.verifier.phase ≠ .reading then .idle else s.verifier.phase) s := by
  unfold verifyEnableChanged
  cases hen : s.params.verifyEnable <;> cases hph : s.verifier.phase
  case true.idle => exact beginGap_eq s
  case true.waiting | true.ready | true.reading => exact (setPhase_same hph).symm
  case false.idle | false.reading => exact (setPhase_same hph).symm
  case false.waiting | false.ready => rfl

/-- R99: what a write of verify enable does to the phase. -/
theorem parameterWritten_verifyEnable (old : Params) (s : State) : parameterWritten .verifyEnable old s = setPhase
    (if s.params.verifyEnable = true ∧ old.verifyEnable = false ∧ s.verifier.phase = .idle then gapPhase s
      else if s.params.verifyEnable = false ∧ old.verifyEnable = true ∧ s.verifier.phase ≠ .reading then .idle
      else s.verifier.phase) s := by
  have hsplit : parameterWritten .verifyEnable old s
      = if old.verifyEnable = s.params.verifyEnable then s else verifyEnableChanged s := rfl
  rw [hsplit, verifyEnableChanged_eq]
  cases hold : old.verifyEnable <;> cases hnew : s.params.verifyEnable
  case false.false | true.true => simp [setPhase_same]
  case false.true | true.false => simp

/-! #### The commands -/

section

variable {b : List Byte}

theorem applyReadParameter_unlisted (h : parameterOf (field b 0 1) = none) (s : State) :
    applyReadParameter b s = refuse .range s := by
  simp only [applyReadParameter, h]

theorem applySetParameter_unlisted (h : parameterOf (field b 0 1) = none) (s : State) :
    applySetParameter b s = refuse .range s := by
  simp only [applySetParameter, h]

variable {q : Parameter} (hq : parameterOf (field b 0 1) = some q)
include hq

theorem applyReadParameter_listed (s : State) :
    applyReadParameter b s = (s, ⟨.ok, byteAt b 0 :: beBytes 4 (s.params.value q)⟩) := by
  simp only [applyReadParameter, hq, parameterAnswer, byte_field_one]

theorem applySetParameter_unfit {s : State} (h : ¬ ValueFits s.params q (field b 1 4)) :
    applySetParameter b s = refuse .range s := by
  simp only [applySetParameter, hq, Params.write_unfit h]

theorem applySetParameter_fits {s : State} (h : ValueFits s.params q (field b 1 4)) :
    applySetParameter b s = (parameterWritten q s.params { s with params := s.params.put q (field b 1 4) },
      ⟨.ok, byteAt b 0 :: beBytes 4 ((s.params.put q (field b 1 4)).value q)⟩) := by
  simp only [applySetParameter, hq, Params.write_fits h, parameterAnswer, byte_field_one]

end

/-- Settles O56: the table by its numbers, the refusals by `parameterOf_none` and `ValueFits`, a write that is accepted
by what `Params.put` holds and by what the owner of the parameter does. -/
theorem parametersSetAndRead : Obligations.ParametersSetAndRead := by
  refine ⟨⟨by decide, by decide, by decide, by decide, ?_, by decide⟩, ?_, fun f s h hlen => ?_, ?_⟩
  · rintro x first rfl
    cases x <;> decide
  · intro p q
    cases q
    case policy rail => exact p.value_policy rail
    all_goals rfl
  · have hfit : Kind.readParameter.lengthFits f.body.length = true := by simp [Kind.lengthFits, hlen]
    refine ⟨fun hr => ?_, fun q hq => ?_⟩
    · exact command_refused (k := .readParameter) h hfit (applyReadParameter_unlisted (parameterOf_none hr) _)
    · exact command_accepted (k := .readParameter) h hfit (applyReadParameter_listed hq (removeHead s))
  · rintro f s v h hlen rfl
    have hfit : Kind.setParameter.lengthFits f.body.length = true := by simp [Kind.lengthFits, hlen]
    refine ⟨fun hr => ?_, fun q hq => ⟨fun hunfit => ?_, fun hfits => ?_⟩⟩
    · exact command_refused (k := .setParameter) h hfit (applySetParameter_unlisted (parameterOf_none hr) _)
    · exact command_refused (k := .setParameter) h hfit (applySetParameter_unfit (s := removeHead s) hq hunfit)
    · refine ⟨_, _, command_accepted (k := .setParameter) h hfit (applySetParameter_fits (s := removeHead s) hq hfits),
        Params.put_value hfits, fun q' hne => Params.put_other _ _ hne, fun htimer hpanel henable => ?_,
        fun x hx z hz => ?_, ?_, ?_⟩
      · exact parameterWritten_plain htimer hpanel henable _ _
      · rw [parameterWritten_timer hx]
        refine ⟨?_, ?_⟩
        · rintro rfl
          exact congrArg lowerFlashes hz.symm
        · rintro rfl
          exact hz.symm
      · rintro panel rfl z rfl
        have hput : ∀ rail : RailIx, rail.val = field f.body 1 4 →
            (s.params.put (.panelRail panel) (field f.body 1 4)).panelRail[panel] = rail :=
          fun _ => Params.put_panelRail _
        refine ⟨fun hsame => ?_, fun hdiff rail hrail => ?_⟩
        · exact (parameterWritten_panelRail (hput _ hsame) _).trans (if_pos rfl)
        · have hmoved : s.params.panelRail[panel] ≠ rail := fun e => hdiff (e ▸ hrail)
          have heff := ((parameterWritten_panelRail (s := { removeHead s with
            params := s.params.put (.panelRail panel) (field f.body 1 4) }) (hput rail hrail) s.params).trans
            (if_neg hmoved)).trans (reassignPanel_eq (hput rail hrail))
          refine ⟨fun hfail hshed => ?_, fun hfail hshed => ?_, fun hfail hshed => ?_, fun hfail hshed => ?_⟩
          · exact heff.trans ((if_pos hfail).trans (if_pos hshed))
          · exact heff.trans ((if_pos hfail).trans (if_neg hshed))
          · exact heff.trans ((if_neg hfail).trans (if_pos hshed))
          · exact heff.trans ((if_neg hfail).trans (if_neg hshed))
      · rintro rfl
        exact parameterWritten_verifyEnable s.params _

end Sys2Proof.Machine

/-! ### READ STATUS and CLEAR CONDITIONS (R112, R119, R135, R147, R168, R170, R175) -/

namespace Sys2Proof.Machine

/-! #### The items of the sections -/

/-- R168: the number of the non-FREE slots. -/
theorem occupiedSlots_length (s : State) :
    (occupiedSlots s).length = ((List.finRange 2048).filter (fun i => s.records[i] ≠ none)).length := by
  rw [occupiedSlots, Vec.select_eq_filter]
  refine congrArg List.length (List.filter_congr fun i _ => Bool.eq_iff_iff.mpr ?_)
  rw [Option.isSome_iff_ne_none, decide_eq_true_iff]

/-- R119: the shares summed over a tape's entries. -/
theorem tapePendingShares_foldl {s : State} {entry : SlotIx → Option PendingPrint}
    (h : ∀ i, entry i = s.records[i].bind (·.pending)) (x : AB) : tapePendingShares x s
      = (s.tapes.get x).prints.foldl (fun sum i => sum + ((entry i).map (·.shares)).getD 0) (0 : Word32) := by
  have hshares : pendingShares s = fun i => ((entry i).map (·.shares)).getD 0 := by
    funext i
    rw [h, pendingShares]
    cases s.records[i] with
    | none => rfl
    | some r => cases hp : r.pending <;> simp [hp]
  rw [tapePendingShares, List.foldl_map, hshares]

/-- R119, R135: the oldest joined time of a tape's list. -/
theorem oldestJoined_eq {s : State} {entry : SlotIx → Option PendingPrint}
    (h : ∀ i, entry i = s.records[i].bind (·.pending)) (x : AB) :
    oldestJoined x s = ((s.tapes.get x).prints.head?.bind entry).map (·.joined) := by
  unfold oldestJoined
  cases (s.tapes.get x).prints with
  | nil => rfl
  | cons i rest => exact (congrArg (Option.map (·.joined)) (h i)).symm

/-- R175: a joined time with its presence byte. -/
theorem withPresence_joined (o : Option PendingPrint) :
    withPresence 4 ((o.map (·.joined)).map (·.toNat)) = (match o with
      | none => [0, 0, 0, 0, 0]
      | some p => 1 :: beBytes 4 p.joined.toNat) := by
  cases o <;> rfl

theorem beBytes_one (n : Nat) : beBytes 1 n = [byte n] := by simp [beBytes, byte]

/-- R175: a page number of one byte that may be none. -/
theorem orNone_page (page : Option PageIx) : orNone 1 (page.map (·.val)) = [pageByte page] := by
  cases page with
  | none => rfl
  | some n => exact beBytes_one n.val

/-- R175: a drop of one byte that may be none. -/
theorem orNone_drop (visit : Option Visit) : orNone 1 (visit.map (·.drop.val)) = [match visit with
    | none => 0xFF
    | some v => byte v.drop.val] := by
  cases visit with
  | none => rfl
  | some v => exact beBytes_one v.drop.val

/-- R65: how many positions of a panel have a switch pending. -/
theorem switchesPending_eq (s : State) (panel : PanelIx) : switchesPending s panel
    = ((List.finRange 1024).filter
        (fun p => decide (panelOf p = panel) && s.boards.positions[p].switchPending)).length := by
  rw [switchesPending, Vec.select_eq_filter]
  simp only [beq_eq_decide]

/-- R97: how many positions of a panel are in a verify state. -/
theorem verifyCount_eq (s : State) (panel : PanelIx) (v : VerifyState) : verifyCount s panel v
    = ((List.finRange 1024).filter
        (fun p => decide (panelOf p = panel ∧ s.boards.positions[p].verify = v))).length := by
  rw [verifyCount, Vec.select_eq_filter]
  simp only [beq_eq_decide, Bool.decide_and]

/-- R138, R147: a line is IDLE or IN ROUND. -/
theorem Round.code_eq (r : Round) : r.code = if decide (r ≠ .idle) = true then 1 else 0 := by
  cases r <;> rfl

theorem Vec.flatMap_toList {α β : Type} {n : Nat} (v : Vector α n) (f : α → List β) :
    v.toList.flatMap f = (List.finRange n).flatMap (fun i => f v[i]) := by
  have hlist : v.toList = (List.finRange n).map (fun i => v[i]) := by
    refine List.ext_getElem (by simp) fun k hk _ => ?_
    simp
  rw [hlist, List.flatMap_map]

/-! #### The commands -/

section

variable {b : List Byte} (s : State)

theorem byteAt_eq {n k : Nat} (h : field b n 1 = k) : byteAt b n = byte k := by rw [← h, byte_field_one]

theorem applyReadStatus_general (h : field b 0 1 = 0) : applyReadStatus b s
    = (if flagAt b 1 0 then clearCounters s else s, ⟨.ok, generalSection s⟩) := if_pos (byteAt_eq h)

theorem applyReadStatus_tapes (h : field b 0 1 = 1) : applyReadStatus b s
    = (if flagAt b 1 0 then clearBacklogMaxima s else s, ⟨.ok, tapesSection s⟩) := by
  unfold applyReadStatus
  rw [byteAt_eq h] <;> rfl

theorem applyReadStatus_panels (h : field b 0 1 = 2) : applyReadStatus b s = (s, ⟨.ok, panelsSection s⟩) := by
  unfold applyReadStatus
  rw [byteAt_eq h] <;> rfl

theorem applyReadStatus_terminals (h : field b 0 1 = 3) : applyReadStatus b s = (s, ⟨.ok, terminalsSection s⟩) := by
  unfold applyReadStatus
  rw [byteAt_eq h] <;> rfl

theorem applyReadStatus_range (h : 3 < field b 0 1) : applyReadStatus b s = refuse .range s := by
  have hne : ∀ x : Byte, x.toNat ≤ 3 → byteAt b 0 ≠ x := fun x hx he => by
    rw [field_one, he] at h
    omega
  exact (if_neg (hne 0 (by decide))).trans ((if_neg (hne 1 (by decide))).trans ((if_neg (hne 2 (by decide))).trans
    (if_neg (hne 3 (by decide)))))

end

/-- Settles O57: section by section, item by item. -/
theorem statusReadAndConditionsCleared : Obligations.StatusReadAndConditionsCleared := by
  refine ⟨?_, ?_⟩
  · rintro f s clear h hlen rfl yes two four orNoPage count hyes rfl rfl hpage hcount
    have hfit : Kind.readStatus.lengthFits f.body.length = true := by simp [Kind.lengthFits, hlen]
    have hyesNo : ∀ b, yesNo b = [yes b] := fun b => by rw [hyes]; rfl
    refine ⟨fun hr => ?_, fun hsec => ?_, fun hsec entry items hentry hitems => ?_,
      fun hsec panelItems railItems hpanel hrail => ?_, fun hsec lineItems terminalItems hline hterminal => ?_⟩
    · exact command_refused (k := .readStatus) h hfit (applyReadStatus_range _ hr)
    · refine ⟨if flagAt f.body 1 0 then clearCounters (removeHead s) else removeHead s, ?_,
        fun hc => if_neg (Bool.eq_false_iff.mp hc), fun hc => if_pos hc⟩
      refine (command_accepted (k := .readStatus) h hfit (applyReadStatus_general (removeHead s) hsec)).trans ?_
      have hslots : (occupiedSlots (removeHead s)).length = _ := occupiedSlots_length (removeHead s)
      simp only [generalSection, hslots, hyesNo, removeHead_feed, List.length_tail] <;> rfl
    · have hitem : ∀ x, tapeSection (removeHead s) x = items x := fun x => by
        have hshares : tapePendingShares x (removeHead s) = _ := tapePendingShares_foldl hentry x
        have holdest : oldestJoined x (removeHead s) = _ := oldestJoined_eq hentry x
        simp only [tapeSection, hshares, holdest, withPresence_joined, hyesNo, hitems, List.append_assoc,
          List.cons_append, List.nil_append] <;> rfl
      have hstate : (if flagAt f.body 1 0 = true then clearBacklogMaxima (removeHead s) else removeHead s)
          = { removeHead s with tapes := if flagAt f.body 1 0 = true then
              ⟨{ s.tapes.a with backlogMax := s.tapes.a.prints.length },
                { s.tapes.b with backlogMax := s.tapes.b.prints.length }⟩
            else s.tapes } := by
        cases flagAt f.body 1 0 <;> rfl
      rw [← hstate, ← hitem, ← hitem]
      exact command_accepted (k := .readStatus) h hfit (applyReadStatus_tapes (removeHead s) hsec)
    · have hpanels : panelSection (removeHead s) = panelItems := funext fun panel => by
        have hpageByte : ∀ page, orNone 1 (page.map (·.val)) = [orNoPage page] := fun page => by
          rw [orNone_page, hpage]
          cases page <;> rfl
        simp only [panelSection, hpageByte, switchesPending_eq, verifyCount_eq, hpanel, hcount] <;> rfl
      have hrails : (fun rail : RailIx => [(removeHead s).rails[rail].state.code, byte (railDuty (removeHead s) rail)])
          = railItems := funext fun rail => by
        rw [railDuty_eq, hrail]
        cases hst : s.rails[rail].state <;> simp only [removeHead_rails, removeHead_params, hst]
      have hlast : positionBytes (removeHead s).verifier.lastFailed = (match s.verifier.lastFailed with
          | none => [0xFF, 0xFF]
          | some p => [byte (p.val / 64), byte (p.val % 64)]) := by
        rw [removeHead_verifier]
        cases s.verifier.lastFailed <;> rfl
      refine (command_accepted (k := .readStatus) h hfit (applyReadStatus_panels (removeHead s) hsec)).trans ?_
      rw [panelsSection, hpanels, hrails, hlast] <;> rfl
    · have hlines : lineSection (removeHead s) = lineItems := funext fun line => by
        simp only [lineSection, Round.code_eq, orNone_drop, hline, hyes] <;> rfl
      have hterminals : (fun t : TermIx => terminalSection (removeHead s).terminals[t]) = terminalItems :=
        funext fun t => by
          simp only [terminalSection, hyesNo, hterminal] <;> rfl
      have hsection : terminalsSection (removeHead s)
          = (List.finRange 4).flatMap lineItems ++ (List.finRange 32).flatMap terminalItems := by
        rw [terminalsSection, Vec.flatMap_toList, hlines, hterminals]
      rw [← hsection]
      exact command_accepted (k := .readStatus) h hfit (applyReadStatus_terminals (removeHead s) hsec)
  · rintro f s latched h hlen rfl
    have hfit : Kind.clearConditions.lengthFits f.body.length = true := by simp [Kind.lengthFits, hlen]
    exact command_accepted (k := .clearConditions) h hfit rfl

end Sys2Proof.Machine

/-! ### The output lines (R85, R86, R122, R163, R169) -/

namespace Sys2Proof.Machine

/-- R163: READY while at least 2 of the 8 places are free. -/
theorem ready_iff {s : State} (h : s.por = false) : s.ready = true ↔ s.feed.inbound.length + 2 ≤ 8 := by
  simp only [State.ready, h, Bool.not_false, Bool.true_and, decide_eq_true_eq] <;> rfl

/-- R169: ATTENTION while a latched condition is enabled in the mask. -/
theorem attention_iff {s : State} (h : s.por = false) : s.attention = true ↔
    ∃ n, n < 30 ∧ s.feed.latched.getLsbD n = true ∧ s.params.mask.getLsbD n = true := by
  simp only [State.attention, h, Bool.not_false, Bool.true_and, bne_iff_ne]
  constructor
  · intro hne
    by_contra hnone
    refine hne (BitVec.eq_of_getLsbD_eq fun n hn => ?_)
    rw [BitVec.getLsbD_and, show (0 : Flags30).getLsbD n = false from BitVec.getLsbD_zero, Bool.and_eq_false_iff]
    by_contra hboth
    simp only [not_or, Bool.not_eq_false] at hboth
    exact hnone ⟨n, hn, hboth⟩
  · rintro ⟨n, -, hlatched, hmask⟩ hzero
    have hbit := congrArg (BitVec.getLsbD · n) hzero
    simp [BitVec.getLsbD_and, hlatched, hmask] at hbit

/-- R85: a phase line by its lit part. -/
theorem phaseLit_iff {s : State} {x : AB} : phaseLit s x = true ↔ 8 ≤ s.params.litPart.get x ∨
    8 * (10 * elapsed s.time (s.boards.timerStart.get x)) < s.params.litPart.get x * s.params.blinkPeriod.get x := by
  simp only [phaseLit, Bool.or_eq_true, decide_eq_true_eq] <;> rfl

/-! #### The outputs of the ribbons -/

/-- R122: the ribbon's character output and its strobes are alike. -/
def SameOutput (x : AB) (s t : State) : Prop :=
  (t.ribbons.get x).charOut = (s.ribbons.get x).charOut ∧ (t.ribbons.get x).strobes = (s.ribbons.get x).strobes

section

variable {x : AB} {s t u : State}

theorem SameOutput.trans (h : SameOutput x s t) (k : SameOutput x t u) : SameOutput x s u :=
  ⟨k.1.trans h.1, k.2.trans h.2⟩

theorem SameOutput.of_ribbons (h : t.ribbons = s.ribbons) : SameOutput x s t := by
  unfold SameOutput
  rw [h]
  exact ⟨rfl, rfl⟩

theorem powered_output {f : State → State} (hf : SameOutput x s (f s)) (he : powered f s = .next t) :
    SameOutput x s t := by
  unfold powered at he
  cases he
  split
  · exact ⟨rfl, rfl⟩
  · exact hf

/-- A message that its owner applies without touching the outputs. -/
theorem taken_output {k : Kind} {apply : List Byte → State → State × Answer}
    (ha : ∀ b z, SameOutput x z (apply b z).1) (he : powered (takeMessage k apply) s = .next t) : SameOutput x s t :=
  powered_output (takeMessage_keeps (P := SameOutput x s) (Q := SameOutput x s)
    (fun _ hz _ => hz.trans (.of_ribbons rfl)) (fun _ _ _ _ hz => hz.trans (.of_ribbons rfl))
    (fun b z hz => hz.trans (ha b z)) ⟨rfl, rfl⟩) he

theorem unknown_output (he : powered takeUnknown s = .next t) : SameOutput x s t :=
  powered_output (.of_ribbons (by rw [takeUnknown_frame])) he

end

/-- R123: TAPE START and TAPE STOP change the state of a ribbon and not its outputs. -/
theorem setRibbonState_output (x y : AB) (st : RibbonState) (s : State) :
    SameOutput x s (setRibbon y { s.ribbons.get y with state := st } s) := by
  unfold SameOutput
  rw [setRibbon_ribbons, Pair.get_put]
  split
  · next h => rw [h]; exact ⟨rfl, rfl⟩
  · exact ⟨rfl, rfl⟩

theorem applyTapeStart_output (x : AB) (b : List Byte) (s : State) : SameOutput x s (applyTapeStart b s).1 := by
  unfold applyTapeStart
  split
  · exact ⟨rfl, rfl⟩
  · exact setRibbonState_output ..

theorem applyTapeStop_output (x : AB) (b : List Byte) (s : State) : SameOutput x s (applyTapeStop b s).1 := by
  unfold applyTapeStop
  split
  · exact ⟨rfl, rfl⟩
  · exact setRibbonState_output ..

/-- R122: a restart presents nothing (log 13, log 27). -/
theorem restartAll_output (x : AB) (s : State) : SameOutput x s (restartAll s) := by
  unfold SameOutput
  rw [restartAll_ribbons, Pair.get_map]
  exact ⟨rfl, rfl⟩

theorem enter_other {x y : AB} (h : y ≠ x) (st : RibbonState) (k : ItemKind) (c : Byte) (rest : Text) (s : State) :
    (enter y st k c rest s).ribbons.get x = s.ribbons.get x := by
  rw [enter_ribbons, Pair.get_put_ne _ _ h]

theorem stepSelect_other {x y : AB} (h : y ≠ x) (st : RibbonState) (s : State) :
    (stepSelect y st s).ribbons.get x = s.ribbons.get x := by
  have hselect : (select y s).1.ribbons = s.ribbons := select_ribbons s y
  unfold stepSelect
  split
  · next s1 _ heq =>
    rw [heq] at hselect
    rw [setRibbon_ribbons, Pair.get_put_ne _ _ h, hselect]
  · next s1 _ _ _ heq =>
    rw [heq] at hselect
    rw [enter_other h, hselect]

/-- R122, R124: a step of one ribbon leaves the other. -/
theorem stepRibbon_other {x y : AB} (h : y ≠ x) (s : State) :
    (stepRibbon y s).ribbons.get x = s.ribbons.get x := by
  unfold stepRibbon
  dsimp only
  split
  · rfl
  · split
    · split
      · exact stepSelect_other h _ s
      · exact enter_other h _ _ _ _ s
    · rfl
  · split
    · split
      · rfl
      · exact enter_other h _ _ _ _ s
    · rfl

/-- R122: the outputs of a ribbon change at its own step alone, the POR commands apart. -/
theorem exec_output {c : Instr} {s t : State} {x : AB} (he : exec c s = .next t) (hstep : c ≠ .stepEvent x)
    (hassert : c ≠ .porAssert) (hrelease : c ≠ .porRelease) : SameOutput x s t := by
  cases c
  case list => exact taken_output (fun b z => .of_ribbons (by rw [applyList_frame])) he
  case delist => exact taken_output (fun b z => .of_ribbons (by rw [applyDelist_frame])) he
  case queryRecord => exact taken_output (fun b z => .of_ribbons (by rw [applyQueryRecord_frame])) he
  case sessionOpen => exact taken_output (fun b z => .of_ribbons (by rw [applySessionOpen_frame])) he
  case sessionClose => exact taken_output (fun b z => .of_ribbons (by rw [applySessionClose_frame])) he
  case dayRoll => exact taken_output (fun b z => .of_ribbons (by rw [applyDayRoll_frame])) he
  case tableClear => exact taken_output (fun b z => .of_ribbons (by rw [applyTableClear_frame])) he
  case trade => exact taken_output (fun b z => .of_ribbons (by rw [applyTrade_frame])) he
  case quote => exact taken_output (fun b z => .of_ribbons (by rw [applyQuote_frame])) he
  case halt => exact taken_output (fun b z => .of_ribbons (by rw [applyHalt_frame])) he
  case resume => exact taken_output (fun b z => .of_ribbons (by rw [applyResume_frame])) he
  case loadEntry => exact taken_output (fun b z => .of_ribbons (by rw [applyLoadEntry_frame])) he
  case unloadEntry => exact taken_output (fun b z => .of_ribbons (by rw [applyUnloadEntry_frame])) he
  case definePage => exact taken_output (fun b z => .of_ribbons (by rw [applyDefinePage_frame])) he
  case undefinePage => exact taken_output (fun b z => .of_ribbons (by rw [applyUndefinePage_frame])) he
  case showPage => exact taken_output (fun b z => .of_ribbons (by rw [applyShowPage_frame])) he
  case restorePanel => exact taken_output (fun b z => .of_ribbons (by rw [applyRestorePanel_frame])) he
  case clearFaults => exact taken_output (fun b z => .of_ribbons (by rw [applyClearFaults_frame])) he
  case tapeStart => exact taken_output (applyTapeStart_output x) he
  case tapeStop => exact taken_output (applyTapeStop_output x) he
  case tapeClear => exact taken_output (fun b z => .of_ribbons (by rw [applyTapeClear_frame])) he
  case notice => exact taken_output (fun b z => .of_ribbons (by rw [applyNotice_frame])) he
  case terminalEnable => exact taken_output (fun b z => .of_ribbons (by rw [applyTerminalEnable_frame])) he
  case setParameter => exact taken_output (fun b z => .of_ribbons (by rw [applySetParameter_frame])) he
  case readParameter => exact taken_output (fun b z => .of_ribbons (by rw [applyReadParameter_frame])) he
  case readStatus => exact taken_output (fun b z => .of_ribbons (by rw [applyReadStatus_frame])) he
  case clearConditions => exact taken_output (fun b z => .of_ribbons (by rw [applyClearConditions_frame])) he
  case restart => exact taken_output (fun b z => restartAll_output x z) he
  case unknownKindTaken => exact unknown_output he
  case restartInput => exact powered_output (restartAll_output x s) he
  case porAssert => exact absurd rfl hassert
  case porRelease => exact absurd rfl hrelease
  case frameComplete => exact powered_output (.of_ribbons (by rw [completeFrame_frame])) he
  case framingFailure => exact powered_output (.of_ribbons (by rw [takeFeedFailure_frame])) he
  case frameGapExpiry => exact powered_output (.of_ribbons (by rw [expireFrameGap_frame])) he
  case replySent => exact powered_output (.of_ribbons (by rw [sendReply_frame])) he
  case quietLimitExpiry => exact powered_output (.of_ribbons (by rw [expireQuietLimit_frame])) he
  case positionWriteStart => exact powered_output (.of_ribbons (by rw [startWrite_frame])) he
  case positionWriteComplete => exact powered_output (.of_ribbons (by rw [completeWrite_frame])) he
  case periodStart => exact powered_output (.of_ribbons (by rw [startPeriod_frame])) he
  case railSample => exact powered_output (.of_ribbons (by rw [sampleRail_frame])) he
  case railStateChange => exact powered_output (.of_ribbons (by rw [changeRail_frame])) he
  case verifyGapExpiry => exact powered_output (.of_ribbons (by rw [endGap_frame])) he
  case readStart => exact powered_output (.of_ribbons (by rw [startRead_frame])) he
  case echoArrival => exact powered_output (.of_ribbons (by rw [takeEcho_frame])) he
  case echoLimitExpiry => exact powered_output (.of_ribbons (by rw [endEchoLimit_frame])) he
  case stepEvent y =>
    have hother := stepRibbon_other (x := x) (y := y) (fun e => hstep (e ▸ rfl)) s
    exact powered_output ⟨congrArg Ribbon.charOut hother, congrArg Ribbon.strobes hother⟩ he
  case visit => exact powered_output (.of_ribbons (by rw [visitLine_frame])) he
  case emptyRoundExpiry => exact powered_output (.of_ribbons (by rw [endEmptyRound_frame])) he
  case replyWindowExpiry => exact powered_output (.of_ribbons (by rw [expireWindow_frame])) he
  case replyComplete => exact powered_output (.of_ribbons (by rw [completeReply_frame])) he
  case terminalFramingError => exact powered_output (.of_ribbons (by rw [takeLineFailure_frame])) he
  case replyGapExpiry => exact powered_output (.of_ribbons (by rw [expireReplyGap_frame])) he
  case settlingExpiry => exact powered_output (.of_ribbons (by rw [expireSettling_frame])) he
  case feedCharacterArrival => exact powered_output (.of_ribbons (by rw [takeFeedChar_frame])) he
  case replyCharacterArrival => exact powered_output (.of_ribbons (by rw [takeReplyChar_frame])) he
  case replyWindowOpen => exact powered_output (.of_ribbons (by rw [openWindow_frame])) he

/-- Settles O59: READY, ATTENTION and the phase lines each by its `↔`, the ribbons by `exec_output`. -/
theorem outputLines : Obligations.OutputLines := by
  refine ⟨fun s hpor => ⟨ready_iff hpor, attention_iff hpor⟩, fun c s => ?_, ?_,
    fun c s t x he hstep hassert hrelease => exec_output he hstep hassert hrelease, by decide⟩
  · cases c with
    | noticeDone tape => cases tape <;> rfl
    | tapeModeChange tape => cases tape <;> rfl
    | pageDone | railChange | terminalChange | positionFailed | staleChange => rfl
  · rintro s x lit passed rfl rfl
    refine ⟨fun hdark => Bool.eq_false_iff.mpr fun hlit => ?_, fun hfull => phaseLit_iff.mpr (.inl hfull),
      fun _ hpart => phaseLit_iff.trans (or_iff_right (by omega))⟩
    have hcases := phaseLit_iff.mp hlit
    rw [hdark] at hcases
    omega

end Sys2Proof.Machine

/-! ### RESTART and the RESTART input (R73, R96, R106, R121, R122, R128 to R130, R148, R173) -/

namespace Sys2Proof.Machine

/-! #### The records and the directory after both lists are withdrawn (R15, R117, R121) -/

/-- R15, R115: what the report that its pending print is gone leaves of a slot. -/
def printGone (o : Option Record) : Option Record :=
  o.bind (fun r => if r.state = .retiring then none else some { r with pending := none })

theorem printGone_again (o : Option Record) : printGone (printGone o) = printGone o := by
  cases o with
  | none => rfl
  | some r => by_cases hr : r.state = .retiring <;> simp [printGone, hr]

/-- A slot that holds no pending print and no RETIRING record. -/
theorem printGone_same {o : Option Record} (h : NoPrint o) : printGone o = o := by
  cases o with
  | none => rfl
  | some r =>
    obtain ⟨hpending, hstate⟩ := h r rfl
    simp [printGone, hstate, ← hpending]

theorem withdraw_record (t : AB) (i j : SlotIx) (s : State) :
    (withdraw t i s).records[j] = if i = j then printGone s.records[j] else s.records[j] :=
  takenOff_records i j (setTape t _ s)

theorem withdrawAll_record (t : AB) (j : SlotIx) (s : State) : (withdrawAll t s).records[j]
    = if j ∈ (s.tapes.get t).prints then printGone s.records[j] else s.records[j] := by
  unfold withdrawAll
  generalize (s.tapes.get t).prints = l
  induction l generalizing s with
  | nil => rfl
  | cons i rest ih =>
    rw [List.foldl_cons, ih, withdraw_record]
    by_cases hij : i = j
    · subst hij
      simp [printGone_again]
    · simp [hij, Ne.symm hij]

/-- A record with a pending print, or a RETIRING one, stands on one of the lists (R13, R108). -/
theorem TapesLaw.noPrint_unlisted {s : State} (h : TapesLaw s) {i : SlotIx}
    (hi : ∀ x, i ∉ (s.tapes.get x).prints) : NoPrint s.records[i] := fun r hr => by
  have hpending : r.pending = none := by
    by_contra hp
    exact hi r.tape (h.pending.onList i r hr hp)
  exact ⟨hpending, fun hret => h.pending.retiring i r hr hret hpending⟩

theorem TapesLaw.withdrawBoth_record {s : State} (h : TapesLaw s) (i : SlotIx) :
    (Machine.withdrawAll .b (Machine.withdrawAll .a s)).records[i] = printGone s.records[i] := by
  rw [withdrawAll_record, withdrawAll_other (by decide), withdrawAll_record]
  by_cases hb : i ∈ (s.tapes.get .b).prints
  · rw [if_pos hb]
    split
    · exact printGone_again _
    · rfl
  · rw [if_neg hb]
    split
    · rfl
    · next ha =>
      refine (printGone_same (h.noPrint_unlisted fun x => ?_)).symm
      cases x with
      | a => exact ha
      | b => exact hb

/-- R13: the slot holds a RETIRING record. -/
def HoldsRetiring (s : State) (i : SlotIx) : Prop := ∃ r, s.records[i] = some r ∧ r.state = .retiring

theorem printGone_notRetiring {o : Option Record} {r : Record} (h : printGone o = some r) : r.state ≠ .retiring := by
  obtain ⟨q, -, hq⟩ := Option.bind_eq_some_iff.mp h
  split at hq
  · cases hq
  · next hstate => cases hq; exact hstate

theorem holdsRetiring_withdraw {t : AB} {i j : SlotIx} {s : State} :
    HoldsRetiring (withdraw t i s) j ↔ j ≠ i ∧ HoldsRetiring s j := by
  unfold HoldsRetiring
  rw [withdraw_record]
  by_cases hij : i = j
  · rw [if_pos hij]
    exact iff_of_false (fun ⟨r, hr, hret⟩ => printGone_notRetiring hr hret) fun hne => hne.1 hij.symm
  · rw [if_neg hij]
    exact (and_iff_right (Ne.symm hij)).symm

theorem holdsRetiring_withdrawAll {t : AB} {j : SlotIx} {s : State} :
    HoldsRetiring (withdrawAll t s) j ↔ j ∉ (s.tapes.get t).prints ∧ HoldsRetiring s j := by
  unfold HoldsRetiring
  rw [withdrawAll_record]
  by_cases hj : j ∈ (s.tapes.get t).prints
  · rw [if_pos hj]
    exact iff_of_false (fun ⟨r, hr, hret⟩ => printGone_notRetiring hr hret) fun hne => hne.1 hj
  · rw [if_neg hj]
    exact (and_iff_right hj).symm

/-- R4, R15: a withdrawal removes the directory entry of a RETIRING record. -/
theorem withdraw_directory (t : AB) (i : SlotIx) (s : State) :
    (withdraw t i s).directory.Sublist s.directory ∧
      ∀ e, e ∈ (withdraw t i s).directory ↔ e ∈ s.directory ∧ ¬ (e.2 = i ∧ HoldsRetiring s i) := by
  have hslot : ∀ u, (setPendingPrint i none (setTape t u s)).records[i]
      = s.records[i].map (fun r => { r with pending := none }) := fun u => by
    rw [setPendingPrint_records, Vec.update_get, if_pos rfl, setTape_records]
  have hkept : ¬ HoldsRetiring s i → ∀ l : List (Symbol × SlotIx), l.Sublist l ∧
      ∀ e, e ∈ l ↔ e ∈ l ∧ ¬ (e.2 = i ∧ HoldsRetiring s i) := fun hn l =>
    ⟨List.Sublist.refl l, fun e => (and_iff_left fun hr => hn hr.2).symm⟩
  unfold withdraw reportGone
  dsimp only
  rw [hslot]
  cases hr : s.records[i] with
  | none => exact hkept (fun ⟨r, hs, _⟩ => by rw [hr] at hs; cases hs) s.directory
  | some r =>
    by_cases hstate : r.state = .retiring
    · have hret : HoldsRetiring s i := ⟨r, hr, hstate⟩
      simp only [Option.map_some, hstate, if_true]
      refine ⟨List.filter_sublist, fun e => ?_⟩
      rw [freeSlot_directory, List.mem_filter, bne_iff_ne]
      exact and_congr_right fun _ => not_congr (and_iff_left hret).symm
    · simp only [Option.map_some, hstate, if_false]
      refine hkept (fun ⟨q, hs, hq⟩ => ?_) s.directory
      rw [hr] at hs
      cases hs
      exact hstate hq

theorem withdrawAll_directory (t : AB) (s : State) :
    (withdrawAll t s).directory.Sublist s.directory ∧ ∀ e, e ∈ (withdrawAll t s).directory ↔
      e ∈ s.directory ∧ ¬ (e.2 ∈ (s.tapes.get t).prints ∧ HoldsRetiring s e.2) := by
  unfold withdrawAll
  generalize (s.tapes.get t).prints = l
  induction l generalizing s with
  | nil => exact ⟨List.Sublist.refl _, fun e => by simp⟩
  | cons i rest ih =>
    obtain ⟨hsub, hmem⟩ := withdraw_directory t i s
    obtain ⟨hsub', hmem'⟩ := ih (withdraw t i s)
    refine ⟨hsub'.trans hsub, fun e => ?_⟩
    rw [List.foldl_cons, hmem', hmem, holdsRetiring_withdraw, List.mem_cons]
    by_cases he : e.2 = i
    · rw [he]
      tauto
    · tauto

theorem TapesLaw.withdrawBoth_directory {s : State} (h : TapesLaw s) :
    (Machine.withdrawAll .b (Machine.withdrawAll .a s)).directory.Sublist s.directory ∧
      ∀ e, e ∈ (Machine.withdrawAll .b (Machine.withdrawAll .a s)).directory ↔
        e ∈ s.directory ∧ ¬ HoldsRetiring s e.2 := by
  obtain ⟨hsub, hmem⟩ := withdrawAll_directory .a s
  obtain ⟨hsub', hmem'⟩ := withdrawAll_directory .b (Machine.withdrawAll .a s)
  refine ⟨hsub'.trans hsub, fun e => ?_⟩
  rw [hmem', hmem, withdrawAll_other (by decide), holdsRetiring_withdrawAll]
  have hlisted : HoldsRetiring s e.2 → e.2 ∈ (s.tapes.get .a).prints ∨ e.2 ∈ (s.tapes.get .b).prints := by
    rintro ⟨r, hr, hstate⟩
    have hon := h.pending.onList e.2 r hr (h.pending.retiring e.2 r hr hstate)
    cases ht : r.tape with
    | a => exact .inl (ht ▸ hon)
    | b => exact .inr (ht ▸ hon)
  tauto

/-! #### The blocks (R96, R106, R122, R128 to R130, R148) -/

theorem restartAll_feed (s : State) : (restartAll s).feed = (restartFeed s).feed := by
  unfold restartAll
  simp

theorem restartAll_tapes (s : State) :
    (restartAll s).tapes = (withdrawAll .b (withdrawAll .a (restartFeed s))).tapes.map restartTape := by
  unfold restartAll
  simp [restartTapes]

/-- R121, R128 to R130: what a restart makes of a tape unit. -/
theorem TapesLaw.restartAll_tape {s : State} (h : TapesLaw s) (x : AB) : (Machine.restartAll s).tapes.get x
    = restartTape { s.tapes.get x with
      prints := [], withdrawn := (s.tapes.get x).withdrawn + tapePendingShares x s } := by
  have hlaw : TapesLaw (restartFeed s) := h.of_same rfl rfl
  rw [restartAll_tapes, Pair.get_map, hlaw.withdrawBoth_unit] <;> rfl

theorem restartAll_lines (s : State) (line : LineIx) :
    (restartAll s).lines[line] = restartLine s.time (anyEnabled s line) s.lines[line] := by
  have hlines : (restartAll s).lines = (restartLines (restartTapes (restartFeed s))).lines := by simp [restartAll]
  have hget : (restartLines (restartTapes (restartFeed s))).lines[line] = _ := Vec.mapIx_get _ _ line
  rw [hlines, hget]
  simp [anyEnabled]

/-- R148, steps 1 to 3: a terminal at restart. -/
theorem restartAll_terminal (s : State) (line : LineIx) (d : DropIx) : (restartAll s).terminals[terminalAt line d]
    = restartTerminal (outstandingOf s line d) s.terminals[terminalAt line d] := by
  have hterminals : (restartAll s).terminals = (restartLines (restartTapes (restartFeed s))).terminals := by
    simp [restartAll]
  have hget : (restartLines (restartTapes (restartFeed s))).terminals[terminalAt line d] = _ :=
    Vec.mapIx_get _ _ (terminalAt line d)
  rw [hterminals, hget]
  simp [abandonedItem, outstandingOf]

theorem settleItem_watch (o : Outstanding) (t : Terminal) : (settleItem o t).watch = (match o with
    | .dropped sym place => t.watch.take place ++ ⟨sym, .dropped⟩ :: t.watch.drop place
    | _ => t.watch) := by
  cases o <;> rfl

/-- R148: every entry of an enabled terminal is marked, in list order; one that is disabled takes no marks. -/
theorem restartTerminal_dirty (o : Outstanding) (t : Terminal) :
    (t.enabled = false → (restartTerminal o t).dirty = []) ∧
      (t.enabled = true → (restartTerminal o t).watched.Nodup →
        (restartTerminal o t).dirty = (restartTerminal o t).watched) := by
  unfold restartTerminal
  dsimp only
  rw [Terminal.markAll_watched]
  generalize hz : ({ settleItem o t with answer := none, missRun := 0, presence := .unknown, dirty := [] } : Terminal) = z
  have henabled : z.enabled = t.enabled := by rw [← hz]; exact settleItem_enabled o t
  have hdirty : z.dirty = [] := by rw [← hz]
  have hpresence : z.presence = .unknown := by rw [← hz]
  refine ⟨fun hoff => ?_, fun hon hnodup => ?_⟩
  · rw [Terminal.markAll_away (Terminal.takesMarks_false_iff.mpr (.inl (henabled.trans hoff))), hdirty]
  · have htakes : z.takesMarks = true := Terminal.takesMarks_iff.mpr ⟨henabled.trans hon, by rw [hpresence]; decide⟩
    rw [Terminal.markAll_eq htakes z.watched hnodup, hdirty]
    simp

/-! #### The boards and the verifier (R73, R96, R106) -/

theorem abandonWrite_position (s : State) (p : PosIx) : (abandonWrite s).boards.positions[p]
    = { s.boards.positions[p] with
      image := if s.boards.write.map (·.position) = some p then none else s.boards.positions[p].image } := by
  unfold abandonWrite
  cases s.boards.write with
  | none => rfl
  | some w =>
    refine (Vec.update_get s.boards.positions w.position p _).trans ?_
    by_cases hw : w.position = p
    · simp [hw]
    · simp [hw]

theorem restartBoards_position (s : State) (p : PosIx) : (restartBoards s).boards.positions[p]
    = { s.boards.positions[p] with
      image := if s.boards.write.map (·.position) = some p then none else s.boards.positions[p].image, flash := 0 } := by
  have hget : (restartBoards s).boards.positions[p] = { (abandonWrite s).boards.positions[p] with flash := 0 } :=
    onPositions_get _ (abandonWrite s) p
  rw [hget, abandonWrite_position]

theorem restartBoards_rest (s : State) : (restartBoards s).boards.repaint = [] ∧
    (restartBoards s).boards.write = none ∧ (restartBoards s).boards.timerStart = ⟨s.time, s.time⟩ := ⟨rfl, rfl, rfl⟩

/-- R106: the boards after the verifier's part: every position GOOD with its runs 0. -/
theorem restartVerifier_boards (s : State) : (restartVerifier s).boards
    = (onPositions (fun _ pos => { pos with verify := .good, mismatchRun := 0, matchRun := 0 }) s).boards := by
  unfold restartVerifier
  dsimp only
  split <;> rfl

theorem restartVerifier_position (s : State) (p : PosIx) : (restartVerifier s).boards.positions[p]
    = { s.boards.positions[p] with verify := .good, mismatchRun := 0, matchRun := 0 } := by
  rw [restartVerifier_boards]
  exact onPositions_get _ s p

/-- R106: the verifier takes its state after a power-on reset, the verify parameters being kept. -/
theorem restartVerifier_verifier (s : State) : (restartVerifier s).verifier =
    { phase := if s.params.verifyEnable = true then gapPhase s else .idle
      cursor := 0, target := none, overtaken := false, mismatchTotal := 0, lastFailed := none } := by
  unfold restartVerifier
  dsimp only
  rw [onPositions_params]
  split <;> rfl

/-- R73: with the queue empty and no read in progress, the positions of the LIVE panels are queued in order. -/
theorem reshowAll_marked (s : State) : Marked s (fun _ => True) (reshowAll s) :=
  ((mark_marked (List.finRange 1024) (reshow (fun _ => true) s) (List.pairwise_lt_finRange 1024)).base
    (z := s) rfl rfl rfl rfl).congr fun p => iff_true_intro (List.mem_finRange p)

theorem reshowAll_position (s : State) (p : PosIx) : (reshowAll s).boards.positions[p]
    = { s.boards.positions[p] with shown := shownBy s p, switchPending := true, flash := 0 } := by
  have hpositions : (reshowAll s).boards.positions = (reshow (fun _ => true) s).boards.positions := by
    rw [reshowAll, mark_boards]
  have hget : (reshow (fun _ => true) s).boards.positions[p] = _ := onPositions_get _ s p
  rw [hpositions, hget, if_pos rfl]

theorem shownBy_same {s t : State} (hp : t.panels = s.panels) (hg : t.pages = s.pages) (he : t.entries = s.entries)
    (p : PosIx) : shownBy t p = shownBy s p := by
  unfold shownBy entryShownBy
  rw [hp, hg, he]

/-- R173: the state before the refresh unit, the verifier and the reshow act. -/
def restartOthers (s : State) : State := restartLines (restartTapes (restartFeed s))

/-- R173: the state that the reshow finds. -/
def beforeReshow (s : State) : State := restartVerifier (restartBoards (restartOthers s))

theorem restartAll_eq (s : State) : restartAll s = reshowAll (beforeReshow s) := rfl

@[simp] theorem restartOthers_boards (s : State) : (restartOthers s).boards = s.boards := by simp [restartOthers]
@[simp] theorem restartOthers_time (s : State) : (restartOthers s).time = s.time := by simp [restartOthers]
@[simp] theorem restartOthers_params (s : State) : (restartOthers s).params = s.params := by simp [restartOthers]
@[simp] theorem beforeReshow_panels (s : State) : (beforeReshow s).panels = s.panels := by
  simp [beforeReshow, restartOthers]
@[simp] theorem beforeReshow_pages (s : State) : (beforeReshow s).pages = s.pages := by
  simp [beforeReshow, restartOthers]
@[simp] theorem beforeReshow_entries (s : State) : (beforeReshow s).entries = s.entries := by
  simp [beforeReshow, restartOthers]

theorem beforeReshow_boards (s : State) : (beforeReshow s).boards.repaint = [] ∧
    (beforeReshow s).boards.write = none ∧ (beforeReshow s).boards.timerStart = ⟨s.time, s.time⟩ := by
  unfold beforeReshow
  rw [restartVerifier_boards, ← restartOthers_time s]
  exact restartBoards_rest (restartOthers s)

theorem beforeReshow_verifier (s : State) : (beforeReshow s).verifier =
    { phase := if s.params.verifyEnable = true then
          (if s.params.verifyGap = 0 then .ready else .waiting s.time s.params.verifyGap)
        else .idle
      cursor := 0, target := none, overtaken := false, mismatchTotal := 0, lastFailed := none } := by
  unfold beforeReshow
  rw [restartVerifier_verifier, gapPhase]
  simp

theorem restartAll_position (s : State) (p : PosIx) : (restartAll s).boards.positions[p] = { s.boards.positions[p] with
    image := if s.boards.write.map (·.position) = some p then none else s.boards.positions[p].image
    shown := shownBy s p
    switchPending := true
    flash := 0
    verify := .good
    mismatchRun := 0
    matchRun := 0 } := by
  have hshown := shownBy_same (beforeReshow_panels s) (beforeReshow_pages s) (beforeReshow_entries s) p
  rw [restartAll_eq, reshowAll_position, hshown]
  unfold beforeReshow
  rw [restartVerifier_position, restartBoards_position, restartOthers_boards]

theorem restartAll_repaint (s : State) : (restartAll s).boards.repaint.Pairwise (· < ·) ∧
    ∀ p : PosIx, p ∈ (restartAll s).boards.repaint ↔ s.panels[panelOf p].state = .live := by
  obtain ⟨hempty, -, -⟩ := beforeReshow_boards s
  obtain ⟨added, happ, hsort, hmem⟩ := (reshowAll_marked (beforeReshow s)).queue
  rw [hempty, List.nil_append] at happ
  rw [restartAll_eq, happ]
  refine ⟨hsort, fun p => (hmem p).trans ?_⟩
  rw [hempty, beforeReshow_panels]
  simp

/-- R101, R106: no read is in progress that the reshow could overtake. -/
theorem restartAll_verifier (s : State) : (restartAll s).verifier = (beforeReshow s).verifier := by
  have htarget : (beforeReshow s).verifier.target = none := by rw [beforeReshow_verifier]
  have hover : marksOvertake (reshow (fun _ => true) (beforeReshow s)) (List.finRange 1024) = false := by
    unfold marksOvertake
    rw [reshow_verifier, htarget]
  rw [restartAll_eq, reshowAll, mark_verifier, hover, Bool.or_false, reshow_verifier]

/-- R173: a restart, block by block. -/
theorem TapesLaw.restarted {s : State} (h : TapesLaw s) : Restarted s (Machine.restartAll s) where
  kept := ⟨restartAll_time s, restartAll_por s, restartAll_phase s, restartAll_params s, restartAll_entries s,
    restartAll_pages s, restartAll_panels s, restartAll_rails s, restartAll_pending s⟩
  feed := by
    rw [restartAll_feed] <;> rfl
  records i := by
    have hlaw : TapesLaw (restartFeed s) := h.of_same rfl rfl
    rw [restartAll_records, hlaw.withdrawBoth_record] <;> rfl
  directory := by
    have hlaw : TapesLaw (restartFeed s) := h.of_same rfl rfl
    rw [restartAll_directory]
    exact hlaw.withdrawBoth_directory
  tapes x := h.restartAll_tape x
  ribbons x := by
    rw [restartAll_ribbons, Pair.get_map]
    exact ⟨rfl, rfl, rfl, rfl⟩
  bus := (beforeReshow_boards s).2
  positions p := restartAll_position s p
  repaint := restartAll_repaint s
  verifier := (restartAll_verifier s).trans (beforeReshow_verifier s)
  lines line := restartAll_lines s line
  terminals := by
    rintro line d t rfl
    obtain ⟨hoff, hon⟩ := restartTerminal_dirty (outstandingOf s line d) s.terminals[terminalAt line d]
    refine ⟨_, restartAll_terminal s line d, restartTerminal_enabled .., ?_, ?_, ?_, ?_, hoff, hon⟩
    · exact Terminal.markAll_presence ..
    · exact Terminal.markAll_missRun ..
    · exact Terminal.markAll_answer ..
    · exact (Terminal.markAll_watch ..).trans (settleItem_watch ..)

/-- The reply to a RESTART message changes nothing but the reply queue. -/
theorem Restarted.replied {s u : State} (h : Restarted s u) (kind tag : Byte) (a : Answer) :
    Restarted s (placeReply kind tag a u) := by
  obtain ⟨kept, feed, records, directory, tapes, ribbons, bus, positions, repaint, verifier, lines, terminals⟩ := h
  refine ⟨kept, ?_, records, directory, tapes, ribbons, bus, positions, repaint, verifier, lines, terminals⟩
  rw [placeReply_feed, feed]

/-- Settles O58: the RESTART input by its blocks, the message by the same with its reply. -/
theorem restartReachesEveryBlock : Obligations.RestartReachesEveryBlock := by
  have hnone : ∀ s : State, (restartAll s).feed.replies = [] := fun s => by rw [restartAll_feed]; rfl
  refine ⟨fun s hpor hlaw => ⟨restartAll s, powered_eq hpor, hnone s, hlaw.restarted⟩, fun f s h hlen hlaw => ?_⟩
  have hfit : Kind.restart.lengthFits f.body.length = true := by simp [Kind.lengthFits, hlen]
  refine ⟨placeReply f.kind f.tag ⟨.ok, []⟩ (restartAll s), ?_, ?_, hlaw.restarted.replied ..⟩
  · exact command_accepted (k := .restart) h hfit rfl
  · rw [placeReply_feed, hnone] <;> rfl

end Sys2Proof.Machine

/-! ### The gap and the start of a read (R98 to R100) -/

namespace Sys2Proof.Machine

/-- R99: a gap that has run its length. -/
theorem endGap_due {s : State} {start : Time} {length : Nat} (hp : s.verifier.phase = .waiting start length)
    (h : length ≤ elapsed s.time start) : endGap s = setPhase .ready s := by
  simp only [endGap, hp, if_pos h]
  rfl

theorem endGap_early {s : State} {start : Time} {length : Nat} (hp : s.verifier.phase = .waiting start length)
    (h : elapsed s.time start < length) : endGap s = s := by
  simp only [endGap, hp, if_neg (Nat.not_le.mpr h)]

theorem Position.canVerify_iff {pos : Position} : pos.canVerify = true ↔
    (pos.image ≠ none ∧ pos.switchPending = false) ∧ (pos.verify = .good ∨ pos.verify = .suspect) := by
  simp [Position.canVerify, Option.isSome_iff_ne_none]

/-- R98. -/
theorem mem_eligiblePositions {s : State} {p : PosIx} : p ∈ eligiblePositions s ↔ Eligible s p := by
  unfold eligiblePositions
  rw [Vec.mem_select, Bool.and_eq_true, Bool.and_eq_true, panelLive_iff, Position.canVerify_iff, Bool.not_eq_true',
    List.contains_eq_mem, decide_eq_false_iff_not]
  constructor
  · rintro ⟨⟨live, ⟨image, switched⟩, verify⟩, unqueued⟩
    exact ⟨live, image, switched, unqueued, verify⟩
  · rintro ⟨live, image, switched, unqueued, verify⟩
    exact ⟨⟨live, ⟨image, switched⟩, verify⟩, unqueued⟩

theorem eligiblePositions_sorted (s : State) : (eligiblePositions s).Pairwise (· < ·) := Vec.select_sorted _ _

/-- The head of a list in ascending order is its lowest member. -/
theorem head?_lowest {l : List PosIx} (hl : l.Pairwise (· < ·)) {p q : PosIx} (h : l.head? = some p) (hq : q ∈ l) :
    p ≤ q := by
  obtain ⟨rest, rfl⟩ := List.head?_eq_some_iff.mp h
  rcases List.mem_cons.mp hq with rfl | hq
  · exact le_rfl
  · exact le_of_lt (List.rel_of_pairwise_cons hl hq)

/-- What a search finds in a list in ascending order is the lowest member that passes the test. -/
theorem find?_lowest {l : List PosIx} (hl : l.Pairwise (· < ·)) {test : PosIx → Bool} {p q : PosIx}
    (h : l.find? test = some p) (hq : q ∈ l) (ht : test q = true) : p ≤ q :=
  head?_lowest (hl.filter test) ((List.head?_filter ..).trans h) (List.mem_filter.mpr ⟨hq, ht⟩)

/-- R100: the two searches make one walk, which wraps from the last position to the first. -/
theorem nextToVerify_eq (s : State) : nextToVerify s =
    ((eligiblePositions s).find? fun p => decide (s.verifier.cursor ≤ p)).or (eligiblePositions s).head? := by
  unfold nextToVerify
  dsimp only
  cases (eligiblePositions s).find? fun p => decide (s.verifier.cursor ≤ p) <;> rfl

theorem nextToVerify_eq_none_iff {s : State} : nextToVerify s = none ↔ ∀ p : PosIx, ¬ Eligible s p := by
  rw [nextToVerify_eq, Option.or_eq_none_iff, List.head?_eq_none_iff]
  simp only [← mem_eligiblePositions, ← List.eq_nil_iff_forall_not_mem]
  exact ⟨And.right, fun h => ⟨by rw [h]; rfl, h⟩⟩

/-- The distance from the cursor in walk order. -/
theorem walk_distance (p cursor : PosIx) : (p - cursor).val =
    if cursor ≤ p then p.val - cursor.val else 1024 - cursor.val + p.val := by
  rw [Fin.sub_def]
  dsimp only
  split <;> simp only [Fin.le_def] at * <;> omega

/-- R100: the position found comes first in walk order from the cursor. -/
theorem nextToVerify_first {s : State} {p q : PosIx} (h : nextToVerify s = some p) (hq : Eligible s q) :
    (p - s.verifier.cursor).val ≤ (q - s.verifier.cursor).val := by
  have hsort := eligiblePositions_sorted s
  have hmem := mem_eligiblePositions.mpr hq
  rw [nextToVerify_eq, Option.or_eq_some_iff] at h
  rw [walk_distance, walk_distance]
  rcases h with hfound | ⟨hwrap, hhead⟩
  · -- found without wrapping: only a position at or after the cursor can come earlier
    have hp : s.verifier.cursor ≤ p := by simpa using List.find?_some hfound
    rw [if_pos hp]
    split
    · next hqc => exact Nat.sub_le_sub_right (Fin.le_def.mp (find?_lowest hsort hfound hmem (decide_eq_true hqc))) _
    · omega
  · -- wrapped: every eligible position lies before the cursor, and the lowest is the first
    have hbefore : ∀ x ∈ eligiblePositions s, ¬ s.verifier.cursor ≤ x := by
      simpa using List.find?_eq_none.mp hwrap
    rw [if_neg (hbefore p (List.mem_of_head? hhead)), if_neg (hbefore q hmem)]
    exact Nat.add_le_add_left (Fin.le_def.mp (head?_lowest hsort hhead hmem)) _

/-- R100: the walk has one first position. -/
theorem nextToVerify_of_first {s : State} {p : PosIx} (hp : Eligible s p)
    (hfirst : ∀ q : PosIx, Eligible s q → (p - s.verifier.cursor).val ≤ (q - s.verifier.cursor).val) :
    nextToVerify s = some p := by
  cases h : nextToVerify s with
  | none => exact absurd hp (nextToVerify_eq_none_iff.mp h p)
  | some q =>
    have hq : Eligible s q := mem_eligiblePositions.mp (nextToVerify_eligible h)
    have hsame : q - s.verifier.cursor = p - s.verifier.cursor :=
      Fin.ext (Nat.le_antisymm (nextToVerify_first h hp) (hfirst q hq))
    rw [sub_left_inj.mp hsame]

section

variable {s : State} (hphase : s.verifier.phase = .ready) (hbus : busFree s = true) (hqueue : s.boards.repaint = [])

include hphase hbus hqueue

/-- R100: the read of the position that the walk finds. -/
theorem startRead_found {p : PosIx} (h : nextToVerify s = some p) : startRead s = { s with verifier := { s.verifier with
    phase := .reading, target := some p, overtaken := false, cursor := nextInWalk p } } := by
  simp only [startRead, if_pos (And.intro hphase (And.intro hbus hqueue)), h]

theorem startRead_notFound (h : nextToVerify s = none) : startRead s = s := by
  simp only [startRead, if_pos (And.intro hphase (And.intro hbus hqueue)), h]

end

/-- Settles O39: by whether the gap has run, and by what the walk finds. -/
theorem gapEndsAndReadStarts : Obligations.GapEndsAndReadStarts := by
  refine ⟨fun s start length hpor hphase => ⟨fun hdue => ?_, fun hearly => powered_same (endGap_early hphase hearly)⟩,
    fun s hpor hphase hwrite htarget hqueue => ?_⟩
  · exact (powered_eq hpor).trans (congrArg _ (endGap_due hphase hdue))
  have hbus : busFree s = true := busFree_iff.mpr ⟨hwrite, htarget⟩
  refine ⟨fun p hp hfirst => ?_, fun hnone => ?_⟩
  · exact (powered_eq hpor).trans (congrArg _ (startRead_found hphase hbus hqueue (nextToVerify_of_first hp hfirst)))
  · exact powered_same (startRead_notFound hphase hbus hqueue (nextToVerify_eq_none_iff.mpr hnone))

end Sys2Proof.Machine

/-! ### The outcomes of a read and CLEAR FAULTS (R99, R101 to R105) -/

namespace Sys2Proof.Machine

/-- R99, R102: the verifier after a read. -/
theorem endRead_eq (s : State) : endRead s = { s with verifier := { s.verifier with
    target := none
    overtaken := false
    phase := if s.params.verifyEnable = true then gapPhase s else .idle } } := by
  unfold endRead
  cases h : s.params.verifyEnable <;> simp only [h] <;> rfl

/-- R75, R102: the end of a read forgets whether a mark has overtaken it. -/
theorem endRead_mark (p : PosIx) (s : State) : endRead (mark [p] s) = endRead { s with boards := { s.boards with
    repaint := if s.panels[panelOf p].state = .live ∧ p ∉ s.boards.repaint then s.boards.repaint ++ [p]
      else s.boards.repaint } } := by
  have hqueue : appendMarks (fun q => panelLive s (panelOf q)) s.boards.repaint [p]
      = if s.panels[panelOf p].state = .live ∧ p ∉ s.boards.repaint then s.boards.repaint ++ [p]
        else s.boards.repaint := by
    simp only [appendMarks, Bool.and_eq_true, panelLive_iff, Bool.not_eq_true', List.contains_eq_mem,
      decide_eq_false_iff_not]
  rw [endRead_eq, endRead_eq, ← hqueue]
  rfl

/-- R103: what a mismatch makes of the verify state. -/
theorem VerifyState.mismatched_eq (v : VerifyState) : v.mismatched = if v = .failed then .failed else .suspect := by
  cases v <;> rfl

theorem failsNow_eq (fail : Nat) (pos : Position) :
    failsNow fail pos = decide (pos.verify ≠ .failed ∧ fail ≤ raiseRun pos.mismatchRun) := by
  unfold failsNow
  cases pos.verify <;> simp [VerifyState.mismatched]

/-- R103, steps 1, 3 and 4, in one. -/
theorem mismatchedPosition_eq (fail : Nat) (pos : Position) : mismatchedPosition fail pos = { pos with
    mismatchRun := raiseRun pos.mismatchRun
    matchRun := 0
    verify := if failsNow fail pos = true ∨ pos.verify = .failed then .failed else .suspect } := by
  unfold mismatchedPosition
  rw [failsNow_eq]
  cases h : pos.verify <;> simp [VerifyState.mismatched]

/-- R103, step 4. -/
theorem noteFailed_if (failed : Bool) (p : PosIx) (s : State) : (if failed then noteFailed p s else s) = { s with
    verifier := { s.verifier with lastFailed := if failed = true then some p else s.verifier.lastFailed }
    feed := { s.feed with latched := if failed = true then s.feed.latched ||| Condition.positionFailed.flag
      else s.feed.latched } } := by
  cases failed <;> rfl

/-- R102, R103: a read that ends with a mismatch. -/
theorem endRead_applyMismatch {p : PosIx} {s : State} {failed : Bool}
    (hf : failsNow s.params.failThreshold s.boards.positions[p] = failed) :
    endRead (applyMismatch p s) = endRead { s with
      boards := { s.boards with
        positions := s.boards.positions.set p { s.boards.positions[p] with
          mismatchRun := raiseRun s.boards.positions[p].mismatchRun
          matchRun := 0
          verify := if failed = true ∨ s.boards.positions[p].verify = .failed then .failed else .suspect }
        repaint := if s.panels[panelOf p].state = .live ∧ p ∉ s.boards.repaint then s.boards.repaint ++ [p]
          else s.boards.repaint }
      verifier := { s.verifier with
        mismatchTotal := raise16 s.verifier.mismatchTotal
        lastFailed := if failed = true then some p else s.verifier.lastFailed }
      feed := { s.feed with latched := if failed = true then s.feed.latched ||| Condition.positionFailed.flag
        else s.feed.latched } } := by
  unfold applyMismatch
  dsimp only
  rw [endRead_mark, hf, noteFailed_if]
  unfold setPosition Vec.update
  rw [mismatchedPosition_eq, hf]

theorem imageBytes_length {p : PosIx} {c : Content} (h : c.cells.length = 10) : (imageBytes p c).length = 12 := by
  simp [imageBytes, h]

/-- R102. -/
theorem echoMatches_iff {p : PosIx} {echo : List Byte} {pos : Position} :
    echoMatches p echo pos = true ↔ ∃ c, pos.image = some c ∧ echo = imageBytes p c := by
  unfold echoMatches
  cases pos.image <;> simp

/-! R101, R102: how a read in progress ends. -/

section

variable {s : State} {p : PosIx} (htarget : s.verifier.target = some p)

include htarget

theorem takeEcho_complete {echo : List Byte} (hlen : echo.length = 12) :
    takeEcho echo s = endRead (if s.verifier.overtaken then s
      else if echoMatches p echo s.boards.positions[p] then applyMatch p s
      else applyMismatch p s) := by
  have hcomplete : echoComplete echo = true := by simp [echoComplete, hlen]
  simp only [takeEcho, htarget, if_pos hcomplete]

theorem endEchoLimit_ends : endEchoLimit s = endRead (if s.verifier.overtaken then s else applyMismatch p s) := by
  simp only [endEchoLimit, htarget]

theorem takeEcho_overtaken (hover : s.verifier.overtaken = true) {echo : List Byte} (hlen : echo.length = 12) :
    takeEcho echo s = endRead s := by
  rw [takeEcho_complete htarget hlen, if_pos hover]

theorem endEchoLimit_overtaken (hover : s.verifier.overtaken = true) : endEchoLimit s = endRead s := by
  rw [endEchoLimit_ends htarget, if_pos hover]

theorem endEchoLimit_mismatch (hover : s.verifier.overtaken = false) :
    endEchoLimit s = endRead (applyMismatch p s) := by
  rw [endEchoLimit_ends htarget, hover, if_neg Bool.false_ne_true]

theorem takeEcho_match (hover : s.verifier.overtaken = false) {c : Content}
    (himage : s.boards.positions[p].image = some c) (hcells : c.cells.length = 10) :
    takeEcho (imageBytes p c) s = endRead (applyMatch p s) := by
  rw [takeEcho_complete htarget (imageBytes_length hcells), hover, if_neg Bool.false_ne_true,
    if_pos (echoMatches_iff.mpr ⟨c, himage, rfl⟩)]

theorem takeEcho_mismatch (hover : s.verifier.overtaken = false) {echo : List Byte} (hlen : echo.length = 12)
    (hother : ∀ c, s.boards.positions[p].image = some c → echo ≠ imageBytes p c) :
    takeEcho echo s = endRead (applyMismatch p s) := by
  have hdiffers : ¬ echoMatches p echo s.boards.positions[p] = true := fun hm => by
    obtain ⟨c, himage, hsame⟩ := echoMatches_iff.mp hm
    exact hother c himage hsame
  rw [takeEcho_complete htarget hlen, hover, if_neg Bool.false_ne_true, if_neg hdiffers]

end

/-- Settles O40: by whether the read was overtaken, and by its echo. -/
theorem readOutcomesAndClearFaults : Obligations.ReadOutcomesAndClearFaults := by
  refine ⟨fun s p ended hpor htarget hended => ?_, fun f s h hlen => ?_⟩
  · obtain rfl : ended = endRead := funext fun z => (hended z).trans (endRead_eq z).symm
    have hexec : ∀ {f : State → State} {z : State}, f s = z → powered f s = .next z := fun hf =>
      (powered_eq hpor).trans (congrArg _ hf)
    refine ⟨fun hover => ⟨fun echo hlen => hexec (takeEcho_overtaken htarget hover hlen),
      hexec (endEchoLimit_overtaken htarget hover)⟩, fun hover => ⟨?_, ?_⟩⟩
    · rintro c run himage hcells rfl
      exact hexec (takeEcho_match htarget hover himage hcells)
    · rintro run failed u rfl hfailed rfl
      have hmismatch := endRead_applyMismatch ((failsNow_eq ..).trans hfailed.symm)
      exact ⟨hexec ((endEchoLimit_mismatch htarget hover).trans hmismatch),
        fun echo hlen hother => hexec ((takeEcho_mismatch htarget hover hlen hother).trans hmismatch)⟩
  · have hfit : Kind.clearFaults.lengthFits f.body.length = true := by simp [Kind.lengthFits, hlen]
    exact ⟨clearFaults (removeHead s), command_accepted (k := .clearFaults) h hfit rfl, rfl,
      fun p => onPositions_get _ (removeHead s) p⟩

end Sys2Proof.Machine

/-! ### Trade notices and TAPE CLEAR (R15, R109, R110, R112, R115, R116) -/

namespace Sys2Proof.Machine

theorem Pair.put_put {α : Type} (p : Pair α) (i : AB) (v w : α) : (p.put i v).put i w = p.put i w := by
  cases i <;> rfl

section

variable {s : State} {i : SlotIx} {r : Record} (hr : s.records[i] = some r)

include hr

theorem setPendingPrint_held (p : Option PendingPrint) :
    setPendingPrint i p s = { s with records := s.records.set i (some { r with pending := p }) } := by
  unfold setPendingPrint Vec.update
  rw [hr]
  rfl

/-- R110: the slot joins the tail of the list. -/
theorem tradeNotice_joins (hp : r.pending = none) (shares : Nat) : tradeNotice i r shares s = { s with
    records := s.records.set i (some { r with pending := some ⟨s.time, 1, BitVec.ofNat 32 shares⟩ })
    tapes := s.tapes.put r.tape { s.tapes.get r.tape with
      accepted := (s.tapes.get r.tape).accepted + BitVec.ofNat 32 shares
      prints := (s.tapes.get r.tape).prints ++ [i]
      backlogMax := max (s.tapes.get r.tape).backlogMax ((s.tapes.get r.tape).prints ++ [i]).length } } := by
  unfold tradeNotice
  rw [hp]
  exact setPendingPrint_held (s := setTape r.tape _ s) hr _

/-- R110: the shares fold into the entry, which keeps its joined time and its place. -/
theorem tradeNotice_folds {p : PendingPrint} (hp : r.pending = some p) (shares : Nat) :
    tradeNotice i r shares s = { s with
      records := s.records.set i (some { r with
        pending := some ⟨p.joined, raise16 p.folded, p.shares + BitVec.ofNat 32 shares⟩ })
      tapes := s.tapes.put r.tape { s.tapes.get r.tape with
        accepted := (s.tapes.get r.tape).accepted + BitVec.ofNat 32 shares } } := by
  unfold tradeNotice
  rw [hp]
  exact setPendingPrint_held (s := setTape r.tape _ s) hr _

end

/-- Settles O27: by whether the record has a pending print. -/
theorem tradeNoticeJoinsOrFolds : Obligations.TradeNoticeJoinsOrFolds := by
  rintro i r shares s x n hr rfl rfl
  refine ⟨fun hp => ?_, ?_⟩
  · rw [tradeNotice_joins hr hp, List.length_append, List.length_singleton, max_def_lt]
  · rintro p folded hp rfl
    rw [tradeNotice_folds hr hp, show raise16 p.folded = _ from Nat.min_def]
    rfl

/-- R116: what the withdrawal of a whole list changes. -/
theorem withdrawAll_eq {t : AB} {s : State} (hn : (s.tapes.get t).prints.Nodup) : withdrawAll t s = { s with
    records := (withdrawAll t s).records
    directory := (withdrawAll t s).directory
    tapes := s.tapes.put t { s.tapes.get t with
      prints := [], withdrawn := (s.tapes.get t).withdrawn + tapePendingShares t s } } := by
  have htapes : (withdrawAll t s).tapes = s.tapes.put t { s.tapes.get t with
      prints := [], withdrawn := (s.tapes.get t).withdrawn + tapePendingShares t s } := by
    refine Pair.ext_get _ _ fun x => ?_
    by_cases hx : t = x
    · subst hx
      rw [withdrawAll_unit hn, Pair.get_put_same]
    · rw [withdrawAll_other hx, Pair.get_put_ne _ _ hx]
  apply State.same
  case h14 => exact htapes
  all_goals simp

theorem applyTapeClear_range {b : List Byte} (h : tapeOfCode (byteAt b 0) = none) (s : State) :
    applyTapeClear b s = refuse .range s := by
  simp [applyTapeClear, h]

theorem applyTapeClear_taken {b : List Byte} {t : AB} (h : byteAt b 0 = tapeCode t) (s : State) :
    applyTapeClear b s = (withdrawAll t s,
      ⟨.ok, [tapeCode t] ++ beBytes 2 (s.tapes.get t).prints.length ++ beBytes 4 (tapePendingShares t s).toNat⟩) := by
  simp [applyTapeClear, h, tapeOfCode_code]

/-- R181: a number above 1 is no tape code. -/
theorem tapeOfCode_above {b : Byte} (h : 1 < b.toNat) : tapeOfCode b = none :=
  tapeOfCode_none (by simp; omega)

/-- Settles O42: the refusal by the tape code, and the taking by the facts about `withdrawAll`. -/
theorem tapeCleared : Obligations.TapeCleared := by
  intro f s h hlen
  have hfit : Kind.tapeClear.lengthFits f.body.length = true := by simp [Kind.lengthFits, hlen]
  refine ⟨fun hcode => ?_, fun x hx hlaw => ?_⟩
  · rw [field_one] at hcode
    exact command_refused (k := .tapeClear) h hfit (applyTapeClear_range (tapeOfCode_above hcode) _)
  · refine ⟨withdrawAll x (removeHead s), ?_, withdrawAll_eq (s := removeHead s) (hlaw.tape x).once, fun i => ?_,
      withdrawAll_directory x (removeHead s)⟩
    · exact command_accepted (k := .tapeClear) h hfit (applyTapeClear_taken hx _)
    · rw [withdrawAll_record, removeHead_tapes, removeHead_records]
      by_cases hi : i ∈ (s.tapes.get x).prints
      · simp only [hi, not_true, if_true, if_false]
        rfl
      · simp only [hi, not_false_eq_true, if_true, if_false, Option.bind_fun_some]

end Sys2Proof.Machine

/-! ### The selection of a ribbon (R114, R122, R125 to R127, R131) -/

namespace Sys2Proof.Machine

/-- The tape unit of a tape and the latched conditions replaced. -/
def withUnit (x : AB) (u : TapeUnit) (latched : Flags30) (s : State) : State :=
  { s with tapes := s.tapes.put x u, feed := { s.feed with latched := latched } }

/-- R125: the ribbon that an item has been fed to, its first character entered with one strobe. -/
def fedRibbon (st : RibbonState) (kind : ItemKind) (item : Text) (r : Ribbon) : Ribbon :=
  ⟨st, if item.tail = [] then .blank else kind, item.tail, item.headD r.charOut, r.strobes + 1⟩

theorem fed_eq (x : AB) (next : Time) (kind : ItemKind) (item : Text) (u : TapeUnit) (latched : Flags30) (s : State) :
    fed x next kind item u latched s = setRibbon x
      (fedRibbon (.running (next + stepPeriod s x)) kind item (s.ribbons.get x)) (withUnit x u latched s) := rfl

@[simp] theorem withUnit_get (x : AB) (u : TapeUnit) (latched : Flags30) (s : State) :
    (withUnit x u latched s).tapes.get x = u := Pair.get_put_same ..

theorem setTape_withUnit (x : AB) (u v : TapeUnit) (latched : Flags30) (s : State) :
    setTape x u (withUnit x v latched s) = withUnit x u latched s := by
  unfold setTape withUnit
  rw [Pair.put_put]

/-- R126, steps 1 and 2: the evaluations replace the tape unit, and a change of the mode latches its condition. -/
theorem evaluateTape_eq {x : AB} {s : State} {v : TapeUnit} {latched : Flags30}
    (hv : v = evaluateMode (s.params.thresholds.get x) (s.tapes.get x).prints.length
      (evaluateLateness (latenessNow s.time (oldestJoined x s)) (s.tapes.get x)))
    (hlatched : latched = if v.mode = (s.tapes.get x).mode then s.feed.latched
      else s.feed.latched ||| (Condition.tapeModeChange x).flag) :
    evaluateTape x s = withUnit x v latched s := by
  unfold evaluateTape
  dsimp only
  rw [← hv, hlatched]
  split <;> rfl

/-! R127: the choice, item by item, for the tape unit `u`. -/

section

variable {x : AB} {s : State} {u : TapeUnit} {text : Text} (hu : s.tapes.get x = u)

include hu

theorem choosePrint_blank (h : u.prints = []) : choosePrint x s = (s, blankItem) := by
  simp only [choosePrint, hu, h]

theorem choosePrint_head {i : SlotIx} {more : List SlotIx} {r : Record} {d : DayPrices} (h : u.prints = i :: more)
    (hr : s.records[i] = some r) (hd : r.day = some d) : choosePrint x s = composeHead x i r d.last s := by
  simp only [choosePrint, hu, h, hr, hd]

theorem chooseItem_stagedNotice (h : u.staged = some text) :
    chooseItem x s = (setTape x { u with staged := none } s, noticeItem .stagedNotice text) := by
  simp only [chooseItem, hu, h]

variable (hstaged : u.staged = none)

include hstaged

theorem chooseItem_feedNotice (h : u.feedSlot = some text) :
    chooseItem x s = (setTape x { u with feedSlot := none } s, noticeItem .feedNotice text) := by
  simp only [chooseItem, hu, hstaged, h]

variable (hfeed : u.feedSlot = none)

include hfeed

theorem chooseItem_modeNotice (h : u.modeSlot = some text) :
    chooseItem x s = (setTape x { u with modeSlot := none } s, noticeItem .modeNotice text) := by
  simp only [chooseItem, hu, hstaged, hfeed, h]

variable (hmode : u.modeSlot = none)

include hmode

theorem chooseItem_latenessNotice (h : u.lateSlot = some text) :
    chooseItem x s = (setTape x { u with lateSlot := none } s, noticeItem .latenessNotice text) := by
  simp only [chooseItem, hu, hstaged, hfeed, hmode, h]

theorem chooseItem_noNotice (h : u.lateSlot = none) : chooseItem x s = choosePrint x s := by
  simp only [chooseItem, hu, hstaged, hfeed, hmode, h]

end

theorem pendingShares_held {s : State} {i : SlotIx} {r : Record} {p : PendingPrint} (hr : s.records[i] = some r)
    (hp : r.pending = some p) : pendingShares s i = p.shares := by
  simp only [pendingShares, hr, hp]

/-- R15, R114: a record whose pending print is gone keeps the rest, or is freed where it was RETIRING. -/
theorem takenOff_eq {s : State} {i : SlotIx} {r : Record} (hr : s.records[i] = some r) :
    reportGone i (setPendingPrint i none s) = { s with
      records := s.records.set i (if r.state = .retiring then none else some { r with pending := none })
      directory := if r.state = .retiring then s.directory.filter (fun e => e.2 != i) else s.directory } := by
  have hslot : (s.records.set i (some { r with pending := none }))[i] = some { r with pending := none } :=
    (Vec.set_get ..).trans (if_pos rfl)
  rw [setPendingPrint_held hr]
  unfold reportGone
  dsimp only
  rw [hslot]
  by_cases hstate : r.state = .retiring
  · simp [hstate, freeSlot]
  · simp [hstate]

/-- R114: the head composed, of a record with a pending print. -/
theorem composeHead_eq {x : AB} {s : State} {u : TapeUnit} {i : SlotIx} {r : Record} {p : PendingPrint}
    (hu : s.tapes.get x = u) (hr : s.records[i] = some r) (hp : r.pending = some p) (last : Nat) :
    composeHead x i r last s =
      ({ setTape x { u with prints := u.prints.tail, printed := u.printed + p.shares } s with
          records := s.records.set i (if r.state = .retiring then none else some { r with pending := none })
          directory := if r.state = .retiring then s.directory.filter (fun e => e.2 != i) else s.directory },
        (.print, printText u.mode r.symbol last p.shares)) := by
  unfold composeHead
  rw [hu, pendingShares_held hr hp]
  exact congrArg (·, _) (takenOff_eq (s := setTape x _ s) hr)

theorem printText_ne_nil (mode : PrintMode) (sym : Symbol) (last : Nat) (shares : Word32) :
    printText mode sym last shares ≠ [] := by
  cases mode <;> simp [printText, blanks]

theorem noticeItem_tail (kind : ItemKind) (text : Text) : (noticeItem kind text).2.tail ≠ [] := by
  cases text <;> simp [noticeItem, blanks]

/-- R126: a due step of a RUNNING ribbon with an empty feeder selects. -/
theorem stepRibbon_selects {x : AB} {s : State} {next : Time} (hrun : (s.ribbons.get x).state = .running next)
    (hdue : elapsed s.time next < 2 ^ 31) (hfeeder : (s.ribbons.get x).feeder = []) :
    stepRibbon x s = stepSelect x (.running (next + stepPeriod s x)) s := by
  have hstep : stepDue s.time next = true := decide_eq_true hdue
  simp only [stepRibbon, hrun, hstep, if_true, hfeeder]

/-- R125: an item selected that is not the whole of a staged notice enters with its first character and latches
nothing. -/
theorem stepSelect_fed {x : AB} {st : RibbonState} {s z : State} {kind : ItemKind} {item : Text}
    (hsel : select x s = (z, (kind, item))) (hitem : item ≠ []) (hkind : kind = .stagedNotice → item.tail ≠ []) :
    stepSelect x st s = setRibbon x (fedRibbon st kind item (s.ribbons.get x)) z := by
  have hribbons : z.ribbons = s.ribbons := by rw [← select_ribbons s x, hsel]
  obtain ⟨char, rest, rfl⟩ := List.exists_cons_of_ne_nil hitem
  have hlast : ¬ (kind = .stagedNotice ∧ rest = []) := fun h => hkind h.1 h.2
  simp only [stepSelect, hsel, enter, noteNoticeDone, if_neg hlast, hribbons]
  rfl

/-- R114, R126, R127: the step of the ribbon, given what the choice makes of the evaluated tape. -/
theorem stepEvent_fed {x : AB} {s : State} {next : Time} (hpor : s.por = false)
    (hrun : (s.ribbons.get x).state = .running next) (hdue : elapsed s.time next < 2 ^ 31)
    (hfeeder : (s.ribbons.get x).feeder = []) {z : State} {kind : ItemKind} {item : Text}
    (hchoice : chooseItem x (evaluateTape x s) = (z, (kind, item))) (hitem : item ≠ [])
    (hkind : kind = .stagedNotice → item.tail ≠ []) : exec (.stepEvent x) s
      = .next (setRibbon x (fedRibbon (.running (next + stepPeriod s x)) kind item (s.ribbons.get x)) z) := by
  refine (powered_eq hpor).trans (congrArg _ ?_)
  rw [stepRibbon_selects hrun hdue hfeeder, stepSelect_fed hchoice hitem hkind]

/-- Settles O45: the evaluations by `evaluateTape_eq`, then the choice item by item. -/
theorem selectionFeedsItem : Obligations.SelectionFeedsItem := by
  intro x s next v latched hpor hrun hdue hfeeder hv hlatched
  have heval : evaluateTape x s = withUnit x v latched s := evaluateTape_eq hv hlatched
  have hunit : ((withUnit x v latched s).tapes.get x) = v := withUnit_get ..
  have fedItem : ∀ {z kind item}, chooseItem x (withUnit x v latched s) = (z, (kind, item)) → item ≠ [] →
      (kind = .stagedNotice → item.tail ≠ []) → exec (.stepEvent x) s
        = .next (setRibbon x (fedRibbon (.running (next + stepPeriod s x)) kind item (s.ribbons.get x)) z) :=
    fun hchoice => stepEvent_fed hpor hrun hdue hfeeder (heval ▸ hchoice)
  have fedNotice : ∀ {u kind text}, chooseItem x (withUnit x v latched s)
      = (setTape x u (withUnit x v latched s), noticeItem kind text) → exec (.stepEvent x) s
        = .next (fed x next kind (text ++ [0x20, 0x20, 0x20]) u latched s) := fun {u kind text} hchoice => by
    rw [fed_eq, ← setTape_withUnit x u v latched s]
    exact fedItem hchoice (List.append_ne_nil_of_right_ne_nil _ (by decide)) fun _ => noticeItem_tail kind text
  refine ⟨fun text h => fedNotice (chooseItem_stagedNotice hunit h), fun hstaged =>
    ⟨fun text h => fedNotice (chooseItem_feedNotice hunit hstaged h), fun hfeed =>
    ⟨fun text h => fedNotice (chooseItem_modeNotice hunit hstaged hfeed h), fun hmode =>
    ⟨fun text h => fedNotice (chooseItem_latenessNotice hunit hstaged hfeed hmode h), fun hlate => ?_⟩⟩⟩⟩
  have hprint := chooseItem_noNotice hunit hstaged hfeed hmode hlate
  refine ⟨fun hprints => ?_, fun i more r d p hprints hr hd hp => ?_⟩
  · exact fedItem (hprint.trans (choosePrint_blank hunit hprints)) (by decide) nofun
  · have hhead := choosePrint_head (s := withUnit x v latched s) hunit hprints hr hd
    have hcomposed := composeHead_eq (s := withUnit x v latched s) hunit hr hp d.last
    rw [setTape_withUnit, hprints] at hcomposed
    exact fedItem (hprint.trans (hhead.trans hcomposed)) (printText_ne_nil _ _ _ _) nofun

end Sys2Proof.Machine

/-! ### The law of the feed link interface (R130, R161, R162, R165, R167) -/

namespace Sys2Proof.Machine

/-- Settles O11: every command and the passing of an interval keep the law. -/
theorem interfaceLawKept : Obligations.InterfaceLawKept := fun _ _ h he => interface_kept.step h he

end Sys2Proof.Machine

/-! ### TAPE START and TAPE STOP (R123) -/

namespace Sys2Proof.Machine

theorem applyTapeStart_range {b : List Byte} (h : tapeOfCode (byteAt b 0) = none) (s : State) :
    applyTapeStart b s = refuse .range s := by
  simp only [applyTapeStart, h]

theorem applyTapeStop_range {b : List Byte} (h : tapeOfCode (byteAt b 0) = none) (s : State) :
    applyTapeStop b s = refuse .range s := by
  simp only [applyTapeStop, h]

/-- R123: the reply carries the ribbon state that the ribbon has been given. -/
theorem ribbonAnswer_setRibbon (x : AB) (r : Ribbon) (s : State) :
    ribbonAnswer x (setRibbon x r s) = (setRibbon x r s, ⟨.ok, [tapeCode x, r.state.code]⟩) := by
  rw [ribbonAnswer, setRibbon_ribbons, Pair.get_put_same]

section

variable {b : List Byte} {x : AB} (hx : byteAt b 0 = tapeCode x) {st : RibbonState} {s : State}

include hx

theorem applyTapeStart_taken (hst : startedState s.time (stepPeriod s x) (s.ribbons.get x).state = st) :
    applyTapeStart b s
      = (setRibbon x { s.ribbons.get x with state := st } s, ⟨.ok, [tapeCode x, st.code]⟩) := by
  simp only [applyTapeStart, hx, tapeOfCode_code, startTape, hst, ribbonAnswer_setRibbon]

theorem applyTapeStop_taken (hst : stoppedState (s.ribbons.get x).feeder (s.ribbons.get x).state = st) :
    applyTapeStop b s
      = (setRibbon x { s.ribbons.get x with state := st } s, ⟨.ok, [tapeCode x, st.code]⟩) := by
  simp only [applyTapeStop, hx, tapeOfCode_code, stopTape, hst, ribbonAnswer_setRibbon]

end

/-- Settles O41: the refusal by the tape code, and the table of R123 by the ribbon state before. -/
theorem tapeStartedAndStopped : Obligations.TapeStartedAndStopped := by
  refine ⟨fun f s h hlen => ?_, fun f s h hlen => ?_⟩
  · have hfit : Kind.tapeStart.lengthFits f.body.length = true := by simp [Kind.lengthFits, hlen]
    refine ⟨fun hcode => ?_, fun x st hx hst => ?_⟩
    · rw [field_one] at hcode
      exact command_refused (k := .tapeStart) h hfit (applyTapeStart_range (tapeOfCode_above hcode) _)
    · have htable : startedState s.time (stepPeriod s x) (s.ribbons.get x).state = st := by
        rw [hst]
        cases (s.ribbons.get x).state <;> rfl
      exact command_accepted (k := .tapeStart) h hfit (applyTapeStart_taken (s := removeHead s) hx htable)
  · have hfit : Kind.tapeStop.lengthFits f.body.length = true := by simp [Kind.lengthFits, hlen]
    refine ⟨fun hcode => ?_, fun x st hx hst => ?_⟩
    · rw [field_one] at hcode
      exact command_refused (k := .tapeStop) h hfit (applyTapeStop_range (tapeOfCode_above hcode) _)
    · have htable : stoppedState (s.ribbons.get x).feeder (s.ribbons.get x).state = st := by
        rw [hst]
        cases (s.ribbons.get x).state <;> rfl
      exact command_accepted (k := .tapeStop) h hfit (applyTapeStop_taken (s := removeHead s) hx htable)

end Sys2Proof.Machine

/-! ### NOTICE (R132) -/

namespace Sys2Proof.Machine

/-- R132, step 1. -/
theorem textFits_iff {text : Text} :
    textFits text = true ↔ 1 ≤ text.length ∧ text.length ≤ 32 ∧ ∀ g ∈ text, displayable g = true := by
  simp [textFits, and_assoc]

theorem textFits_false {text : Text} (h : ∃ g ∈ text, displayable g = false) : textFits text = false := by
  obtain ⟨g, hg, hbad⟩ := h
  exact Bool.eq_false_iff.mpr fun hfit => Bool.false_ne_true (hbad.symm.trans ((textFits_iff.mp hfit).2.2 g hg))

theorem applyNotice_malformed {b : List Byte} (h : textFits b.tail = false) (s : State) :
    applyNotice b s = refuse .malformed s := by
  simp [applyNotice, h]

section

/-! R132: a NOTICE whose text has passed step 1. -/

variable {b : List Byte} (hfits : textFits b.tail = true) {s : State}

include hfits

theorem applyNotice_range (h : tapeOfCode (byteAt b 0) = none) : applyNotice b s = refuse .range s := by
  simp [applyNotice, hfits, h]

variable {x : AB} (hx : byteAt b 0 = tapeCode x)

include hx

theorem applyNotice_busy (h : (s.tapes.get x).staged ≠ none) : applyNotice b s = refuse .busy s := by
  simp [applyNotice, hfits, hx, tapeOfCode_code, Option.isSome_iff_ne_none.mpr h]

theorem applyNotice_staged (h : (s.tapes.get x).staged = none) :
    applyNotice b s = (stageNotice x b.tail s, ⟨.ok, [tapeCode x]⟩) := by
  simp [applyNotice, hfits, hx, tapeOfCode_code, h]

end

/-- Settles O43: the checks of R132 in their order, and the staging. -/
theorem noticeStaged : Obligations.NoticeStaged := by
  rintro f s text h hlen hpos hmax rfl
  have hfit : Kind.notice.lengthFits f.body.length = true := by simp [Kind.lengthFits]; omega
  have refused : ∀ {status}, applyNotice f.body (removeHead s) = refuse status (removeHead s) →
      exec .notice s = .next (turnedAway f status s) := fun ha => command_refused (k := .notice) h hfit ha
  refine ⟨fun hbad => refused (applyNotice_malformed (textFits_false hbad) _), fun hgood => ?_⟩
  have htext : textFits f.body.tail = true := textFits_iff.mpr ⟨hpos, hmax, hgood⟩
  refine ⟨fun hcode => ?_, fun x hx => ⟨fun hfull => ?_, fun hempty => ?_⟩⟩
  · rw [field_one] at hcode
    exact refused (applyNotice_range htext (tapeOfCode_above hcode))
  · exact refused (applyNotice_busy (s := removeHead s) htext hx hfull)
  · exact command_accepted (k := .notice) h hfit (applyNotice_staged (s := removeHead s) htext hx hempty)

end Sys2Proof.Machine

/-! ### The steps of a ribbon with characters in its feeder (R122, R124, R125, R133) -/

namespace Sys2Proof.Machine

/-- R122, R125, R133: what the entry of a character changes. -/
theorem enter_eq (x : AB) (st : RibbonState) (kind : ItemKind) (char : Byte) (rest : Text) (s : State) :
    enter x st kind char rest s = { s with
      ribbons := s.ribbons.put x ⟨st, if rest = [] then .blank else kind, rest, char, (s.ribbons.get x).strobes + 1⟩
      feed := { s.feed with
        latched := if kind = .stagedNotice ∧ rest = [] then s.feed.latched ||| (Condition.noticeDone x).flag
          else s.feed.latched } } := by
  unfold enter noteNoticeDone
  split <;> rfl

section

variable {x : AB} {s : State} {next : Time}

/-- R124: a STOPPED ribbon makes no step. -/
theorem stepRibbon_stopped (h : (s.ribbons.get x).state = .stopped) : stepRibbon x s = s := by
  simp only [stepRibbon, h]

/-- R124: no step comes before the step time. -/
theorem stepRibbon_early (hst : (s.ribbons.get x).state = .running next ∨ (s.ribbons.get x).state = .stopping next)
    (h : 2 ^ 31 ≤ elapsed s.time next) : stepRibbon x s = s := by
  have hearly : ¬ stepDue s.time next = true := fun hdue => Nat.not_lt.mpr h (of_decide_eq_true hdue)
  rcases hst with hst | hst <;> simp only [stepRibbon, hst, if_neg hearly]

variable {char : Byte} {rest : Text} (hfeeder : (s.ribbons.get x).feeder = char :: rest)
  (hdue : elapsed s.time next < 2 ^ 31)

include hfeeder hdue

/-- R125: a due step of a RUNNING ribbon with characters in its feeder. -/
theorem stepRibbon_running (hst : (s.ribbons.get x).state = .running next) : stepRibbon x s
    = enter x (.running (next + stepPeriod s x)) (s.ribbons.get x).kind char rest s := by
  have hstep : stepDue s.time next = true := decide_eq_true hdue
  simp only [stepRibbon, hst, hstep, if_true, hfeeder]

/-- R125: a due step of a STOPPING ribbon, which stops with the last character. -/
theorem stepRibbon_stopping (hst : (s.ribbons.get x).state = .stopping next) : stepRibbon x s
    = enter x (if rest = [] then .stopped else .stopping (next + stepPeriod s x)) (s.ribbons.get x).kind char rest
      s := by
  have hstep : stepDue s.time next = true := decide_eq_true hdue
  simp only [stepRibbon, hst, hstep, if_true, hfeeder]

end

/-- Settles O44: no step without a due step time, else the entry of the first character by the ribbon state. -/
theorem stepMovesFeeder : Obligations.StepMovesFeeder := by
  rintro x s r period hpor rfl rfl
  have stepped : ∀ {t}, stepRibbon x s = t → exec (.stepEvent x) s = .next t := fun ht =>
    (powered_eq hpor).trans (congrArg _ ht)
  refine ⟨fun hst => stepped (stepRibbon_stopped hst), fun next hst hearly => stepped (stepRibbon_early hst hearly), ?_⟩
  intro next char rest st hfeeder hdue hst
  have hentered : stepRibbon x s = enter x st (s.ribbons.get x).kind char rest s := by
    rcases hst with ⟨hrun, rfl⟩ | ⟨hstop, rfl⟩
    · exact stepRibbon_running hfeeder hdue hrun
    · exact stepRibbon_stopping hfeeder hdue hstop
  exact stepped (hentered.trans (enter_eq ..))

end Sys2Proof.Machine

/-! ### The evaluations of a selection (R129, R131) -/

namespace Sys2Proof.Machine

/-! #### The lateness (R129) -/

theorem oldestJoined_empty {x : AB} {s : State} (h : (s.tapes.get x).prints = []) : oldestJoined x s = none := by
  simp only [oldestJoined, h]

theorem oldestJoined_head {x : AB} {s : State} {i : SlotIx} {more : List SlotIx} {r : Record} {p : PendingPrint}
    (h : (s.tapes.get x).prints = i :: more) (hr : s.records[i] = some r) (hp : r.pending = some p) :
    oldestJoined x s = some p.joined := by
  simp only [oldestJoined, h, hr, Option.bind_some, hp, Option.map_some]

theorem evaluateLateness_same {m : Nat} {u : TapeUnit} (h : m = u.lateness) : evaluateLateness m u = u := if_pos h

theorem evaluateLateness_changed {m : Nat} {u : TapeUnit} (h : m ≠ u.lateness) : evaluateLateness m u
    = { u with lateSlot := some (if m = 0 then onTimeText else lateText m), lateness := m } := if_neg h

/-- R128, R129: a lateness has one or two digits. -/
theorem digits_upTo_99 {m : Nat} (h : m ≤ 99) :
    digits m = if m < 10 then [byte (0x30 + m)] else [byte (0x30 + m / 10), byte (0x30 + m % 10)] := by
  split
  · next hlt => exact digits_one hlt
  · rw [digits_more (by omega), digits_one (by omega), List.singleton_append]

/-! #### The mode (R131) -/

section

variable {th : Thresholds} {backlog : Nat}

theorem evaluateMode_kept {u : TapeUnit} {count : Nat}
    (h : modeAfter th backlog u.mode u.modeCount = (u.mode, count)) :
    evaluateMode th backlog u = { u with modeCount := count } := by
  simp only [evaluateMode, h, if_true]

theorem evaluateMode_changed {u : TapeUnit} {mode : PrintMode} (hne : mode ≠ u.mode)
    (h : modeAfter th backlog u.mode u.modeCount = (mode, 0)) : evaluateMode th backlog u
      = { u with mode := mode, modeCount := 0, modeSlot := some (modeText mode) } := by
  simp only [evaluateMode, h, if_neg hne]

variable {lower here : PrintMode} {k count : Nat}

theorem countToward_counts (h : min (count + 1) 255 < k) :
    countToward lower here k count = (here, min (count + 1) 255) := if_neg (Nat.not_le.mpr h)

theorem countToward_falls (h : k ≤ min (count + 1) 255) : countToward lower here k count = (lower, 0) := if_pos h

theorem modeAfter_rises_bare {mode : PrintMode} (hmode : mode ≠ .bare) (h : th.eb ≤ backlog) :
    modeAfter th backlog mode count = (.bare, 0) := by
  cases mode with
  | full => exact if_pos h
  | cut => exact if_pos h
  | bare => exact absurd rfl hmode

theorem modeAfter_full_rises (h : th.ec ≤ backlog) (hb : backlog < th.eb) :
    modeAfter th backlog .full count = (.cut, 0) := (if_neg (Nat.not_le.mpr hb)).trans (if_pos h)

theorem modeAfter_full_stays (h : backlog < th.ec) (hb : backlog < th.eb) :
    modeAfter th backlog .full count = (.full, count) :=
  (if_neg (Nat.not_le.mpr hb)).trans (if_neg (Nat.not_le.mpr h))

theorem modeAfter_cut_low (h : backlog ≤ th.lc) (hb : backlog < th.eb) :
    modeAfter th backlog .cut count = countToward .full .cut th.k count :=
  (if_neg (Nat.not_le.mpr hb)).trans (if_pos h)

theorem modeAfter_cut_stays (h : th.lc < backlog) (hb : backlog < th.eb) :
    modeAfter th backlog .cut count = (.cut, 0) := (if_neg (Nat.not_le.mpr hb)).trans (if_neg (Nat.not_le.mpr h))

theorem modeAfter_bare_low (h : backlog ≤ th.lb) :
    modeAfter th backlog .bare count = countToward .cut .bare th.k count := if_pos h

theorem modeAfter_bare_stays (h : th.lb < backlog) : modeAfter th backlog .bare count = (.bare, 0) :=
  if_neg (Nat.not_le.mpr h)

end

/-- Settles O46: the lateness by whether it differs from the announced one, the mode by its level and the backlog. -/
theorem selectionEvaluations : Obligations.SelectionEvaluations := by
  refine ⟨fun x s now => ⟨fun h => ?_, fun i more r p h hr hp => ?_⟩, fun m u hm => ⟨evaluateLateness_same, ?_, ?_⟩, ?_⟩
  · rw [oldestJoined_empty h]
    rfl
  · rw [oldestJoined_head h hr hp]
    rfl
  · rintro hne rfl
    exact evaluateLateness_changed hne
  · intro hne hpos
    rw [evaluateLateness_changed hne, if_neg (by omega), lateText, digits_upTo_99 hm]
  · rintro th backlog count u ⟨_, _, _, _, _, hlcec, heceb, _⟩ rfl
    obtain ⟨prints, backlogMax, accepted, printed, withdrawn, mode, modeCount, staged, feedSlot, modeSlot, lateSlot,
      lateness⟩ := u
    dsimp only
    refine ⟨fun hmode heb => ?_, ?_, ?_, ?_, ?_, ?_, ?_, ?_, ?_⟩
    · exact evaluateMode_changed hmode.symm (modeAfter_rises_bare hmode heb)
    · rintro rfl hec heb
      exact evaluateMode_changed nofun (modeAfter_full_rises hec heb)
    · rintro rfl hec
      exact evaluateMode_kept (modeAfter_full_stays hec (by omega))
    · rintro rfl hlc hk
      exact evaluateMode_kept ((modeAfter_cut_low hlc (by omega)).trans (countToward_counts hk))
    · rintro rfl hlc hk
      exact evaluateMode_changed nofun ((modeAfter_cut_low hlc (by omega)).trans (countToward_falls hk))
    · rintro rfl hlc heb
      exact evaluateMode_kept (modeAfter_cut_stays hlc heb)
    · rintro rfl hlb hk
      exact evaluateMode_kept ((modeAfter_bare_low hlb).trans (countToward_counts hk))
    · rintro rfl hlb hk
      exact evaluateMode_changed nofun ((modeAfter_bare_low hlb).trans (countToward_falls hk))
    · rintro rfl hlb
      exact evaluateMode_kept (modeAfter_bare_stays hlb)

end Sys2Proof.Machine

/-! ### The laws of the terminal lines (R138 to R140, R143, R146) -/

namespace Sys2Proof.Machine

/-- Settles O10: every command and the passing of an interval keep the law, operation by operation. -/
theorem terminalLawsKept : Obligations.TerminalLawsKept := fun _ _ h he => terminals_kept.step h he

end Sys2Proof.Machine

/-! ### Rounds: due drops, and where a round goes on (R139) -/

namespace Sys2Proof.Machine

/-- R139: the test of the model for a due terminal. -/
theorem due_iff {t : Terminal} {counter : BitVec 16} {spacing : Nat} :
    t.due counter spacing = true ↔ IsDue t counter spacing := by
  simp [Terminal.due, IsDue]

section

variable {s : State} {line : LineIx} {counter : BitVec 16} {spacing start : Nat}

/-- R139: the next due drop is the first from the round's place that is due. -/
theorem nextDue_of_first {d : DropIx} (hstart : start ≤ d.val)
    (hdue : IsDue s.terminals[terminalAt line d] counter spacing)
    (hfirst : ∀ e : DropIx, start ≤ e.val → e < d → ¬ IsDue s.terminals[terminalAt line e] counter spacing) :
    nextDue s line counter spacing start = some d := by
  refine List.find?_eq_some_iff_getElem.mpr ⟨?_, d.val, by simp, by simp, fun j hj => ?_⟩
  · rw [due_iff.mpr hdue, decide_eq_true hstart]
    rfl
  · rw [List.getElem_finRange, Bool.not_eq_true', Bool.and_eq_false_iff, decide_eq_false_iff_not,
      Bool.eq_false_iff, Ne, due_iff]
    exact (Decidable.em (start ≤ j)).elim (fun hle => .inr (hfirst _ hle hj)) .inl

/-- R139: no due drop is left. -/
theorem nextDue_eq_none : nextDue s line counter spacing start = none
    ↔ ∀ d : DropIx, start ≤ d.val → ¬ IsDue s.terminals[terminalAt line d] counter spacing := by
  simp [nextDue, List.find?_eq_none, due_iff]

/-- R139: a due drop is left. -/
theorem nextDue_isSome (h : ∃ d : DropIx, start ≤ d.val ∧ IsDue s.terminals[terminalAt line d] counter spacing) :
    ∃ d, nextDue s line counter spacing start = some d := by
  obtain ⟨d, hle, hdue⟩ := h
  exact Option.ne_none_iff_exists'.mp fun hnone => nextDue_eq_none.mp hnone d hle hdue

theorem anyEnabled_iff : anyEnabled s line = true ↔ ∃ d : DropIx, s.terminals[terminalAt line d].enabled = true := by
  simp [anyEnabled, List.any_eq_true]

theorem anyEnabled_false : anyEnabled s line = false
    ↔ ∀ d : DropIx, s.terminals[terminalAt line d].enabled = false := by
  simp [anyEnabled, List.any_eq_false]

/-- R139: the round that begins, and its stage. -/
theorem beginRound_eq (line : LineIx) (counter : BitVec 16) (s : State) :
    ∃ round, RoundBegins s line counter round ∧ beginRound line counter s
      = setLine line (fun l => { l with counter := counter, spacing := s.params.probeSpacing, round := round }) s := by
  refine ⟨_, ⟨fun ⟨d, hdue⟩ => ?_, fun hnone => ?_⟩, rfl⟩
  · obtain ⟨e, he⟩ := nextDue_isSome (start := 0) ⟨d, Nat.zero_le _, hdue⟩
    rw [he]
  · rw [nextDue_eq_none.mpr fun d _ => hnone d]

/-- R139: the line becomes IDLE where no drop is enabled. -/
theorem advanceRound_idle (h : anyEnabled s line = false) :
    advanceRound line s = setLine line (fun l => { l with round := .idle }) s := by
  simp only [advanceRound, h, Bool.false_eq_true, if_false]

section

variable (hen : anyEnabled s line = true)

include hen

/-- R139: an IDLE line with a drop enabled begins a round of its counter. -/
theorem advanceRound_leaves_idle (hr : s.lines[line].round = .idle) :
    advanceRound line s = beginRound line s.lines[line].counter s := by
  simp only [advanceRound, hen, if_true, hr]

/-- R148, log 21: a line that waits for quiet, and an empty round, go on as they stand. -/
theorem advanceRound_waiting {since : Time}
    (hr : s.lines[line].round = .quiet since ∨ s.lines[line].round = .empty since) : advanceRound line s = s := by
  rcases hr with hr | hr <;> simp only [advanceRound, hen, if_true, hr]

/-- Log 21: a round that has reached no drop and finds none due is an empty one. -/
theorem advanceRound_empties (hr : s.lines[line].round = .atDrop 0)
    (hnone : ∀ d : DropIx, ¬ IsDue s.terminals[terminalAt line d] s.lines[line].counter s.lines[line].spacing) :
    advanceRound line s = setLine line (fun l => { l with round := .empty s.time }) s := by
  have hnext := (nextDue_eq_none (start := 0)).mpr fun d _ => hnone d
  simp only [advanceRound, hen, if_true, hr, hnext]

variable {next : Nat} (hr : s.lines[line].round = .atDrop next)

include hr

/-- R139: the round goes on where a due drop is left. -/
theorem advanceRound_goes_on
    (hdue : ∃ d : DropIx, next ≤ d.val
      ∧ IsDue s.terminals[terminalAt line d] s.lines[line].counter s.lines[line].spacing) :
    advanceRound line s = s := by
  obtain ⟨d, hd⟩ := nextDue_isSome hdue
  simp only [advanceRound, hen, if_true, hr, hd]

/-- R139: the round ends where no due drop is left, and the next one begins. -/
theorem advanceRound_ends (hpos : next ≠ 0)
    (hnone : ∀ d : DropIx, next ≤ d.val
      → ¬ IsDue s.terminals[terminalAt line d] s.lines[line].counter s.lines[line].spacing) :
    advanceRound line s = beginRound line (s.lines[line].counter + 1) s := by
  simp only [advanceRound, hen, if_true, hr, nextDue_eq_none.mpr hnone, if_neg hpos]

end

end

/-- A drop that is due is enabled. -/
theorem anyEnabled_of_due {s : State} {line : LineIx} {counter : BitVec 16} {spacing : Nat}
    (h : ∃ d : DropIx, IsDue s.terminals[terminalAt line d] counter spacing) : anyEnabled s line = true := by
  obtain ⟨d, hen, _⟩ := h
  exact anyEnabled_iff.mpr ⟨d, hen⟩

theorem setLine_get_same (line : LineIx) (f : Line → Line) (s : State) :
    (setLine line f s).lines[line] = f s.lines[line] := (setLine_get ..).trans (if_pos rfl)

/-- A line changed twice. -/
theorem setLine_setLine (line : LineIx) (f g : Line → Line) (s : State) :
    setLine line g (setLine line f s) = setLine line (fun l => g (f l)) s := by
  have hlines : (setLine line g (setLine line f s)).lines = (setLine line (fun l => g (f l)) s).lines :=
    Vec.ext_get _ _ fun x => by
      rw [setLine_get, setLine_get, setLine_get]
      split <;> rfl
  exact congrArg (fun lines => { s with lines := lines }) hlines

/-- What a command answers whose effect on a powered machine is known. -/
theorem powered_next {f : State → State} {s t : State} (hpor : s.por = false) (h : f s = t) :
    powered f s = .next t := (powered_eq hpor).trans (congrArg _ h)

/-! #### The end of a visit and of an empty round -/

section

variable {line : LineIx} {s : State}

theorem expireSettling_eq {v : Visit} {since : Time} (hv : s.lines[line].visit = some v)
    (hphase : v.phase = .settling since) :
    expireSettling line s = if Config.quietIntervals ≤ elapsed s.time since then endVisit line s else s := by
  simp only [expireSettling, hv, hphase]

theorem endEmptyRound_eq {began : Time} (hr : s.lines[line].round = .empty began) : endEmptyRound line s
    = if 1 ≤ elapsed s.time began then beginRound line (s.lines[line].counter + 1) s else s := by
  simp only [endEmptyRound, hr]

/-- R139, R141: a visit ends on a line with no drop enabled. -/
theorem endVisit_idle (h : ∀ d : DropIx, s.terminals[terminalAt line d].enabled = false) :
    endVisit line s = setLine line (fun l => { l with visit := none, round := .idle }) s := by
  have hnone := anyEnabled_false (s := setLine line (fun l => { l with visit := none }) s).mpr h
  rw [endVisit, advanceRound_idle hnone, setLine_setLine]

section

variable {next : Nat} (hr : s.lines[line].round = .atDrop next)

include hr

/-- R139, R141: a visit ends with a due drop left in its round. -/
theorem endVisit_goes_on
    (h : ∃ d : DropIx, next ≤ d.val
      ∧ IsDue s.terminals[terminalAt line d] s.lines[line].counter s.lines[line].spacing) :
    endVisit line s = setLine line (fun l => { l with visit := none }) s := by
  have hline := setLine_get_same line (fun l => { l with visit := none }) s
  obtain ⟨d, _, hdue⟩ := id h
  have hen := anyEnabled_of_due (s := setLine line (fun l => { l with visit := none }) s) ⟨d, hdue⟩
  refine advanceRound_goes_on hen (next := next) (by rw [hline]; exact hr) ?_
  rw [hline]
  exact h

/-- R139, R141: a visit ends, and its round with it. -/
theorem endVisit_ends (hpos : next ≠ 0) (hen : ∃ d : DropIx, s.terminals[terminalAt line d].enabled = true)
    (h : ∀ d : DropIx, next ≤ d.val
      → ¬ IsDue s.terminals[terminalAt line d] s.lines[line].counter s.lines[line].spacing) :
    endVisit line s = beginRound line (s.lines[line].counter + 1) (setLine line (fun l => { l with visit := none }) s) := by
  have hline := setLine_get_same line (fun l => { l with visit := none }) s
  have hany := anyEnabled_iff (s := setLine line (fun l => { l with visit := none }) s).mpr hen
  refine (advanceRound_ends hany (next := next) (by rw [hline]; exact hr) hpos ?_).trans ?_
  · rw [hline]
    exact h
  · rw [hline]

end

end

/-- Settles O51: the end of a settling visit, where its round goes on, and the end of an empty round. -/
theorem roundGoesOn : Obligations.RoundGoesOn := by
  refine ⟨fun line s v since hpor hv hphase => ?_, ?_, ?_⟩
  · have hend := powered_next hpor (expireSettling_eq hv hphase)
    exact ⟨fun hlt => hend.trans (congrArg _ (if_neg (Nat.not_le.mpr hlt))),
      fun hle => hend.trans (congrArg _ (if_pos hle))⟩
  · rintro line s l next rfl hr hpos
    refine ⟨endVisit_idle, endVisit_goes_on hr, fun hen hnone => ?_⟩
    obtain ⟨round, hbegins, heq⟩ := beginRound_eq line (s.lines[line].counter + 1)
      (setLine line (fun l => { l with visit := none }) s)
    refine ⟨round, hbegins, ?_⟩
    rw [endVisit_ends hr (Nat.ne_of_gt hpos) hen hnone, heq, setLine_setLine]
    rfl
  · rintro line s l began hpor rfl hr
    have hend := powered_next hpor (endEmptyRound_eq hr)
    refine ⟨fun hnow => hend.trans (by rw [if_neg (by omega)]), fun hle => ?_⟩
    obtain ⟨round, hbegins, heq⟩ := beginRound_eq line (s.lines[line].counter + 1) s
    refine ⟨round, hbegins, hend.trans ?_⟩
    rw [if_pos hle, heq]
    rfl

end Sys2Proof.Machine

/-! ### Visits (R139 to R141, R148) -/

namespace Sys2Proof.Machine

/-! #### The frame of a visit (R140) -/

section

variable {s : State} {t : Terminal}

/-- R140, line 1. -/
theorem formFrame_answer {frame : TermFrame} (h : t.answer = some frame) :
    formFrame s t = ⟨frame, .answer frame, { t with answer := none }⟩ := by
  simp only [formFrame, h]

variable (ha : t.answer = none)

include ha

/-- R140, line 4. -/
theorem formFrame_poll (h : t.dirty = []) : formFrame s t = ⟨pollFrame, .nothing, t⟩ := by
  simp only [formFrame, ha, h, sendPoll]

variable {sym : Symbol} {rest : List Symbol} (hd : t.dirty = sym :: rest)

include hd

/-- R140, line 2. -/
theorem formFrame_update {i : SlotIx} {r : Record} (he : t.entryOf sym = some ⟨sym, .active i⟩)
    (hr : s.records[i] = some r) :
    formFrame s t = ⟨updateFrame s.feed.stale i r, .active sym, { t with dirty := rest }⟩ := by
  simp only [formFrame, ha, hd, he, sendUpdate, hr]

/-- R140, line 3. -/
theorem formFrame_notice (he : t.entryOf sym = some ⟨sym, .dropped⟩) :
    formFrame s t = ⟨droppedFrame s.feed.stale sym, .dropped sym (t.placeOf sym),
      { t with dirty := rest, watch := t.without sym }⟩ := by
  simp only [formFrame, ha, hd, he, sendUpdate]

end

theorem Terminal.without_eq (t : Terminal) (sym : Symbol) :
    t.without sym = t.watch.filter (fun w => w.symbol ≠ sym) :=
  List.filter_congr fun w _ => Bool.eq_iff_iff.mpr (by rw [bne_iff_ne, decide_eq_true_iff])

/-! #### The beginning of a visit -/

section

variable {s : State} {line : LineIx} {d : DropIx}

/-- R139: a visit begins in a round that has not passed its next due drop. -/
theorem visitLine_atDrop {start : Nat} (hv : s.lines[line].visit = none) (hr : s.lines[line].round = .atDrop start)
    (hd : nextDue s line s.lines[line].counter s.lines[line].spacing start = some d) :
    visitLine line s = beginVisit line d s := by
  simp only [visitLine, visitNext, hv, hr, hd]

/-- R148: after 2 quiet intervals round 0 begins, with the probe spacing that stands. -/
theorem visitLine_quiet {since : Time} (hv : s.lines[line].visit = none) (hr : s.lines[line].round = .quiet since)
    (hq : 2 ≤ elapsed s.time since)
    (hd : nextDue s line s.lines[line].counter s.params.probeSpacing 0 = some d) :
    visitLine line s = beginVisit line d (setLine line (fun l => { l with spacing := s.params.probeSpacing }) s) := by
  have hline := setLine_get_same line (fun l => { l with spacing := s.params.probeSpacing }) s
  have hd' : nextDue (setLine line (fun l => { l with spacing := s.params.probeSpacing }) s) line
      s.lines[line].counter s.params.probeSpacing 0 = some d := hd
  simp only [visitLine, hv, hr, if_pos (show Config.quietIntervals ≤ elapsed s.time since from hq), visitNext, hline,
    hd']

/-- R140: the state with the visit of the drop begun, its round having the probe spacing given. -/
theorem beginVisit_eq (spacing : Nat) :
    beginVisit line d (setLine line (fun l => { l with spacing := spacing }) s) = { s with
      lines := s.lines.set line { s.lines[line] with
        round := .atDrop (d.val + 1), spacing := spacing
        visit := some ⟨d, (formFrame s s.terminals[terminalAt line d]).frame,
          (formFrame s s.terminals[terminalAt line d]).outstanding, .sending, false⟩ }
      terminals := s.terminals.set (terminalAt line d) (formFrame s s.terminals[terminalAt line d]).terminal } := by
  unfold beginVisit
  dsimp only
  rw [setLine_setLine]
  rfl

/-- Where the round keeps its probe spacing, nothing is written to it. -/
theorem setLine_spacing_same : setLine line (fun l => { l with spacing := s.lines[line].spacing }) s = s := by
  have hlines : Vec.update s.lines line (fun l => { l with spacing := s.lines[line].spacing }) = s.lines :=
    Vec.ext_get _ _ fun x => by
      rw [Vec.update_get]
      split
      · next hx => rw [hx]
      · rfl
  exact congrArg (fun lines => { s with lines := lines }) hlines

end

/-! #### The reply window -/

/-- R141: the window opens when the frame has been sent. -/
theorem openWindow_sending {line : LineIx} {s : State} {v : Visit} (hv : s.lines[line].visit = some v)
    (hphase : v.phase = .sending) :
    openWindow line s = setVisitPhase line v (.window s.time s.params.replyWindow) s := by
  simp only [openWindow, hv, hphase]

/-- Settles O48: the next due drop in either stage of the round, the frame by the lines of R140, and the window. -/
theorem visitBegins : Obligations.VisitBegins := by
  refine ⟨?_, fun line s v hpor hv hphase => powered_next hpor (openWindow_sending hv hphase)⟩
  rintro line s l start spacing d t hpor rfl hv hr rfl hstart hdue hfirst
  have hnext : nextDue s line s.lines[line].counter spacing start = some d := nextDue_of_first hstart hdue hfirst
  have hvisit : visitLine line s
      = beginVisit line d (setLine line (fun l => { l with spacing := spacing }) s) := by
    rcases hr with ⟨hr, rfl⟩ | ⟨since, hr, hq, rfl, rfl⟩
    · rw [setLine_spacing_same]
      exact visitLine_atDrop hv hr hnext
    · exact visitLine_quiet hv hr hq hnext
  refine ⟨_, _, _, powered_next hpor (hvisit.trans (beginVisit_eq spacing)), fun a ha => ?_, fun ha =>
    ⟨fun hd => ?_, fun sym rest i r hd he hrec => ?_, fun sym rest hd he => ?_⟩⟩
  · rw [formFrame_answer ha]
    exact ⟨rfl, rfl, rfl⟩
  · rw [formFrame_poll ha hd]
    exact ⟨rfl, rfl, rfl⟩
  · rw [formFrame_update ha hd he hrec]
    exact ⟨rfl, rfl, rfl⟩
  · rw [formFrame_notice ha hd he, Terminal.without_eq]
    exact ⟨rfl, rfl, rfl⟩

end Sys2Proof.Machine

/-! ### Misses (R143, R146) -/

namespace Sys2Proof.Machine

section

variable {t : Terminal}

/-- R150: the mark of one entry. -/
theorem Terminal.mark_eq (ht : t.takesMarks = true) (sym : Symbol) :
    t.mark sym = { t with dirty := if sym ∈ t.dirty then t.dirty else t.dirty ++ [sym] } := by
  by_cases hs : sym ∈ t.dirty <;> simp [Terminal.mark, ht, hs]

/-- R143, steps 1 and 2: an UPDATE of an ACTIVE entry has been missed. -/
theorem missedTerminal_active (ht : t.takesMarks = true) (sym : Symbol) : missedTerminal (.active sym) t = { t with
    missRun := min (t.missRun + 1) 8
    dirty := if sym ∈ t.dirty then t.dirty else t.dirty ++ [sym] } :=
  Terminal.mark_eq (t := { t with missRun := min (t.missRun + 1) 8 }) ht sym

/-- R143, steps 1 and 2: a dropped notice has been missed. -/
theorem missedTerminal_dropped (ht : t.takesMarks = true) (sym : Symbol) (place : Nat) :
    missedTerminal (.dropped sym place) t = { t with
      missRun := min (t.missRun + 1) 8
      watch := t.watch.take place ++ ⟨sym, .dropped⟩ :: t.watch.drop place
      dirty := if sym ∈ t.dirty then t.dirty else t.dirty ++ [sym] } :=
  Terminal.mark_eq (t := Terminal.reinsert { t with missRun := min (t.missRun + 1) 8 } sym place) ht sym

/-- R143: a miss raises the miss run and leaves the presence. -/
theorem missedTerminal_fields (o : Outstanding) (t : Terminal) :
    (missedTerminal o t).presence = t.presence ∧ (missedTerminal o t).missRun = min (t.missRun + 1) 8 := by
  cases o with
  | nothing => exact ⟨rfl, rfl⟩
  | answer a => exact ⟨rfl, rfl⟩
  | active sym => exact ⟨Terminal.mark_presence .., Terminal.mark_missRun ..⟩
  | dropped sym place => exact ⟨Terminal.mark_presence .., Terminal.mark_missRun ..⟩

/-- R143, step 3: when the miss makes the terminal ABSENT. -/
theorem goesAbsent_iff {threshold : Nat} {o : Outstanding} : goesAbsent threshold (missedTerminal o t) = true
    ↔ t.presence ≠ .absent ∧ threshold ≤ min (t.missRun + 1) 8 := by
  obtain ⟨hp, hm⟩ := missedTerminal_fields o t
  rw [goesAbsent, Bool.and_eq_true, bne_iff_ne, decide_eq_true_iff, hp, hm]

end

section

variable {line : LineIx} {v : Visit} {cause : MissCause} {s : State}

/-- R146: a miss of a visit whose terminal was disabled. -/
theorem applyMiss_detached (hd : v.detached = true) : applyMiss line v cause s = setLine line (countMiss cause) s := by
  simp only [applyMiss, hd, if_true]

variable (hd : v.detached = false)

include hd

/-- R143: a miss that leaves the presence. -/
theorem applyMiss_stays
    (h : s.terminals[terminalAt line v.drop].presence = .absent
      ∨ min (s.terminals[terminalAt line v.drop].missRun + 1) 8 < s.params.absentThreshold) :
    applyMiss line v cause s = setTerminal (terminalAt line v.drop)
      (fun _ => missedTerminal v.outstanding s.terminals[terminalAt line v.drop])
      (setLine line (countMiss cause) s) := by
  have hstays := mt (goesAbsent_iff (o := v.outstanding)).mp fun ⟨hp, hm⟩ => h.elim hp (Nat.not_lt.mpr hm)
  simp only [applyMiss, hd, Bool.false_eq_true, if_false, if_neg hstays]

/-- R143, step 3: a miss that makes its terminal ABSENT. -/
theorem applyMiss_absent (hp : s.terminals[terminalAt line v.drop].presence ≠ .absent)
    (hm : s.params.absentThreshold ≤ min (s.terminals[terminalAt line v.drop].missRun + 1) 8) :
    applyMiss line v cause s = latch (.terminalChange line) (setTerminal (terminalAt line v.drop)
      (fun _ => makeAbsent (missedTerminal v.outstanding s.terminals[terminalAt line v.drop]))
      (setLine line (countMiss cause) s)) := by
  simp only [applyMiss, hd, Bool.false_eq_true, if_false, if_pos (goesAbsent_iff.mpr ⟨hp, hm⟩)]

end

/-- Settles O49: a detached visit, a miss that leaves the presence, and one that makes the terminal ABSENT. -/
theorem missEffects : Obligations.MissEffects := by
  rintro line v cause s l t m hl rfl rfl
  have hcount : l = countMiss cause s.lines[line] := by
    rw [hl]
    cases cause <;> rfl
  subst hcount
  refine ⟨applyMiss_detached, fun hd hheld back hback => ?_⟩
  have hmissed : missedTerminal v.outstanding s.terminals[terminalAt line v.drop] = back := by
    rw [hback]
    clear hback
    generalize v.outstanding = o at hheld ⊢
    cases o with
    | nothing => rfl
    | answer a => rfl
    | active sym => exact missedTerminal_active hheld.1 sym
    | dropped sym place => exact missedTerminal_dropped hheld.1 sym place
  refine ⟨fun hstays => ?_, fun hp hm => ?_⟩
  · rw [applyMiss_stays hd hstays, hmissed]
    rfl
  · rw [applyMiss_absent hd hp hm, hmissed]
    rfl

end Sys2Proof.Machine

/-! ### A listening visit (R136, R137, R141) -/

namespace Sys2Proof.Machine

section

variable {line : LineIx} {s : State} {v : Visit} (hv : s.lines[line].visit = some v)

include hv

/-! #### By the phase of the visit -/

theorem takeReplyChar_sending (hphase : v.phase = .sending) (char : Byte) : takeReplyChar line char s = s := by
  simp only [takeReplyChar, hv, hphase]

theorem takeReplyChar_settling {since : Time} (hphase : v.phase = .settling since) (char : Byte) :
    takeReplyChar line char s = setVisitPhase line v (.settling s.time) s := by
  simp only [takeReplyChar, hv, hphase]

section

variable {opened : Time} {length : Nat} (hphase : v.phase = .window opened length)

include hphase

theorem expireWindow_eq : expireWindow line s
    = if length ≤ elapsed s.time opened then missAndSettle line v .silent s else s := by
  simp only [expireWindow, hv, hphase]

theorem takeLineFailure_window {cause : LineFailure} (hfits : failureFits [] cause = true) :
    takeLineFailure line cause s = missAndSettle line v .framing s := by
  simp only [takeLineFailure, hv, hphase, hfits, if_true]

theorem takeReplyChar_window (char : Byte) :
    takeReplyChar line char s = setVisitPhase line v (.receiving [char] s.time) s := by
  simp only [takeReplyChar, hv, hphase]

end

section

variable {chars : List Byte} {last : Time} (hphase : v.phase = .receiving chars last)

include hphase

theorem expireReplyGap_eq : expireReplyGap line s
    = if Config.gapLimit < elapsed s.time last then missAndEnd line v .silent s else s := by
  simp only [expireReplyGap, hv, hphase]

theorem takeLineFailure_receiving {cause : LineFailure} (hfits : failureFits chars cause = true) :
    takeLineFailure line cause s = missAndSettle line v .framing s := by
  simp only [takeLineFailure, hv, hphase, hfits, if_true]

theorem takeReplyChar_receiving {char : Byte} (hmore : checkNext chars = false)
    (hgood : badTermLength chars char = false) :
    takeReplyChar line char s = setVisitPhase line v (.receiving (chars ++ [char]) s.time) s := by
  simp only [takeReplyChar, hv, hphase, hmore, hgood, Bool.or_self, Bool.false_eq_true, if_false]

end

end

/-! #### What a character makes of the frame so far -/

section

variable {chars : List Byte}

/-- R137: the next character is the check character. -/
theorem checkNext_iff : checkNext chars = true ↔ 3 ≤ chars.length ∧ chars.length = 3 + (byteAt chars 2).toNat := by
  by_cases h : chars.length < 3
  · simp [checkNext, bodyEnd, h]
  · have hle : 3 ≤ chars.length := Nat.le_of_not_lt h
    rw [checkNext, bodyEnd, if_neg h, beq_iff_eq, Option.some.injEq, and_iff_right hle, eq_comm]

/-- R137: the next character would be a length above 60. -/
theorem badTermLength_iff {char : Byte} : badTermLength chars char = true ↔ chars.length = 2 ∧ 60 < char.toNat := by
  rw [badTermLength, Bool.and_eq_true, decide_eq_true_iff, decide_eq_true_iff]
  rfl

/-- R137: a character that neither completes the frame nor is a bad length. -/
theorem collects_of {char : Byte} (h : chars.length < 2 ∨ chars.length = 2 ∧ char.toNat ≤ 60 ∨
    3 ≤ chars.length ∧ chars.length < 3 + (byteAt chars 2).toNat) :
    checkNext chars = false ∧ badTermLength chars char = false := by
  rw [Bool.eq_false_iff, Bool.eq_false_iff, Ne, Ne, checkNext_iff, badTermLength_iff]
  omega

end

/-- R141: a miss after which the visit settles, in the words of the statements. -/
theorem missAndSettle_eq (line : LineIx) (v : Visit) (cause : MissCause) (s : State) :
    missAndSettle line v cause s = missedAndSettling line v cause s := rfl

/-- Settles O50: phase by phase, event by event. -/
theorem listeningPhases : Obligations.ListeningPhases := by
  rintro line s v inPhase hpor hv hin
  have entered : ∀ {f : State → State} {phase}, f s = setVisitPhase line v phase s →
      powered f s = .next (inPhase phase) := fun hf => powered_next hpor (hf.trans (hin _).symm)
  refine ⟨fun opened length hphase => ⟨fun hlt => ?_, fun hle => ?_, fun cause hcause => ?_, fun char => ?_⟩,
    fun chars last hphase => ⟨fun hle => ?_, fun hlt => ?_, fun cause hcause => ?_, fun char hchar => ?_⟩,
    fun since hphase char => entered (takeReplyChar_settling hv hphase char),
    fun hphase char => powered_next hpor (takeReplyChar_sending hv hphase char)⟩
  · exact powered_next hpor ((expireWindow_eq hv hphase).trans (if_neg (Nat.not_le.mpr hlt)))
  · exact powered_next hpor ((expireWindow_eq hv hphase).trans (if_pos hle))
  · refine powered_next hpor (takeLineFailure_window hv hphase ?_)
    rcases hcause with rfl | rfl <;> rfl
  · exact entered (takeReplyChar_window hv hphase char)
  · exact powered_next hpor ((expireReplyGap_eq hv hphase).trans (if_neg (Nat.not_lt.mpr hle)))
  · exact powered_next hpor ((expireReplyGap_eq hv hphase).trans (if_pos hlt))
  · refine powered_next hpor (takeLineFailure_receiving hv hphase ?_)
    rcases hcause with rfl | rfl | ⟨n, rfl, hlen⟩
    · rfl
    · rfl
    · exact badTermLength_iff.mpr hlen
  · obtain ⟨hmore, hgood⟩ := collects_of hchar
    exact entered (takeReplyChar_receiving hv hphase hmore hgood)

end Sys2Proof.Machine

/-! ### The check character of a reply (R137, R141, R142, R146) -/

namespace Sys2Proof.Machine

section

variable {line : LineIx} {s : State} {v : Visit} {chars : List Byte} {last : Time} {check : Byte}
  (hv : s.lines[line].visit = some v) (hphase : v.phase = .receiving chars last) (hcheck : checkNext chars = true)

include hv hphase hcheck

/-- R141: a check failure. -/
theorem completeReply_failed (h : (chars ++ [check]).foldl (· + ·) 0 ≠ 0) :
    completeReply line check s = missAndSettle line v .check s := by
  have hsum : ¬ sumsToZero (chars ++ [check]) = true := fun hz => h (eq_of_beq hz)
  simp only [completeReply, hv, hphase, hcheck, if_true, if_neg hsum]

/-- R141: an intact reply. -/
theorem completeReply_intact (h : (chars ++ [check]).foldl (· + ·) 0 = 0) :
    completeReply line check s = endVisit line (applyReply line v chars s) := by
  have hsum : sumsToZero (chars ++ [check]) = true := beq_iff_eq.mpr h
  simp only [completeReply, hv, hphase, hcheck, if_true, if_pos hsum]

end

/-- R142, step 2, at an enabled terminal: the miss run, the presence and the marks. -/
theorem confirmPresent_eq {t : Terminal} (hen : t.enabled = true) (hw : t.watched.Nodup) : confirmPresent t = { t with
    missRun := 0
    presence := .present
    dirty := if t.presence = .present then t.dirty
      else t.dirty ++ t.watched.filter (fun sym => sym ∉ t.dirty) } := by
  have htakes : Terminal.takesMarks { t with missRun := 0, presence := .present } = true := by
    simp [Terminal.takesMarks, hen]
  unfold confirmPresent
  dsimp only
  split
  · rfl
  · exact Terminal.markAll_eq htakes _ hw

/-- R142, step 2: TERMINAL CHANGE latches where the terminal was not PRESENT. -/
theorem notePresence_eq (line : LineIx) (t : Terminal) (s : State) : notePresence line t s = { s with
    feed := { s.feed with latched := if t.presence = .present then s.feed.latched
      else s.feed.latched ||| BitVec.twoPow 30 (24 + line.val) } } := by
  unfold notePresence
  split <;> rfl

/-- R146: an intact reply of a terminal disabled during the visit. -/
theorem applyReply_detached {line : LineIx} {v : Visit} {chars : List Byte} {s : State} (hd : v.detached = true) :
    applyReply line v chars s = s := if_pos hd

/-- Settles O52: a check failure, and an intact reply of a detached and of an attached visit. -/
theorem replyCompletes : Obligations.ReplyCompletes := by
  rintro line s v chars last check t hpor hv hphase hlen hend rfl
  have hcheck := checkNext_iff.mpr ⟨hlen, hend⟩
  refine ⟨fun hsum => powered_next hpor (completeReply_failed hv hphase hcheck hsum), fun hsum => ⟨fun hd => ?_, ?_⟩⟩
  · refine powered_next hpor ((completeReply_intact hv hphase hcheck hsum).trans ?_)
    rw [applyReply_detached hd]
  · rintro hd hen hw t1 t2 ht1 ht2
    have hreplied : repliedTerminal s (byteAt chars 0) (byteAt chars 1) (chars.drop 3)
        s.terminals[terminalAt line v.drop] = t2 := by
      cases hreq : requestOf (byteAt chars 0) (chars.drop 3) with
      | none => simp only [repliedTerminal, hreq, confirmPresent_eq hen hw, ht2, ht1]
      | some request => simp only [repliedTerminal, hreq, confirmPresent_eq hen hw, ht2, ht1]
    refine powered_next hpor ((completeReply_intact hv hphase hcheck hsum).trans (congrArg (endVisit line) ?_))
    rw [applyReply, hd, if_neg Bool.false_ne_true, notePresence_eq, ← hreplied]
    rfl

end Sys2Proof.Machine

/-! ### TERMINAL ENABLE (R139, R145, R146) -/

namespace Sys2Proof.Machine

/-! #### One drop's flag -/

/-- R145, R146: the terminal with its enabled flag set, the outstanding item of its visit being given. -/
def flagTerminal (o : Outstanding) (flag : Bool) (t : Terminal) : Terminal :=
  if t.enabled = flag then t else if flag then enableTerminal t else settleItem o (disableTerminal t)

section

variable {t : Terminal} {o : Outstanding}

theorem flagTerminal_same {flag : Bool} (h : t.enabled = flag) : flagTerminal o flag t = t := if_pos h

theorem flagTerminal_on (h : t.enabled = false) : flagTerminal o true t = enableTerminal t := by
  simp [flagTerminal, h]

theorem flagTerminal_off (h : t.enabled = true) : flagTerminal o false t = settleItem o (disableTerminal t) := by
  simp [flagTerminal, h]

theorem flagTerminal_enabled (o : Outstanding) (flag : Bool) (t : Terminal) : (flagTerminal o flag t).enabled = flag := by
  by_cases h : t.enabled = flag
  · rw [flagTerminal_same h, h]
  · cases flag with
    | true => rw [flagTerminal_on (by simpa using h), enableTerminal]
    | false =>
      rw [flagTerminal_off (by simpa using h)]
      cases o <;> rfl

end

/-- R146: a visit after the flags of the drops `ds` have been set from the mask. -/
def flaggedVisit (s : State) (line : LineIx) (mask : Byte) (ds : List DropIx) (v : Visit) : Visit :=
  if v.drop ∈ ds ∧ s.terminals[terminalAt line v.drop].enabled = true ∧ mask.getLsbD v.drop.val = false
  then detachVisit v else v

/-- R145, R146: `z` is `s` with the flags of the drops `ds` set from the mask. -/
structure FlagsSet (line : LineIx) (mask : Byte) (ds : List DropIx) (s z : State) : Prop where
  flagged : ∀ d ∈ ds, z.terminals[terminalAt line d]
    = flagTerminal (outstandingOf s line d) (mask.getLsbD d.val) s.terminals[terminalAt line d]
  kept : ∀ d, d ∉ ds → z.terminals[terminalAt line d] = s.terminals[terminalAt line d]
  line : z.lines[line] = { s.lines[line] with visit := s.lines[line].visit.map (flaggedVisit s line mask ds) }

section

variable {line : LineIx} {mask : Byte} {s z u : State} {d : DropIx} {ds : List DropIx}

theorem flaggedVisit_drop (v : Visit) : (flaggedVisit s line mask ds v).drop = v.drop := by
  unfold flaggedVisit
  split <;> rfl

theorem flaggedVisit_kept {v : Visit} (h : v.drop ∉ ds) : flaggedVisit s line mask ds v = v := if_neg fun hc => h hc.1

/-- R146: the flag of the one drop `d` detaches a visit of it that loses its terminal. -/
theorem flaggedVisit_one (v : Visit) : flaggedVisit s line mask [d] v
    = if v.drop = d ∧ s.terminals[terminalAt line d].enabled = true ∧ mask.getLsbD d.val = false
      then detachVisit v else v := by
  by_cases hv : v.drop = d
  · subst hv
    simp only [flaggedVisit, List.mem_singleton]
  · rw [flaggedVisit_kept (mt List.mem_singleton.mp hv), if_neg fun hc => hv hc.1]

/-- The outstanding item of a drop whose flag has not been set yet. -/
theorem FlagsSet.outstanding_kept (h : FlagsSet line mask ds s z) (hd : d ∉ ds) :
    outstandingOf z line d = outstandingOf s line d := by
  unfold outstandingOf
  rw [h.line]
  cases s.lines[line].visit with
  | none => rfl
  | some v =>
    dsimp only [Option.map_some]
    rw [flaggedVisit_drop]
    split
    · next hv => rw [flaggedVisit_kept (hv ▸ hd)]
    · rfl

theorem FlagsSet.none (line : LineIx) (mask : Byte) (s : State) : FlagsSet line mask [] s s where
  flagged := nofun
  kept _ _ := rfl
  line := by
    have hid : flaggedVisit s line mask [] = id := funext fun v => flaggedVisit_kept List.not_mem_nil
    rw [hid, Option.map_id_fun, id]

/-- A drop whose flag stands as the mask has it. -/
theorem FlagsSet.same (h : s.terminals[terminalAt line d].enabled = mask.getLsbD d.val) :
    FlagsSet line mask [d] s s where
  flagged e he := by
    rw [List.mem_singleton.mp he, flagTerminal_same h]
  kept _ _ := rfl
  line := by
    have hid : flaggedVisit s line mask [d] = id := funext fun v =>
      (flaggedVisit_one v).trans (if_neg fun ⟨_, hen, hoff⟩ => Bool.false_ne_true (hoff.symm.trans (h.symm.trans hen)))
    rw [hid, Option.map_id_fun, id]

theorem setTerminal_get_same (x : TermIx) (f : Terminal → Terminal) (s : State) :
    (setTerminal x f s).terminals[x] = f s.terminals[x] := (setTerminal_get ..).trans (if_pos rfl)

theorem setTerminal_get_other {e : DropIx} (h : e ∉ [d]) (f : Terminal → Terminal) (s : State) :
    (setTerminal (terminalAt line d) f s).terminals[terminalAt line e] = s.terminals[terminalAt line e] :=
  (setTerminal_get ..).trans (if_neg fun he => h (List.mem_singleton.mpr (terminalAt_eq_iff.mp he).symm))

/-- R145: a drop newly enabled. -/
theorem FlagsSet.on (h : s.terminals[terminalAt line d].enabled = false) (hm : mask.getLsbD d.val = true) :
    FlagsSet line mask [d] s (setTerminal (terminalAt line d) enableTerminal s) where
  flagged e he := by
    rw [List.mem_singleton.mp he, setTerminal_get_same, hm, flagTerminal_on h]
  kept e he := setTerminal_get_other he _ s
  line := by
    have hid : flaggedVisit s line mask [d] = id := funext fun v =>
      (flaggedVisit_one v).trans (if_neg fun ⟨_, _, hoff⟩ => Bool.false_ne_true (hoff.symm.trans hm))
    rw [hid, Option.map_id_fun, id]
    rfl

/-- R145, R146: a drop newly disabled. -/
theorem FlagsSet.off (h : s.terminals[terminalAt line d].enabled = true) (hm : mask.getLsbD d.val = false) :
    FlagsSet line mask [d] s
      (setLine line (fun l => { l with visit := l.visit.map (fun v => if v.drop = d then detachVisit v else v) })
        (setTerminal (terminalAt line d) (fun r => settleItem (outstandingOf s line d) (disableTerminal r)) s)) where
  flagged e he := by
    rw [List.mem_singleton.mp he, hm, flagTerminal_off h]
    exact setTerminal_get_same ..
  kept e he := setTerminal_get_other he _ s
  line := by
    have hvisit : flaggedVisit s line mask [d] = fun v => if v.drop = d then detachVisit v else v := funext fun v => by
      simp only [flaggedVisit_one, h, hm, and_self, and_true]
    rw [hvisit]
    exact setLine_get_same ..

/-- R145, R146: the flag of one drop. -/
theorem FlagsSet.one (line : LineIx) (mask : Byte) (d : DropIx) (s : State) :
    FlagsSet line mask [d] s (setEnabled line d (mask.getLsbD d.val) s) := by
  unfold setEnabled
  dsimp only
  split
  · next hen =>
    split
    · next hm => exact .same (hen.trans hm.symm)
    · next hm => exact .off hen (Bool.eq_false_iff.mpr hm)
  · next hen =>
    have hen := Bool.eq_false_iff.mpr hen
    split
    · next hm => exact .on hen hm
    · next hm => exact .same (hen.trans (Bool.eq_false_iff.mpr hm).symm)

/-- One drop's flag set before those of the others. -/
theorem FlagsSet.cons (hone : FlagsSet line mask [d] s z) (hrest : FlagsSet line mask ds z u) (hd : d ∉ ds) :
    FlagsSet line mask (d :: ds) s u where
  flagged e he := by
    rcases List.mem_cons.mp he with rfl | he
    · rw [hrest.kept e hd, hone.flagged e (List.mem_singleton_self e)]
    · have hne : e ∉ [d] := fun hm => hd (List.mem_singleton.mp hm ▸ he)
      rw [hrest.flagged e he, hone.kept e hne, hone.outstanding_kept hne]
  kept e he := by
    have hne : e ∉ [d] := fun hm => he (List.mem_singleton.mp hm ▸ List.mem_cons_self)
    rw [hrest.kept e (List.not_mem_of_not_mem_cons he), hone.kept e hne]
  line := by
    have hcomp : ∀ v, flaggedVisit z line mask ds (flaggedVisit s line mask [d] v)
        = flaggedVisit s line mask (d :: ds) v := fun v => by
      by_cases hv : v.drop = d
      · subst hv
        rw [flaggedVisit_kept (by rw [flaggedVisit_drop]; exact hd)]
        simp [flaggedVisit]
      · have hne : v.drop ∉ [d] := by simpa using hv
        rw [flaggedVisit_kept hne, flaggedVisit, flaggedVisit, hone.kept _ hne]
        simp [hv]
    rw [hrest.line, hone.line]
    dsimp only
    rw [Option.map_map, Function.comp_def]
    simp only [hcomp]

/-- R145: the flags of distinct drops set one after another. -/
theorem FlagsSet.foldl (h : ds.Nodup) (s : State) :
    FlagsSet line mask ds s (ds.foldl (fun s d => setEnabled line d (mask.getLsbD d.val) s) s) := by
  induction ds generalizing s with
  | nil => exact FlagsSet.none line mask s
  | cons d rest ih =>
    obtain ⟨hd, hrest⟩ := List.nodup_cons.mp h
    exact (FlagsSet.one line mask d s).cons (ih hrest _) hd

/-! #### The flags of a line -/

/-- R145: the flags of all drops of the line set, its round as it was. -/
def withFlags (line : LineIx) (mask : Byte) (s : State) : State :=
  (List.finRange 8).foldl (fun s d => setEnabled line d (mask.getLsbD d.val) s) s

theorem enableDrops_withFlags (line : LineIx) (mask : Byte) (s : State) :
    enableDrops line mask s = settleRounds line (withFlags line mask s) := rfl

theorem withFlags_params (line : LineIx) (mask : Byte) (s : State) : (withFlags line mask s).params = s.params :=
  foldl_same State.params (fun s d => setEnabled_params s line d _) _ s

theorem withFlags_time (line : LineIx) (mask : Byte) (s : State) : (withFlags line mask s).time = s.time :=
  foldl_same State.time (fun s d => setEnabled_time s line d _) _ s

theorem withFlags_set (line : LineIx) (mask : Byte) (s : State) :
    FlagsSet line mask (List.finRange 8) s (withFlags line mask s) := FlagsSet.foldl (List.nodup_finRange 8) s

theorem withFlags_onlyLine (line : LineIx) (mask : Byte) (s : State) : OnlyLine line s (withFlags line mask s) :=
  foldl_keeps (P := OnlyLine line s) (fun z d h => h.trans (OnlyLine.setEnabled line d _ z)) _ s (OnlyLine.refl line s)

theorem enableDrops_onlyLine (line : LineIx) (mask : Byte) (s : State) : OnlyLine line s (enableDrops line mask s) := by
  rw [enableDrops_withFlags, settleRounds]
  split
  · exact (withFlags_onlyLine line mask s).trans (OnlyLine.advanceRound line _)
  · exact withFlags_onlyLine line mask s

theorem enableDrops_terminal (line : LineIx) (mask : Byte) (d : DropIx) (s : State) :
    (enableDrops line mask s).terminals[terminalAt line d]
      = flagTerminal (outstandingOf s line d) (mask.getLsbD d.val) s.terminals[terminalAt line d] := by
  rw [enableDrops_withFlags, settleRounds_terminals]
  exact (withFlags_set line mask s).flagged d (List.mem_finRange d)

theorem withFlags_enabled (line : LineIx) (mask : Byte) (d : DropIx) (s : State) :
    (withFlags line mask s).terminals[terminalAt line d].enabled = mask.getLsbD d.val := by
  rw [(withFlags_set line mask s).flagged d (List.mem_finRange d), flagTerminal_enabled]

/-- The lines are changed at the one line. -/
theorem OnlyLine.lines_eq (h : OnlyLine line s z) : z.lines = s.lines.set line z.lines[line] :=
  Vec.ext_get _ _ fun x => by
    rw [Vec.set_get]
    split
    · next hx => rw [hx]
    · next hx => exact h.lines x (Ne.symm hx)

/-- R145: TERMINAL ENABLE changes the terminals and the line. -/
theorem enableDrops_frame (line : LineIx) (mask : Byte) (s : State) : enableDrops line mask s = { s with
    terminals := (enableDrops line mask s).terminals
    lines := s.lines.set line (enableDrops line mask s).lines[line] } := by
  rw [← (enableDrops_onlyLine line mask s).lines_eq]
  apply State.same <;> simp

end

/-! #### The round after the flags are set -/

/-- R139: the stage of a round that begins rests on the terminals, the probe spacing and the time. -/
theorem RoundBegins.of_same {s u : State} {line : LineIx} {counter : BitVec 16} {round : Round}
    (h : RoundBegins s line counter round) (ht : u.terminals = s.terminals) (hp : u.params = s.params)
    (htime : u.time = s.time) : RoundBegins u line counter round := by
  unfold RoundBegins
  rw [ht, hp, htime]
  exact h

section

variable {line : LineIx} {mask : Byte} {s : State}

/-- R146: a visit in progress goes on, detached where its terminal was disabled. -/
theorem enableDrops_visiting {v : Visit} (hv : s.lines[line].visit = some v) :
    (enableDrops line mask s).lines[line] = { s.lines[line] with
      visit := some (if s.terminals[terminalAt line v.drop].enabled = true ∧ mask.getLsbD v.drop.val = false
        then detachVisit v else v) } := by
  have hall : flaggedVisit s line mask (List.finRange 8) v
      = if s.terminals[terminalAt line v.drop].enabled = true ∧ mask.getLsbD v.drop.val = false
        then detachVisit v else v := by
    simp only [flaggedVisit, List.mem_finRange, true_and]
  have hline := (withFlags_set line mask s).line
  rw [hv, Option.map_some, hall] at hline
  rw [enableDrops_withFlags, settleRounds, hline]
  exact hline

/-- A mask with some flag set. -/
theorem mask_ne_zero : mask ≠ 0 ↔ ∃ d : DropIx, mask.getLsbD d.val = true := by
  refine ⟨fun hne => by_contra fun hnone => hne ?_, ?_⟩
  · refine BitVec.eq_of_getLsbD_eq fun i hi => ?_
    rw [Bool.eq_false_iff.mpr fun hset => hnone ⟨⟨i, hi⟩, hset⟩]
    exact BitVec.getLsbD_zero.symm
  · rintro ⟨d, hset⟩ rfl
    rw [BitVec.ofNat_eq_ofNat, BitVec.getLsbD_zero] at hset
    cases hset

theorem withFlags_anyEnabled : anyEnabled (withFlags line mask s) line = true ↔ mask ≠ 0 := by
  simp only [anyEnabled_iff, withFlags_enabled, mask_ne_zero]

section

variable (hv : s.lines[line].visit = none)

include hv

/-- With no visit in progress the flags leave the line as it is. -/
theorem withFlags_line : (withFlags line mask s).lines[line] = s.lines[line] := by
  rw [(withFlags_set line mask s).line, hv, Option.map_none, ← hv]

/-- R139, R145: with no visit in progress the round goes on from the flags set. -/
theorem enableDrops_resting : enableDrops line mask s = advanceRound line (withFlags line mask s) := by
  rw [enableDrops_withFlags, settleRounds, withFlags_line hv, hv]

theorem enableDrops_idle (hm : mask = 0) : (enableDrops line mask s).lines[line] = { s.lines[line] with round := .idle } := by
  have hnone : anyEnabled (withFlags line mask s) line = false :=
    Bool.eq_false_iff.mpr fun hany => withFlags_anyEnabled.mp hany hm
  rw [enableDrops_resting hv, advanceRound_idle hnone, setLine_get_same, withFlags_line hv]

theorem enableDrops_waiting {since : Time} (hm : mask ≠ 0)
    (hr : s.lines[line].round = .quiet since ∨ s.lines[line].round = .empty since) :
    (enableDrops line mask s).lines[line] = s.lines[line] := by
  rw [enableDrops_resting hv, advanceRound_waiting (withFlags_anyEnabled.mpr hm) (by rw [withFlags_line hv]; exact hr),
    withFlags_line hv]

/-- R139: with a due drop left the round stays where it is. -/
theorem enableDrops_goes_on {next : Nat} (hr : s.lines[line].round = .atDrop next)
    (hdue : ∃ d : DropIx, next ≤ d.val
      ∧ IsDue (enableDrops line mask s).terminals[terminalAt line d] s.lines[line].counter s.lines[line].spacing) :
    (enableDrops line mask s).lines[line] = s.lines[line] := by
  have hline := withFlags_line (mask := mask) hv
  rw [enableDrops_withFlags, settleRounds_terminals] at hdue
  obtain ⟨d, _, hd⟩ := id hdue
  rw [enableDrops_resting hv, advanceRound_goes_on (anyEnabled_of_due ⟨d, hd⟩) (by rw [hline]; exact hr)
    (by rw [hline]; exact hdue), hline]

section

variable (hm : mask ≠ 0)

include hm

/-- R139, R145: an IDLE line begins a round, at its first drop: a drop newly enabled is due. -/
theorem enableDrops_begins (hr : s.lines[line].round = .idle) (hidle : anyEnabled s line = false) :
    (enableDrops line mask s).lines[line]
      = { s.lines[line] with round := .atDrop 0, spacing := s.params.probeSpacing } := by
  have hline := withFlags_line (mask := mask) hv
  obtain ⟨d, hd⟩ := mask_ne_zero.mp hm
  have hdue : IsDue (withFlags line mask s).terminals[terminalAt line d] s.lines[line].counter
      (withFlags line mask s).params.probeSpacing := by
    rw [(withFlags_set line mask s).flagged d (List.mem_finRange d), hd, flagTerminal_on (anyEnabled_false.mp hidle d)]
    exact ⟨rfl, .inl nofun⟩
  obtain ⟨round, hbegins, heq⟩ := beginRound_eq line s.lines[line].counter (withFlags line mask s)
  rw [enableDrops_resting hv, advanceRound_leaves_idle (withFlags_anyEnabled.mpr hm) (by rw [hline]; exact hr), hline,
    heq, hbegins.1 ⟨d, hdue⟩, setLine_get_same, hline, withFlags_params]

variable {next : Nat} (hr : s.lines[line].round = .atDrop next)
  (hnone : ∀ d : DropIx, next ≤ d.val
    → ¬ IsDue (enableDrops line mask s).terminals[terminalAt line d] s.lines[line].counter s.lines[line].spacing)

include hr hnone

/-- Log 21: a round that stands at its first drop and is left with no due drop is an empty one. -/
theorem enableDrops_empties (hnext : next = 0) :
    (enableDrops line mask s).lines[line] = { s.lines[line] with round := .empty s.time } := by
  subst hnext
  have hline := withFlags_line (mask := mask) hv
  rw [enableDrops_withFlags, settleRounds_terminals] at hnone
  rw [enableDrops_resting hv, advanceRound_empties (withFlags_anyEnabled.mpr hm) (by rw [hline]; exact hr)
    (by rw [hline]; exact fun d => hnone d (Nat.zero_le _)), setLine_get_same, hline, withFlags_time]

/-- Log 21: a round that has passed its first drop and is left with no due drop ends, and the next begins. -/
theorem enableDrops_ends (hnext : next ≠ 0) :
    ∃ round, RoundBegins (enableDrops line mask s) line (s.lines[line].counter + 1) round
      ∧ (enableDrops line mask s).lines[line] = { s.lines[line] with
        counter := s.lines[line].counter + 1, spacing := s.params.probeSpacing, round := round } := by
  have hline := withFlags_line (mask := mask) hv
  rw [enableDrops_withFlags, settleRounds_terminals] at hnone
  obtain ⟨round, hbegins, heq⟩ := beginRound_eq line (s.lines[line].counter + 1) (withFlags line mask s)
  have hbegins' : RoundBegins (enableDrops line mask s) line (s.lines[line].counter + 1) round := hbegins.of_same
    (settleRounds_terminals ..) ((enableDrops_params ..).trans (withFlags_params ..).symm)
    ((enableDrops_time ..).trans (withFlags_time ..).symm)
  refine ⟨round, hbegins', ?_⟩
  rw [enableDrops_resting hv, advanceRound_ends (withFlags_anyEnabled.mpr hm) (by rw [hline]; exact hr) hnext
    (by rw [hline]; exact hnone), hline, heq, setLine_get_same, hline, withFlags_params]

end

end

end

/-! #### The command -/

/-- R145: the mask that the reply carries is the mask that has been set. -/
theorem enabledMask_eq {line : LineIx} {mask : Byte} {s : State}
    (h : ∀ d : DropIx, s.terminals[terminalAt line d].enabled = mask.getLsbD d.val) : enabledMask s line = mask := by
  have hbit : ∀ d : DropIx, (if s.terminals[terminalAt line d].enabled then 2 ^ d.val else 0)
      = mask.toNat / 2 ^ d.val % 2 * 2 ^ d.val := fun d => by
    rw [h, BitVec.getLsbD, Nat.testBit_eq_decide_div_mod_eq]
    rcases Nat.mod_two_eq_zero_or_one (mask.toNat / 2 ^ d.val) with hz | hz <;> simp [hz]
  have hsum : (List.finRange 8).foldl (fun n d => n + mask.toNat / 2 ^ d.val % 2 * 2 ^ d.val) 0 = mask.toNat := by
    have hlt := mask.isLt
    simp [List.finRange_succ]
    omega
  rw [enabledMask]
  simp only [hbit, hsum]
  exact BitVec.ofNat_toNat ..

theorem applyTerminalEnable_range {b : List Byte} (h : 3 < field b 0 1) (s : State) :
    applyTerminalEnable b s = refuse .range s := by
  simp only [applyTerminalEnable, placeOf_none (size := 4) h]

theorem applyTerminalEnable_taken {b : List Byte} {line : LineIx} (h : field b 0 1 = line.val) (s : State) :
    applyTerminalEnable b s
      = (enableDrops line (byteAt b 1) s, ⟨.ok, [byte line.val, byteAt b 1]⟩) := by
  have hmask : enabledMask (enableDrops line (byteAt b 1) s) line = byteAt b 1 := enabledMask_eq fun d => by
    rw [enableDrops_terminal, flagTerminal_enabled]
  simp only [applyTerminalEnable, placeOf_val h, hmask]

/-- Settles O47: the refusal; then the terminals drop by drop, the visit in progress, and the round by its stage. -/
theorem terminalEnableTaken : Obligations.TerminalEnableTaken := by
  intro f s h hlen
  have hfit : Kind.terminalEnable.lengthFits f.body.length = true := by simp [Kind.lengthFits, hlen]
  refine ⟨fun hr => command_refused (k := .terminalEnable) h hfit (applyTerminalEnable_range hr _), ?_⟩
  rintro line l mask hline rfl rfl hlaw
  refine ⟨enableDrops line (byteAt f.body 1) (removeHead s),
    command_accepted (k := .terminalEnable) h hfit (applyTerminalEnable_taken hline (removeHead s)),
    enableDrops_frame line _ (removeHead s), (enableDrops_onlyLine line _ (removeHead s)).terminals, ?_, ?_, ?_⟩
  · rintro d t rfl
    rw [enableDrops_terminal]
    refine ⟨fun hsame => flagTerminal_same hsame, fun hoff hset => ?_, fun hon hset => ?_⟩
    · rw [hset]
      exact flagTerminal_on hoff
    · rw [hset]
      refine (flagTerminal_off hon).trans ?_
      have hout : outstandingOf (removeHead s) line d = outstandingOf s line d := rfl
      rw [hout]
      cases outstandingOf s line d <;> rfl
  · rintro v v' hv rfl
    exact enableDrops_visiting (s := removeHead s) hv
  · intro hv
    have hidle := (hlaw.line line).idle hv
    exact ⟨enableDrops_idle (s := removeHead s) hv,
      fun hm hr => enableDrops_begins (s := removeHead s) hv hm hr (hidle.mp hr),
      fun hm since hr => enableDrops_waiting (s := removeHead s) hv hm hr,
      fun next hr hdue => enableDrops_goes_on (s := removeHead s) hv hr hdue,
      fun hm next hr hnone => ⟨enableDrops_empties (s := removeHead s) hv hm hr hnone,
        enableDrops_ends (s := removeHead s) hv hm hr hnone⟩⟩

end Sys2Proof.Machine

/-! ### The bytes sent (R136, R137, R175, R176, R179 to R181) -/

namespace Sys2Proof.Machine

/-! #### Numbers and flags (R175) -/

theorem field_beBytes (w n : Nat) : field (beBytes w n) 0 w = n % 256 ^ w := by
  rw [field, List.drop_zero, List.take_of_length_le (beBytes_length w n).le, ofBeBytes_beBytes_mod]

/-- R175: the four bytes of 30 flags. -/
theorem flagsBytes_eq (flags : Flags30) : flagsBytes flags = beBytes 4 flags.toNat := by
  have hlt := flags.isLt
  have hbyte : ∀ k, (flags.setWidth 32).extractLsb' k 8 = BitVec.ofNat 8 (flags.toNat / 2 ^ k) := fun k => by
    apply BitVec.eq_of_toNat_eq
    rw [BitVec.extractLsb'_toNat, BitVec.toNat_setWidth, Nat.shiftRight_eq_div_pow, BitVec.toNat_ofNat,
      Nat.mod_eq_of_lt (hlt.trans (by decide : 2 ^ 30 < 2 ^ 32))]
  calc flagsBytes flags = [24, 16, 8, 0].map (fun k => BitVec.ofNat 8 (flags.toNat / 2 ^ k)) := by
        simp only [flagsBytes, hbyte, List.map]
    _ = beBytes 4 flags.toNat := rfl

/-! #### Codes (R181) -/

/-- R181: the statuses stand in the order of their codes. -/
theorem Status.code_of_place {code : Byte} {status : Status}
    (h : [Status.ok, .rounded, .unknown, .existing, .busy, .full, .range, .state, .session, .crossed, .conflict,
      .badPage, .shown, .malformed][code.toNat]? = some status) : status.code = code := by
  have hlt := (List.getElem?_eq_some_iff.mp h).1
  have hcode : code = BitVec.ofNat 8 code.toNat := ((BitVec.ofNat_toNat 8 code).trans code.setWidth_eq).symm
  generalize code.toNat = n at h hlt hcode
  subst hcode
  simp only [List.length_cons, List.length_nil] at hlt
  interval_cases n <;> cases h <;> rfl

/-! #### Cells of a position (R35, R36, R80) -/

theorem window_length (kind : FieldKind) (w : Nat) (r : Record) : (window kind w r).length = w := by
  cases hf : fieldForm kind w r with
  | absent => rw [window_absent hf, blanks, List.length_replicate]
  | noFit => rw [window_noFit hf, overflow, List.length_replicate]
  | text form =>
    rw [window_text hf]
    split
    · rw [overflow, List.length_replicate]
    · split <;> rw [List.length_append, blanks, List.length_replicate] <;> omega

/-- R80: an entry of at most ten cells leaves ten cells on its position. -/
theorem contentOf_cells_length {s : State} {p : PosIx}
    (h : ∀ e, shownEntry s s.boards.positions[p] = some e → e.width ≤ 10) : (contentOf s p).cells.length = 10 := by
  cases he : shownEntry s s.boards.positions[p] with
  | none => rw [contentOf_blank (by rw [he]; nofun)]; rfl
  | some e =>
    cases hi : e.binding with
    | none => rw [contentOf_blank (by rw [he]; rintro _ ⟨⟩; exact hi)]; rfl
    | some i =>
      cases hr : s.records[i] with
      | none => simp only [contentOf, he, hi, hr]; rfl
      | some r =>
        have hw := h e he
        rw [contentOf_bound he hi hr, boundContent, List.length_append, window_length, blanks, List.length_replicate]
        omega

/-! #### Checks (R137, R160) -/

/-- The check character makes the sum 0. -/
theorem checkFor_sum (chars : List Byte) : (chars ++ [checkFor chars]).foldl (· + ·) 0 = 0 := by
  rw [List.foldl_append, checkFor]
  generalize chars.foldl (· + ·) 0 = sum
  simp

/-- R180: the drive byte, by its two codes. -/
theorem driveByte_eq (c : Content) : driveByte c = BitVec.ofNat 8 (c.mode.code + 16 * c.lamp.code) := by
  rw [driveByte, byte, Nat.add_comm, Nat.mul_comm]

/-- Settles O60: numbers, codes, the bytes on the panel bus, replies, terminal frames and visits. -/
theorem bytesSent : Obligations.BytesSent := by
  refine ⟨fun w n => ⟨beBytes_length w n, field_beBytes w n⟩, fun flags => ?_, ?_, ?_, fun s p => contentOf_cells_length,
    ?_, fun f => ⟨_, rfl, checkFor_sum _⟩, fun v => rfl⟩
  · rw [flagsBytes_eq, field_beBytes, Nat.mod_eq_of_lt (by have := flags.isLt; omega)]
    exact ⟨beBytes_length .., rfl⟩
  · exact ⟨rfl, fun _ => rfl, rfl, rfl, rfl, rfl, fun _ => rfl, rfl, rfl⟩
  · rintro w drive hdrive
    have hbyte : driveByte w.content = BitVec.ofNat 8 drive := by
      rw [driveByte_eq, hdrive]
      cases w.content.mode <;> cases w.content.lamp <;> rfl
    have himage : imageBytes w.position w.content
        = [BitVec.ofNat 8 (w.position.val % 64), BitVec.ofNat 8 drive] ++ w.content.cells := by
      rw [imageBytes, hbyte]
      rfl
    exact ⟨by rw [writeBytes, himage]; rfl, rfl, himage⟩
  · rintro r code hcode
    have hstatus := Status.code_of_place hcode
    exact ⟨_, by rw [← hstatus]; rfl, checkFor_sum _⟩

end Sys2Proof.Machine

/-! ### Watch lists and requests (R149 to R157) -/

namespace Sys2Proof.Machine

/-! #### Delisted slots (R157) -/

/-- R157: the symbols of the ACTIVE entries bound to a slot that is hit. -/
theorem mem_hitSymbols {hit : SlotIx → Bool} {l : List WatchEntry} {sym : Symbol} :
    sym ∈ (l.filter (WatchEntry.hitBy hit)).map (·.symbol) ↔ ∃ i, ⟨sym, .active i⟩ ∈ l ∧ hit i = true := by
  rw [List.mem_map]
  constructor
  · rintro ⟨⟨y, st⟩, hw, rfl⟩
    obtain ⟨hm, hb⟩ := List.mem_filter.mp hw
    cases st with
    | active i => exact ⟨i, hm, hb⟩
    | dropped => cases hb
  · rintro ⟨i, hm, hi⟩
    exact ⟨_, List.mem_filter.mpr ⟨hm, hi⟩, rfl⟩

/-- R157, R150: a terminal that takes marks turns the entries of the slots that are hit and marks them. -/
theorem Terminal.dropEntries_turns {t : Terminal} (ht : t.takesMarks = true) (hit : SlotIx → Bool) :
    ∃ added, t.dropEntries hit = { t with
        watch := t.watch.map (fun w => if w.hitBy hit then { w with state := .dropped } else w)
        dirty := t.dirty ++ added } ∧
      added.Sublist t.watched ∧
      ∀ sym, sym ∈ added ↔ sym ∉ t.dirty ∧ ∃ i, ⟨sym, .active i⟩ ∈ t.watch ∧ hit i = true := by
  rw [Terminal.dropEntries_eq, if_pos ht]
  obtain ⟨added, heq, hsub, hmem⟩ := Terminal.markAll_added
    (t := { t with watch := t.watch.map (fun w => if w.hitBy hit then { w with state := .dropped } else w) }) ht
    ((t.watch.filter (WatchEntry.hitBy hit)).map (·.symbol))
  refine ⟨added, heq, hsub.trans (List.filter_sublist.map _), fun sym => ?_⟩
  rw [hmem, mem_hitSymbols, and_comm]

/-- R157: a terminal that takes no marks loses the entries of the slots that are hit. -/
theorem Terminal.dropEntries_removes {t : Terminal} (ht : t.takesMarks = false) (hit : SlotIx → Bool) :
    t.dropEntries hit = { t with watch := t.watch.filter (fun w => !w.hitBy hit) } := by
  rw [Terminal.dropEntries_eq, if_neg (Bool.eq_false_iff.mp ht)]

/-- Settles O16: the entry-wise change where the terminal takes marks, the removal where it takes none. -/
theorem delistedWatchEntriesDrop : Obligations.DelistedWatchEntriesDrop := by
  refine fun hit t => ⟨fun hen hpres => ?_, fun haway => ?_⟩
  · obtain ⟨added, heq, hsub, hmem⟩ := Terminal.dropEntries_turns (Terminal.takesMarks_iff.mpr ⟨hen, hpres⟩) hit
    refine ⟨added, heq.trans ?_, hsub, hmem⟩
    congr 1
    refine List.map_congr_left fun w _ => ?_
    obtain ⟨sym, state⟩ := w
    cases state <;> rfl
  · rw [Terminal.dropEntries_removes (Terminal.takesMarks_false_iff.mpr haway)]
    congr 1
    refine List.filter_congr fun w _ => ?_
    obtain ⟨sym, state⟩ := w
    cases state <;> rfl

/-! #### The entry of a symbol (R138, R149) -/

section

variable {t : Terminal} {sym : Symbol}

/-- R138: the symbols of a watch list are distinct, so an entry is the entry of its symbol. -/
theorem Terminal.entryOf_of_mem (hd : t.watched.Nodup) {state : WatchState} (hw : ⟨sym, state⟩ ∈ t.watch) :
    t.entryOf sym = some ⟨sym, state⟩ := by
  cases he : t.entryOf sym with
  | none => exact absurd (List.mem_map_of_mem hw) (Terminal.entryOf_none he)
  | some w =>
    obtain ⟨hmem, hsym⟩ := Terminal.entryOf_mem he
    exact congrArg some (List.inj_on_of_nodup_map hd hmem hw hsym)

theorem Terminal.entryOf_eq_none (h : sym ∉ t.watched) : t.entryOf sym = none := by
  cases he : t.entryOf sym with
  | none => rfl
  | some w =>
    obtain ⟨hmem, rfl⟩ := Terminal.entryOf_mem he
    exact absurd (List.mem_map_of_mem hmem) h

/-! #### WATCH (R153) -/

/-- R153, step 1. -/
theorem watchSymbol_already {i : SlotIx} (he : t.entryOf sym = some ⟨sym, .active i⟩) (found : Option SlotIx) :
    watchSymbol sym found t = (.already, t) := by
  simp only [watchSymbol, he]

/-- R153, steps 2 and 3: a symbol without an ACTIVE entry and without a record. -/
theorem watchSymbol_unknown (he : ∀ i, t.entryOf sym ≠ some ⟨sym, .active i⟩) :
    watchSymbol sym none t = (.unknown, t) := by
  unfold watchSymbol
  split
  · next y i h =>
    obtain rfl : y = sym := (Terminal.entryOf_mem h).2
    exact absurd h (he i)
  · rfl
  · rfl

/-- R153, step 2: the DROPPED entry becomes ACTIVE at its place and is marked. -/
theorem watchSymbol_reactivates (ht : t.takesMarks = true) (he : t.entryOf sym = some ⟨sym, .dropped⟩) (i : SlotIx) :
    watchSymbol sym (some i) t = (.watched, { t with
      watch := t.watch.map (fun w => if w.symbol = sym then ⟨w.symbol, .active i⟩ else w)
      dirty := if sym ∈ t.dirty then t.dirty else t.dirty ++ [sym] }) := by
  have hmark : t.reactivate sym i = _ := Terminal.mark_eq (t := { t with
    watch := t.watch.map (fun w => if w.symbol == sym then { w with state := .active i } else w) }) ht sym
  simp only [watchSymbol, he, hmark, beq_iff_eq]

/-- R153, step 4: no thirteenth entry. -/
theorem watchSymbol_full (he : t.entryOf sym = none) (hl : 12 ≤ t.watch.length) (i : SlotIx) :
    watchSymbol sym (some i) t = (.full, t) := by
  simp only [watchSymbol, he, if_pos (show Config.watchPlaces ≤ t.watch.length from hl)]

/-- R153, step 5: a new entry is appended and marked. -/
theorem watchSymbol_appends (h : TerminalLaw t) (ht : t.takesMarks = true) (hn : sym ∉ t.watched)
    (hl : t.watch.length < 12) (i : SlotIx) :
    watchSymbol sym (some i) t = (.watched, { t with
      watch := t.watch ++ [⟨sym, .active i⟩]
      dirty := t.dirty ++ [sym] }) := by
  have hmark : t.addEntry sym i = _ :=
    Terminal.mark_eq (t := { t with watch := t.watch ++ [⟨sym, .active i⟩] }) ht sym
  have hdirty : sym ∉ t.dirty := fun hm => hn (h.dirtyWatched sym hm)
  simp only [watchSymbol, Terminal.entryOf_eq_none hn, hmark, if_neg hdirty,
    if_neg (show ¬ Config.watchPlaces ≤ t.watch.length from Nat.not_le.mpr hl)]

/-! #### UNWATCH (R154) and REFRESH (R155) -/

variable {places : List Byte}

/-- R154: the entry is removed from the watch list and from the dirty queue. -/
theorem applyUnwatch_removes (hs : symbolOf places = some sym) (hm : sym ∈ t.watched) :
    applyUnwatch places t = (.removed, { t with
      watch := t.watch.filter (fun w => w.symbol ≠ sym)
      dirty := t.dirty.filter (fun x => x ≠ sym) }) := by
  have hdirty : t.dirty.filter (· != sym) = t.dirty.filter (fun x => x ≠ sym) :=
    List.filter_congr fun x _ => Bool.eq_iff_iff.mpr (by rw [bne_iff_ne, decide_eq_true_iff])
  cases he : t.entryOf sym with
  | none => exact absurd hm (Terminal.entryOf_none he)
  | some w => simp only [applyUnwatch, hs, he, Terminal.without_eq, hdirty]

theorem applyUnwatch_illFormed (hs : symbolOf places = none) (t : Terminal) :
    applyUnwatch places t = (.notWatched, t) := by
  simp only [applyUnwatch, hs]

theorem applyUnwatch_notWatched (hs : symbolOf places = some sym) (hn : sym ∉ t.watched) :
    applyUnwatch places t = (.notWatched, t) := by
  simp only [applyUnwatch, hs, Terminal.entryOf_eq_none hn]

theorem applyRefresh_eq (ht : t.takesMarks = true) (hd : t.watched.Nodup) :
    applyRefresh t = (.done, { t with dirty := t.dirty ++ t.watched.filter (fun sym => sym ∉ t.dirty) }) :=
  congrArg _ (Terminal.markAll_eq ht t.watched hd)

/-! #### The answer placed (R151, R152, R179) -/

variable {s : State} {tag : Byte} {answer : Byte → List Byte → Option TermFrame}
  (hanswer : ∀ code image, answer code image = some ⟨0x03, tag, flagsByte s.feed.stale false :: code :: image⟩)

include hanswer

/-- R151: an ANSWER of a code alone. -/
theorem answered_eq (code : AnswerCode) (t : Terminal) :
    answered s tag (code, t) = { t with answer := answer code.code [] } := by
  rw [hanswer]
  rfl

theorem applyRequest_lookup_unknown (hl : (symbolOf places).bind (fun sym => liveLookup sym s) = none) :
    applyRequest s tag (.lookup places) t = { t with answer := answer 1 [] } := by
  rw [hanswer]
  simp only [applyRequest, answerLookup, hl]
  rfl

/-- R152: the image of the record found. -/
theorem applyRequest_lookup_record {i : SlotIx} {r : Record}
    (hl : (symbolOf places).bind (fun sym => liveLookup sym s) = some (i, r)) :
    applyRequest s tag (.lookup places) t = { t with answer := answer 0 (recordImage i r) } := by
  rw [hanswer]
  simp only [applyRequest, answerLookup, hl]
  rfl

/-- R151, R153: WATCH of a symbol, by what its rules make of the live lookup. -/
theorem applyRequest_watch (hs : symbolOf places = some sym) {found : Option (SlotIx × Record)}
    (hl : liveLookup sym s = found) {code : AnswerCode} {u : Terminal}
    (hw : watchSymbol sym (found.map (·.1)) t = (code, u)) :
    applyRequest s tag (.watch places) t = { u with answer := answer code.code [] } := by
  rw [← answered_eq hanswer, ← hw, ← hl]
  simp only [applyRequest, applyWatch, hs]

theorem applyRequest_watch_illFormed (hs : symbolOf places = none) :
    applyRequest s tag (.watch places) t = { t with answer := answer 1 [] } := by
  refine Eq.trans ?_ (answered_eq hanswer .unknown t)
  simp only [applyRequest, applyWatch, hs]

/-- R151, R154: UNWATCH, by what its rules make of the terminal. -/
theorem applyRequest_unwatch {code : AnswerCode} {u : Terminal} (hu : applyUnwatch places t = (code, u)) :
    applyRequest s tag (.unwatch places) t = { u with answer := answer code.code [] } :=
  (congrArg (answered s tag) hu).trans (answered_eq hanswer code u)

end

/-- R142, step 3, R179: the requests by kind and length. -/
theorem requestOf_eq (kind : Byte) (body : List Byte) : requestOf kind body =
    if kind = 0x11 ∧ body.length = 4 then some (.lookup body)
    else if kind = 0x12 ∧ body.length = 4 then some (.watch body)
    else if kind = 0x13 ∧ body.length = 4 then some (.unwatch body)
    else if kind = 0x14 ∧ body.length = 0 then some .refresh
    else none := by
  simp only [requestOf, Bool.and_eq_true, beq_iff_eq]

/-- Settles O53: the requests by kind, then each request by the state of its symbol's entry and of the live lookup. -/
theorem requestsApplied : Obligations.RequestsApplied := by
  refine ⟨requestOf_eq, fun s tag t answer hen hpres hlaw hanswer => ?_⟩
  have ht : t.takesMarks = true := Terminal.takesMarks_iff.mpr ⟨hen, by rw [hpres]; decide⟩
  refine ⟨fun places hs => ?_, fun places sym hs => ?_, ?_⟩
  · exact ⟨applyRequest_lookup_unknown hanswer (by rw [hs]; rfl), applyRequest_watch_illFormed hanswer hs,
      applyRequest_unwatch hanswer (applyUnwatch_illFormed hs t)⟩
  · have hfound : (symbolOf places).bind (fun sym => liveLookup sym s) = liveLookup sym s := by rw [hs]; rfl
    refine ⟨fun hl => applyRequest_lookup_unknown hanswer (hfound.trans hl),
      fun i r hl => applyRequest_lookup_record hanswer (hfound.trans hl), fun i hw => ?already, fun hw => ?dropped,
      fun hn => ?unwatched, fun hm => applyRequest_unwatch hanswer (applyUnwatch_removes hs hm),
      fun hn => applyRequest_unwatch hanswer (applyUnwatch_notWatched hs hn)⟩
    case already =>
      exact applyRequest_watch hanswer hs rfl (watchSymbol_already (Terminal.entryOf_of_mem hlaw.distinct hw) _)
    case dropped =>
      have he := Terminal.entryOf_of_mem hlaw.distinct hw
      exact ⟨fun hl => applyRequest_watch hanswer hs hl (watchSymbol_unknown fun i => by rw [he]; nofun),
        fun i r hl => applyRequest_watch hanswer hs hl (watchSymbol_reactivates ht he i)⟩
    case unwatched =>
      have he := Terminal.entryOf_eq_none hn
      exact ⟨fun hl => applyRequest_watch hanswer hs hl (watchSymbol_unknown fun i => by rw [he]; nofun),
        fun i r hl => ⟨fun hfull => applyRequest_watch hanswer hs hl (watchSymbol_full he hfull i),
          fun hfree => applyRequest_watch hanswer hs hl (watchSymbol_appends hlaw ht hn hfree i)⟩⟩
  · exact (congrArg (answered s tag) (applyRefresh_eq ht hlaw.distinct)).trans (answered_eq hanswer .done _)

end Sys2Proof.Machine

/-! ### Frames of the feed link (R160 to R162, R172) -/

namespace Sys2Proof.Machine

/-! #### What a character makes of the frame so far -/

section

variable {chars : List Byte}

/-- R160: the next character is the check character; it comes where R137 has it on a terminal line. -/
theorem feedCheckNext_iff :
    feedCheckNext chars = true ↔ 3 ≤ chars.length ∧ chars.length = 3 + (byteAt chars 2).toNat := checkNext_iff

/-- R161: the next character would be a length above 240. -/
theorem badFeedLength_iff {char : Byte} : badFeedLength chars char = true ↔ chars.length = 2 ∧ 240 < char.toNat := by
  rw [badFeedLength, Bool.and_eq_true, decide_eq_true_iff, decide_eq_true_iff]
  rfl

/-- R160: a character that neither completes the frame nor is a bad length. -/
theorem feedCollects_of {char : Byte} (h : chars.length < 2 ∨ chars.length = 2 ∧ char.toNat ≤ 240 ∨
    3 ≤ chars.length ∧ chars.length < 3 + (byteAt chars 2).toNat) :
    feedCheckNext chars = false ∧ badFeedLength chars char = false := by
  rw [Bool.eq_false_iff, Bool.eq_false_iff, Ne, Ne, feedCheckNext_iff, badFeedLength_iff]
  omega

end

/-! #### By the receiver -/

section

variable {s : State} (hr : s.feed.receiver = .hunting)

include hr

theorem takeFeedChar_hunting (char : Byte) :
    takeFeedChar char s = if char = leadByte then setReceiver (.inFrame [] s.time) s else s := by
  simp only [takeFeedChar, hr]

theorem takeFeedFailure_hunting (cause : FeedFailure) : takeFeedFailure cause s = s := by
  simp only [takeFeedFailure, hr]

theorem expireFrameGap_hunting : expireFrameGap s = s := by
  simp only [expireFrameGap, hr]

end

section

variable {s : State} {chars : List Byte} {last : Time} (hr : s.feed.receiver = .inFrame chars last)

include hr

theorem takeFeedChar_collects {char : Byte} (hmore : feedCheckNext chars = false)
    (hgood : badFeedLength chars char = false) :
    takeFeedChar char s = setReceiver (.inFrame (chars ++ [char]) s.time) s := by
  simp only [takeFeedChar, hr, hmore, hgood, Bool.or_self, Bool.false_eq_true, if_false]

theorem takeFeedFailure_inFrame {cause : FeedFailure} (hfits : feedFailureFits chars cause = true) :
    takeFeedFailure cause s = countFraming s := by
  simp only [takeFeedFailure, hr, hfits, if_true]

theorem expireFrameGap_inFrame :
    expireFrameGap s = if Config.gapLimit < elapsed s.time last then countFraming s else s := by
  simp only [expireFrameGap, hr]

/-- R161: the check character of a frame that is not intact. -/
theorem completeFrame_failed {check : Byte} (hnext : feedCheckNext chars = true)
    (hsum : (chars ++ [check]).foldl (· + ·) 0 ≠ 0) : completeFrame check s = countCheck (setReceiver .hunting s) := by
  have hfail : ¬ sumsToZero (chars ++ [check]) = true := fun hz => hsum (eq_of_beq hz)
  simp only [completeFrame, hr, hnext, if_true, if_neg hfail]

/-- R162: the check character of an intact frame. -/
theorem completeFrame_intact {check : Byte} (hnext : feedCheckNext chars = true)
    (hsum : (chars ++ [check]).foldl (· + ·) 0 = 0) :
    completeFrame check s = queueFrame (frameOf chars) (noteIntact (setReceiver .hunting s)) := by
  have hzero : sumsToZero (chars ++ [check]) = true := beq_iff_eq.mpr hsum
  simp only [completeFrame, hr, hnext, if_true, if_pos hzero]

end

/-! #### An intact frame (R162) -/

section

variable {s : State}

theorem noteIntact_fresh (h : s.feed.stale = false) :
    noteIntact s = { s with feed := { s.feed with lastIntact := s.time } } := by
  simp only [noteIntact, h, Bool.false_eq_true, if_false]

/-- R172: an intact frame clears STALE, with the effects of the transition. -/
theorem noteIntact_turned (h : s.feed.stale = true) :
    StaleTurned false quotesResumed { s with feed := { s.feed with lastIntact := s.time } } (noteIntact s) := by
  simp only [noteIntact, h, if_true]
  exact setStale_turned false _

/-- R172: neither the quiet measure nor the clearing of STALE touches the queue or its overrun counter. -/
theorem noteIntact_queue (s : State) : (noteIntact s).feed.inbound = s.feed.inbound ∧
    (noteIntact s).feed.overrunCount = s.feed.overrunCount := by
  unfold noteIntact
  dsimp only
  split <;> exact ⟨rfl, rfl⟩

theorem queueFrame_free (f : Frame) (h : s.feed.inbound.length < 8) :
    queueFrame f s = { s with feed := { s.feed with inbound := s.feed.inbound ++ [f] } } := if_pos h

theorem queueFrame_full (f : Frame) (h : 8 ≤ s.feed.inbound.length) :
    queueFrame f s = { s with feed := { s.feed with overrunCount := min (s.feed.overrunCount + 1) 65535 } } :=
  if_neg (Nat.not_lt.mpr h)

end

/-- Settles O54: the receiver's two states event by event, then the check character by the sum of the frame. -/
theorem feedFramesReceived : Obligations.FeedFramesReceived := by
  refine ⟨?receives, fun s chars last check hpor hr hlen hend => ?completes⟩
  case receives =>
    rintro s failed hpor rfl
    refine ⟨fun hr => ⟨?_, fun char hne => ?_, fun cause => powered_same (takeFeedFailure_hunting hr cause),
      powered_same (expireFrameGap_hunting hr)⟩, fun chars last hr => ⟨fun char hchar => ?_, ?_, fun n hlen hbig => ?_,
      fun hle => ?_, fun hlt => ?_⟩⟩
    · exact powered_next hpor ((takeFeedChar_hunting hr _).trans (if_pos rfl))
    · exact powered_same ((takeFeedChar_hunting hr char).trans (if_neg hne))
    · obtain ⟨hmore, hgood⟩ := feedCollects_of hchar
      exact powered_next hpor (takeFeedChar_collects hr hmore hgood)
    · exact powered_next hpor (takeFeedFailure_inFrame hr rfl)
    · exact powered_next hpor (takeFeedFailure_inFrame hr (badFeedLength_iff.mpr ⟨hlen, hbig⟩))
    · exact powered_same ((expireFrameGap_inFrame hr).trans (if_neg (Nat.not_lt.mpr hle)))
    · exact powered_next hpor ((expireFrameGap_inFrame hr).trans (if_pos hlt))
  case completes =>
    have hnext := feedCheckNext_iff.mpr ⟨hlen, hend⟩
    refine ⟨fun hsum => powered_next hpor (completeFrame_failed hr hnext hsum), fun hsum => ?_⟩
    obtain ⟨hin, hover⟩ := noteIntact_queue (setReceiver .hunting s)
    have hintact := completeFrame_intact hr hnext hsum
    refine ⟨noteIntact (setReceiver .hunting s), noteIntact_fresh (s := setReceiver .hunting s),
      noteIntact_turned (s := setReceiver .hunting s), fun hfree => ?_, fun hfull => ?_⟩
    · refine powered_next hpor (hintact.trans ((queueFrame_free _ (hin ▸ hfree)).trans ?_))
      rw [hin]
      rfl
    · refine powered_next hpor (hintact.trans ((queueFrame_full _ (hin ▸ hfull)).trans ?_))
      rw [hover]
      rfl

end Sys2Proof.Machine

/-! ### The power-on reset (R174) -/

namespace Sys2Proof.Machine

/-- Every command but those of the POR input acts through the guard of that input. -/
theorem exec_powered {c : Instr} (hassert : c ≠ .porAssert) (hrelease : c ≠ .porRelease) :
    ∃ f : State → State, ∀ s, exec c s = powered f s := by
  cases c
  case porAssert => exact absurd rfl hassert
  case porRelease => exact absurd rfl hrelease
  all_goals exact ⟨_, fun _ => rfl⟩

theorem exec_por {c : Instr} {s : State} (hpor : s.por = true) (hassert : c ≠ .porAssert) (hrelease : c ≠ .porRelease) :
    exec c s = .next s := by
  obtain ⟨f, hf⟩ := exec_powered hassert hrelease
  exact (hf s).trans (powered_por hpor)

/-- R174: the outputs while POR is asserted. -/
theorem outputs_por {s : State} (hpor : s.por = true) :
    s.ready = false ∧ s.attention = false ∧ sendingReply s = none := by
  simp [State.ready, State.attention, sendingReply, hpor]

/-- Settles O4: the POR input by its two commands and its guard, then the reset values block by block. -/
theorem powerOnReset : Obligations.PowerOnReset := by
  refine ⟨fun _ => rfl, fun _ _ => exec_por, fun _ => outputs_por, fun _ hpor => congrArg _ (if_pos hpor), ?time, ?feed,
    ⟨rfl, rfl, State.reset_free, State.reset_entries, State.reset_page⟩, State.reset_panel, State.reset_position,
    ⟨rfl, rfl, rfl⟩, fun rail => ?rails, ⟨rfl, rfl, rfl, rfl, rfl, rfl⟩, fun t => ?tapes, fun line => ?lines,
    State.reset_terminal, rfl⟩
  case time => exact ⟨rfl, rfl, by decide, by decide, rfl⟩
  case feed => exact ⟨rfl, rfl, rfl, rfl, rfl, rfl, rfl, rfl, rfl⟩
  case rails =>
    rw [State.reset_rail]
    exact ⟨rfl, rfl, rfl⟩
  case tapes => cases t <;> exact ⟨rfl, rfl, rfl⟩
  case lines =>
    rw [State.reset_line]
    exact ⟨rfl, rfl, rfl, rfl, rfl, rfl⟩

end Sys2Proof.Machine

/-! ### The queue of waiting commands (chapter 95) -/

namespace Sys2Proof.Machine

/-- Settles O1: the queue's rest is what `step` leaves waiting. -/
theorem stepRunsFront : Obligations.StepRunsFront := by
  intro c rest s hfront
  rw [step, hfront]
  rfl

/-- Whatever the owner of a message does, it leaves the queue of commands. -/
theorem Kind.owner_pending (k : Kind) (b : List Byte) (s : State) : (k.owner b s).1.pending = s.pending := by
  cases k
  case list => rw [Kind.owner, applyList_frame]
  case delist => rw [Kind.owner, applyDelist_frame]
  case trade => rw [Kind.owner, applyTrade_frame]
  case quote => rw [Kind.owner, applyQuote_frame]
  case halt => rw [Kind.owner, applyHalt_frame]
  case resume => rw [Kind.owner, applyResume_frame]
  case sessionOpen => rw [Kind.owner, applySessionOpen_frame]
  case sessionClose => rw [Kind.owner, applySessionClose_frame]
  case dayRoll => rw [Kind.owner, applyDayRoll_frame]
  case tableClear => rw [Kind.owner, applyTableClear_frame]
  case queryRecord => rw [Kind.owner, applyQueryRecord_frame]
  case loadEntry => rw [Kind.owner, applyLoadEntry_frame]
  case unloadEntry => rw [Kind.owner, applyUnloadEntry_frame]
  case definePage => rw [Kind.owner, applyDefinePage_frame]
  case undefinePage => rw [Kind.owner, applyUndefinePage_frame]
  case showPage => rw [Kind.owner, applyShowPage_frame]
  case restorePanel => rw [Kind.owner, applyRestorePanel_frame]
  case clearFaults => rw [Kind.owner, applyClearFaults_frame]
  case tapeStart => rw [Kind.owner, applyTapeStart_frame]
  case tapeStop => rw [Kind.owner, applyTapeStop_frame]
  case tapeClear => rw [Kind.owner, applyTapeClear_frame]
  case notice => rw [Kind.owner, applyNotice_frame]
  case terminalEnable => rw [Kind.owner, applyTerminalEnable_frame]
  case setParameter => rw [Kind.owner, applySetParameter_frame]
  case readParameter => rw [Kind.owner, applyReadParameter_frame]
  case readStatus => rw [Kind.owner, applyReadStatus_frame]
  case clearConditions => rw [Kind.owner, applyClearConditions_frame]
  case restart => rw [Kind.owner, applyRestart_frame]

/-- R164: so does the taking of a message, with the removal of its frame and the placing of its reply. -/
theorem takeMessage_owner_pending (k : Kind) (s : State) : (takeMessage k k.owner s).pending = s.pending :=
  takeMessage_keeps (P := fun t => t.pending = s.pending) (Q := fun t => t.pending = s.pending)
    (fun t h _ => (removeHead_pending t).trans h) (fun g r a t h => (placeReply_pending t g r a).trans h)
    (fun b t h => (k.owner_pending b t).trans h) rfl

/-- A command that acts through the guard of the POR input has no fault and is not refused, whether POR is asserted or
not (R174). -/
theorem powered_answersNext {f : State → State} {s : State} (h : (f s).pending = s.pending) :
    ∃ t, powered f s = .next t ∧ t.pending = s.pending := by
  cases hpor : s.por
  case false => exact ⟨f s, powered_eq hpor, h⟩
  case true => exact ⟨s, powered_por hpor, rfl⟩

/-- An effect with a frame, its result `t` spelled by the fields that it changes. -/
theorem framed_answersNext {f : State → State} {s t : State} (frame : f s = t) (same : t.pending = s.pending) :
    ∃ t, powered f s = .next t ∧ t.pending = s.pending :=
  powered_answersNext ((congrArg State.pending frame).trans same)

theorem message_answersNext {c : Instr} (h : c ∈ allKinds.map Kind.command) (s : State) :
    ∃ t, exec c s = .next t ∧ t.pending = s.pending := by
  obtain ⟨k, -, rfl⟩ := List.mem_map.mp h
  rw [exec_command]
  exact powered_answersNext (takeMessage_owner_pending k s)

/-- Settles O3: the POR input by its two commands, every other event by the frame of its effect, and the messages by
their taking. -/
theorem everyCommandAnswersNext : Obligations.EveryCommandAnswersNext := by
  intro c s
  cases c
  case porAssert => exact ⟨powerOn true s, rfl, rfl⟩
  case porRelease =>
    cases hpor : s.por
    case false => exact ⟨s, congrArg _ (if_neg (Bool.eq_false_iff.mp hpor)), rfl⟩
    case true => exact ⟨powerOn false s, congrArg _ (if_pos hpor), rfl⟩
  case restartInput => exact powered_answersNext (restartAll_pending s)
  case unknownKindTaken => exact framed_answersNext (takeUnknown_frame s) rfl
  case frameComplete c => exact framed_answersNext (completeFrame_frame s c) rfl
  case framingFailure x => exact framed_answersNext (takeFeedFailure_frame s x) rfl
  case frameGapExpiry => exact framed_answersNext (expireFrameGap_frame s) rfl
  case replySent => exact framed_answersNext (sendReply_frame s) rfl
  case quietLimitExpiry => exact framed_answersNext (expireQuietLimit_frame s) rfl
  case positionWriteStart => exact framed_answersNext (startWrite_frame s) rfl
  case positionWriteComplete => exact framed_answersNext (completeWrite_frame s) rfl
  case periodStart x => exact framed_answersNext (startPeriod_frame s x) rfl
  case railSample i w f => exact framed_answersNext (sampleRail_frame s i w f) rfl
  case railStateChange i => exact framed_answersNext (changeRail_frame s i) rfl
  case verifyGapExpiry => exact framed_answersNext (endGap_frame s) rfl
  case readStart => exact framed_answersNext (startRead_frame s) rfl
  case echoArrival e => exact framed_answersNext (takeEcho_frame s e) rfl
  case echoLimitExpiry => exact framed_answersNext (endEchoLimit_frame s) rfl
  case stepEvent x => exact framed_answersNext (stepRibbon_frame s x) rfl
  case visit l => exact framed_answersNext (visitLine_frame s l) rfl
  case emptyRoundExpiry l => exact framed_answersNext (endEmptyRound_frame s l) rfl
  case replyWindowExpiry l => exact framed_answersNext (expireWindow_frame s l) rfl
  case replyComplete l c => exact framed_answersNext (completeReply_frame s l c) rfl
  case terminalFramingError l x => exact framed_answersNext (takeLineFailure_frame s l x) rfl
  case replyGapExpiry l => exact framed_answersNext (expireReplyGap_frame s l) rfl
  case settlingExpiry l => exact framed_answersNext (expireSettling_frame s l) rfl
  case feedCharacterArrival c => exact framed_answersNext (takeFeedChar_frame s c) rfl
  case replyCharacterArrival l c => exact framed_answersNext (takeReplyChar_frame s l c) rfl
  case replyWindowOpen l => exact framed_answersNext (openWindow_frame s l) rfl
  all_goals exact message_answersNext (by decide) s

end Sys2Proof.Machine
